-- ==== Sys2Proof/Word.lean ====
section
/-! DEFINITION. The words of the BMT2460's ports and the two fixed-size containers (eight drops, four classes). -/

namespace Sys2Proof

/-- One byte on either port. -/
abbrev Byte := BitVec 8
/-- The tag a gateway message carries and its answer echoes (R175). -/
abbrev Tag := BitVec 16
/-- An Ethernet address (R173). -/
abbrev MacAddr := BitVec 48
/-- A segment's payload: 240 bytes (01, section 1.2). -/
abbrev Segment := List Byte
/-- A drop, counted from 0: trunk address 1 to 8 is index 0 to 7 (00, section 1.2). -/
abbrev DropId := Fin 8
/-- A drop class 0 to 3 (R77). -/
abbrev ClassId := Fin 4

/-- One value for each of the eight drops. -/
structure Per8 (α : Type) where
  d1 : α
  d2 : α
  d3 : α
  d4 : α
  d5 : α
  d6 : α
  d7 : α
  d8 : α
  deriving DecidableEq, Repr

/-- The same value for every drop. -/
def Per8.all {α : Type} (x : α) : Per8 α := ⟨x, x, x, x, x, x, x, x⟩

/-- The value of one drop. -/
def Per8.get {α : Type} (p : Per8 α) (i : DropId) : α :=
  match i with
  | 0 => p.d1
  | 1 => p.d2
  | 2 => p.d3
  | 3 => p.d4
  | 4 => p.d5
  | 5 => p.d6
  | 6 => p.d7
  | 7 => p.d8

/-- The container with one drop's value replaced. -/
def Per8.set {α : Type} (p : Per8 α) (i : DropId) (x : α) : Per8 α :=
  match i with
  | 0 => { p with d1 := x }
  | 1 => { p with d2 := x }
  | 2 => { p with d3 := x }
  | 3 => { p with d4 := x }
  | 4 => { p with d5 := x }
  | 5 => { p with d6 := x }
  | 6 => { p with d7 := x }
  | 7 => { p with d8 := x }

/-- Every value mapped. -/
def Per8.map {α β : Type} (f : α → β) (p : Per8 α) : Per8 β :=
  ⟨f p.d1, f p.d2, f p.d3, f p.d4, f p.d5, f p.d6, f p.d7, f p.d8⟩

/-- The eight values, drop 1 first. -/
def Per8.toList {α : Type} (p : Per8 α) : List α :=
  [p.d1, p.d2, p.d3, p.d4, p.d5, p.d6, p.d7, p.d8]

/-- The drops in ascending address. -/
def allDrops : List DropId := [0, 1, 2, 3, 4, 5, 6, 7]

/-- The trunk address of a drop, 1 to 8. -/
def addrOf (d : DropId) : Nat := d.val + 1

/-- The drop at a trunk address, for 1 to 8. -/
def dropAt (n : Nat) : Option DropId :=
  if h : 1 ≤ n ∧ n ≤ 8 then some ⟨n - 1, by omega⟩ else none

/-- One value for each of the four classes. -/
structure Per4 (α : Type) where
  c0 : α
  c1 : α
  c2 : α
  c3 : α
  deriving DecidableEq, Repr

/-- The value of one class. -/
def Per4.get {α : Type} (p : Per4 α) (i : ClassId) : α :=
  match i with
  | 0 => p.c0
  | 1 => p.c1
  | 2 => p.c2
  | 3 => p.c3

/-- Every value mapped. -/
def Per4.map {α β : Type} (f : α → β) (p : Per4 α) : Per4 β := ⟨f p.c0, f p.c1, f p.c2, f p.c3⟩

/-- The four values, class 0 first. -/
def Per4.toList {α : Type} (p : Per4 α) : List α := [p.c0, p.c1, p.c2, p.c3]

end Sys2Proof
end

