-- ==== Sys2Proof/Syntax.lean ====
section
/-! DEFINITION. The commands the hub takes: one constructor of `Instr` for each row of spec/opcode_table.json. A message
carries the fields of its body as the bytes give them (11, sections 11.1.1 to 11.1.3); reserved bytes are not carried,
since the hub ignores them (R190). -/

namespace Sys2Proof

/-- The two dataset kinds (R1). -/
inductive Kind where
  | fare
  | block
  deriving DecidableEq, Repr

/-- The two forms of an edition (R1). -/
inductive Form where
  | full
  | delta
  deriving DecidableEq, Repr

/-- Why an accepted frame's message is discarded (R175). -/
inductive DiscardReason where
  /-- The frame's payload is too short to hold the header. -/
  | shortHeader
  /-- The kind is not one of the ten. -/
  | unknownKind
  /-- The body length is not the length the kind takes. -/
  | wrongLength
  /-- The payload is shorter than the header plus the body length. -/
  | shortPayload
  deriving DecidableEq, Repr

/-- What every message carries besides its body: the frame's source address (R174) and the tag (R175). -/
structure Head where
  src : MacAddr
  tag : Tag
  deriving DecidableEq, Repr

/-- The body of LOAD_OPEN (11, section 11.1.1). -/
structure OpenBody where
  kind : Byte
  form : Byte
  urgent : Byte
  edition : BitVec 16
  segCount : BitVec 16
  itemCount : BitVec 32
  digest : BitVec 32
  minute : BitVec 32
  deriving DecidableEq, Repr

/-- One class record of the configuration record (11, section 11.1.3). -/
structure RawClass where
  blockBase : BitVec 32
  blockSize : BitVec 32
  fareBase : BitVec 32
  fareSize : BitVec 32
  delta : Byte
  deriving DecidableEq, Repr

/-- One drop's entry of the drop map (11, section 11.1.3). -/
structure RawMapEntry where
  enable : Byte
  cls : Byte
  deriving DecidableEq, Repr

/-- The configuration record as a CONFIGURE carries it (11, section 11.1.3). -/
structure RawConfig where
  protocolType : BitVec 16
  enLoad : Byte
  enDrop : Byte
  enJob : Byte
  enChangeover : Byte
  enTable : Byte
  enTapq : Byte
  dayStart : BitVec 16
  idleTimeout : Byte
  classes : Per4 RawClass
  dropMap : Per8 RawMapEntry
  pollMode : Byte
  period : Byte
  divisor : Byte
  parking : Byte
  bias : BitVec 16
  levelUrgent : Byte
  levelRoutine : Byte
  levelFare : Byte
  floorDepot : Byte
  floorClosed : Byte
  floorOpen : Byte
  retryLimit : Byte
  rate : BitVec 16
  quiet : BitVec 16
  replyTimeout : BitVec 16
  waitInterval : Byte
  waitLimit : Byte
  burst : Byte
  paceService : Byte
  paceDepot : Byte
  holdLimit : Byte
  doorLimit : Byte
  deriving DecidableEq, Repr

/-- The body of CLEAR (11, section 11.1.2). -/
structure ClearBody where
  flags : BitVec 16
  log : Byte
  selector : Byte
  drop : Byte
  kind : Byte
  counters : Byte
  deriving DecidableEq, Repr

/-- The commands of the hub, in the order of spec/opcode_table.json. -/
inductive Instr where
  | loadOpen (m : Head) (b : OpenBody)
  | loadSegment (m : Head) (kind : Byte) (edition index : BitVec 16) (payload : Segment)
  | loadClose (m : Head) (kind : Byte) (edition : BitVec 16)
  | loadAbort (m : Head) (kind : Byte) (edition : BitVec 16)
  | configure (m : Head) (r : RawConfig)
  | querySummary (m : Head)
  | queryDrop (m : Head) (n : Byte)
  | queryChain (m : Head)
  | queryJobs (m : Head)
  | queryErrorlog (m : Head)
  | queryCounters (m : Head)
  | queryBadTopic (m : Head) (topic : Byte)
  | clear (m : Head) (c : ClearBody)
  | restart (m : Head)
  | warmRestart
  | time (m : Head) (minute : BitVec 32)
  | vehicle (m : Head) (mode door : Byte)
  | fcsBad
  | otherType
  | msgDiscard (src : MacAddr) (why : DiscardReason)
  | answerDrop (src : MacAddr)
  | hardReset
  | linkUp
  | linkDown
  | transmitComplete
  | minuteAdvance
  | idleDeadlinePass (k : Kind)
  | deltaCheckStart
  | checkComplete (k : Kind)
  | applyComplete
  | undoComplete
  | rebuildComplete
  | sweepPassComplete
  | quietTimeMet
  | collision
  | trunkFrameSent
  | answerStart
  | replyTimeout
  | answerIncomplete
  | answerComplete (bytes : List Byte)
  | waitInterval
  | emptyRoundPauseEnd
  | pollPeriod
  | holdDeadlinePass
  | doorDeadline
  | characterReceived
  | answerLengthTooLarge
  deriving DecidableEq, Repr

end Sys2Proof
end

