-- ==== Sys2Proof/WellFormed.lean ====
section
/-! DEFINITION. Which commands can be spoken of at all. Field widths are kept by the types; these are the checks that are left. -/

namespace Sys2Proof

/-- An answer on the trunk is complete when the last check byte has been received (R126): address, kind, length, as many
payload bytes as the length gives, and two check bytes. -/
def answerWhole (bytes : List Byte) : Bool :=
  match bytes with
  | _ :: _ :: len :: rest => rest.length == len.toNat + 2
  | _ => false

/-- A command is well formed when its variable-length operand has the length its row speaks of, and a QUERY of a bad topic
names none of the six topics (R181). Written as a Bool so that `decide` evaluates it. -/
def WellFormed (i : Instr) : Bool :=
  match i with
  | .loadSegment _ _ _ _ payload => payload.length == 240
  | .queryBadTopic _ topic => topic == 0 || 6 < topic.toNat
  | .answerComplete bytes => answerWhole bytes
  | .loadOpen _ _ | .loadClose _ _ _ | .loadAbort _ _ _ | .configure _ _ | .querySummary _ | .queryDrop _ _ | .queryChain _
  | .queryJobs _ | .queryErrorlog _ | .queryCounters _ | .clear _ _ | .restart _ | .warmRestart | .time _ _ | .vehicle _ _ _
  | .fcsBad | .otherType | .msgDiscard _ _ | .answerDrop _ | .hardReset | .linkUp | .linkDown | .transmitComplete
  | .minuteAdvance | .idleDeadlinePass _ | .deltaCheckStart | .checkComplete _ | .applyComplete | .undoComplete
  | .rebuildComplete | .sweepPassComplete | .quietTimeMet | .collision | .trunkFrameSent | .answerStart | .replyTimeout
  | .answerIncomplete | .waitInterval | .emptyRoundPauseEnd | .pollPeriod | .holdDeadlinePass | .doorDeadline
  | .characterReceived | .answerLengthTooLarge => true

end Sys2Proof
end

