-- ==== Sys2Proof/Decode.lean ====
section
/-! DEFINITION. Reading commands from bits. No row of spec/opcode_table.json gives bits, so `decodeTableWord` reads none.
The bytes of the gateway's messages (11, section 11.1; R175, R189, R190) are read here too, and after that an encoder
writes them from the same tables. -/

namespace Sys2Proof

/-- The command a word of the opcode table spells: no row of the table gives bits, so there is none. -/
def decodeTableWord (_nbits _w : Nat) : Option Instr := none

/-! ### Numbers in bytes, least significant byte first (R189) -/

/-- The number a list of bytes carries, least significant byte first (R189). -/
def leNat : List Byte → Nat
  | [] => 0
  | b :: bs => b.toNat + 256 * leNat bs

/-- A number in `w` bytes, least significant byte first (R189). -/
def leBytes : Nat → Nat → List Byte
  | 0, _ => []
  | w + 1, n => BitVec.ofNat 8 n :: leBytes w (n / 256)

/-- Read `w` bytes as a number; what is left follows. -/
def readLe (w : Nat) (bytes : List Byte) : Nat × List Byte := (leNat (bytes.take w), bytes.drop w)

/-- Read a one-byte field. -/
def read8 (bytes : List Byte) : Byte × List Byte := (BitVec.ofNat 8 (readLe 1 bytes).1, (readLe 1 bytes).2)
/-- Read a two-byte field. -/
def read16 (bytes : List Byte) : BitVec 16 × List Byte := (BitVec.ofNat 16 (readLe 2 bytes).1, (readLe 2 bytes).2)
/-- Read a four-byte field. -/
def read32 (bytes : List Byte) : BitVec 32 × List Byte := (BitVec.ofNat 32 (readLe 4 bytes).1, (readLe 4 bytes).2)

/-! ### Message bodies -/

/-- The body of LOAD_OPEN, 20 bytes (11, section 11.1.1); byte 3 is reserved. -/
def readOpen (r : List Byte) : OpenBody :=
  let (kind, r) := read8 r
  let (form, r) := read8 r
  let (urgent, r) := read8 r
  let (_, r) := read8 r
  let (edition, r) := read16 r
  let (segCount, r) := read16 r
  let (itemCount, r) := read32 r
  let (digest, r) := read32 r
  let (minute, _) := read32 r
  { kind, form, urgent, edition, segCount, itemCount, digest, minute }

/-- A class record, 20 bytes, the last three reserved (11, section 11.1.3). -/
def readClass (r : List Byte) : RawClass × List Byte :=
  let (blockBase, r) := read32 r
  let (blockSize, r) := read32 r
  let (fareBase, r) := read32 r
  let (fareSize, r) := read32 r
  let (delta, r) := read8 r
  ({ blockBase, blockSize, fareBase, fareSize, delta }, r.drop 3)

/-- An entry of the drop map, 2 bytes (11, section 11.1.3). -/
def readMapEntry (r : List Byte) : RawMapEntry × List Byte :=
  let (enable, r) := read8 r
  let (cls, r) := read8 r
  ({ enable, cls }, r)

/-- The four class records. -/
def readClasses (r : List Byte) : Per4 RawClass × List Byte :=
  let (c0, r) := readClass r
  let (c1, r) := readClass r
  let (c2, r) := readClass r
  let (c3, r) := readClass r
  (⟨c0, c1, c2, c3⟩, r)

/-- The drop map, drop 1 first. -/
def readMap (r : List Byte) : Per8 RawMapEntry × List Byte :=
  let (d1, r) := readMapEntry r
  let (d2, r) := readMapEntry r
  let (d3, r) := readMapEntry r
  let (d4, r) := readMapEntry r
  let (d5, r) := readMapEntry r
  let (d6, r) := readMapEntry r
  let (d7, r) := readMapEntry r
  let (d8, r) := readMapEntry r
  (⟨d1, d2, d3, d4, d5, d6, d7, d8⟩, r)

/-- The configuration record, 136 bytes (11, section 11.1.3); bytes 11, 121 and 135 are reserved. -/
def readConfig (r : List Byte) : RawConfig :=
  let (protocolType, r) := read16 r
  let (enLoad, r) := read8 r
  let (enDrop, r) := read8 r
  let (enJob, r) := read8 r
  let (enChangeover, r) := read8 r
  let (enTable, r) := read8 r
  let (enTapq, r) := read8 r
  let (dayStart, r) := read16 r
  let (idleTimeout, r) := read8 r
  let (_, r) := read8 r
  let (classes, r) := readClasses r
  let (dropMap, r) := readMap r
  let (pollMode, r) := read8 r
  let (period, r) := read8 r
  let (divisor, r) := read8 r
  let (parking, r) := read8 r
  let (bias, r) := read16 r
  let (levelUrgent, r) := read8 r
  let (levelRoutine, r) := read8 r
  let (levelFare, r) := read8 r
  let (floorDepot, r) := read8 r
  let (floorClosed, r) := read8 r
  let (floorOpen, r) := read8 r
  let (retryLimit, r) := read8 r
  let (_, r) := read8 r
  let (rate, r) := read16 r
  let (quiet, r) := read16 r
  let (replyTimeout, r) := read16 r
  let (waitInterval, r) := read8 r
  let (waitLimit, r) := read8 r
  let (burst, r) := read8 r
  let (paceService, r) := read8 r
  let (paceDepot, r) := read8 r
  let (holdLimit, r) := read8 r
  let (doorLimit, _) := read8 r
  { protocolType, enLoad, enDrop, enJob, enChangeover, enTable, enTapq, dayStart, idleTimeout, classes, dropMap,
    pollMode, period, divisor, parking, bias, levelUrgent, levelRoutine, levelFare, floorDepot, floorClosed, floorOpen,
    retryLimit, rate, quiet, replyTimeout, waitInterval, waitLimit, burst, paceService, paceDepot, holdLimit, doorLimit }

/-- LOAD_SEGMENT, 246 bytes (11, section 11.1.1); byte 1 is reserved. -/
def readSegmentMsg (m : Head) (r : List Byte) : Instr :=
  let (kind, r) := read8 r
  let (_, r) := read8 r
  let (edition, r) := read16 r
  let (index, r) := read16 r
  .loadSegment m kind edition index (r.take 240)

/-- LOAD_CLOSE and LOAD_ABORT, 4 bytes (11, section 11.1.1); byte 1 is reserved. -/
def readKindEdition (r : List Byte) : Byte × BitVec 16 :=
  let (kind, r) := read8 r
  let (_, r) := read8 r
  let (edition, _) := read16 r
  (kind, edition)

/-- QUERY, 2 bytes: the drop byte is ignored for every topic other than DROP (R190). -/
def readQuery (m : Head) (r : List Byte) : Instr :=
  let (topic, r) := read8 r
  let (n, _) := read8 r
  if topic = 1 then .querySummary m
  else if topic = 2 then .queryDrop m n
  else if topic = 3 then .queryChain m
  else if topic = 4 then .queryJobs m
  else if topic = 5 then .queryErrorlog m
  else if topic = 6 then .queryCounters m
  else .queryBadTopic m topic

/-- CLEAR, 7 bytes (11, section 11.1.2). -/
def readClear (r : List Byte) : ClearBody :=
  let (flags, r) := read16 r
  let (log, r) := read8 r
  let (selector, r) := read8 r
  let (drop, r) := read8 r
  let (kind, r) := read8 r
  let (counters, _) := read8 r
  { flags, log, selector, drop, kind, counters }

/-- The body length each of the ten kinds takes (11, section 11.1), by the kind's code. -/
def bodyLength (kind : Byte) : Option Nat :=
  if kind = 0x01 then some 20
  else if kind = 0x02 then some 246
  else if kind = 0x03 then some 4
  else if kind = 0x04 then some 4
  else if kind = 0x05 then some 136
  else if kind = 0x06 then some 2
  else if kind = 0x07 then some 7
  else if kind = 0x08 then some 0
  else if kind = 0x09 then some 4
  else if kind = 0x0A then some 2
  else none

/-- The message of a kind, read from a body of the right length. -/
def readBody (m : Head) (kind : Byte) (body : List Byte) : Instr :=
  if kind = 0x01 then .loadOpen m (readOpen body)
  else if kind = 0x02 then readSegmentMsg m body
  else if kind = 0x03 then .loadClose m (readKindEdition body).1 (readKindEdition body).2
  else if kind = 0x04 then .loadAbort m (readKindEdition body).1 (readKindEdition body).2
  else if kind = 0x05 then .configure m (readConfig body)
  else if kind = 0x06 then readQuery m body
  else if kind = 0x07 then .clear m (readClear body)
  else if kind = 0x08 then .restart m
  else if kind = 0x09 then .time m (read32 body).1
  else .vehicle m (read8 body).1 (read8 (read8 body).2).1

/-- The command an accepted frame's payload carries, or why its message is discarded (R175): the four cases in the order
the rule lists them. Bytes after the body are padding. -/
def decodeMessage (src : MacAddr) (payload : List Byte) : Except DiscardReason Instr :=
  if payload.length < 5 then .error .shortHeader
  else
    let (kind, r) := read8 payload
    let (tag, r) := read16 r
    let (len, r) := read16 r
    match bodyLength kind with
    | none => .error .unknownKind
    | some n =>
      if len.toNat ≠ n then .error .wrongLength
      else if r.length < n then .error .shortPayload
      else .ok (readBody { src, tag } kind (r.take n))

/-! ### The encoder: the payload of a message, from the same tables -/

/-- A bit vector's bytes, least significant first. -/
def le {w : Nat} (n : Nat) (x : BitVec w) : List Byte := leBytes n x.toNat

/-- The bytes of LOAD_OPEN's body. -/
def writeOpen (b : OpenBody) : List Byte :=
  le 1 b.kind ++ (le 1 b.form ++ (le 1 b.urgent ++ (le 1 (0 : Byte) ++ (le 2 b.edition ++ (le 2 b.segCount ++
    (le 4 b.itemCount ++ (le 4 b.digest ++ le 4 b.minute)))))))

/-- The bytes of a class record, followed by `r`. -/
def writeClass (c : RawClass) (r : List Byte) : List Byte :=
  le 4 c.blockBase ++ (le 4 c.blockSize ++ (le 4 c.fareBase ++ (le 4 c.fareSize ++ (le 1 c.delta ++ ([0, 0, 0] ++ r)))))

/-- The bytes of an entry of the drop map, followed by `r`. -/
def writeMapEntry (e : RawMapEntry) (r : List Byte) : List Byte := le 1 e.enable ++ (le 1 e.cls ++ r)

/-- The bytes of the four class records, followed by `r`. -/
def writeClasses (p : Per4 RawClass) (r : List Byte) : List Byte :=
  writeClass p.c0 (writeClass p.c1 (writeClass p.c2 (writeClass p.c3 r)))

/-- The bytes of the drop map, followed by `r`. -/
def writeMap (p : Per8 RawMapEntry) (r : List Byte) : List Byte :=
  writeMapEntry p.d1 (writeMapEntry p.d2 (writeMapEntry p.d3 (writeMapEntry p.d4
    (writeMapEntry p.d5 (writeMapEntry p.d6 (writeMapEntry p.d7 (writeMapEntry p.d8 r)))))))

/-- The bytes of the configuration record from the poll mode on. -/
def writeConfigTail (c : RawConfig) : List Byte :=
  le 1 c.pollMode ++ (le 1 c.period ++ (le 1 c.divisor ++ (le 1 c.parking ++ (le 2 c.bias ++ (le 1 c.levelUrgent ++
    (le 1 c.levelRoutine ++ (le 1 c.levelFare ++ (le 1 c.floorDepot ++ (le 1 c.floorClosed ++ (le 1 c.floorOpen ++
    (le 1 c.retryLimit ++ (le 1 (0 : Byte) ++ (le 2 c.rate ++ (le 2 c.quiet ++ (le 2 c.replyTimeout ++
    (le 1 c.waitInterval ++ (le 1 c.waitLimit ++ (le 1 c.burst ++ (le 1 c.paceService ++ (le 1 c.paceDepot ++
    (le 1 c.holdLimit ++ (le 1 c.doorLimit ++ le 1 (0 : Byte)))))))))))))))))))))))

/-- The bytes of the configuration record. -/
def writeConfig (c : RawConfig) : List Byte :=
  le 2 c.protocolType ++ (le 1 c.enLoad ++ (le 1 c.enDrop ++ (le 1 c.enJob ++ (le 1 c.enChangeover ++ (le 1 c.enTable ++
    (le 1 c.enTapq ++ (le 2 c.dayStart ++ (le 1 c.idleTimeout ++ (le 1 (0 : Byte) ++
    writeClasses c.classes (writeMap c.dropMap (writeConfigTail c)))))))))))

/-- A whole payload: header and body (11, section 11.1). -/
def writeMessage (kind : Byte) (tag : Tag) (body : List Byte) : List Byte :=
  le 1 kind ++ (le 2 tag ++ (leBytes 2 body.length ++ body))

/-- The payload of a message command; none for a command that is no message. -/
def encodeMessage (i : Instr) : Option (List Byte) :=
  match i with
  | .loadOpen m b => some (writeMessage 0x01 m.tag (writeOpen b))
  | .loadSegment m kind edition index payload =>
    some (writeMessage 0x02 m.tag (le 1 kind ++ (le 1 (0 : Byte) ++ (le 2 edition ++ (le 2 index ++ payload)))))
  | .loadClose m kind edition => some (writeMessage 0x03 m.tag (le 1 kind ++ (le 1 (0 : Byte) ++ le 2 edition)))
  | .loadAbort m kind edition => some (writeMessage 0x04 m.tag (le 1 kind ++ (le 1 (0 : Byte) ++ le 2 edition)))
  | .configure m r => some (writeMessage 0x05 m.tag (writeConfig r))
  | .querySummary m => some (writeMessage 0x06 m.tag [1, 0])
  | .queryDrop m n => some (writeMessage 0x06 m.tag [2, n])
  | .queryChain m => some (writeMessage 0x06 m.tag [3, 0])
  | .queryJobs m => some (writeMessage 0x06 m.tag [4, 0])
  | .queryErrorlog m => some (writeMessage 0x06 m.tag [5, 0])
  | .queryCounters m => some (writeMessage 0x06 m.tag [6, 0])
  | .queryBadTopic m topic => some (writeMessage 0x06 m.tag [topic, 0])
  | .clear m c =>
    some (writeMessage 0x07 m.tag (le 2 c.flags ++ (le 1 c.log ++ (le 1 c.selector ++ (le 1 c.drop ++ (le 1 c.kind ++
      le 1 c.counters))))))
  | .restart m => some (writeMessage 0x08 m.tag [])
  | .time m minute => some (writeMessage 0x09 m.tag (le 4 minute))
  | .vehicle m mode door => some (writeMessage 0x0A m.tag [mode, door])
  | .warmRestart | .fcsBad | .otherType | .msgDiscard _ _ | .answerDrop _ | .hardReset | .linkUp | .linkDown
  | .transmitComplete | .minuteAdvance | .idleDeadlinePass _ | .deltaCheckStart | .checkComplete _ | .applyComplete
  | .undoComplete | .rebuildComplete | .sweepPassComplete | .quietTimeMet | .collision | .trunkFrameSent | .answerStart
  | .replyTimeout | .answerIncomplete | .answerComplete _ | .waitInterval | .emptyRoundPauseEnd | .pollPeriod
  | .holdDeadlinePass | .doorDeadline | .characterReceived | .answerLengthTooLarge => none

/-- The source address a message command carries, if it is a message. -/
def Instr.head? (i : Instr) : Option Head :=
  match i with
  | .loadOpen m _ | .loadSegment m _ _ _ _ | .loadClose m _ _ | .loadAbort m _ _ | .configure m _ | .querySummary m
  | .queryDrop m _ | .queryChain m | .queryJobs m | .queryErrorlog m | .queryCounters m | .queryBadTopic m _ | .clear m _
  | .restart m | .time m _ | .vehicle m _ _ => some m
  | .warmRestart | .fcsBad | .otherType | .msgDiscard _ _ | .answerDrop _ | .hardReset | .linkUp | .linkDown
  | .transmitComplete | .minuteAdvance | .idleDeadlinePass _ | .deltaCheckStart | .checkComplete _ | .applyComplete
  | .undoComplete | .rebuildComplete | .sweepPassComplete | .quietTimeMet | .collision | .trunkFrameSent | .answerStart
  | .replyTimeout | .answerIncomplete | .answerComplete _ | .waitInterval | .emptyRoundPauseEnd | .pollPeriod
  | .holdDeadlinePass | .doorDeadline | .characterReceived | .answerLengthTooLarge => none

end Sys2Proof
end

