-- ==== Sys2Proof/Config.lean ====
section
/-! DEFINITION. What an implementation fixes and the free values. Every constant here is opaque and has no body: no proof
can see its value, and a statement that holds, holds for every value. -/

namespace Sys2Proof.Config

/-- The station address, "fixed in the part at manufacture" (R173). Log 20. -/
opaque stationAddress : MacAddr
/-- The vendor code of the SUMMARY report (11, section 11.1.5); no file gives its value. Log 20. -/
opaque vendorCode : BitVec 16
/-- The family code of the SUMMARY report; no file gives its value. Log 20. -/
opaque familyCode : BitVec 16
/-- The part number of the SUMMARY report; no file gives its coding. Log 20. -/
opaque partNumber : BitVec 16
/-- The silicon revision of the SUMMARY report; no file gives its value. Log 20. -/
opaque siliconRevision : BitVec 8

/-- How many entries the forward apply or the undo handles in the microsecond that begins at a time of the internal
timebase. The manual says only that this work takes time. DESIGN CHOICE (free value), log 4. -/
opaque applyItems : Nat → Nat
/-- The same for a sweep pass. DESIGN CHOICE (free value), log 4. -/
opaque sweepItems : Nat → Nat
/-- The same for a rebuild. DESIGN CHOICE (free value), log 4. -/
opaque rebuildItems : Nat → Nat
/-- Whether stage 3 of a delta check forms its figures in that microsecond. DESIGN CHOICE (free value), log 18. -/
opaque figuresForm : Nat → Bool

end Sys2Proof.Config
end

