-- ==== Sys2Proof/Machine/State.lean ====
section
/-! DEFINITION. The hub's whole state as plain data, and its value right after a hard reset. One structure for each block of
the manual; each field's docstring names the rule it follows. -/

namespace Sys2Proof.Machine

/-- Reasons for which the machine stops. The manual names no condition that stops the hub, so there is none: the type has no
constructor and no meaning can answer with a fault. -/
inductive Fault : Type
  deriving DecidableEq, Repr

/-- Reasons for which a command has no meaning. -/
inductive Refusal where
  /-- A command that is not modelled yet, by its mnemonic. Raised by an arm of `exec` only; safe, since no next state follows. -/
  | notModelled (mnemonic : String)
  deriving DecidableEq, Repr

/-! ### Settings: the configuration record (R179) -/

/-- A class's windows and its DELTA_CAPABLE flag (R89, R90). -/
structure ClassSettings where
  blockBase : Nat
  blockSize : Nat
  fareBase : Nat
  fareSize : Nat
  delta : Bool
  deriving DecidableEq, Repr

/-- One drop's entry of the drop map (R88): the enable value and the class. -/
structure MapEntry where
  enabled : Bool
  cls : ClassId
  deriving DecidableEq, Repr

/-- Poll mode (R91). -/
inductive PollMode where
  | continuous
  | periodic
  deriving DecidableEq, Repr

/-- Parking mode (R93). -/
inductive Parking where
  | fixed
  | mru
  deriving DecidableEq, Repr

/-- The trunk settings that an exchange fixes when it is formed (R120). -/
structure TrunkSettings where
  /-- kbit/s: 250, 500 or 1000 -/
  rate : Nat
  /-- bit times -/
  quiet : Nat
  /-- microseconds -/
  replyTimeout : Nat
  /-- milliseconds -/
  waitInterval : Nat
  waitLimit : Nat
  burst : Nat
  deriving DecidableEq, Repr

/-- The six notice enables (R186). -/
structure Enables where
  load : Bool
  drop : Bool
  job : Bool
  changeover : Bool
  table : Bool
  tapq : Bool
  deriving DecidableEq, Repr

/-- The configuration record as applied (R179). -/
structure Settings where
  protocolType : BitVec 16
  enables : Enables
  dayStart : Nat
  idleTimeout : Nat
  classes : Per4 ClassSettings
  dropMap : Per8 MapEntry
  pollMode : PollMode
  period : Nat
  divisor : Nat
  parking : Parking
  bias : Nat
  levelUrgent : Nat
  levelRoutine : Nat
  levelFare : Nat
  floorDepot : Nat
  floorClosed : Nat
  floorOpen : Nat
  retryLimit : Nat
  trunk : TrunkSettings
  paceService : Nat
  paceDepot : Nat
  holdLimit : Nat
  doorLimit : Nat
  deriving DecidableEq, Repr

/-- Every setting's value after a hard reset (R16, R23, R77, R89, R91, R92, R93, R98, R107, R108, R114, R120, R143, R173). -/
def Settings.defaults : Settings where
  protocolType := 0x88B5
  enables := ⟨true, true, true, true, true, true⟩
  dayStart := 180
  idleTimeout := 10
  classes := ⟨⟨0, 8192, 8192, 128, true⟩, ⟨0, 0, 0, 0, false⟩, ⟨0, 0, 0, 0, false⟩, ⟨0, 0, 0, 0, false⟩⟩
  dropMap := Per8.all ⟨true, 0⟩
  pollMode := .continuous
  period := 4
  divisor := 4
  parking := .fixed
  bias := 0
  levelUrgent := 3
  levelRoutine := 2
  levelFare := 2
  floorDepot := 1
  floorClosed := 1
  floorOpen := 3
  retryLimit := 8
  trunk := { rate := 1000, quiet := 24, replyTimeout := 500, waitInterval := 5, waitLimit := 20, burst := 4 }
  paceService := 4
  paceDepot := 32
  holdLimit := 5
  doorLimit := 60

/-! ### Service clock (R12) -/

/-- The service clock. The minute phase is held as the time of the internal timebase at which it started (log 25). -/
structure Clock where
  /-- C, 0 while the valid flag is clear -/
  minute : Nat
  valid : Bool
  phaseStart : Nat
  deriving DecidableEq, Repr

/-! ### Gateway Port (R173) -/

/-- The vehicle's mode (R184). -/
inductive Mode where
  | depot
  | service
  deriving DecidableEq, Repr

/-- The door state (R184). -/
inductive Door where
  | open_
  | closed
  deriving DecidableEq, Repr

/-- The result codes of 11, section 11.1.4, with TIMEOUT, which only a notice carries. -/
inductive Code where
  | ok | accepted | acceptedContinue | restarted | incomplete | done | busy | inProgress | notOpen | aborted
  | badForm | tooLarge | stale | gap | digestBad | malformed | tableFull | timeout | badWindow | badMap | badValue
  deriving DecidableEq, Repr

/-- An answer: a RESULT or a REPORT (R176). Its content is fixed when it is formed. -/
inductive Answer where
  | result (tag : Tag) (code : Code) (kind : Byte) (edition : Nat) (v1 v2 : Nat)
  | report (tag : Tag) (topic : Byte) (content : List Byte)
  deriving DecidableEq, Repr

/-- The ten notice flags (R185). -/
inductive Flag where
  | loadDone | loadRefused | dropJoined | dropLost | jobFailed
  | changeoverDone | changeoverHeld | changeoverForced | tableFull | tapqFull
  deriving DecidableEq, Repr

/-- The context a raising holds (R185): edition, code and drop where the flag takes them, and the minute of the raising. -/
structure Ctx where
  edition : Nat
  code : Option Code
  drop : Option DropId
  minute : Nat
  deriving DecidableEq, Repr

/-- The ten flags' held contexts: absent when the flag is clear (R185). -/
structure FlagSet where
  loadDone : Option Ctx
  loadRefused : Option Ctx
  dropJoined : Option Ctx
  dropLost : Option Ctx
  jobFailed : Option Ctx
  changeoverDone : Option Ctx
  changeoverHeld : Option Ctx
  changeoverForced : Option Ctx
  tableFull : Option Ctx
  tapqFull : Option Ctx
  deriving DecidableEq, Repr

/-- A NOTICE in the notice queue (R185). -/
structure Notice where
  flag : Flag
  ctx : Ctx
  deriving DecidableEq, Repr

/-- What the frame in transmission carries (R177): an answer, a NOTICE, or a TAPS message of the oldest `count` records of
the tap queue, which stay there until the frame completes (R168). -/
inductive TxBody where
  | answer (a : Answer)
  | notice (n : Notice)
  | taps (count : Nat)
  deriving DecidableEq, Repr

/-- The frame in transmission, with the addresses and type it was formed with (R174). -/
structure Tx where
  dest : MacAddr
  etherType : BitVec 16
  body : TxBody
  deriving DecidableEq, Repr

/-- The Gateway Port (R173); the configuration record stands beside it in `State.settings`. -/
structure Port where
  gateway : Option MacAddr
  linkUp : Bool
  mode : Mode
  door : Door
  flags : FlagSet
  answers : List Answer
  notices : List Notice
  tx : Option Tx
  fcsBad : Nat
  otherType : Nat
  msgDiscard : Nat
  answerDrop : Nat
  linkLoss : Nat
  /-- a warm restart held back behind a rebuild (R36) -/
  restartHeld : Bool
  deriving DecidableEq, Repr

/-! ### Edition Intake (R18) -/

/-- The figures of a delta check (R57) and the number of REMOVEs of cards not live (R58). -/
structure Figures where
  adds : Nat
  liveAfter : Nat
  purgeable : Nat
  available : Nat
  removeAbsent : Nat
  deriving DecidableEq, Repr

/-- How far stage 3 of a BLOCK DELTA check has come (R57). -/
inductive Stage3 where
  | notBegun
  | begun
  | formed (f : Figures)
  deriving DecidableEq, Repr

/-- The states of an intake context other than IDLE (R18). -/
inductive LoadStage where
  | receiving
  | checking (third : Stage3)
  | applying
  | rebuilding
  deriving DecidableEq, Repr

/-- An intake context that is not IDLE (R18). The received-segment map and the reservation are one list: a place for each
index, holding the payload once it is stored (log 10). -/
structure Load where
  stage : LoadStage
  edition : Nat
  form : Form
  itemCount : Nat
  digest : BitVec 32
  /-- kept for a BLOCK DELTA only -/
  urgent : Bool
  /-- effective minute T, kept for a FARE edition only -/
  minute : Nat
  segments : List (Option Segment)
  deadline : Option Nat
  close : Option Tag
  abort : Option Tag
  deriving DecidableEq, Repr

/-- The two intake contexts, absent when IDLE, and the intake's counters (R18). -/
structure Intakes where
  fare : Option Load
  block : Option Load
  segDuplicate : Nat
  segStray : Nat
  deriving DecidableEq, Repr

/-! ### Edition Catalogue and Segment Store (R37) -/

/-- A delta record (R37); its segment count is the number of its segments. -/
structure Delta where
  /-- the record's own number, by which it is told from another of the same edition (the model's own field; log 45) -/
  ref : Nat
  edition : Nat
  changes : Nat
  urgent : Bool
  digest : BitVec 32
  segments : List Segment
  deriving DecidableEq, Repr

/-- A fare record (R37), with the effective minute it was pending for. -/
structure Fare where
  /-- the record's own number (the model's own field; log 45) -/
  ref : Nat
  edition : Nat
  products : Nat
  digest : BitVec 32
  segments : List Segment
  minute : Nat
  deriving DecidableEq, Repr

/-- The Catalogue (R37). Reader counts and store occupancy are computed (R42, R48; log 11). -/
structure Catalogue where
  h : Nat
  b : Nat
  chain : List Delta
  retired : List Delta
  active : Option Fare
  pendingFare : Option Fare
  withdrawn : List Fare
  /-- the activation hold: the record it names (R46) -/
  hold : Option Nat
  /-- how many records have been made since the hard reset: the number the next one takes (the model's own field; log 45) -/
  records : Nat
  deriving DecidableEq, Repr

/-! ### Card Table (R52, R54) -/

/-- An entry of the Card Table (R52). -/
structure Entry where
  card : Nat
  reason : Nat
  expiry : Nat
  since : Nat
  until_ : Option Nat
  deriving DecidableEq, Repr

/-- A place in the visiting order of the table, by card ID and since-stamp (R69). -/
abbrev Place := Option (Nat × Nat)

/-- What an apply in flight is doing (R59, R61). -/
inductive ApplyWork where
  /-- FORWARD: removing purgeable entries, up to this place -/
  | purge (after : Place)
  /-- FORWARD: this many changes taken -/
  | write (taken : Nat)
  /-- UNDO: entries visited up to this place -/
  | undo (after : Place)
  deriving DecidableEq, Repr

/-- The table state with what each state alone holds (R54, R55). -/
inductive TableState where
  | empty
  | ready
  | applying (edition liveAfter : Nat) (work : ApplyWork)
  | rebuilding (edition made : Nat)
  deriving DecidableEq, Repr

/-- A position of the snapshot cursor (R65): the next index, the card ID of the last entry packed, the digest register. -/
structure Point where
  index : Nat
  key : Nat
  reg : BitVec 32
  deriving DecidableEq, Repr

/-- A read mark with its snapshot cursor (R65). -/
structure Mark where
  /-- h0 -/
  edition : Nat
  /-- N -/
  count : Nat
  /-- S -/
  segs : Nat
  cur : Point
  burst : Point
  ack : Point
  deriving DecidableEq, Repr

/-- A sweep pass in flight: the two values it fixed at its start, and how far it has come (R69). -/
structure Pass where
  lowest : Nat
  horizon : Nat
  after : Place
  deriving DecidableEq, Repr

/-- The Card Table (R54). Entries held is the number of entries. -/
structure CardTable where
  state : TableState
  entries : List Entry
  /-- live at h -/
  live : Nat
  marks : Per8 (Option Mark)
  sweep : Option Pass
  sweepRequest : Bool
  removeAbsent : Nat
  markLag : Nat
  deriving DecidableEq, Repr

/-! ### Drop Roster (R77) -/

/-- Presence (R79). -/
inductive Presence where
  | disabled
  | absent
  | joining
  | present
  | fading
  deriving DecidableEq, Repr

/-- What a drop last reported that it holds (R77). -/
structure Holdings where
  active : Nat
  staged : Nat
  block : Nat
  deriving DecidableEq, Repr

/-- A drop's six counters (R87). -/
structure DropCounters where
  good : Nat
  miss : Nat
  garbled : Nat
  joins : Nat
  losses : Nat
  tapsIn : Nat
  deriving DecidableEq, Repr

/-- A drop record (R77). Its enable value is whether its presence is other than DISABLED; its class is in the drop map. -/
structure Drop where
  stopping : Bool
  presence : Presence
  run : Nat
  holdings : Holdings
  known : Bool
  tapsHeld : Nat
  fareAhead : Bool
  blockNofit : Bool
  tapUrgent : Bool
  counters : DropCounters
  deriving DecidableEq, Repr

/-- The Drop Roster: eight records and the items that belong to none (R77). -/
structure Roster where
  drops : Per8 Drop
  /-- the poll mode in force; a new one waits for the round in progress to end (R91) -/
  pollMode : PollMode
  probe : Nat
  lastTap : Option DropId
  /-- when the last round started on the internal timebase; none when no round has started since the last reset (R91) -/
  lastRound : Option Nat
  deriving DecidableEq, Repr

/-! ### Planner (R96) -/

/-- A step of a plan (R96). -/
inductive Step where
  | delta (e : Nat)
  | full
  | stage (x : Nat)
  | activate (x : Nat)
  deriving DecidableEq, Repr

/-- The next exchange the current step needs (R96). -/
inductive Phase where
  | open_
  | segments
  | close
  | activate
  deriving DecidableEq, Repr

/-- A job's state (R97). -/
inductive JobState where
  | ready
  | active
  | paused
  | held
  | failed
  deriving DecidableEq, Repr

/-- The causes of retries and of failures (R114, R116). -/
inductive Cause where
  | noRoom | nofit | noAnswer | garbled | waitLimit | refused | badSequence | digest | notStaged | goBack
  deriving DecidableEq, Repr

/-- A job (R96). The urgent mark holds "urgent or promoted" as R106 recomputes it. -/
structure Job where
  drop : DropId
  kind : Kind
  target : Nat
  plan : List Step
  underWay : Bool
  /-- the window base the current step's OPEN carried (R105) -/
  base : Nat
  /-- the record that the current step's OPEN was served from, while the step is under way (R42, R47; log 45) -/
  record : Nat
  phase : Phase
  next : Nat
  burstStart : Nat
  retry : Nat
  lastCause : Option Cause
  urgent : Bool
  promoted : Bool
  level : Nat
  state : JobState
  /-- a re-plan trigger reached the job while its exchange was in flight (R104) -/
  replan : Bool
  deriving DecidableEq, Repr

/-- The form an error log records (R116). -/
inductive LogForm where
  | full
  | delta
  | activate
  deriving DecidableEq, Repr

/-- The error log's capture (R116). -/
structure LogEntry where
  drop : DropId
  kind : Kind
  edition : Nat
  form : LogForm
  index : Nat
  reason : Cause
  minute : Nat
  deriving DecidableEq, Repr

/-- The Planner (R96, R109, R116, R118). -/
structure Planner where
  jobs : List Job
  lastServed : Option DropId
  log : Option LogEntry
  retries : Nat
  jobFail : Nat
  preempt : Nat
  deriving DecidableEq, Repr

/-! ### Trunk Controller (R123) -/

/-- The kinds of exchange (R123); a push names its job's dataset kind, so that drop and kind name the job. -/
inductive ExKind where
  | roundPoll
  | urgentPoll
  | push (k : Kind)
  | broadcast
  deriving DecidableEq, Repr

/-- The stages of the current frame (R123). -/
inductive Stage where
  | quiet
  | sending
  | awaiting
  | receiving
  | pause
  deriving DecidableEq, Repr

/-- The frame being carried, with its fields (R122, R123). A SEGMENT's payload is absent until the frame is formed (R133; log 16). -/
inductive TrunkFrame where
  | poll (allowance : Nat)
  | openF (kind : Kind) (edition : Nat) (form : Form) (segCount base : Nat) (urgent restart : Bool)
  | segment (index : Nat) (last : Bool) (payload : Option Segment)
  | close (digest : BitVec 32)
  | activate (edition : Nat)
  deriving DecidableEq, Repr

/-- The exchange in flight (R123). -/
structure Exchange where
  kind : ExKind
  /-- none for a broadcast, address 0 -/
  drop : Option DropId
  frame : TrunkFrame
  stage : Stage
  waits : Nat
  burstStart : Nat
  burstEnd : Nat
  lastResend : Option Nat
  set : TrunkSettings
  /-- the step this exchange serves has ended under it (R112, R140) -/
  detached : Bool
  /-- when the stage began, on the internal timebase -/
  since : Nat
  deriving DecidableEq, Repr

/-- The Trunk Controller (R123, R131, R137, R139, R141). -/
structure Trunk where
  ex : Option Exchange
  request : Option Nat
  /-- the turns still to come of the round in progress; none when no round is in progress -/
  round : Option (List DropId)
  pushCount : Nat
  /-- the time at which the empty-round pause ends; none when no pause is running (R139) -/
  emptyPause : Option Nat
  lastUrgent : Option DropId
  /-- the end of the last character seen on the line, on the internal timebase (R124) -/
  lineFrom : Nat
  collision : Nat
  noAnswer : Nat
  garble : Nat
  waitLimit : Nat
  goBack : Nat
  rounds : Nat
  broadcasts : Nat
  deriving DecidableEq, Repr

/-! ### Changeover Controller (R143) -/

/-- The changeover state (R143). -/
inductive ChState where
  | idle
  | staging
  | due
  | doorWait
  deriving DecidableEq, Repr

/-- The hold deadline (R143). -/
inductive Hold where
  | absent
  /-- absent since DUE was entered with the clock invalid, and the hold limit that this entry uses (R144, R146) -/
  | unset (limit : Nat)
  | minute (m : Nat)
  | passed
  deriving DecidableEq, Repr

/-- The changeover record (R143); the limits are in the configuration record. -/
structure Changeover where
  state : ChState
  hold : Hold
  /-- the door deadline on the internal timebase -/
  door : Option Nat
  requested : Option Nat
  forced : Bool
  deriving DecidableEq, Repr

/-! ### Tap Screen (R159, R165, R166) -/

/-- A tap record as a validator sends it (R159); byte 19 is carried unchanged (R192). -/
structure Tap where
  seq : BitVec 16
  card : BitVec 64
  product : BitVec 16
  fare : BitVec 16
  fareUsed : BitVec 16
  blockUsed : BitVec 16
  decision : Byte
  byte19 : Byte
  minute : BitVec 32
  deriving DecidableEq, Repr

/-- The verdicts (R162). -/
inductive Verdict where
  | unscreened
  | lateListed
  | listedIgnored
  | staleTariff
  | clear
  deriving DecidableEq, Repr

/-- A screened tap record: the validator's fields and the hub's five (R160). -/
structure Screened where
  tap : Tap
  drop : DropId
  verdict : Verdict
  head : Nat
  active : Nat
  arrival : Nat
  deriving DecidableEq, Repr

/-- The Tap Screen (R165, R166). -/
structure Taps where
  queue : List Screened
  unscreened : Nat
  lateListed : Nat
  listedIgnored : Nat
  staleTariff : Nat
  clear : Nat
  zeroAllowance : Nat
  tapsOut : Nat
  deriving DecidableEq, Repr

/-! ### The whole state -/

/-- The hub. -/
structure State where
  /-- the commands that wait, first in, first out (the model's own field) -/
  pending : List Instr
  /-- the internal timebase in microseconds (00, section 2.4; log 1, log 2) -/
  timebase : Nat
  clock : Clock
  settings : Settings
  port : Port
  intakes : Intakes
  cat : Catalogue
  table : CardTable
  roster : Roster
  planner : Planner
  trunk : Trunk
  change : Changeover
  taps : Taps
  deriving DecidableEq, Repr

/-- A drop record after a hard reset (R77). -/
def Drop.reset : Drop where
  stopping := false
  presence := .absent
  run := 0
  holdings := ⟨0, 0, 0⟩
  known := false
  tapsHeld := 0
  fareAhead := false
  blockNofit := false
  tapUrgent := false
  counters := ⟨0, 0, 0, 0, 0, 0⟩

/-- The hub right after a hard reset, before the first decision of the trunk's arbiter (R142; log 23). -/
def State.reset : State where
  pending := []
  timebase := 0
  clock := { minute := 0, valid := false, phaseStart := 0 }
  settings := Settings.defaults
  port :=
    { gateway := none, linkUp := false, mode := .depot, door := .closed
      flags := ⟨none, none, none, none, none, none, none, none, none, none⟩
      answers := [], notices := [], tx := none
      fcsBad := 0, otherType := 0, msgDiscard := 0, answerDrop := 0, linkLoss := 0, restartHeld := false }
  intakes := { fare := none, block := none, segDuplicate := 0, segStray := 0 }
  cat :=
    { h := 0, b := 0, chain := [], retired := [], active := none, pendingFare := none, withdrawn := [], hold := none
      records := 0 }
  table :=
    { state := .empty, entries := [], live := 0, marks := Per8.all none, sweep := none, sweepRequest := false
      removeAbsent := 0, markLag := 0 }
  roster := { drops := Per8.all Drop.reset, pollMode := .continuous, probe := 0, lastTap := none, lastRound := none }
  planner := { jobs := [], lastServed := none, log := none, retries := 0, jobFail := 0, preempt := 0 }
  trunk :=
    { ex := none, request := none, round := none, pushCount := 0, emptyPause := none, lastUrgent := none, lineFrom := 0
      collision := 0, noAnswer := 0, garble := 0, waitLimit := 0, goBack := 0, rounds := 0, broadcasts := 0 }
  change := { state := .idle, hold := .absent, door := none, requested := none, forced := false }
  taps :=
    { queue := [], unscreened := 0, lateListed := 0, listedIgnored := 0, staleTariff := 0, clear := 0, zeroAllowance := 0
      tapsOut := 0 }

end Sys2Proof.Machine
end

