-- ==== Sys2Proof/Machine/Ops.lean ====
section
/-! DEFINITION. The named operations that every block shares: one setter for each block, counters, the serial arithmetic of
editions (R8 to R11), the two check computations (R6, R121), notices (R185) and answers (R176). -/

namespace Sys2Proof.Machine

/-! ### Setters, one for each field of State: every operation changes the state through them -/

/-- The state with `pending` replaced. -/
def State.setPending (s : State) (x : List Instr) : State := { s with pending := x }
/-- The state with `timebase` replaced. -/
def State.setTimebase (s : State) (x : Nat) : State := { s with timebase := x }
/-- The state with `clock` replaced. -/
def State.setClock (s : State) (x : Clock) : State := { s with clock := x }
/-- The state with `settings` replaced. -/
def State.setSettings (s : State) (x : Settings) : State := { s with settings := x }
/-- The state with `port` replaced. -/
def State.setPort (s : State) (x : Port) : State := { s with port := x }
/-- The state with `intakes` replaced. -/
def State.setIntakes (s : State) (x : Intakes) : State := { s with intakes := x }
/-- The state with `cat` replaced. -/
def State.setCat (s : State) (x : Catalogue) : State := { s with cat := x }
/-- The state with `table` replaced. -/
def State.setTable (s : State) (x : CardTable) : State := { s with table := x }
/-- The state with `roster` replaced. -/
def State.setRoster (s : State) (x : Roster) : State := { s with roster := x }
/-- The state with `planner` replaced. -/
def State.setPlanner (s : State) (x : Planner) : State := { s with planner := x }
/-- The state with `trunk` replaced. -/
def State.setTrunk (s : State) (x : Trunk) : State := { s with trunk := x }
/-- The state with `change` replaced. -/
def State.setChange (s : State) (x : Changeover) : State := { s with change := x }
/-- The state with `taps` replaced. -/
def State.setTaps (s : State) (x : Taps) : State := { s with taps := x }

/-! ### Counters (R187) -/

/-- A counter raised by `n`: 16 bits wide, stops at 65,535 (R187). -/
def bump (c n : Nat) : Nat := min 65535 (c + n)

/-! ### Edition numbers (R8 to R11) -/

/-- The successor of an edition on the ring (R8). -/
def succEdition (e : Nat) : Nat := if e = 65535 then 1 else e + 1

/-- The serial distance from v to h, both on the ring (R9). -/
def serialDist (v h : Nat) : Nat := (h + 65535 - v) % 65535

/-- a is serially greater than b (R10). -/
def newer (a b : Nat) : Bool :=
  a != 0 && (b == 0 || (1 ≤ serialDist b a && serialDist b a ≤ 32767))

/-- The serially lowest of `x` and the members of a list, ranked by distance behind h (R11). -/
def serialLowest (h : Nat) (x : Nat) (l : List Nat) : Nat :=
  l.foldl (fun acc m => if serialDist acc h < serialDist m h then m else acc) x

/-! ### Check computations -/

/-- One bit fed into the digest register (R6). -/
def crc32Bit (r : BitVec 32) (bit : Bool) : BitVec 32 :=
  if r.getLsbD 0 != bit then (r >>> 1) ^^^ 0xEDB88320 else r >>> 1

/-- One byte fed into the digest register, least significant bit first (R6). -/
def crc32Byte (r : BitVec 32) (b : Byte) : BitVec 32 :=
  [0, 1, 2, 3, 4, 5, 6, 7].foldl (fun r i => crc32Bit r (b.getLsbD i)) r

/-- The digest register preset: every bit set (R6). -/
def crc32Preset : BitVec 32 := 0xFFFFFFFF

/-- Bytes fed into the digest register (R6). -/
def crc32Feed (r : BitVec 32) (bytes : List Byte) : BitVec 32 := bytes.foldl crc32Byte r

/-- The digest of a run of bytes (R6). -/
def digestOf (bytes : List Byte) : BitVec 32 := ~~~ (crc32Feed crc32Preset bytes)

/-- One bit fed into the trunk check register (R121). -/
def crc16Bit (r : BitVec 16) (bit : Bool) : BitVec 16 :=
  if r.getLsbD 15 != bit then (r <<< 1) ^^^ 0x1021 else r <<< 1

/-- One byte fed into the trunk check register, most significant bit first (R121). -/
def crc16Byte (r : BitVec 16) (b : Byte) : BitVec 16 :=
  [7, 6, 5, 4, 3, 2, 1, 0].foldl (fun r i => crc16Bit r (b.getLsbD i)) r

/-- The check of a trunk frame over its address, kind, length and payload bytes (R121). -/
def trunkCheck (bytes : List Byte) : BitVec 16 := bytes.foldl crc16Byte 0xFFFF

/-- The check's two bytes as they travel, most significant byte first (R189). -/
def checkBytes (c : BitVec 16) : List Byte := [(c >>> 8).setWidth 8, c.setWidth 8]

/-! ### Roster and job reads -/

/-- A drop's record. -/
def State.drop (s : State) (d : DropId) : Drop := s.roster.drops.get d

/-- The state with a drop's record replaced. -/
def State.setDrop (s : State) (d : DropId) (x : Drop) : State :=
  s.setRoster { s.roster with drops := s.roster.drops.set d x }

/-- The class settings of a drop (R90). -/
def State.classOf (s : State) (d : DropId) : ClassSettings :=
  s.settings.classes.get (s.settings.dropMap.get d).cls

/-- The fleet minute that a stamp takes: C, or 0 when the clock is invalid (R12, R116, R160, R185). -/
def State.stamp (s : State) : Nat := if s.clock.valid then s.clock.minute else 0

/-- The minute phase (R12): the time since the clock last advanced or was set, held at 0 while the clock is invalid. -/
def State.minutePhase (s : State) : Nat := if s.clock.valid then s.timebase - s.clock.phaseStart else 0

/-- The timebase moved up to a time, if it is not there yet (log 2). -/
def State.passTo (s : State) (t : Nat) : State := s.setTimebase (max s.timebase t)

end Sys2Proof.Machine
end

