-- ==== Sys2Proof/Machine/Flags.lean ====
section
/-! DEFINITION. The notice flags (R185, R186), the answer queue (R176) and the uplink's choice of the next frame (R177). -/

namespace Sys2Proof.Machine

/-- A flag's held context; absent when the flag is clear (R185). -/
def FlagSet.get (f : FlagSet) : Flag → Option Ctx
  | .loadDone => f.loadDone
  | .loadRefused => f.loadRefused
  | .dropJoined => f.dropJoined
  | .dropLost => f.dropLost
  | .jobFailed => f.jobFailed
  | .changeoverDone => f.changeoverDone
  | .changeoverHeld => f.changeoverHeld
  | .changeoverForced => f.changeoverForced
  | .tableFull => f.tableFull
  | .tapqFull => f.tapqFull

/-- The flags with one flag's held context replaced. -/
def FlagSet.put (f : FlagSet) (g : Flag) (c : Option Ctx) : FlagSet :=
  match g with
  | .loadDone => { f with loadDone := c }
  | .loadRefused => { f with loadRefused := c }
  | .dropJoined => { f with dropJoined := c }
  | .dropLost => { f with dropLost := c }
  | .jobFailed => { f with jobFailed := c }
  | .changeoverDone => { f with changeoverDone := c }
  | .changeoverHeld => { f with changeoverHeld := c }
  | .changeoverForced => { f with changeoverForced := c }
  | .tableFull => { f with tableFull := c }
  | .tapqFull => { f with tapqFull := c }

/-- The flags in the order of their codes (11, section 11.1.2). -/
def allFlags : List Flag :=
  [.loadDone, .loadRefused, .dropJoined, .dropLost, .jobFailed, .changeoverDone, .changeoverHeld, .changeoverForced,
    .tableFull, .tapqFull]

/-- A flag's code and its bit in the flag set (11, section 11.1.2). -/
def Flag.code : Flag → Nat
  | .loadDone => 0
  | .loadRefused => 1
  | .dropJoined => 2
  | .dropLost => 3
  | .jobFailed => 4
  | .changeoverDone => 5
  | .changeoverHeld => 6
  | .changeoverForced => 7
  | .tableFull => 8
  | .tapqFull => 9

/-- Whether a flag's class is enabled (R185, R186). -/
def Enables.has (e : Enables) : Flag → Bool
  | .loadDone | .loadRefused => e.load
  | .dropJoined | .dropLost => e.drop
  | .jobFailed => e.job
  | .changeoverDone | .changeoverHeld | .changeoverForced => e.changeover
  | .tableFull => e.table
  | .tapqFull => e.tapq

/-- A NOTICE put into the notice queue: the one that waits for the same flag takes the new context and keeps its place,
otherwise the NOTICE joins the end (R185). -/
def queueNotice (q : List Notice) (n : Notice) : List Notice :=
  if q.any (fun x => x.flag == n.flag) then q.map (fun x => if x.flag = n.flag then n else x) else q ++ [n]

/-- The port after the raising of a flag with a context (R185): nothing changes when the flag is already set. -/
def Port.raise (p : Port) (e : Enables) (f : Flag) (c : Ctx) : Port :=
  match p.flags.get f with
  | some _ => p
  | none =>
    { p with
      flags := p.flags.put f (some c)
      notices := if e.has f then queueNotice p.notices { flag := f, ctx := c } else p.notices }

/-- A flag raised with the context its class takes, stamped with the fleet minute (R185). -/
def State.raise (s : State) (f : Flag) (edition : Nat) (code : Option Code) (drop : Option DropId) : State :=
  s.setPort (s.port.raise s.settings.enables f { edition, code, drop, minute := s.stamp })

/-- LOAD_DONE or LOAD_REFUSED raised with an edition and a code (R185). -/
def State.raiseLoad (s : State) (f : Flag) (edition : Nat) (code : Code) : State := s.raise f edition (some code) none

/-- A flag raised with a drop as its context (R185). -/
def State.raiseDrop (s : State) (f : Flag) (d : DropId) : State := s.raise f 0 none (some d)

/-- A flag raised with an edition as its context (R185). -/
def State.raiseEdition (s : State) (f : Flag) (edition : Nat) : State := s.raise f edition none none

/-! ### Answers (R176) -/

/-- The answers owed and not yet formed: the pending close of either context and the abort pending (R176). -/
def Load.owed (l : Load) : Nat := (if l.close.isSome then 1 else 0) + (if l.abort.isSome then 1 else 0)

/-- The number of deferred answers (R176). -/
def State.deferred (s : State) : Nat :=
  (match s.intakes.fare with | some l => l.owed | none => 0) + (match s.intakes.block with | some l => l.owed | none => 0)

/-- Whether a message that takes an answer is taken (R176). -/
def State.answerRoom (s : State) : Bool := s.port.answers.length + s.deferred < 16

/-- An answer that joins the end of the answer queue (R176). -/
def State.answer (s : State) (a : Answer) : State := s.setPort { s.port with answers := s.port.answers ++ [a] }

/-- A RESULT that carries only a code (11, section 11.1.4). -/
def State.result (s : State) (tag : Tag) (code : Code) : State := s.answer (.result tag code 0 0 0 0)

/-- The gateway address becomes the source of an accepted frame (R174). -/
def State.acceptFrom (s : State) (src : MacAddr) : State := s.setPort { s.port with gateway := some src }

/-- A message discarded for want of answer room (R176). -/
def State.dropAnswer (s : State) : State := s.setPort { s.port with answerDrop := bump s.port.answerDrop 1 }

/-- A message discarded by its header (R175). -/
def State.discardMessage (s : State) : State := s.setPort { s.port with msgDiscard := bump s.port.msgDiscard 1 }

/-! ### The uplink (R168, R177) -/

/-- The destination of a frame formed now: the gateway address, or broadcast while it is none (R174). -/
def Port.destination (p : Port) : MacAddr := p.gateway.getD 0xFFFFFFFFFFFF

/-- What the next frame carries: the oldest answer, else the oldest NOTICE, else a TAPS message of up to 8 of the oldest
records, else nothing (R177, R168). -/
def State.nextBody (s : State) : Option TxBody :=
  match s.port.answers with
  | a :: _ => some (.answer a)
  | [] =>
    match s.port.notices with
    | n :: _ => some (.notice n)
    | [] => if s.taps.queue.isEmpty then none else some (.taps (min 8 s.taps.queue.length))

/-- The Gateway Port forms the next frame when none is in transmission and the link is UP (R177). It stands at the end of
every event in which an answer, a NOTICE or a tap record can have joined (log 7). -/
def State.uplink (s : State) : State :=
  if s.port.linkUp ∧ s.port.tx = none then
    s.setPort
      { s.port with
        tx := s.nextBody.map fun b => { dest := s.port.destination, etherType := s.settings.protocolType, body := b } }
  else s

/-- A message that takes an answer: its frame is accepted, then it is taken when there is room for its answer and discarded
whole otherwise (R174, R176). The uplink makes its choice at the end. -/
def State.takeMessage (s : State) (m : Head) (take : State → State) : State :=
  if (s.acceptFrom m.src).answerRoom then (take (s.acceptFrom m.src)).uplink else (s.acceptFrom m.src).dropAnswer

end Sys2Proof.Machine
end

