-- ==== Sys2Proof/Machine/Operands.lean ====
section
/-! DEFINITION. The forms in which values cross the ports: codes, dataset items (R4, R5, R191), trunk frames and answers
(R121, R122, R127, R192), tap records, and the frames of the gateway link (R174, R189, R190). -/

namespace Sys2Proof.Machine

/-! ### Codes (11, section 11.1) -/

/-- The dataset kind a code names (R190). -/
def kindOf (c : Byte) : Option Kind := if c = 1 then some .fare else if c = 2 then some .block else none

/-- The code of a dataset kind. -/
def kindCode : Kind → Byte
  | .fare => 1
  | .block => 2

/-- The form a code names (R190). -/
def formOf (c : Byte) : Option Form := if c = 1 then some .full else if c = 2 then some .delta else none

/-- The code of a form. -/
def formCode : Form → Byte
  | .full => 1
  | .delta => 2

/-- The result codes (11, section 11.1.4). -/
def Code.byte : Code → Byte
  | .ok => 0x00
  | .accepted => 0x01
  | .acceptedContinue => 0x02
  | .restarted => 0x03
  | .incomplete => 0x04
  | .done => 0x05
  | .busy => 0x10
  | .inProgress => 0x11
  | .notOpen => 0x12
  | .aborted => 0x13
  | .badForm => 0x20
  | .tooLarge => 0x21
  | .stale => 0x22
  | .gap => 0x23
  | .digestBad => 0x24
  | .malformed => 0x25
  | .tableFull => 0x26
  | .timeout => 0x27
  | .badWindow => 0x30
  | .badMap => 0x31
  | .badValue => 0x32

/-- The reason codes of the error log and of a job's last cause (11, section 11.1.5). -/
def Cause.byte : Cause → Byte
  | .noRoom => 1
  | .nofit => 2
  | .noAnswer => 3
  | .garbled => 4
  | .waitLimit => 5
  | .refused => 6
  | .badSequence => 7
  | .digest => 8
  | .notStaged => 9
  | .goBack => 10

/-- A mark as one byte. -/
def mark8 (b : Bool) : Byte := if b then 1 else 0

/-- The field of `w` bytes at an offset, least significant byte first (R189). -/
def field (w off : Nat) (bytes : List Byte) : Nat := leNat ((bytes.drop off).take w)

/-- Whether every byte is zero. -/
def allZero (bytes : List Byte) : Bool := bytes.all (fun b => b == 0)

/-! ### Dataset items (R2, R4, R5, R191) -/

/-- How many items a segment holds (R2). -/
def itemsPerSegment : Kind → Nat
  | .fare => 6
  | .block => 20

/-- How many bytes an item takes (01, section 1.2). -/
def itemSize : Kind → Nat
  | .fare => 40
  | .block => 12

/-- The number of segments of an edition of `count` items (R2). -/
def segmentsFor (k : Kind) (count : Nat) : Nat := max 1 ((count + itemsPerSegment k - 1) / itemsPerSegment k)

/-- The limit on the item count (R3). -/
def itemLimit : Kind → Form → Nat
  | .fare, _ => 512
  | .block, .full => 131072
  | .block, .delta => 2048

/-- The first `n` slots of `size` bytes. -/
def cutSlots (size : Nat) : Nat → List Byte → List (List Byte)
  | 0, _ => []
  | n + 1, bytes => bytes.take size :: cutSlots size n (bytes.drop size)

/-- The slots of an edition in item order (R2). -/
def slotsOf (k : Kind) (segs : List Segment) : List (List Byte) :=
  segs.flatMap (cutSlots (itemSize k) (itemsPerSegment k))

/-- The product ID of a product record (11, section 11.2). -/
def productId (b : List Byte) : Nat := field 2 0 b

/-- Whether a slot holds a legal product record after one with ID `prev` (0 for the first) (R4, R191). -/
def productLegal (prev : Nat) (b : List Byte) : Bool :=
  let flags := field 1 12 b
  decide (prev < productId b) && decide (1 ≤ field 1 2 b ∧ field 1 2 b ≤ 5) && decide (1 ≤ field 1 3 b ∧ field 1 3 b ≤ 4) &&
    decide (field 2 6 b ≠ 0) && decide (field 2 8 b ≤ 10080) && decide (field 2 10 b ≤ field 2 8 b) &&
    decide (flags < 8) && !(flags % 2 == 1 && flags / 2 % 2 == 1) && decide (field 1 13 b = 0) && allZero (b.drop 16)

/-- A change of a BLOCK edition: the fields of a blocklist entry (R5). -/
structure Change where
  card : Nat
  remove : Bool
  reason : Nat
  expiry : Nat
  deriving DecidableEq, Repr

/-- The blocklist entry of a slot (11, section 11.2). -/
def changeOf (b : List Byte) : Change :=
  { card := field 8 0 b, remove := field 1 8 b / 128 == 1, reason := field 1 8 b % 16, expiry := field 2 10 b }

/-- Whether a slot holds a legal blocklist entry after one with card ID `prev` (0 for the first) (R5, R191). -/
def entryLegal (form : Form) (prev : Nat) (b : List Byte) : Bool :=
  let c := changeOf b
  decide (prev < c.card) && decide (field 1 8 b / 16 % 8 = 0) && decide (field 1 9 b = 0) &&
    (if c.remove then form == .delta && c.reason == 0 && c.expiry == 0 else decide (1 ≤ c.reason))

/-- The first slot that fails stage 2 of the intake check, by its index: the first `count` slots hold legal items, the rest
are all zero (R26, R2). -/
def firstBad (legal : Nat → List Byte → Bool) (idOf : List Byte → Nat) (count : Nat) :
    Nat → Nat → List (List Byte) → Option Nat
  | _, _, [] => none
  | i, prev, b :: bs =>
    if i < count then
      if legal prev b then firstBad legal idOf count (i + 1) (idOf b) bs else some i
    else if allZero b then firstBad legal idOf count (i + 1) prev bs
    else some i

/-- Stage 2 of the intake check for a kind and form (R26). -/
def firstMalformed (k : Kind) (form : Form) (count : Nat) (segs : List Segment) : Option Nat :=
  match k with
  | .fare => firstBad productLegal productId count 0 0 (slotsOf .fare segs)
  | .block => firstBad (entryLegal form) (fun b => (changeOf b).card) count 0 0 (slotsOf .block segs)

/-- The changes of a BLOCK edition in index order. -/
def changesOf (count : Nat) (segs : List Segment) : List Change := ((slotsOf .block segs).take count).map changeOf

/-- A blocklist entry as the serializer writes it: ADD, reserved bits and bytes zero (R191). -/
def entryBytes (e : Entry) : List Byte :=
  leBytes 8 e.card ++ [BitVec.ofNat 8 (e.reason % 16), 0] ++ leBytes 2 e.expiry

/-- A snapshot segment: the entries in slots 0 onward, every later slot all zero (R72). -/
def packSegment (es : List Entry) : Segment :=
  es.flatMap entryBytes ++ List.replicate (240 - 12 * es.length) 0

/-! ### Tap records (11, section 11.3) -/

/-- Bytes 0 to 23 of a tap record, as a STATUS carries it. -/
def readTap (b : List Byte) : Tap where
  seq := BitVec.ofNat 16 (field 2 0 b)
  card := BitVec.ofNat 64 (field 8 2 b)
  product := BitVec.ofNat 16 (field 2 10 b)
  fare := BitVec.ofNat 16 (field 2 12 b)
  fareUsed := BitVec.ofNat 16 (field 2 14 b)
  blockUsed := BitVec.ofNat 16 (field 2 16 b)
  decision := BitVec.ofNat 8 (field 1 18 b)
  byte19 := BitVec.ofNat 8 (field 1 19 b)
  minute := BitVec.ofNat 32 (field 4 20 b)

/-- Bytes 0 to 23 of a tap record, unchanged (R192). -/
def tapBytes (t : Tap) : List Byte :=
  le 2 t.seq ++ le 8 t.card ++ le 2 t.product ++ le 2 t.fare ++ le 2 t.fareUsed ++ le 2 t.blockUsed ++ [t.decision, t.byte19] ++
    le 4 t.minute

/-- The code of a verdict (11, section 11.3). -/
def Verdict.byte : Verdict → Byte
  | .unscreened => 0
  | .lateListed => 1
  | .listedIgnored => 2
  | .staleTariff => 3
  | .clear => 4

/-- All 36 bytes of a screened tap record, as a TAPS message carries it (11, section 11.3). -/
def screenedBytes (t : Screened) : List Byte :=
  tapBytes t.tap ++ [BitVec.ofNat 8 (addrOf t.drop), t.verdict.byte] ++ leBytes 2 t.head ++ leBytes 2 t.active ++ [0, 0] ++
    leBytes 4 t.arrival

/-! ### Trunk frames and answers (R121, R122, R127, R192) -/

/-- A hub frame's kind code and payload (11, section 11.3). -/
def framePayload : TrunkFrame → Byte × List Byte
  | .poll a => (0x10, [BitVec.ofNat 8 a])
  | .openF k e f n base urgent restart =>
    (0x11, [kindCode k, formCode f] ++ leBytes 2 e ++ leBytes 2 n ++ leBytes 2 base ++
      [BitVec.ofNat 8 ((if urgent then 1 else 0) + (if restart then 2 else 0))])
  | .segment i last payload => (0x12, leBytes 2 i ++ [mark8 last] ++ payload.getD [])
  | .close digest => (0x13, le 4 digest)
  | .activate e => (0x14, leBytes 2 e)

/-- The bytes of a hub frame on the line: start delimiter, address, kind, length, payload, check (R121). -/
def trunkBytes (drop : Option DropId) (f : TrunkFrame) : List Byte :=
  let (kind, payload) := framePayload f
  let addr := match drop with | some d => BitVec.ofNat 8 (addrOf d) | none => 0
  let covered := [addr, kind, BitVec.ofNat 8 payload.length] ++ payload
  0xA5 :: covered ++ checkBytes (trunkCheck covered)

/-- Whether a frame expects an answer when it is sent to a drop (R78, R122). -/
def TrunkFrame.expectsAnswer : TrunkFrame → Bool
  | .segment _ last _ => last
  | .poll _ | .openF _ _ _ _ _ _ _ | .close _ | .activate _ => true

/-- The reasons of a NAK (R122). -/
inductive NakReason where
  | noRoom | badSequence | digest | notStaged | refused
  deriving DecidableEq, Repr

/-- The reason a NAK's code names; a code that names none is REFUSED (R122, R192). -/
def nakReason (c : Byte) : NakReason :=
  if c = 1 then .noRoom else if c = 2 then .badSequence else if c = 3 then .digest else if c = 4 then .notStaged else .refused

/-- A good answer's content (R122). An ACK's value is the start index, the next expected index or the edition; `waiting` is
a burst ACK's taps-waiting count. -/
inductive Reply where
  | status (h : Holdings) (tapsHeld : Nat) (taps : List Tap)
  | ack (value : Nat) (waiting : Option Nat)
  | wait
  | nak (r : NakReason)
  deriving DecidableEq, Repr

/-- The reply that a checked answer of a kind and payload gives to a frame; none when the kind is not admitted for the frame
or the length is not the one the frame table gives (R127, R192). -/
def replyOf (f : TrunkFrame) (kind : Byte) (payload : List Byte) : Option Reply :=
  if kind = 0x22 then (if payload.length = 0 then some .wait else none)
  else if kind = 0x23 then (if payload.length = 1 then some (.nak (nakReason (payload.headD 0))) else none)
  else
    match f with
    | .poll allowance =>
      if kind = 0x20 ∧ 9 ≤ payload.length ∧ payload.length = 9 + 24 * field 1 8 payload ∧ field 1 8 payload ≤ allowance then
        some (.status ⟨field 2 0 payload, field 2 2 payload, field 2 4 payload⟩ (field 2 6 payload)
          ((cutSlots 24 (field 1 8 payload) (payload.drop 9)).map readTap))
      else none
    | .openF _ _ _ _ _ _ _ => if kind = 0x21 ∧ payload.length = 2 then some (.ack (field 2 0 payload) none) else none
    | .segment _ _ _ =>
      if kind = 0x21 ∧ payload.length = 4 then some (.ack (field 2 0 payload) (some (field 2 2 payload))) else none
    | .close _ | .activate _ => if kind = 0x21 ∧ payload.length = 2 then some (.ack (field 2 0 payload) none) else none

/-- A complete answer judged against the drop and the frame it answers: none when it is garbled (R127). The bytes are address,
kind, length, payload and the two check bytes (R126). -/
def judgeAnswer (drop : Option DropId) (f : TrunkFrame) (bytes : List Byte) : Option Reply :=
  match bytes with
  | addr :: kind :: len :: rest =>
    let payload := rest.take len.toNat
    if rest.length = len.toNat + 2 ∧ rest.drop len.toNat = checkBytes (trunkCheck (addr :: kind :: len :: payload)) ∧
        drop.map addrOf = some addr.toNat then
      replyOf f kind payload
    else none
  | _ => none

/-- The largest answer admitted for a frame, in payload bytes (11, section 11.3). An answer whose length field gives more is
cut: ANSWER_LENGTH_TOO_LARGE (R126). -/
def largestAnswer : TrunkFrame → Nat
  | .poll a => 9 + 24 * a
  | .openF _ _ _ _ _ _ _ | .segment _ _ _ | .close _ | .activate _ => 4

/-! ### Frames of the gateway link (R174, R189, R190) -/

/-- The bytes of a RESULT's or NOTICE's header and body; the body is padded to the 46-byte minimum (R190). -/
def gatewayPayload (kind : Byte) (tag : Tag) (body : List Byte) : List Byte :=
  writeMessage kind tag body ++ List.replicate (46 - (5 + body.length)) 0

/-- The payload of an answer's frame (11, section 11.1.4). -/
def Answer.payload : Answer → List Byte
  | .result tag code kind edition v1 v2 =>
    gatewayPayload 0x81 tag ([code.byte, kind] ++ leBytes 2 edition ++ leBytes 4 v1 ++ leBytes 4 v2)
  | .report tag topic content => gatewayPayload 0x82 tag ([topic, 0] ++ content)

/-- The payload of a NOTICE (11, section 11.1.4): it carries tag 0. -/
def Notice.payload (n : Notice) : List Byte :=
  gatewayPayload 0x83 0
    ([BitVec.ofNat 8 n.flag.code, 0] ++ leBytes 2 n.ctx.edition ++
      [match n.ctx.code with | some c => c.byte | none => 0, BitVec.ofNat 8 (match n.ctx.drop with | some d => addrOf d | none => 0),
        0, 0] ++ leBytes 4 n.ctx.minute)

/-- The payload of a TAPS message of these records (11, section 11.1.4): it carries tag 0. -/
def tapsPayload (records : List Screened) : List Byte :=
  gatewayPayload 0x84 0 ([BitVec.ofNat 8 records.length, 0] ++ records.flatMap screenedBytes)

/-- An address as it travels, first byte first, also in the SUMMARY (log 50). -/
def macBytes (a : MacAddr) : List Byte := (leBytes 6 a.toNat).reverse

/-- The bytes of the frame in transmission, without the frame check sequence that the MAC adds: destination, the station
address, the type most significant byte first, the payload (R174, R189). -/
def State.txBytes (s : State) : Option (List Byte) :=
  s.port.tx.map fun t =>
    macBytes t.dest ++ macBytes Config.stationAddress ++ checkBytes t.etherType ++
      match t.body with
      | .answer a => a.payload
      | .notice n => n.payload
      | .taps k => tapsPayload (s.taps.queue.take k)

/-- The command an arriving Ethernet frame is (R174, R175, R176): dropped for its check sequence, of another type, a message
discarded by its header, a message that finds no room for its answer, or the message it carries. The destination address is
not examined. -/
def classifyFrame (s : State) (fcsGood : Bool) (src : MacAddr) (etherType : BitVec 16) (payload : List Byte) : Instr :=
  if !fcsGood then .fcsBad
  else if etherType ≠ s.settings.protocolType then .otherType
  else
    match decodeMessage src payload with
    | .error why => .msgDiscard src why
    | .ok (.loadSegment m kind edition index body) => .loadSegment m kind edition index body
    | .ok i => if (s.acceptFrom src).answerRoom then i else .answerDrop src

end Sys2Proof.Machine
end

