-- ==== Sys2Proof/Machine/CardTable.lean ====
section
/-! DEFINITION. The Card Table (chapter 4): liveness, lookups, the delta check's figures, the work of an apply, an undo, a
rebuild and a sweep pass, read marks and the snapshot serializer. -/

namespace Sys2Proof.Machine

/-- The slots of the Card Table (R54). -/
def tableSlots : Nat := 133120
/-- The most entries live at h (R54). -/
def liveLimit : Nat := 131072

/-! ### Liveness and expiry -/

/-- Whether an entry is live at an edition (R53). -/
def liveAt (ed : Nat) (e : Entry) : Bool :=
  ed != 0 && !newer e.since ed && (match e.until_ with | none => true | some u => newer u ed)

/-- The editions of the read marks. -/
def State.markedEditions (s : State) : List Nat := s.table.marks.toList.filterMap (fun m => m.map Mark.edition)

/-- The lowest read edition (R68). -/
def State.lowestRead (s : State) : Nat := if s.cat.h = 0 then 0 else serialLowest s.cat.h s.cat.h s.markedEditions

/-- The horizon z (R68). -/
def State.horizon (s : State) : Nat := if s.cat.h = 0 then 0 else serialLowest s.cat.h s.cat.b s.markedEditions

/-- The service day of a fleet minute (R17). -/
def serviceDay (offset m : Nat) : Nat := if m < offset then 0 else (m - offset) / 1440

/-- Whether an expiry day matches for a tap minute (R17): the day is the tap's own, else the hub's, else it matches. -/
def State.expiryMatches (s : State) (expiry tapMinute : Nat) : Bool :=
  expiry == 0 ||
    (if tapMinute ≠ 0 then decide (serviceDay s.settings.dayStart tapMinute ≤ expiry)
    else if s.clock.valid then decide (serviceDay s.settings.dayStart s.clock.minute ≤ expiry)
    else true)

/-- A lookup's answer (R56). -/
inductive Lookup where
  | unusable
  | listed (since reason : Nat)
  | notListed
  deriving DecidableEq, Repr

/-- A lookup of a card at h (R56). -/
def State.lookup (s : State) (card tapMinute : Nat) : Lookup :=
  match s.table.state with
  | .empty | .rebuilding _ _ => .unusable
  | .ready | .applying _ _ _ =>
    match s.table.entries.find? (fun e => e.card == card && liveAt s.cat.h e && s.expiryMatches e.expiry tapMinute) with
    | some e => .listed e.since e.reason
    | none => .notListed

/-! ### Sweep requests and read marks -/

/-- A pass that starts now: it fixes the lowest read edition and the horizon (R69). -/
def State.newPass (s : State) : Pass := { lowest := s.lowestRead, horizon := s.horizon, after := none }

/-- A sweep request (R69): a pass starts at once when the sweep is IDLE, and the request mark is set when it is RUNNING. -/
def State.requestSweep (s : State) : State :=
  match s.table.sweep with
  | none => s.setTable { s.table with sweep := some s.newPass }
  | some _ => s.setTable { s.table with sweepRequest := true }

/-- The read mark of a drop. -/
def State.mark (s : State) (d : DropId) : Option Mark := s.table.marks.get d

/-- The state with a drop's read mark replaced. -/
def State.setMark (s : State) (d : DropId) (m : Option Mark) : State :=
  s.setTable { s.table with marks := s.table.marks.set d m }

/-- A drop's read mark released, if it holds one (R66): the mark and its cursor are discarded and a sweep is requested. -/
def State.releaseMark (s : State) (d : DropId) : State :=
  match s.mark d with
  | none => s
  | some _ => (s.setMark d none).requestSweep

/-- The start of a snapshot (R65). -/
def Point.start : Point := { index := 0, key := 0, reg := crc32Preset }

/-- The read mark that a placement makes: h0 is h, its figures are fixed, its cursor at the start (R65). -/
def State.newMark (s : State) : Mark :=
  { edition := s.cat.h, count := s.table.live, segs := segmentsFor .block s.table.live
    cur := Point.start, burst := Point.start, ack := Point.start }

/-- A read mark placed for a drop; a mark the drop already holds is replaced and thereby released (R65). -/
def State.placeMark (s : State) (d : DropId) : State := (s.releaseMark d).setMark d (some s.newMark)

/-- Whether a placement is refused: the table is EMPTY or REBUILDING (R65). -/
def State.tableClosed (s : State) : Bool :=
  match s.table.state with
  | .empty | .rebuilding _ _ => true
  | .ready | .applying _ _ _ => false

/-! ### The snapshot serializer (R72, R73, R74) -/

/-- The segment at the cursor's next index: the first entries live at h0 above the key, up to 20 (R73). -/
def Mark.nextEntries (m : Mark) (es : List Entry) : List Entry :=
  (es.filter (fun e => liveAt m.edition e && m.cur.key < e.card)).take 20

/-- The payload of that segment (R72). -/
def Mark.nextSegment (m : Mark) (es : List Entry) : Segment := packSegment (m.nextEntries es)

/-- The mark after that segment has been produced: key, digest register and next index move on (R73). -/
def Mark.produce (m : Mark) (es : List Entry) : Mark :=
  { m with
    cur :=
      { index := m.cur.index + 1
        key := match (m.nextEntries es).getLast? with | some e => e.card | none => m.cur.key
        reg := crc32Feed m.cur.reg (m.nextSegment es) } }

/-- `n` segments produced without being sent (R74). -/
def Mark.produceMany (m : Mark) (es : List Entry) : Nat → Mark
  | 0 => m
  | n + 1 => (m.produce es).produceMany es n

/-- The snapshot's digest, held for the CLOSE once the next index has reached S (R73). -/
def Mark.digest (m : Mark) : BitVec 32 := ~~~ m.cur.reg

/-- A burst begins: burst start becomes the cursor's position (R74). -/
def Mark.beginBurst (m : Mark) : Mark := { m with burst := m.cur }
/-- A burst acknowledged through its last segment (R74). -/
def Mark.acknowledge (m : Mark) : Mark := { m with ack := m.cur }
/-- The cursor back at the burst start (R74). -/
def Mark.toBurst (m : Mark) : Mark := { m with cur := m.burst }
/-- The cursor back at the acknowledged point (R74). -/
def Mark.toAck (m : Mark) : Mark := { m with cur := m.ack }
/-- The push restarts at index 0; the mark and h0 are kept (R74). -/
def Mark.restart (m : Mark) : Mark := { m with cur := Point.start, burst := Point.start, ack := Point.start }

/-- A drop's read mark changed, if it holds one. -/
def State.onMark (s : State) (d : DropId) (f : Mark → Mark) : State := s.setMark d ((s.mark d).map f)

/-! ### Visiting the table -/

/-- Whether an entry lies after a place in the visiting order (R69). -/
def afterPlace (p : Place) (e : Entry) : Bool :=
  match p with
  | none => true
  | some (card, since) => decide (card < e.card) || (e.card == card && newer e.since since)

/-- Visit up to `n` entries after a place: each is removed or replaced. The entries that result, and the place reached. -/
def visit (f : Entry → Option Entry) : Place → Nat → List Entry → List Entry × Place
  | p, _, [] => ([], p)
  | p, n, e :: es =>
    if n = 0 then (e :: es, p)
    else if afterPlace p e then
      match f e with
      | none => visit f (some (e.card, e.since)) (n - 1) es
      | some e' => (e' :: (visit f (some (e.card, e'.since)) (n - 1) es).1, (visit f (some (e.card, e'.since)) (n - 1) es).2)
    else (e :: (visit f p n es).1, (visit f p n es).2)

/-- The edition whose stamps an apply in flight writes, forward or in the undo (R59, R61). -/
def TableState.writing : TableState → Option Nat
  | .applying ed _ _ => some ed
  | .empty | .ready | .rebuilding _ _ => none

/-- Whether an apply of edition `ed` has made an entry or set its until-stamp (R59). -/
def Entry.writtenBy (e : Entry) (ed : Nat) : Bool := e.since == ed || e.until_ == some ed

/-- What a sweep pass does with an entry (R70). While an apply is in flight the pass leaves alone what that apply has written, also
an entry whose until-stamp it has set (R71; log 35). -/
def sweepEntry (writing : Option Nat) (lowest horizon : Nat) (e : Entry) : Option Entry :=
  if writing.any e.writtenBy then some e
  else
    match e.until_ with
    | some u =>
      if newer u lowest then some (if newer horizon e.since then { e with since := horizon } else e) else none
    | none => some (if newer horizon e.since then { e with since := horizon } else e)

/-- What an undo of edition E does with an entry (R61). -/
def undoEntry (ed : Nat) (e : Entry) : Option Entry :=
  if e.since = ed then none else some (if e.until_ = some ed then { e with until_ := none } else e)

/-- Whether an entry is purgeable under the lowest read edition (R57). -/
def purgeable (lowest : Nat) (e : Entry) : Bool :=
  match e.until_ with
  | some u => !newer u lowest
  | none => false

/-- The purge of an apply (R59): visit up to `n` entries after a place and remove purgeable ones while `need` are wanted. -/
def purgeSome (lowest : Nat) : Place → Nat → Nat → List Entry → List Entry × Place
  | p, _, _, [] => ([], p)
  | p, need, n, e :: es =>
    if need = 0 ∨ n = 0 then (e :: es, p)
    else if afterPlace p e then
      if purgeable lowest e then purgeSome lowest (some (e.card, e.since)) (need - 1) (n - 1) es
      else
        (e :: (purgeSome lowest (some (e.card, e.since)) need (n - 1) es).1,
          (purgeSome lowest (some (e.card, e.since)) need (n - 1) es).2)
    else (e :: (purgeSome lowest p need n es).1, (purgeSome lowest p need n es).2)

/-! ### Applying a delta (R57 to R60) -/

/-- The stored segments of a load, in index order. -/
def Load.payloads (l : Load) : List Segment := l.segments.filterMap id

/-- The changes of a load's edition. -/
def Load.changes (l : Load) : List Change := changesOf l.itemCount l.payloads

/-- Whether a card has an entry live at an edition. -/
def cardLive (ed : Nat) (es : List Entry) (card : Nat) : Bool := es.any (fun e => e.card == card && liveAt ed e)

/-- The ADD changes of a delta. -/
def addsOf (cs : List Change) : Nat := (cs.filter (fun c => !c.remove)).length

/-- The figures of the delta check, formed against the table as it stands (R57, R58). -/
def State.figures (s : State) (cs : List Change) : Figures :=
  let es := s.table.entries
  { adds := addsOf cs
    liveAfter :=
      s.table.live + (cs.filter (fun c => !c.remove && !cardLive s.cat.h es c.card)).length -
        (cs.filter (fun c => c.remove && cardLive s.cat.h es c.card)).length
    purgeable := (es.filter (purgeable s.lowestRead)).length
    available := tableSlots - es.length + (es.filter (purgeable s.lowestRead)).length
    removeAbsent := (cs.filter (fun c => c.remove && !cardLive s.cat.h es c.card)).length }

/-- Whether the delta check refuses (R57). -/
def Figures.refuse (f : Figures) : Bool := decide (f.available < f.adds) || decide (liveLimit < f.liveAfter)

/-- An entry put in its place: after every entry of a card ID at or below its own (R52). -/
def insertEntry (n : Entry) : List Entry → List Entry
  | [] => [n]
  | e :: es => if n.card < e.card then n :: e :: es else e :: insertEntry n es

/-- The card's entry live at h closed at E (R59). -/
def closeCard (h ed card : Nat) (es : List Entry) : List Entry :=
  es.map (fun e => if e.card = card ∧ liveAt h e = true then { e with until_ := some ed } else e)

/-- One change taken whole by the forward apply (R59). -/
def writeChange (h ed : Nat) (es : List Entry) (c : Change) : List Entry :=
  if c.remove then closeCard h ed c.card es
  else insertEntry { card := c.card, reason := c.reason, expiry := c.expiry, since := ed, until_ := none } (closeCard h ed c.card es)

/-- The changes of the BLOCK intake's edition. -/
def State.blockChanges (s : State) : List Change :=
  match s.intakes.block with
  | some l => l.changes
  | none => []

/-- The free slots that the forward apply still lacks before it begins to write (R59). -/
def purgeNeed (adds held : Nat) : Nat := adds - (tableSlots - held)

/-- Up to `n` entries or changes of an apply in flight handled (R59, R61); an apply is never completed by this. -/
def State.applySome (s : State) (n : Nat) : State :=
  match s.table.state with
  | .applying ed la (.purge p) =>
    let need := purgeNeed (addsOf s.blockChanges) s.table.entries.length
    if need = 0 then s.setTable { s.table with state := .applying ed la (.write 0) }
    else
      let r := purgeSome s.lowestRead p need n s.table.entries
      s.setTable { s.table with entries := r.1, state := .applying ed la (.purge r.2) }
  | .applying ed la (.write k) =>
    let cs := (s.blockChanges.drop k).take n
    s.setTable
      { s.table with
        entries := cs.foldl (writeChange s.cat.h ed) s.table.entries
        state := .applying ed la (.write (k + cs.length)) }
  | .applying ed la (.undo p) =>
    let r := visit (undoEntry ed) p n s.table.entries
    s.setTable { s.table with entries := r.1, state := .applying ed la (.undo r.2) }
  | .empty | .ready | .rebuilding _ _ => s

/-- The entries after a forward apply has taken its last change (R59). -/
def State.appliedEntries (s : State) (ed : Nat) (w : ApplyWork) : List Entry :=
  let es := s.table.entries
  let cs := s.blockChanges
  match w with
  | .purge p =>
    let purged := (purgeSome s.lowestRead p (purgeNeed (addsOf cs) es.length) es.length es).1
    cs.foldl (writeChange s.cat.h ed) purged
  | .write k => (cs.drop k).foldl (writeChange s.cat.h ed) es
  | .undo _ => es

/-- The entries after an undo has visited every entry (R61). -/
def undoneEntries (ed : Nat) (p : Place) (es : List Entry) : List Entry := (visit (undoEntry ed) p es.length es).1

/-- A forward apply turned into an undo (R61); an undo in flight continues. -/
def State.startUndo (s : State) : State :=
  match s.table.state with
  | .applying ed la (.purge _) | .applying ed la (.write _) =>
    s.setTable { s.table with state := .applying ed la (.undo none) }
  | .applying _ _ (.undo _) | .empty | .ready | .rebuilding _ _ => s

/-! ### Rebuild (R63, R64) -/

/-- The entries an image makes: since E, no until-stamp (R63). -/
def imageEntries (ed : Nat) (cs : List Change) : List Entry :=
  cs.map (fun c => { card := c.card, reason := c.reason, expiry := c.expiry, since := ed, until_ := none })

/-- Up to `n` entries of a rebuild in flight made (R63); a rebuild is never completed by this. -/
def State.rebuildSome (s : State) (n : Nat) : State :=
  match s.table.state with
  | .rebuilding ed k =>
    let es := ((imageEntries ed s.blockChanges).drop k).take n
    s.setTable { s.table with entries := s.table.entries ++ es, state := .rebuilding ed (k + es.length) }
  | .empty | .ready | .applying _ _ _ => s

/-- Up to `n` entries of a sweep pass in flight visited (R70); a pass is never completed by this. -/
def State.sweepSome (s : State) (n : Nat) : State :=
  match s.table.sweep with
  | some p =>
    let r := visit (sweepEntry s.table.state.writing p.lowest p.horizon) p.after n s.table.entries
    s.setTable { s.table with entries := r.1, sweep := some { p with after := r.2 } }
  | none => s

/-- The entries after a pass has visited every entry (R70). -/
def sweptEntries (writing : Option Nat) (p : Pass) (es : List Entry) : List Entry :=
  (visit (sweepEntry writing p.lowest p.horizon) p.after es.length es).1

end Sys2Proof.Machine
end

