-- ==== Sys2Proof/Machine/Catalogue.lean ====
section
/-! DEFINITION. The Edition Catalogue and Segment Store (chapter 3): the chain, readers, the side lists, promotion and
occupancy. -/

namespace Sys2Proof.Machine

/-- The chain length L (R39). -/
def Catalogue.length (c : Catalogue) : Nat := if c.h = 0 then 0 else serialDist c.b c.h

/-- A's edition, 0 when absent (R37). -/
def Catalogue.a (c : Catalogue) : Nat := match c.active with | some r => r.edition | none => 0

/-- P's edition, when there is one (R37). -/
def Catalogue.p? (c : Catalogue) : Option Nat := c.pendingFare.map Fare.edition

/-- The chain's delta record of an edition (R47). -/
def Catalogue.delta? (c : Catalogue) (e : Nat) : Option Delta := c.chain.find? (fun r => r.edition == e)

/-- Every fare record: P, A and the withdrawn list. -/
def Catalogue.fares (c : Catalogue) : List Fare := c.pendingFare.toList ++ c.active.toList ++ c.withdrawn

/-- The fare record of an edition: P's, A's, or else one of the withdrawn list (R47). -/
def Catalogue.fare? (c : Catalogue) (x : Nat) : Option Fare := c.fares.find? (fun r => r.edition == x)

/-- The delta record of which a job's current step pushes edition e (R42, R47): the one that the job reads once the step is under
way, wherever it now stands, and until then the chain's. -/
def Catalogue.deltaOf (c : Catalogue) (j : Job) (e : Nat) : Option Delta :=
  if j.underWay then (c.chain ++ c.retired).find? (fun r => r.ref == j.record) else c.delta? e

/-- The fare record of which a job's current step pushes edition x (R42, R47), in the same way. -/
def Catalogue.fareOf (c : Catalogue) (j : Job) (x : Nat) : Option Fare :=
  if j.underWay then c.fares.find? (fun r => r.ref == j.record) else c.fare? x

/-! ### Readers (R42) -/

/-- The record a job reads: while a step that pushes a stored edition's segments is under way (R42). -/
def Job.reads (j : Job) : Option (Kind × Nat) :=
  if j.underWay then
    match j.plan with
    | .delta _ :: _ => some (.block, j.record)
    | .stage _ :: _ => some (.fare, j.record)
    | _ => none
  else none

/-- The reader count of a record, given by its own number (R42). -/
def readers (jobs : List Job) (k : Kind) (ref : Nat) : Nat := (jobs.filter (fun j => j.reads == some (k, ref))).length

/-- Whether a withdrawn record stays: it has a reader, or the activation hold names it (R45). -/
def keepWithdrawn (jobs : List Job) (hold : Option Nat) (r : Fare) : Bool :=
  0 < readers jobs .fare r.ref || hold == some r.ref

/-- Retired and withdrawn records that nothing keeps any longer are freed (R43, R45). It stands in every event that changes
the jobs or the activation hold (log 11). -/
def State.freeRecords (s : State) : State :=
  s.setCat
    { s.cat with
      retired := s.cat.retired.filter (fun r => 0 < readers s.planner.jobs .block r.ref)
      withdrawn := s.cat.withdrawn.filter (keepWithdrawn s.planner.jobs s.cat.hold) }

/-- A chain record trimmed or emptied out: kept on the retired list while it has readers (R40, R41). -/
def retire (jobs : List Job) (rs : List Delta) (retired : List Delta) : List Delta :=
  retired ++ rs.filter (fun r => 0 < readers jobs .block r.ref)

/-- A fare record that leaves its place as P or A: withdrawn while something keeps it (R45). -/
def withdraw (jobs : List Job) (hold : Option Nat) (r : Option Fare) (withdrawn : List Fare) : List Fare :=
  withdrawn ++ r.toList.filter (keepWithdrawn jobs hold)

/-! ### Changes of the Catalogue -/

/-- The head advances to E by an apply: the delta is appended and the chain trimmed to 12 (R38, R40). -/
def Catalogue.append (c : Catalogue) (jobs : List Job) (d : Delta) : Catalogue :=
  let chain := c.chain ++ [d]
  if chain.length ≤ 12 then { c with h := d.edition, chain, records := c.records + 1 }
  else
    { c with
      h := d.edition
      records := c.records + 1
      b := match chain with | r :: _ => r.edition | [] => c.b
      chain := chain.drop 1
      retired := retire jobs (chain.take 1) c.retired }

/-- The head moves to E by a rebuild: the chain is emptied and b becomes E (R38, R41). -/
def Catalogue.rebuild (c : Catalogue) (jobs : List Job) (ed : Nat) : Catalogue :=
  { c with h := ed, b := ed, chain := [], retired := retire jobs c.chain c.retired }

/-- A fare edition becomes P; the old P is withdrawn or freed (R44, R45). -/
def Catalogue.setPending (c : Catalogue) (jobs : List Job) (r : Fare) : Catalogue :=
  { c with
    pendingFare := some r, withdrawn := withdraw jobs c.hold c.pendingFare c.withdrawn, records := c.records + 1 }

/-- Whether a fare record is the one whose broadcast as p has been sent: edition p, and the record that the hold names (R46). -/
def Catalogue.promotes (c : Catalogue) (p : Nat) (r : Fare) : Bool := r.edition == p && c.hold.all (fun ref => ref == r.ref)

/-- Promotion of p (R46): p is P, or stands on the withdrawn list after a newer edition became P. The hold is released and
the old A is withdrawn or freed. -/
def Catalogue.promote (c : Catalogue) (jobs : List Job) (p : Nat) : Catalogue :=
  if c.pendingFare.any (c.promotes p) then
    { c with active := c.pendingFare, pendingFare := none, hold := none
             withdrawn := withdraw jobs none c.active c.withdrawn }
  else
    match c.withdrawn.find? (c.promotes p) with
    | some r =>
      { c with active := some r, hold := none
               withdrawn := withdraw jobs none c.active (c.withdrawn.filter (fun x => x.ref != r.ref)) }
    | none => { c with hold := none }

/-! ### Occupancy (R48) -/

/-- The number of segments some delta records hold. -/
def deltaSegments (rs : List Delta) : Nat := (rs.map (fun r => r.segments.length)).sum
/-- The number of segments some fare records hold. -/
def fareSegments (rs : List Fare) : Nat := (rs.map (fun r => r.segments.length)).sum
/-- The reservation of an intake context. -/
def reservation (l : Option Load) : Nat := match l with | some l => l.segments.length | none => 0

/-- Store occupancy: the sum over the holders (R48). -/
def State.occupancy (s : State) : Nat :=
  deltaSegments s.cat.chain + deltaSegments s.cat.retired + fareSegments s.cat.active.toList +
    fareSegments s.cat.pendingFare.toList + fareSegments s.cat.withdrawn + reservation s.intakes.fare +
    reservation s.intakes.block

end Sys2Proof.Machine
end

