-- ==== Sys2Proof/Machine/Planner.lean ====
section
/-! DEFINITION. The Distribution Planner (chapter 6): the catch-up computations, planning a pair, levels and the floor,
failure, and the outcome of a push exchange. -/

namespace Sys2Proof.Machine

/-! ### The queue -/

/-- Whether a job serves a pair. -/
def Job.serves (d : DropId) (k : Kind) (j : Job) : Bool := j.drop == d && j.kind == k

/-- The job of a pair. -/
def State.job? (s : State) (d : DropId) (k : Kind) : Option Job := s.planner.jobs.find? (Job.serves d k)

/-- The state with the job queue replaced. -/
def State.setJobs (s : State) (js : List Job) : State := s.setPlanner { s.planner with jobs := js }

/-- The job of a pair replaced in its place (R96). -/
def State.putJob (s : State) (j : Job) : State :=
  s.setJobs (s.planner.jobs.map (fun x => if Job.serves j.drop j.kind x then j else x))

/-- A new job at the end of the queue (R96). -/
def State.addJob (s : State) (j : Job) : State := s.setJobs (s.planner.jobs ++ [j])

/-- The read mark of a drop released when the pair is the one that may hold it (R66). -/
def State.leaveMark (s : State) (d : DropId) (k : Kind) : State :=
  match k with
  | .fare => s
  | .block => s.releaseMark d

/-- The job of a pair taken out of the queue: it leaves its record, and its read mark is released (R66, R82, R103). -/
def State.removeJob (s : State) (d : DropId) (k : Kind) : State :=
  (s.setJobs (s.planner.jobs.filter (fun x => !Job.serves d k x))).leaveMark d k

/-- Whether a push exchange of the pair's job is in flight. -/
def State.inFlight (s : State) (d : DropId) (k : Kind) : Bool :=
  match s.trunk.ex with
  | some x => x.kind == .push k && x.drop == some d
  | none => false

/-- Whether the Planner plans a drop (R98). -/
def State.planned (s : State) (d : DropId) : Bool :=
  ((s.drop d).presence == .present || (s.drop d).presence == .fading) && !(s.drop d).stopping && (s.drop d).known

/-! ### BLOCK catch-up (R98 to R100) -/

/-- The `n` editions that follow v. -/
def editionsAfter : Nat → Nat → List Nat
  | _, 0 => []
  | v, n + 1 => succEdition v :: editionsAfter (succEdition v) n

/-- The segment count s(e) of a chain delta (R98). -/
def Catalogue.chainSegments (c : Catalogue) (e : Nat) : Nat :=
  match c.chain.find? (fun r => r.edition == e) with
  | some r => r.segments.length
  | none => 0

/-- Delta cost D over some editions (R99). -/
def Catalogue.deltaCost (c : Catalogue) (es : List Nat) : Nat := (es.map c.chainSegments).sum + 2 * es.length

/-- The forms on which stages 1 to 5 settle (R99). -/
inductive BlockForm where
  | equal
  | delta
  | full
  deriving DecidableEq, Repr

/-- Stages 1 to 5 of the BLOCK computation (R99), with v an edition held and N the entries live at h. -/
def Catalogue.blockForm (c : Catalogue) (cls : ClassSettings) (bias live v : Nat) : BlockForm :=
  if v = c.h then .equal
  else if v = 0 then .full
  else if 32768 ≤ serialDist v c.h then .full
  else if c.length < serialDist v c.h then .full
  else if !cls.delta then .full
  else if c.deltaCost (editionsAfter v (serialDist v c.h)) ≤ segmentsFor .block live + 2 + bias then .delta
  else .full

/-- The results of the BLOCK computation (R100). -/
inductive BlockPlan where
  | nothing
  | nofit
  | delta (es : List Nat)
  | full
  deriving DecidableEq, Repr

/-- The FULL form fitted to the window (R100). -/
def fitFull (size live : Nat) : BlockPlan := if segmentsFor .block live ≤ size then .full else .nofit

/-- The BLOCK computation for a drop with v taken as its BLOCK holding (R98 to R100). -/
def State.blockPlan (s : State) (d : DropId) (v : Nat) : BlockPlan :=
  if s.cat.h = 0 ∨ (s.classOf d).blockSize = 0 then .nothing
  else
    match s.cat.blockForm (s.classOf d) s.settings.bias s.table.live v with
    | .equal => .nothing
    | .full => fitFull (s.classOf d).blockSize s.table.live
    | .delta =>
      if (editionsAfter v (serialDist v s.cat.h)).all (fun e => s.cat.chainSegments e ≤ (s.classOf d).blockSize) then
        .delta (editionsAfter v (serialDist v s.cat.h))
      else fitFull (s.classOf d).blockSize s.table.live

/-! ### FARE planning (R101) -/

/-- The results of FARE planning (R101). -/
inductive FarePlan where
  | nothing
  | ahead
  | steps (plan : List Step) (target : Nat)
  deriving DecidableEq, Repr

/-- FARE planning from a drop's holdings: the first case of R101 that applies. -/
def Catalogue.farePlan (c : Catalogue) (size : Nat) (hold : Holdings) : FarePlan :=
  if size = 0 then .nothing
  else
    match c.p? with
    | none =>
      if c.a = 0 then .nothing
      else if newer hold.active c.a then .ahead
      else if hold.active = c.a then .nothing
      else if hold.staged = c.a then .steps [.activate c.a] c.a
      else .steps [.stage c.a, .activate c.a] c.a
    | some p =>
      if newer hold.active c.a ∧ newer hold.active p then .ahead
      else if hold.active ≠ p ∧ hold.staged = p then .nothing
      else if hold.active ≠ p then .steps [.stage p] p
      else if hold.active = c.a then .nothing
      else if hold.staged = c.a then .steps [.activate c.a] c.a
      else .steps [.stage c.a, .activate c.a] c.a

/-! ### Levels and the floor (R106 to R108) -/

/-- Whether a step that is not yet under way pushes a delta whose record carries the urgent mark (R106). -/
def Catalogue.stepUrgent (c : Catalogue) : Step → Bool
  | .delta e => (c.delta? e).any Delta.urgent
  | .full | .stage _ | .activate _ => false

/-- Whether a job's plan holds a DELTA step whose record carries the urgent mark (R106). -/
def Catalogue.planUrgent (c : Catalogue) (j : Job) : Bool :=
  match j.plan with
  | .delta e :: rest => (c.deltaOf j e).any Delta.urgent || rest.any c.stepUrgent
  | plan => plan.any c.stepUrgent

/-- The job with its urgent mark recomputed (R106). -/
def State.markUrgent (s : State) (j : Job) : Job := { j with urgent := j.promoted || s.cat.planUrgent j }

/-- The job with its level recomputed (R107). -/
def State.markLevel (s : State) (j : Job) : Job :=
  { j with
    level :=
      match j.kind with
      | .fare => s.settings.levelFare
      | .block => if j.urgent then s.settings.levelUrgent else s.settings.levelRoutine }

/-- The floor (R108). -/
def State.floor (s : State) : Nat :=
  match s.port.mode, s.port.door with
  | .depot, _ => s.settings.floorDepot
  | .service, .closed => s.settings.floorClosed
  | .service, .open_ => s.settings.floorOpen

/-- A job's level judged against a floor (R108). -/
def Job.judge (floor : Nat) (j : Job) : Job :=
  match j.state with
  | .ready | .active | .paused => if j.level = 0 ∨ j.level < floor then { j with state := .held } else j
  | .held =>
    if 1 ≤ j.level ∧ floor ≤ j.level then { j with state := if j.underWay then .paused else .ready } else j
  | .failed => j

/-- A job's level judged against the floor; a job whose push exchange is in flight changes state only when that exchange
ends (R97, R108). -/
def State.judgeJob (s : State) (j : Job) : Job := if s.inFlight j.drop j.kind then j else j.judge s.floor

/-- Every job's level judged (R108). -/
def State.judgeJobs (s : State) : State := s.setJobs (s.planner.jobs.map s.judgeJob)

/-- Every job's level recomputed and judged, as an applied CONFIGURE has it (R107, R180). -/
def State.relevelJobs (s : State) : State := s.setJobs (s.planner.jobs.map (fun j => s.judgeJob (s.markLevel j)))

/-! ### Failure (R115, R116) -/

/-- The edition of a job's current step, as the error log and the reports give it (R116, R118): e, h0, x or the ACTIVATE
target. -/
def State.stepEdition (s : State) (j : Job) : Nat :=
  match j.plan with
  | .delta e :: _ => e
  | .full :: _ => match s.mark j.drop with | some m => m.edition | none => 0
  | .stage x :: _ => x
  | .activate x :: _ => x
  | [] => 0

/-- The form that the error log gives a job's current step: a STAGE step is recorded as FULL (R116). -/
def Job.logForm (j : Job) : LogForm :=
  match j.plan with
  | .delta _ :: _ => .delta
  | .activate _ :: _ => .activate
  | .full :: _ | .stage _ :: _ | [] => .full

/-- The error log written when it is empty (R116). -/
def State.writeLog (s : State) (e : LogEntry) : State :=
  match s.planner.log with
  | some _ => s
  | none => s.setPlanner { s.planner with log := some e }

/-- A job becomes FAILED with a reason (R115): its state, its record and mark, the flag, the counter, the log. -/
def State.failJob (s : State) (j : Job) (reason : Cause) : State :=
  let entry : LogEntry :=
    { drop := j.drop, kind := j.kind, edition := s.stepEdition j, form := j.logForm, index := j.next, reason
      minute := s.stamp }
  let s1 := (s.putJob { j with state := .failed, underWay := false }).leaveMark j.drop j.kind
  let s2 := s1.raiseDrop .jobFailed j.drop
  (s2.setPlanner { s2.planner with jobFail := bump s2.planner.jobFail 1 }).writeLog entry

/-! ### Planning a pair (R103, R105) -/

/-- The phase in which a plan starts (R96). -/
def firstPhase : List Step → Phase
  | .activate _ :: _ => .activate
  | _ => .open_

/-- A job that takes a plan whole (R105). -/
def Job.takeWhole (j : Job) (plan : List Step) (target : Nat) : Job :=
  { j with plan, target, underWay := false, phase := firstPhase plan, next := 0, burstStart := 0 }

/-- A new job (R96). -/
def newJob (d : DropId) (k : Kind) (plan : List Step) (target : Nat) : Job where
  drop := d
  kind := k
  target := target
  plan := plan
  underWay := false
  base := 0
  record := 0
  phase := firstPhase plan
  next := 0
  burstStart := 0
  retry := 0
  lastCause := none
  urgent := false
  promoted := false
  level := 0
  state := .ready
  replan := false

/-- The plan with which a job keeps its current step, when R105 lets it. `plan` is the plan just computed. A retired DELTA step
that is kept before a full chain makes a plan of 13 steps (log 47). -/
def State.keptPlan (s : State) (j : Job) (plan : List Step) : Option (List Step) :=
  if !j.underWay then none
  else
    match j.plan with
    | .delta e :: _ =>
      match s.cat.deltaOf j e with
      | none => none
      | some r =>
        if (s.classOf j.drop).delta ∧ (s.classOf j.drop).blockBase = j.base ∧
            r.segments.length ≤ (s.classOf j.drop).blockSize then
          match s.blockPlan j.drop e with
          | .nothing => some [.delta e]
          | .delta es => some (.delta e :: es.map .delta)
          | .full | .nofit => none
        else none
    | .full :: _ =>
      if plan = [.full] ∧ (s.mark j.drop).isSome ∧ (s.classOf j.drop).blockBase = j.base then some [.full] else none
    | .stage x :: _ =>
      if plan.head? = some (.stage x) ∧ (s.classOf j.drop).fareBase = j.base then some plan else none
    | .activate _ :: _ | [] => none

/-- Whether a plan's first step is a STAGE that the FARE window of the drop's class does not hold (R102; log 14). -/
def State.stageNofit (s : State) (d : DropId) (plan : List Step) : Bool :=
  match plan with
  | .stage x :: _ =>
    match s.cat.fare? x with
    | some r => decide ((s.classOf d).fareSize < r.segments.length)
    | none => false
  | _ => false

/-- A job put into its place with a plan it has taken whole, and failed at once when its STAGE does not fit (R102). -/
def State.settleJob (s : State) (j : Job) : State :=
  if s.stageNofit j.drop j.plan then s.failJob j .nofit else s.putJob (s.judgeJob j)

/-- The pair's job takes a plan (R103, R105), or is made. -/
def State.takePlan (s : State) (d : DropId) (k : Kind) (plan : List Step) (target : Nat) : State :=
  match s.job? d k with
  | none =>
    let j := s.markLevel (s.markUrgent (newJob d k plan target))
    (s.addJob j).settleJob j
  | some j =>
    match s.keptPlan j plan with
    | some kept => s.putJob (s.judgeJob (s.markLevel (s.markUrgent { j with plan := kept, target })))
    | none =>
      let j' := s.markLevel (s.markUrgent (j.takeWhole plan target))
      ((s.putJob j').leaveMark d k).settleJob j'

/-- The BLOCK_NOFIT mark as a computation leaves it; the first NOFIT raises JOB_FAILED and writes the error log (R100). -/
def State.noteNofit (s : State) (d : DropId) (nofit : Bool) : State :=
  let s1 := s.setDrop d { s.drop d with blockNofit := nofit }
  if nofit ∧ (s.drop d).blockNofit = false then
    (s1.raiseDrop .jobFailed d).writeLog
      { drop := d, kind := .block, edition := s.cat.h, form := .full, index := 0, reason := .nofit, minute := s.stamp }
  else s1

/-- The FARE_AHEAD mark as FARE planning leaves it (R101). -/
def State.noteAhead (s : State) (d : DropId) (ahead : Bool) : State := s.setDrop d { s.drop d with fareAhead := ahead }

/-- The BLOCK pair of a drop computed and its job acted on (R98 to R100, R103). -/
def State.planBlock (s : State) (d : DropId) : State :=
  match s.blockPlan d (s.drop d).holdings.block with
  | .nothing => (s.noteNofit d false).removeJob d .block
  | .nofit => (s.noteNofit d true).removeJob d .block
  | .full => (s.noteNofit d false).takePlan d .block [.full] s.cat.h
  | .delta es => (s.noteNofit d false).takePlan d .block (es.map .delta) s.cat.h

/-- The FARE pair of a drop computed and its job acted on (R101 to R103). -/
def State.planFare (s : State) (d : DropId) : State :=
  match s.cat.farePlan (s.classOf d).fareSize (s.drop d).holdings with
  | .nothing => (s.noteAhead d false).removeJob d .fare
  | .ahead => (s.noteAhead d true).removeJob d .fare
  | .steps plan target => (s.noteAhead d false).takePlan d .fare plan target

/-- The pair's computation for its kind. -/
def State.planKind (s : State) (d : DropId) : Kind → State
  | .fare => s.planFare d
  | .block => s.planBlock d

/-- A re-plan trigger reaches a pair (R98, R103, R104): nothing for a drop that is not planned, nothing while a FAILED job
holds the pair, and deferred while the job's push exchange is in flight. -/
def State.planPair (s : State) (d : DropId) (k : Kind) : State :=
  if s.planned d then
    match s.job? d k with
    | none => s.planKind d k
    | some j =>
      if j.state = .failed then s
      else if s.inFlight d k then s.putJob { j with replan := true }
      else s.planKind d k
  else s

/-- Both pairs of a drop planned. -/
def State.planBoth (s : State) (d : DropId) : State := (s.planPair d .block).planPair d .fare

/-- One pair of every drop planned, in ascending address. -/
def State.planAll (s : State) (k : Kind) : State := allDrops.foldl (fun s d => s.planPair d k) s

/-- The FAILED jobs of one kind removed at a change of h, P or A (R117). -/
def State.dropFailed (s : State) (k : Kind) : State :=
  s.setJobs (s.planner.jobs.filter (fun j => !(j.kind == k && j.state == .failed)))

/-- A head advance or a fare change reaches the Planner: FAILED jobs of the kind go, and every drop's pair is planned
(R104, R117). -/
def State.replanKind (s : State) (k : Kind) : State := (s.dropFailed k).planAll k

/-- The step of a drop's BLOCK job is no longer under way, and starts again at its OPEN (R112). -/
def State.stopStep (s : State) (d : DropId) : State :=
  match s.job? d .block with
  | some j => if j.underWay then s.putJob { j with underWay := false, phase := .open_, next := 0, burstStart := 0 } else s
  | none => s

/-- The FULL push that held a drop's read mark is ended under it (R63, R67, R112): the step is no longer under way, and an
exchange that serves it is detached from the job. -/
def State.endPush (s : State) (d : DropId) : State :=
  let s1 := s.stopStep d
  if s1.inFlight d .block then s1.setTrunk { s1.trunk with ex := s1.trunk.ex.map (fun x => { x with detached := true }) }
  else s1

/-! ### LATE_LISTED (R106) -/

/-- A job's promoted mark set and its level recomputed (R106). -/
def State.promoteJob (s : State) (j : Job) : State :=
  s.putJob (s.judgeJob (s.markLevel (s.markUrgent { j with promoted := true })))

/-- A LATE_LISTED verdict on a tap of a drop (R106). -/
def State.lateListed (s : State) (d : DropId) : State :=
  match s.job? d .block with
  | some j => if j.state = .failed then s else s.promoteJob j
  | none =>
    let s1 := s.planPair d .block
    match s1.job? d .block with
    | some j => s1.promoteJob j
    | none => s1

/-! ### The outcome of a push exchange (R111 to R115) -/

/-- What the Trunk Controller hands the Planner at the end of a push exchange (R129). -/
inductive PushOutcome where
  | ack (value : Nat)
  | nak (r : NakReason)
  | missed (c : Cause)
  | badSequence
  | goBack (n : Nat)
  | unacknowledged
  deriving DecidableEq, Repr

/-- The segment count of a job's current step (R111). -/
def State.stepSegments (s : State) (j : Job) : Nat :=
  match j.plan with
  | .delta e :: _ => match s.cat.deltaOf j e with | some r => r.segments.length | none => 0
  | .full :: _ => match s.mark j.drop with | some m => m.segs | none => 0
  | .stage x :: _ => match s.cat.fareOf j x with | some r => r.segments.length | none => 0
  | .activate _ :: _ | [] => 0

/-- Whether a job's current step is a FULL step. -/
def Job.isFull (j : Job) : Bool := j.plan.head? == some .full

/-- The snapshot cursor moved when the job's current step is a FULL step (R74). -/
def State.moveCursor (s : State) (j : Job) (f : Mark → Mark) : State := if j.isFull then s.onMark j.drop f else s

/-- One retry counted (R114): the job fails when the count reaches the limit, and otherwise moves as the cause has it
(log 33). -/
def State.countRetry (s : State) (j : Job) (c : Cause) (move : State → Job → State) : State :=
  let j' := { j with retry := min 255 (j.retry + 1), lastCause := some c }
  let s' := s.setPlanner { s.planner with retries := bump s.planner.retries 1 }
  if s.settings.retryLimit ≤ j'.retry then s'.failJob j' c else move s' j'

/-- After a miss, a WAIT limit or a REFUSED: the same phase, and a burst resumes at its start (R114; log 22). -/
def State.resume (s : State) (j : Job) : State :=
  if j.phase = .segments then (s.moveCursor j Mark.toBurst).putJob { j with next := j.burstStart } else s.putJob j

/-- After a BAD_SEQUENCE: phase OPEN (R114). -/
def State.reopen (s : State) (j : Job) : State := s.putJob { j with phase := .open_ }

/-- After a DIGEST at CLOSE: phase SEGMENTS, next index 0 (R114). -/
def State.resend (s : State) (j : Job) : State :=
  (s.moveCursor j Mark.restart).putJob { j with phase := .segments, next := 0 }

/-- After a NOT_STAGED at ACTIVATE: STAGE target, then ACTIVATE target (R113). -/
def State.restage (s : State) (j : Job) : State :=
  let j' := s.markLevel (s.markUrgent (j.takeWhole [.stage j.target, .activate j.target] j.target))
  (s.putJob j').settleJob j'

/-- After a burst ACK below the burst start (R112). -/
def State.stepBack (s : State) (j : Job) (n : Nat) : State :=
  if j.isFull then (s.moveCursor j Mark.restart).putJob { j with next := 0 } else s.putJob { j with next := n }

/-- A NAK BAD_SEQUENCE; to an ACTIVATE it is taken as REFUSED (R114). -/
def State.takeBadSequence (s : State) (j : Job) : State :=
  if j.phase = .activate then s.countRetry j .refused State.resume else s.countRetry j .badSequence State.reopen

/-- A NAK (R114): NO_ROOM fails the job without a retry. -/
def State.takeNak (s : State) (j : Job) (r : NakReason) : State :=
  match r with
  | .noRoom => s.failJob j .noRoom
  | .badSequence => s.takeBadSequence j
  | .digest => if j.phase = .close then s.countRetry j .digest State.resend else s.countRetry j .refused State.resume
  | .notStaged => if j.phase = .activate then s.countRetry j .notStaged State.restage else s.countRetry j .refused State.resume
  | .refused => s.countRetry j .refused State.resume

/-- An ACK to an OPEN with start index k (R111). -/
def State.takeOpened (s : State) (j : Job) (k : Nat) : State :=
  if j.isFull then s.putJob { j with next := 0, phase := .segments }
  else if k ≤ s.stepSegments j then
    s.putJob { j with next := k, phase := if k = s.stepSegments j then .close else .segments }
  else s.takeBadSequence j

/-- An ACK to a burst through its end (R112). -/
def State.takeBurst (s : State) (j : Job) (n : Nat) : State :=
  (s.moveCursor j Mark.acknowledge).putJob
    { j with next := n, phase := if n = s.stepSegments j then .close else .segments }

/-- The current step ends: the job leaves its record or releases its mark, the step leaves the plan, the next one becomes current,
and the urgent mark and the level follow what is left of the plan (R106, R107, R113). -/
def State.endStep (s : State) (j : Job) : State :=
  (s.putJob (s.markLevel (s.markUrgent (j.takeWhole (j.plan.drop 1) j.target)))).leaveMark j.drop j.kind

/-- An ACK to a CLOSE (R113). With no step left, or another edition reported, the pair is planned afresh. -/
def State.takeClosed (s : State) (j : Job) (e : Nat) : State :=
  let s' := s.endStep { j with retry := 0, lastCause := none }
  if e = s.stepEdition j ∧ (j.plan.drop 1).isEmpty = false then s' else s'.planPair j.drop j.kind

/-- An ACK to a unicast ACTIVATE (R113): the step ends and, none being left, the pair is planned afresh. -/
def State.takeActivated (s : State) (j : Job) (e : Nat) : State :=
  (s.endStep (if e = j.target then { j with retry := 0, lastCause := none } else j)).planPair j.drop j.kind

/-- The outcome of a push exchange applied to its job (R111 to R115). A burst ACK below the burst start comes as `goBack`,
one above the burst's end as `badSequence`. -/
def State.takeOutcome (s : State) (j : Job) (o : PushOutcome) : State :=
  match o with
  | .ack v =>
    match j.phase with
    | .open_ => s.takeOpened j v
    | .segments => s.takeBurst j v
    | .close => s.takeClosed j v
    | .activate => s.takeActivated j v
  | .nak r => s.takeNak j r
  | .missed c => s.countRetry j c State.resume
  | .badSequence => s.takeBadSequence j
  | .goBack n => s.countRetry j .goBack (fun s j => s.stepBack j n)
  | .unacknowledged => s

/-- The outcome handed to the job of a pair, unless the exchange has been detached from it. -/
def State.handOutcome (s : State) (d : DropId) (k : Kind) (detached : Bool) (o : PushOutcome) : State :=
  match s.job? d k with
  | some j => if detached then s else s.takeOutcome j o
  | none => s

/-- A re-plan that waited for the exchange to end (R104). -/
def State.takeReplan (s : State) (d : DropId) (k : Kind) : State :=
  match s.job? d k with
  | some j => if j.replan then (s.putJob { j with replan := false }).planPair d k else s
  | none => s

/-- The test of level against floor at the end of an exchange (R97). -/
def State.rejudge (s : State) (d : DropId) (k : Kind) : State :=
  match s.job? d k with
  | some j => s.putJob (s.judgeJob j)
  | none => s

/-- A push exchange has ended: its outcome, then a pending re-plan, then the test of level against floor (R97). -/
def State.pushEnded (s : State) (d : DropId) (k : Kind) (detached : Bool) (o : PushOutcome) : State :=
  ((s.handOutcome d k detached o).takeReplan d k).rejudge d k

/-! ### The choice (R109, R110) -/

/-- Whether a job's next exchange is the OPEN of a FULL step. -/
def Job.opensFull (j : Job) : Bool := j.phase == .open_ && j.isFull

/-- Whether a job is a candidate (R109). -/
def State.candidate (s : State) (j : Job) : Bool :=
  (j.state == .ready || j.state == .active || j.state == .paused) && (s.drop j.drop).presence == .present &&
    !(s.drop j.drop).stopping && !(j.opensFull && s.tableClosed)

/-- How far a drop lies after another in ascending address, wrapping from 8 to 1: 0 for the first after it. With none, drop 1
comes first (R109, R131). -/
def turnsAfter (last : Option DropId) (d : DropId) : Nat :=
  match last with
  | some l => (d.val + 7 - l.val) % 8
  | none => d.val

/-- A job's rank among the candidates, lowest first (R109): level, ACTIVE, BLOCK before FARE, then the rotation. -/
def Job.rank (last : Option DropId) (j : Job) : Nat :=
  (3 - j.level) * 32 + (if j.state = .active then 0 else 16) + (if j.kind = .block then 0 else 8) + turnsAfter last j.drop

/-- A job put into its place by rank. -/
def rankInsert (last : Option DropId) (j : Job) : List Job → List Job
  | [] => [j]
  | x :: xs => if j.rank last < x.rank last then j :: x :: xs else x :: rankInsert last j xs

/-- The candidates in the order in which they are tried (R109, R110). -/
def State.candidates (s : State) : List Job :=
  (s.planner.jobs.filter s.candidate).foldl (fun l j => rankInsert s.planner.lastServed j l) []

/-- The ACTIVE job displaced by the choice of another (R110). -/
def State.displace (s : State) (d : DropId) (k : Kind) : State :=
  if s.planner.jobs.any (fun j => j.state == .active && !Job.serves d k j) then
    s.setPlanner
      { s.planner with
        jobs :=
          s.planner.jobs.map (fun j =>
            if j.state = .active ∧ Job.serves d k j = false then
              { j with state := if j.underWay then .paused else .ready }
            else j)
        preempt := bump s.planner.preempt 1 }
  else s

end Sys2Proof.Machine
end

