-- ==== Sys2Proof/Machine/Changeover.lean ====
section
/-! DEFINITION. The Changeover Controller (chapter 8): the due test, readiness, the hold, the doors and the activation. -/

namespace Sys2Proof.Machine

/-- Whether a drop is counted (R147). -/
def State.counted (s : State) (d : DropId) : Bool := (s.drop d).presence == .present && !(s.drop d).stopping

/-- Whether a counted drop is armed for an edition (R147). -/
def State.armed (s : State) (p : Nat) (d : DropId) : Bool :=
  s.counted d && (s.drop d).known && (s.drop d).holdings.staged == p

/-- Whether every counted drop is armed (R147). -/
def State.allArmed (s : State) (p : Nat) : Bool := allDrops.all (fun d => !s.counted d || s.armed p d)

/-- Activation of p, the P that the Catalogue holds, decided now (R46, R151): the hold names its record, the broadcast is
requested, the deadlines are made absent. -/
def State.activate (s : State) (p : Nat) : State :=
  let s1 := s.setCat { s.cat with hold := s.cat.pendingFare.map Fare.ref }
  let s2 := s1.setTrunk { s1.trunk with request := some p }
  s2.setChange { s2.change with state := .due, hold := .absent, door := none, requested := some p }

/-- The bus found ready in DUE (R149): the forced mark, then the doors. -/
def State.foundReady (s : State) (p : Nat) (forced : Bool) : State :=
  let s1 := s.setChange { s.change with forced }
  if s.port.door = .closed ∨ s.settings.doorLimit = 0 then s1.activate p
  else
    s1.setChange
      { s1.change with state := .doorWait, hold := .absent, door := some (s.timebase + s.settings.doorLimit * 1000000) }

/-- Readiness judged (R147): only in DUE with no request standing. -/
def State.judgeReady (s : State) : State :=
  match s.change.state, s.change.requested, s.cat.p? with
  | .due, none, some p =>
    if s.allArmed p then s.foundReady p false
    else if s.change.hold = .passed then s.foundReady p true
    else s
  | _, _, _ => s

/-- The hold passes (R148): PASSED, CHANGEOVER_HELD when a counted drop is unarmed, then the judgement. -/
def State.passHold (s : State) (p : Nat) : State :=
  let s1 := s.setChange { s.change with hold := .passed }
  (if s.allArmed p then s1 else s1.raiseEdition .changeoverHeld p).judgeReady

/-- DUE entered (R146): the hold deadline is set, then readiness is judged. The hold limit is the one in force at the entry, also
where the deadline waits for the clock (R144). A hold limit of 0 passes at once, with a valid clock or without (log 39). -/
def State.enterDue (s : State) (p : Nat) : State :=
  let s1 := s.setChange { state := .due, hold := .absent, door := none, requested := none, forced := false }
  if s.settings.holdLimit = 0 then s1.passHold p
  else if s.clock.valid then
    (s1.setChange { s1.change with hold := .minute (s.clock.minute + s.settings.holdLimit) }).judgeReady
  else (s1.setChange { s1.change with hold := .unset s.settings.holdLimit }).judgeReady

/-- Whether an effective minute has come (R145). -/
def State.isDue (s : State) (t : Nat) : Bool := t == 0 || (s.clock.valid && t ≤ s.clock.minute)

/-- The due test for the P that the Catalogue holds (R145): DUE entered afresh, or STAGING; IDLE when there is no P. -/
def State.dueTest (s : State) : State :=
  match s.cat.pendingFare with
  | none => s.setChange { state := .idle, hold := .absent, door := none, requested := none, forced := false }
  | some r =>
    if s.isDue r.minute then s.enterDue r.edition
    else s.setChange { state := .staging, hold := .absent, door := none, requested := none, forced := false }

/-- A clock change reaches the Changeover Controller (R15, R145, R146, R148). `fromInvalid` says that it set the clock from
invalid. -/
def State.changeoverClock (s : State) (fromInvalid : Bool) : State :=
  match s.change.state, s.change.requested, s.cat.pendingFare with
  | .staging, _, some r => if s.isDue r.minute then s.enterDue r.edition else s
  | .due, none, some r =>
    match s.change.hold with
    | .unset limit =>
      if fromInvalid then
        if limit = 0 then s.passHold r.edition
        else s.setChange { s.change with hold := .minute (s.clock.minute + limit) }
      else s
    | .minute m => if m ≤ s.clock.minute then s.passHold r.edition else s
    | .absent | .passed => s
  | _, _, _ => s

/-- A new P meets the changeover (R145, R153, R154): while a request stands it leaves it as it is. -/
def State.changeoverNewP (s : State) : State := if s.change.requested.isSome then s else s.dueTest

/-- DOOR_WAIT ends in activation (R150). -/
def State.endDoorWait (s : State) : State :=
  match s.change.state, s.cat.p? with
  | .doorWait, some p => s.activate p
  | _, _ => s

/-- A VEHICLE's condition reaches the Changeover Controller (R150, R184). -/
def State.changeoverDoors (s : State) : State := if s.port.door = .closed then s.endDoorWait else s

/-- The broadcast of p has been sent (R152): promotion, the flag, the record, the due test for a newer P. -/
def State.broadcastSent (s : State) (p : Nat) : State :=
  let forced := s.change.forced
  let s1 := s.setCat (s.cat.promote s.planner.jobs p)
  let s2 := s1.raiseEdition (if forced then .changeoverForced else .changeoverDone) p
  s2.dueTest

/-- A warm restart reaches the Changeover Controller (R158), after its own request, hold and broadcast have been taken away. In DUE
and DOOR_WAIT the due test decides too: after a backward step that took C below T it gives STAGING (R145; log 40). -/
def State.changeoverRestart (s : State) : State :=
  match s.change.state with
  | .idle => s
  | .staging | .due | .doorWait => s.dueTest

end Sys2Proof.Machine
end

