-- ==== Sys2Proof/Machine/Roster.lean ====
section
/-! DEFINITION. The Drop Roster (chapter 5): presence, holdings, disabling, and the list of a poll round. -/

namespace Sys2Proof.Machine

/-- A drop's six counters changed. -/
def State.countDrop (s : State) (d : DropId) (f : DropCounters → DropCounters) : State :=
  s.setDrop d { s.drop d with counters := f (s.drop d).counters }

/-- A good answer counted (R87). -/
def State.countGood (s : State) (d : DropId) : State := s.countDrop d (fun c => { c with good := bump c.good 1 })

/-- A miss counted, garbled or not (R87). -/
def State.countMiss (s : State) (d : DropId) (garbled : Bool) : State :=
  s.countDrop d (fun c =>
    { c with miss := bump c.miss 1, garbled := if garbled then bump c.garbled 1 else c.garbled })

/-- A drop's presence and run count set. -/
def State.setPresence (s : State) (d : DropId) (p : Presence) (run : Nat) : State :=
  s.setDrop d { s.drop d with presence := p, run }

/-- Both jobs of a drop removed, its read mark released, its three marks cleared (R82, R88). -/
def State.forgetDrop (s : State) (d : DropId) : State :=
  let s1 := ((s.removeJob d .fare).removeJob d .block).releaseMark d
  s1.setDrop d { s1.drop d with tapUrgent := false, fareAhead := false, blockNofit := false }

/-- A drop enters PRESENT from JOINING (R80). -/
def State.joinDrop (s : State) (d : DropId) : State :=
  let s1 := (s.setPresence d .present 0).countDrop d (fun c => { c with joins := bump c.joins 1 })
  (s1.raiseDrop .dropJoined d).planBoth d

/-- A drop enters ABSENT by a miss (R82). -/
def State.loseDrop (s : State) (d : DropId) : State :=
  let s1 := (s.setPresence d .absent 0).forgetDrop d
  (s1.countDrop d (fun c => { c with losses := bump c.losses 1 })).raiseDrop .dropLost d

/-- The presence move of a good answer (R79). -/
def State.presenceGood (s : State) (d : DropId) : State :=
  match (s.drop d).presence with
  | .disabled => s
  | .absent => s.setPresence d .joining 1
  | .joining => s.joinDrop d
  | .present | .fading => s.setPresence d .present 0

/-- The presence move of a miss (R79). -/
def State.presenceMiss (s : State) (d : DropId) : State :=
  match (s.drop d).presence with
  | .disabled => s
  | .absent => s.setPresence d .absent 0
  | .joining => s.loseDrop d
  | .present => s.setPresence d .fading 1
  | .fading => if 3 ≤ (s.drop d).run then s.loseDrop d else s.setPresence d .fading ((s.drop d).run + 1)

/-- The presence event of a good answer; a stopping drop's is not applied (R88). -/
def State.goodEvent (s : State) (d : DropId) : State := if (s.drop d).stopping then s else s.presenceGood d

/-- The presence event of a miss; a stopping drop's is not applied (R88). -/
def State.missEvent (s : State) (d : DropId) : State := if (s.drop d).stopping then s else s.presenceMiss d

/-- The drop becomes DISABLED (R88). -/
def State.disableDrop (s : State) (d : DropId) : State :=
  let s1 := s.forgetDrop d
  s1.setDrop d { s1.drop d with stopping := false, presence := .disabled, run := 0 }

/-- A stopping drop becomes DISABLED at the end of its exchange (R88, R129). -/
def State.settleStopping (s : State) (d : DropId) : State := if (s.drop d).stopping then s.disableDrop d else s

/-- Steps 1 to 3 of R83: the holdings a STATUS reports, the count of taps still held, the last tap drop. -/
def State.takeStatus (s : State) (d : DropId) (h : Holdings) (held taps : Nat) : State :=
  let s1 := s.setDrop d { s.drop d with holdings := h, known := true, tapsHeld := held }
  if taps = 0 then s1
  else
    let s2 := s1.countDrop d (fun c => { c with tapsIn := bump c.tapsIn taps })
    s2.setRoster { s2.roster with lastTap := some d }

/-- Whether a STATUS's holdings differ from the record (R83). -/
def State.holdingsDiffer (s : State) (d : DropId) (h : Holdings) : Bool := (s.drop d).holdings != h || !(s.drop d).known

/-- The holding that a push acknowledgement reports, written into the record (R84). -/
def State.takeHolding (s : State) (d : DropId) (f : Holdings → Holdings) : State :=
  s.setDrop d { s.drop d with holdings := f (s.drop d).holdings, known := true }

/-- The taps-waiting count of a burst ACK (R86). -/
def State.takeWaiting (s : State) (d : DropId) (n : Nat) : State :=
  if 4 ≤ n then s.setDrop d { s.drop d with tapUrgent := true } else s

/-! ### Rounds (R91 to R93) -/

/-- Whether a drop is listed when a round starts (R92). -/
def State.listed (s : State) (d : DropId) : Bool :=
  !(s.drop d).stopping &&
    match (s.drop d).presence with
    | .joining | .present | .fading => true
    | .absent => s.roster.probe == 0
    | .disabled => false

/-- A list of drops in ascending address, turned so that it begins at or after a drop (R93). -/
def turnTo (first : DropId) (l : List DropId) : List DropId :=
  l.filter (fun d => first.val ≤ d.val) ++ l.filter (fun d => d.val < first.val)

/-- The list of a round that starts now, in its order (R92, R93). -/
def State.roundList (s : State) : List DropId :=
  match s.settings.parking, s.roster.lastTap with
  | .mru, some d => turnTo d (allDrops.filter s.listed)
  | .mru, none | .fixed, _ => allDrops.filter s.listed

/-- Whether a drop's turn is passed over (R93), since it is DISABLED or stopping. -/
def State.passedOver (s : State) (d : DropId) : Bool := (s.drop d).presence == .disabled || (s.drop d).stopping

end Sys2Proof.Machine
end

