-- ==== Sys2Proof/Machine/TapScreen.lean ====
section
/-! DEFINITION. The Tap Screen (chapter 9): the verdict on a tap record, the tap queue and the allowance of a POLL. -/

namespace Sys2Proof.Machine

/-- The most records of the tap queue (R166). -/
def tapQueueLimit : Nat := 256

/-- Whether a record's decision code is ACCEPTED (R159; 11, section 11.3). -/
def Tap.accepted (t : Tap) : Bool := t.decision == 1

/-- The verdict on a record from its lookup and A (R162). -/
def verdictOf (l : Lookup) (a : Nat) (t : Tap) : Verdict :=
  match l with
  | .unusable => .unscreened
  | .listed since _ =>
    if t.accepted then (if newer since t.blockUsed.toNat then .lateListed else .listedIgnored)
    else if a ≠ 0 ∧ t.fareUsed.toNat ≠ a then .staleTariff
    else .clear
  | .notListed => if a ≠ 0 ∧ t.fareUsed.toNat ≠ a then .staleTariff else .clear

/-- The verdict counter raised (R165). -/
def Taps.count (q : Taps) : Verdict → Taps
  | .unscreened => { q with unscreened := bump q.unscreened 1 }
  | .lateListed => { q with lateListed := bump q.lateListed 1 }
  | .listedIgnored => { q with listedIgnored := bump q.listedIgnored 1 }
  | .staleTariff => { q with staleTariff := bump q.staleTariff 1 }
  | .clear => { q with clear := bump q.clear 1 }

/-- A record with the hub's five fields (R160). -/
def State.screened (s : State) (d : DropId) (t : Tap) : Screened where
  tap := t
  drop := d
  verdict := verdictOf (s.lookup t.card.toNat t.minute.toNat) s.cat.a t
  head := s.cat.h
  active := s.cat.a
  arrival := s.stamp

/-- One record screened, appended and counted; a LATE_LISTED verdict is then handed to the Planner (R160, R164). -/
def State.screenTap (s : State) (d : DropId) (t : Tap) : State :=
  let r := s.screened d t
  let s1 := s.setTaps ({ s.taps with queue := s.taps.queue ++ [r] }.count r.verdict)
  if r.verdict = .lateListed then s1.lateListed d else s1

/-- The records of one STATUS screened in the order it carries them (R160). -/
def State.screenTaps (s : State) (d : DropId) (ts : List Tap) : State := ts.foldl (fun s t => s.screenTap d t) s

/-- The allowance of a POLL formed now (R167). -/
def Taps.allowance (q : Taps) : Nat := min 8 (tapQueueLimit - q.queue.length)

/-- ZERO_ALLOWANCE and TAPQ_FULL, when the allowance given is 0 (R167). -/
def State.noteAllowance (s : State) : State :=
  if s.taps.allowance = 0 then
    (s.setTaps { s.taps with zeroAllowance := bump s.taps.zeroAllowance 1 }).raise .tapqFull 0 none none
  else s

end Sys2Proof.Machine
end

