-- ==== Sys2Proof/Machine/Trunk.lean ====
section
/-! DEFINITION. The Trunk Controller (chapter 7): forming exchanges, the arbiter, and what an answer, a miss or the end of a
frame does to the exchange in flight. -/

namespace Sys2Proof.Machine

/-! ### Forming an exchange -/

/-- An exchange formed now: its settings are fixed and its first frame waits for the quiet time (R120, R123). -/
def State.beginExchange (s : State) (kind : ExKind) (drop : Option DropId) (frame : TrunkFrame) (bs be : Nat) : State :=
  s.setTrunk
    { s.trunk with
      ex :=
        some
          { kind, drop, frame, stage := .quiet, waits := 0, burstStart := bs, burstEnd := be, lastResend := none
            set := s.settings.trunk, detached := false, since := s.timebase } }

/-- The waiting request is formed as a broadcast (R137). -/
def State.formBroadcast (s : State) (p : Nat) : State :=
  (s.setTrunk { s.trunk with request := none }).beginExchange .broadcast none (.activate p) 0 0

/-- A POLL is formed for a drop (R130, R167). -/
def State.formPoll (s : State) (kind : ExKind) (d : DropId) : State :=
  let s1 := s.noteAllowance
  let s2 := s1.setDrop d { s1.drop d with tapUrgent := false }
  s2.beginExchange kind (some d) (.poll s.taps.allowance) 0 0

/-- The drop that an urgent poll goes to (R131): the first marked one after the last urgently polled drop. -/
def State.nextUrgent (s : State) : Option DropId :=
  (match s.trunk.lastUrgent with
    | none => allDrops
    | some l => turnTo (l + 1) allDrops).find? (fun d => (s.drop d).tapUrgent && !s.passedOver d)

/-- An urgent poll formed (R131). -/
def State.formUrgent (s : State) (d : DropId) : State :=
  (s.setTrunk { s.trunk with lastUrgent := some d }).formPoll .urgentPoll d

/-- A push exchange formed for a job (R109, R110, R139): it becomes the ACTIVE job, its drop the last served. -/
def State.formPush (s : State) (j : Job) (frame : TrunkFrame) (bs be : Nat) : State :=
  let s1 := (s.displace j.drop j.kind).putJob { j with state := .active }
  let s2 := s1.setPlanner { s1.planner with lastServed := some j.drop }
  let s3 := s2.setTrunk { s2.trunk with pushCount := min 255 (s2.trunk.pushCount + 1) }
  s3.beginExchange (.push j.kind) (some j.drop) frame bs be

/-- The OPEN of a FULL step (R65, R111): the mark is placed; when its S has outgrown the window it is released again, the job
is re-planned, and no OPEN is sent. A placement that is refused leaves the job as it was (R110). -/
def State.openFull (s : State) (j : Job) : State :=
  if s.tableClosed then s
  else
    let m := s.newMark
    let s1 := s.placeMark j.drop
    if m.segs ≤ (s.classOf j.drop).blockSize then
      s1.formPush { j with underWay := true, base := (s.classOf j.drop).blockBase }
        (.openF .block m.edition .full m.segs (s.classOf j.drop).blockBase false true) 0 0
    else ((s1.releaseMark j.drop).putJob { j with underWay := false }).planPair j.drop .block

/-- The OPEN exchange of a job's current step (R111, R132). -/
def State.openStep (s : State) (j : Job) : State :=
  match j.plan with
  | .delta e :: _ =>
    match s.cat.deltaOf j e with
    | some r =>
      s.formPush { j with underWay := true, base := (s.classOf j.drop).blockBase, record := r.ref }
        (.openF .block e .delta r.segments.length (s.classOf j.drop).blockBase r.urgent false) 0 0
    | none => s
  | .full :: _ => s.openFull j
  | .stage x :: _ =>
    match s.cat.fareOf j x with
    | some r =>
      s.formPush { j with underWay := true, base := (s.classOf j.drop).fareBase, record := r.ref }
        (.openF .fare x .full r.segments.length (s.classOf j.drop).fareBase false false) 0 0
    | none => s
  | .activate _ :: _ | [] => s

/-- The burst of a job's current step (R112, R133): its first frame is formed when the quiet time has been met (log 16). -/
def State.sendBurst (s : State) (j : Job) : State :=
  let total := s.stepSegments j
  let be := min (j.next + s.settings.trunk.burst) total
  if j.next < be then
    (s.moveCursor j Mark.beginBurst).formPush { j with burstStart := j.next } (.segment j.next (j.next + 1 == be) none) j.next be
  else s

/-- The digest of a job's current step (R135). -/
def State.stepDigest (s : State) (j : Job) : Option (BitVec 32) :=
  match j.plan with
  | .delta e :: _ => (s.cat.deltaOf j e).map Delta.digest
  | .full :: _ => (s.mark j.drop).map Mark.digest
  | .stage x :: _ => (s.cat.fareOf j x).map Fare.digest
  | .activate _ :: _ | [] => none

/-- A job chosen again after a pause: a FULL step continues from its acknowledged point (R74, R110). -/
def State.wake (s : State) (j : Job) : State × Job :=
  if j.state = .paused ∧ j.isFull ∧ j.phase ≠ .open_ then
    match s.mark j.drop with
    | some m => (s.setMark j.drop (some m.toAck), { j with next := m.ack.index })
    | none => (s, j)
  else (s, j)

/-- The next exchange of a job formed (R111 to R113); the state is unchanged, or the job re-planned, when none can be. -/
def State.pushJob (s : State) (j : Job) : State :=
  let w := s.wake j
  match w.2.phase with
  | .open_ => w.1.openStep w.2
  | .segments => w.1.sendBurst w.2
  | .close => match w.1.stepDigest w.2 with | some g => w.1.formPush w.2 (.close g) 0 0 | none => w.1
  | .activate => w.1.formPush w.2 (.activate w.2.target) 0 0

/-- A candidate tried, unless an exchange has already been formed in this choice (R109, R110). -/
def State.tryJob (s : State) (d : DropId) (k : Kind) : State :=
  if s.trunk.ex.isSome then s
  else
    match s.job? d k with
    | some j => if s.candidate j then s.pushJob j else s
    | none => s

/-- The Planner's choice of a push exchange (R109, R110). -/
def State.pushChoice (s : State) : State := s.candidates.foldl (fun s j => s.tryJob j.drop j.kind) s

/-! ### Rounds (R91 to R93, R139) -/

/-- The pacing K of the current vehicle mode (R120). -/
def State.pace (s : State) : Nat :=
  match s.port.mode with
  | .service => s.settings.paceService
  | .depot => s.settings.paceDepot

/-- Whether a round is due at the third step of a decision, but for the ground that the Planner has no candidate (R91, R139). -/
def State.roundDue (s : State) : Bool :=
  match s.roster.lastRound with
  | none => true
  | some t =>
    match s.roster.pollMode with
    | .continuous => s.pace ≤ s.trunk.pushCount
    | .periodic => t + s.settings.period * 1000000 ≤ s.timebase

/-- The round in progress ends, and a poll mode that waited for that takes effect (R91). -/
def State.endRound (s : State) : State :=
  let s1 := s.setTrunk { s.trunk with round := none }
  s1.setRoster { s1.roster with pollMode := s.settings.pollMode }

/-- A round starts, with its list (R92, R139). -/
def State.openRound (s : State) : State :=
  let s1 := s.setTrunk { s.trunk with round := some s.roundList, pushCount := 0, rounds := bump s.trunk.rounds 1 }
  s1.setRoster { s1.roster with probe := (s.roster.probe + 1) % s.settings.divisor, lastRound := some s.timebase }

/-- The empty-round pause starts, in CONTINUOUS mode (R139). Its end is fixed now: a CONFIGURE that changes the reply timeout
leaves a pause that runs as it is (log 49). -/
def State.startPause (s : State) : State :=
  if s.roster.pollMode = .continuous then
    s.setTrunk { s.trunk with emptyPause := some (s.timebase + s.settings.trunk.replyTimeout) }
  else s

/-- A round starts (R92, R139): an empty one ends in the same event and, in CONTINUOUS mode, starts the empty-round pause. -/
def State.startRound (s : State) : State :=
  if s.roundList.isEmpty then s.openRound.endRound.startPause else s.openRound

/-- The next listed drop's turn (R93, R138): turns that are passed over end at once, and the round ends after the last. -/
def State.takeTurn (s : State) : State :=
  match s.trunk.round with
  | none => s
  | some l =>
    match l.dropWhile s.passedOver with
    | [] => s.endRound
    | d :: rest => (s.setTrunk { s.trunk with round := some rest }).formPoll .roundPoll d

/-! ### The arbiter (R138) -/

/-- The third step of a decision: the round in progress, or the start of one that is due. -/
def State.roundStep (s : State) : State :=
  let s1 := s.takeTurn
  if s1.trunk.ex.isNone ∧ s1.trunk.round.isNone ∧ s1.roundDue then s1.startRound.takeTurn else s1

/-- The fourth step: a push; with no candidate, in CONTINUOUS mode and with no pause running, a round is due. -/
def State.pushStep (s : State) : State :=
  let s1 := s.pushChoice
  if s1.trunk.ex.isNone ∧ s1.trunk.round.isNone ∧ s1.roster.pollMode = .continuous ∧ s1.trunk.emptyPause.isNone then
    s1.startRound.takeTurn
  else s1

/-- The arbiter's decision, at any moment when no exchange is in flight (R138). -/
def State.arbitrate (s : State) : State :=
  if s.trunk.ex.isSome then s
  else
    match s.trunk.request with
    | some p => s.formBroadcast p
    | none =>
      match s.nextUrgent with
      | some d => s.formUrgent d
      | none =>
        let s1 := s.roundStep
        if s1.trunk.ex.isSome then s1 else s1.pushStep

/-- The end of an event that can have changed an input of the arbiter: its decision, the records that nothing keeps any
longer, the uplink's choice. -/
def State.conclude (s : State) : State := s.arbitrate.freeRecords.uplink

/-! ### The end of an exchange (R129) -/

/-- The exchange in flight is over, and with a round poll the drop's turn (R93, R130). -/
def State.clearExchange (s : State) (x : Exchange) : State :=
  let s1 := s.setTrunk { s.trunk with ex := none }
  if x.kind = .roundPoll ∧ s1.trunk.round = some [] then s1.endRound else s1

/-- An exchange with a drop ends (R129): the push outcome, then the presence event, then the disable of a stopping drop, the
judgement of readiness and the arbiter's next decision. -/
def State.endExchange (s : State) (x : Exchange) (d : DropId) (o : PushOutcome) (event : State → State) : State :=
  let s1 := s.clearExchange x
  let s2 :=
    match x.kind with
    | .push k => s1.pushEnded d k x.detached o
    | .roundPoll | .urgentPoll | .broadcast => s1
  ((event s2).settleStopping d).judgeReady.conclude

/-- The exchange in flight replaced. -/
def State.setExchange (s : State) (x : Exchange) : State := s.setTrunk { s.trunk with ex := some x }

/-- A frame put into the QUIET stage of the exchange (R123). -/
def State.quietFrame (s : State) (x : Exchange) (f : TrunkFrame) : State :=
  s.setExchange { x with frame := f, stage := .quiet, since := s.timebase }

/-- Whether no further frame of the exchange may be formed (R133, R140). -/
def State.noFurther (s : State) (x : Exchange) (d : DropId) : Bool := (s.drop d).stopping || x.detached

/-- A frame that expected an answer found none (R126, R129). -/
def State.noAnswer (s : State) (x : Exchange) (d : DropId) : State :=
  ((s.setTrunk { s.trunk with noAnswer := bump s.trunk.noAnswer 1 }).countMiss d false).endExchange x d (.missed .noAnswer)
    (fun s => s.missEvent d)

/-- A garbled answer (R127, R129). -/
def State.garbled (s : State) (x : Exchange) (d : DropId) : State :=
  ((s.setTrunk { s.trunk with garble := bump s.trunk.garble 1 }).countMiss d true).endExchange x d (.missed .garbled)
    (fun s => s.missEvent d)

/-- A good answer other than WAIT that ends the exchange (R129). -/
def State.endGood (s : State) (x : Exchange) (d : DropId) (o : PushOutcome) : State :=
  s.endExchange x d o (fun s => s.goodEvent d)

/-- A WAIT (R128): it is a good answer; a stopping drop's ends the exchange at once (R140). A WAIT to the burst-end frame of a burst
whose read mark has been released pauses like any other, and the frame is sent again (log 38). -/
def State.takeWait (s : State) (x : Exchange) (d : DropId) : State :=
  if (s.drop d).stopping then s.endGood x d .unacknowledged
  else if x.waits + 1 ≤ x.set.waitLimit then
    (((s.setExchange { x with waits := x.waits + 1, stage := .pause, since := s.timebase }).goodEvent d).judgeReady).conclude
  else (s.setTrunk { s.trunk with waitLimit := bump s.trunk.waitLimit 1 }).endGood x d (.missed .waitLimit)

/-- The cursor of a FULL step taken back to the burst start and on to the resend index (R74, R134). -/
def State.rewindCursor (s : State) (d : DropId) (k : Kind) (count : Nat) : State :=
  match s.job? d k with
  | some j => s.moveCursor j (fun m => m.toBurst.produceMany s.table.entries count)
  | none => s

/-- A go-back within the burst (R134): the frames from n on are sent again in the same exchange. -/
def State.goBack (s : State) (x : Exchange) (d : DropId) (k : Kind) (n : Nat) : State :=
  if s.noFurther x d then s.endGood x d .unacknowledged
  else
    let s1 := s.setTrunk { s.trunk with goBack := bump s.trunk.goBack 1 }
    let s2 := s1.rewindCursor d k (n - x.burstStart)
    ((s2.quietFrame { x with waits := 0, lastResend := some n } (.segment n (n + 1 == x.burstEnd) none)).goodEvent
      d).judgeReady.conclude

/-- A burst ACK with next expected index n (R112, R134). -/
def State.takeBurstAck (s : State) (x : Exchange) (d : DropId) (k : Kind) (n : Nat) : State :=
  if n = x.burstEnd then s.endGood x d (.ack n)
  else if x.burstEnd < n then s.endGood x d .badSequence
  else if n < x.burstStart then s.endGood x d (.goBack n)
  else
    match x.lastResend with
    | some l => if n ≤ l then s.endGood x d .badSequence else s.goBack x d k n
    | none => s.goBack x d k n

/-- A STATUS (R83, R160): holdings, presence, the Planner's change, the taps. -/
def State.pollStatus (s : State) (x : Exchange) (d : DropId) (h : Holdings) (held : Nat) (taps : List Tap) : State :=
  let changed := s.holdingsDiffer d h
  let s1 := s.takeStatus d h held taps.length
  s1.endExchange x d .unacknowledged (fun s =>
    ((if changed then (s.goodEvent d).planBoth d else s.goodEvent d)).screenTaps d taps)

/-- An ACK to a push frame (R111 to R113, R84, R86). -/
def State.takeAck (s : State) (x : Exchange) (d : DropId) (k : Kind) (v : Nat) (waiting : Option Nat) : State :=
  match x.frame with
  | .segment _ _ _ => (match waiting with | some w => s.takeWaiting d w | none => s).takeBurstAck x d k v
  | .close _ =>
    (s.takeHolding d (fun h =>
      match k with
      | .block => { h with block := v }
      | .fare => { h with staged := v })).endGood x d (.ack v)
  | .activate _ => (s.takeHolding d (fun h => { h with active := v })).endGood x d (.ack v)
  | .poll _ | .openF _ _ _ _ _ _ _ => s.endGood x d (.ack v)

/-- A good answer taken (R129, R130). -/
def State.takeReply (s : State) (x : Exchange) (d : DropId) (r : Reply) : State :=
  let s1 := s.countGood d
  match r with
  | .wait => s1.takeWait x d
  | .status h held taps => s1.pollStatus x d h held taps
  | .nak why => s1.endGood x d (.nak why)
  | .ack v waiting =>
    match x.kind with
    | .push k => s1.takeAck x d k v waiting
    | .roundPoll | .urgentPoll | .broadcast => s1.endGood x d .unacknowledged

/-! ### Frames on the line -/

/-- A bit time in microseconds (R121). -/
def TrunkSettings.bitTime (t : TrunkSettings) : Nat := 1000 / t.rate

/-- How long a frame takes on the line, in microseconds (R121). -/
def Exchange.sendTime (x : Exchange) : Nat := 10 * x.set.bitTime * (trunkBytes x.drop x.frame).length

/-- The line was last seen busy at this moment (R124). -/
def State.touchLine (s : State) : State := s.setTrunk { s.trunk with lineFrom := s.timebase }

/-- The payload of a burst's segment, taken when the frame is formed (R47, R73, R133), and the state with the snapshot cursor
moved on. -/
def State.takePayload (s : State) (d : DropId) (k : Kind) (i : Nat) : State × Option Segment :=
  match s.job? d k with
  | none => (s, none)
  | some j =>
    match j.plan with
    | .delta e :: _ => (s, (s.cat.deltaOf j e).bind (fun r => r.segments[i]?))
    | .stage x :: _ => (s, (s.cat.fareOf j x).bind (fun r => r.segments[i]?))
    | .full :: _ =>
      match s.mark d with
      | some m => (s.setMark d (some (m.produce s.table.entries)), some (m.nextSegment s.table.entries))
      | none => (s, none)
    | .activate _ :: _ | [] => (s, none)

/-- The frame is sent (R123, R124). -/
def State.sendFrame (s : State) (x : Exchange) : State := s.setExchange { x with stage := .sending, since := s.timebase }

/-- A SEGMENT that has not been formed yet is formed, unless the burst is to be stopped (R133). -/
def State.formSegment (s : State) (x : Exchange) (d : DropId) (k : Kind) (i : Nat) (last : Bool) : State :=
  if s.noFurther x d then s.endExchange x d .unacknowledged id
  else
    let r := s.takePayload d k i
    r.1.sendFrame { x with frame := .segment i last r.2 }

/-- The quiet time has been met (R124). -/
def State.quietMet (s : State) (x : Exchange) : State :=
  match x.frame, x.drop, x.kind with
  | .segment i last none, some d, .push k => s.formSegment x d k i last
  | _, _, _ => s.sendFrame x

/-- A SEGMENT without the burst-end flag has gone out (R123, R133). -/
def State.nextSegment (s : State) (x : Exchange) (d : DropId) (i : Nat) : State :=
  if s.noFurther x d then s.endExchange x d .unacknowledged id
  else s.quietFrame { x with waits := 0 } (.segment (i + 1) (i + 2 == x.burstEnd) none)

/-- The broadcast has gone out whole (R137, R152): the changeover, then the Planner. -/
def State.endBroadcast (s : State) (x : Exchange) (p : Nat) : State :=
  let s1 := s.clearExchange x
  let s2 := s1.setTrunk { s1.trunk with broadcasts := bump s1.trunk.broadcasts 1 }
  ((s2.broadcastSent p).replanKind .fare).conclude

/-- A frame's last character has gone out (R123). -/
def State.frameSent (s : State) (x : Exchange) : State :=
  match x.drop with
  | none => match x.frame with | .activate p => s.endBroadcast x p | _ => s
  | some d =>
    match x.frame with
    | .segment i false _ => s.nextSegment x d i
    | _ => s.setExchange { x with stage := .awaiting, since := s.timebase }

end Sys2Proof.Machine
end

