-- ==== Sys2Proof/Machine/Intake.lean ====
section
/-! DEFINITION. The Edition Intake (chapter 2) and what its completions start in the Catalogue, the Card Table and the
Planner (R27 to R30, R57 to R64). -/

namespace Sys2Proof.Machine

/-! ### The contexts -/

/-- The intake context of a kind; none when IDLE (R18). -/
def State.intake (s : State) : Kind → Option Load
  | .fare => s.intakes.fare
  | .block => s.intakes.block

/-- The state with an intake context replaced. -/
def State.setIntake (s : State) (k : Kind) (l : Option Load) : State :=
  match k with
  | .fare => s.setIntakes { s.intakes with fare := l }
  | .block => s.setIntakes { s.intakes with block := l }

/-- The received count (R18). -/
def Load.received (l : Load) : Nat := (l.segments.filter Option.isSome).length

/-- The missing count (R20). -/
def Load.missing (l : Load) : Nat := l.segments.length - l.received

/-- The first missing index, or the segment count when none is missing (R20). -/
def firstMissing : List (Option Segment) → Nat
  | [] => 0
  | none :: _ => 0
  | some _ :: xs => firstMissing xs + 1

/-- The idle deadline set or renewed now (R23). -/
def State.idleDeadline (s : State) : Option Nat :=
  if s.clock.valid ∧ s.settings.idleTimeout ≠ 0 then some (s.clock.minute + s.settings.idleTimeout) else none

/-- The RESULT of a LOAD message: it carries the message's dataset kind and edition (11, section 11.1.4; log 21). -/
def State.loadResult (s : State) (tag : Tag) (code : Code) (kind : Byte) (edition v1 v2 : Nat) : State :=
  s.answer (.result tag code kind edition v1 v2)

/-- The pending close answered, when there is one (R27 to R30, R33). -/
def State.answerClose (s : State) (k : Kind) (l : Load) (code : Code) (v1 : Nat) : State :=
  match l.close with
  | some tag => s.loadResult tag code (kindCode k) l.edition v1 0
  | none => s

/-- The abort pending answered, when there is one (R33). -/
def State.answerAbort (s : State) (k : Kind) (l : Load) : State :=
  match l.abort with
  | some tag => s.loadResult tag .aborted (kindCode k) l.edition 0 0
  | none => s

/-! ### LOAD_OPEN (R19 to R21) -/

/-- Tests 1 to 4 of R19, on the opening's own figures. -/
def openFigures (k : Kind) (f : Form) (edition segCount items : Nat) : Option Code :=
  if (k = .fare ∧ f = .delta) ∨ edition = 0 then some .badForm
  else if itemLimit k f < items then some .tooLarge
  else if items = 0 ∧ (k = .fare ∨ f = .delta) then some .badForm
  else if segCount ≠ segmentsFor k items then some .badForm
  else none

/-- Tests 5 to 9 of R19, against the Catalogue. -/
def Catalogue.openEdition (c : Catalogue) (k : Kind) (f : Form) (edition : Nat) : Option Code :=
  match k, f with
  | .fare, _ =>
    if newer edition c.a ∧ (match c.p? with | some p => newer edition p | none => true) = true then none else some .stale
  | .block, .full => if c.h = 0 ∨ newer edition c.h then none else some .stale
  | .block, .delta =>
    if c.h = 0 then some .gap
    else if edition ≠ succEdition c.h ∧ !newer edition c.h then some .stale
    else if newer edition (succEdition c.h) then some .gap
    else none

/-- What R19 makes of an opening: the code of the first failing test, or the kind and form it passes with. -/
def State.judgeOpen (s : State) (b : OpenBody) : Except Code (Kind × Form) :=
  match kindOf b.kind, formOf b.form with
  | some k, some f =>
    match openFigures k f b.edition.toNat b.segCount.toNat b.itemCount.toNat with
    | some c => .error c
    | none =>
      match s.cat.openEdition k f b.edition.toNat with
      | some c => .error c
      | none => .ok (k, f)
  | _, _ => .error .badForm

/-- The intake that an accepted opening begins (R20, R21). -/
def State.newLoad (s : State) (k : Kind) (f : Form) (b : OpenBody) : Load where
  stage := .receiving
  edition := b.edition.toNat
  form := f
  itemCount := b.itemCount.toNat
  digest := b.digest
  urgent := k == .block && f == .delta && b.urgent != 0
  minute := if k = .fare then b.minute.toNat else 0
  segments := List.replicate b.segCount.toNat none
  deadline := s.idleDeadline
  close := none
  abort := none

/-- Whether an opening has the same parameters as an intake (R20). -/
def Load.sameAs (l : Load) (f : Form) (b : OpenBody) : Bool :=
  l.edition == b.edition.toNat && l.form == f && l.segments.length == b.segCount.toNat && l.itemCount == b.itemCount.toNat &&
    l.digest == b.digest

/-- An accepting answer: the missing count and the first missing index (R20). -/
def State.acceptOpen (s : State) (tag : Tag) (code : Code) (b : OpenBody) (k : Kind) (l : Load) : State :=
  (s.setIntake k (some l)).loadResult tag code b.kind b.edition.toNat l.missing (firstMissing l.segments)

/-- An opening that has passed R19, taken against its context (R20, R23). -/
def State.takeOpen (s : State) (tag : Tag) (b : OpenBody) (k : Kind) (f : Form) : State :=
  let fresh := s.newLoad k f b
  match s.intake k with
  | none => s.acceptOpen tag .accepted b k fresh
  | some l =>
    match l.stage with
    | .receiving =>
      if l.sameAs f b then
        s.acceptOpen tag .acceptedContinue b k { l with urgent := fresh.urgent, minute := fresh.minute, deadline := s.idleDeadline }
      else s.acceptOpen tag .restarted b k fresh
    | .checking _ | .applying | .rebuilding => s.loadResult tag .busy b.kind b.edition.toNat 0 0

/-! ### LOAD_SEGMENT, LOAD_CLOSE, LOAD_ABORT -/

/-- A segment no RECEIVING intake can take (R22). -/
def State.straySegment (s : State) : State := s.setIntakes { s.intakes with segStray := bump s.intakes.segStray 1 }

/-- A LOAD_SEGMENT taken by the context of its kind (R22). -/
def State.takeSegment (s : State) (k : Kind) (l : Load) (i : Nat) (payload : Segment) : State :=
  match l.segments[i]? with
  | none => s.straySegment
  | some (some _) => s.setIntakes { s.intakes with segDuplicate := bump s.intakes.segDuplicate 1 }
  | some none => s.setIntake k (some { l with segments := l.segments.set i (some payload), deadline := s.idleDeadline })

/-- A LOAD_CLOSE of the intake's own edition (R25). -/
def State.takeClose (s : State) (tag : Tag) (kind : Byte) (k : Kind) (l : Load) : State :=
  match l.stage with
  | .receiving =>
    if l.missing = 0 then s.setIntake k (some { l with stage := .checking .notBegun, deadline := none, close := some tag })
    else s.loadResult tag .incomplete kind l.edition l.missing (firstMissing l.segments)
  | .checking _ | .applying | .rebuilding => s.loadResult tag .inProgress kind l.edition 0 0

/-- A LOAD_ABORT of the intake's own edition (R32). -/
def State.takeAbort (s : State) (tag : Tag) (kind : Byte) (k : Kind) (l : Load) : State :=
  match l.stage with
  | .receiving => (s.setIntake k none).loadResult tag .aborted kind l.edition 0 0
  | .checking _ =>
    (((s.setIntake k none).answerClose k l .aborted 0).loadResult tag .aborted kind l.edition 0 0).raiseLoad .loadRefused
      l.edition .aborted
  | .applying =>
    match l.abort with
    | none => (s.setIntake k (some { l with abort := some tag })).startUndo
    | some _ => s.loadResult tag .inProgress kind l.edition 0 0
  | .rebuilding => s.loadResult tag .busy kind l.edition 0 0

/-- A LOAD_CLOSE or LOAD_ABORT: NOT_OPEN unless it names the edition of its kind's intake (R25, R32). -/
def State.namedLoad (s : State) (tag : Tag) (kind : Byte) (edition : Nat) (take : Kind → Load → State) : State :=
  match kindOf kind with
  | none => s.loadResult tag .notOpen kind edition 0 0
  | some k =>
    match s.intake k with
    | none => s.loadResult tag .notOpen kind edition 0 0
    | some l => if l.edition = edition then take k l else s.loadResult tag .notOpen kind edition 0 0

/-! ### Deadlines (R23, R24) -/

/-- The deadline given to a RECEIVING intake that has none, when the clock is set from invalid (R23). -/
def State.giveDeadline (s : State) (l : Load) : Load :=
  match l.stage, l.deadline with
  | .receiving, none => { l with deadline := s.idleDeadline }
  | _, _ => l

/-- The deadline of a RECEIVING intake recomputed by a CONFIGURE (R23). -/
def State.renewDeadline (s : State) (l : Load) : Load :=
  match l.stage with
  | .receiving => { l with deadline := s.idleDeadline }
  | .checking _ | .applying | .rebuilding => l

/-- Whether the idle deadline of an intake has passed (R24). -/
def State.deadlinePassed (s : State) (l : Load) : Bool :=
  match l.stage, l.deadline with
  | .receiving, some m => m ≤ s.clock.minute
  | _, _ => false

/-- An intake whose idle deadline has passed is discarded (R24). -/
def State.testDeadline (s : State) (k : Kind) : State :=
  match s.intake k with
  | some l => if s.deadlinePassed l then (s.setIntake k none).raiseLoad .loadRefused l.edition .timeout else s
  | none => s

/-- A clock change reaches the Edition Intake (R15, R23, R24), FARE before BLOCK (log 6). -/
def State.intakeClock (s : State) (fromInvalid : Bool) : State :=
  let s1 :=
    if fromInvalid then
      s.setIntakes
        { s.intakes with fare := s.intakes.fare.map s.giveDeadline, block := s.intakes.block.map s.giveDeadline }
    else s
  (s1.testDeadline .fare).testDeadline .block

/-! ### The clock (R13 to R15) -/

/-- The most that C can be (R13). -/
def clockLimit : Nat := 4294967295

/-- C set to a value, the minute phase starting from 0 (R13, R14). -/
def State.setMinute (s : State) (m : Nat) : State :=
  s.setClock { minute := m, valid := true, phaseStart := s.timebase }

/-- A clock change, once the new C is in place (R15): the Changeover Controller, then the Edition Intake (log 6). -/
def State.clockChange (s : State) (fromInvalid : Bool) : State := (s.changeoverClock fromInvalid).intakeClock fromInvalid

/-- The minute ends (R13): C advances by one, and the advance is a clock change. -/
def State.nextMinute (s : State) : State :=
  ((s.passTo (s.clock.phaseStart + 60000000)).setMinute (s.clock.minute + 1)).clockChange false

/-! ### The check (R26 to R30, R57, R58) -/

/-- The outcome of stages 1 and 2 (R26): the code and value of a refusal, or none. -/
def Load.stageOutcome (l : Load) (k : Kind) : Option (Code × Nat) :=
  if digestOf l.payloads.flatten ≠ l.digest then some (.digestBad, 0)
  else (firstMalformed k l.form l.itemCount l.payloads).map fun i => (.malformed, i)

/-- A check that refuses the edition (R27). -/
def State.refuseLoad (s : State) (k : Kind) (l : Load) (code : Code) (v : Nat) : State :=
  let s1 := ((s.setIntake k none).answerClose k l code v).raiseLoad .loadRefused l.edition code
  if code = .tableFull then s1.raiseEdition .tableFull l.edition else s1

/-- The pending close answered DONE and LOAD_DONE raised, with the context IDLE (R28 to R30). -/
def State.loadDone (s : State) (k : Kind) (l : Load) : State :=
  ((s.setIntake k none).answerClose k l .done 0).raiseLoad .loadDone l.edition .done

/-- The check passes a FARE edition (R28, R44, R153, R154). -/
def State.passFare (s : State) (l : Load) : State :=
  let r : Fare :=
    { ref := s.cat.records, edition := l.edition, products := l.itemCount, digest := l.digest, segments := l.payloads
      minute := l.minute }
  let s1 := s.setCat (s.cat.setPending s.planner.jobs r)
  ((s1.loadDone .fare l).replanKind .fare).changeoverNewP

/-- The check passes a BLOCK DELTA: the forward apply begins (R29, R58, R59). -/
def State.startApply (s : State) (l : Load) (f : Figures) : State :=
  let s1 := s.setIntake .block (some { l with stage := .applying })
  s1.setTable
    { s1.table with
      state := .applying l.edition f.liveAfter (.purge none)
      removeAbsent := bump s1.table.removeAbsent f.removeAbsent }

/-- The drops that hold a read mark, in ascending address. -/
def State.markedDrops (s : State) : List DropId := allDrops.filter (fun d => (s.mark d).isSome)

/-- The check passes a BLOCK FULL: the rebuild begins (R30, R63). The re-plan of the drops whose marks step 1 of R63 released
stands at the end of the event, after live at h has become 0 in step 3 (log 36). -/
def State.startRebuild (s : State) (l : Load) : State :=
  let ds := s.markedDrops
  let s1 := ds.foldl State.endPush s
  let s2 := s1.setIntake .block (some { l with stage := .rebuilding })
  let s3 :=
    s2.setTable
      { s2.table with
        state := .rebuilding l.edition 0, entries := [], live := 0, marks := Per8.all none, sweep := none
        sweepRequest := false }
  ds.foldl (fun s d => s.planPair d .block) s3

/-- Stage 3 of a BLOCK DELTA (R57): its figures, when it has begun. -/
def State.stage3 (s : State) (l : Load) : Stage3 → Option Figures
  | .notBegun => none
  | .begun => some (s.figures l.changes)
  | .formed f => some f

/-- The BLOCK intake's check completes after stages 1 and 2 have passed. -/
def State.finishBlock (s : State) (l : Load) (third : Stage3) : State :=
  match l.form with
  | .full => s.startRebuild l
  | .delta =>
    match s.stage3 l third with
    | none => s
    | some f => if f.refuse then s.refuseLoad .block l .tableFull 0 else s.startApply l f

/-- The check of a kind's intake completes (R26). -/
def State.finishCheck (s : State) (k : Kind) (l : Load) (third : Stage3) : State :=
  match l.stageOutcome k with
  | some (code, v) => s.refuseLoad k l code v
  | none =>
    match k with
    | .fare => s.passFare l
    | .block => s.finishBlock l third

/-- Stage 3 begins (R57): the sweep is IDLE with no request pending, and stages 1 and 2 have passed. -/
def State.beginStage3 (s : State) (l : Load) : State :=
  if s.table.sweep.isNone ∧ s.table.sweepRequest = false ∧ (l.stageOutcome .block).isNone then
    s.setIntake .block (some { l with stage := .checking .begun })
  else s

/-- Stage 3 forms its figures (log 18). -/
def State.formFigures (s : State) : State :=
  match s.intakes.block with
  | some l =>
    match l.stage with
    | .checking .begun => s.setIntake .block (some { l with stage := .checking (.formed (s.figures l.changes)) })
    | _ => s
  | none => s

/-! ### Completions (R29, R30, R33, R60, R64, R67) -/

/-- A read mark more than 64 editions behind the new h is ended (R67). -/
def State.lagCheck (s : State) (d : DropId) : State :=
  match s.mark d with
  | some m =>
    if 64 < serialDist m.edition s.cat.h then
      let s1 := s.endPush d
      (s1.setTable { s1.table with markLag := bump s1.table.markLag 1 }).releaseMark d
    else s
  | none => s

/-- The record that an applied delta becomes, with its own number (R29). -/
def Load.deltaRecord (l : Load) (ref : Nat) : Delta :=
  { ref, edition := l.edition, changes := l.itemCount, urgent := l.urgent, digest := l.digest, segments := l.payloads }

/-- The forward apply completes (R29, R60). The Card Table's lag check and sweep request stand before the Planner's re-plan: R49 gives
the two no order (log 6). -/
def State.finishApply (s : State) (l : Load) (ed liveAfter : Nat) (w : ApplyWork) : State :=
  let s1 := s.setTable { s.table with entries := s.appliedEntries ed w, state := .ready, live := liveAfter }
  let s2 := s1.setCat (s1.cat.append s1.planner.jobs (l.deltaRecord s1.cat.records))
  let s3 := s2.loadDone .block l
  let s4 := (allDrops.foldl State.lagCheck s3).requestSweep
  s4.replanKind .block

/-- The undo completes (R33, R61). -/
def State.finishUndo (s : State) (l : Load) (ed : Nat) (p : Place) : State :=
  let s1 := s.setTable { s.table with entries := undoneEntries ed p s.table.entries, state := .ready }
  (((s1.setIntake .block none).answerClose .block l .aborted 0).answerAbort .block l).raiseLoad .loadRefused l.edition .aborted

/-- The rebuild completes (R30, R64). The sweep request stands before the re-plan: R49 gives the two no order (log 6). -/
def State.finishRebuild (s : State) (l : Load) (ed made : Nat) : State :=
  let s1 :=
    s.setTable
      { s.table with
        entries := s.table.entries ++ (imageEntries ed l.changes).drop made, state := .ready, live := l.itemCount }
  let s2 := s1.setCat (s1.cat.rebuild s1.planner.jobs ed)
  ((s2.loadDone .block l).requestSweep).replanKind .block

end Sys2Proof.Machine
end

