-- ==== Sys2Proof/Machine/ClockCommands.lean ====
section
/-! DEFINITION. The events of the service clock and of the deadlines kept on it (R13, R24, R148), and the door deadline
(R150). -/

namespace Sys2Proof.Machine

/-- Some minutes ended one after another, each with its clock change and the decision that stands in its event (R13, R15). -/
def State.minutes (s : State) : Nat → State
  | 0 => s
  | n + 1 => s.nextMinute.conclude.minutes n

/-- The minute phase reaches 60 seconds (R13): C advances by one, unless it stands at its highest value (log 25). -/
def execMinuteAdvance (s : State) : Host.Outcome State Fault Refusal :=
  if s.clock.valid then
    if s.clock.minute < clockLimit then .next s.nextMinute.conclude
    else .next (s.passTo (s.clock.phaseStart + 60000000))
  else .next s

/-- The idle deadline of a kind's RECEIVING intake passes (R24), with the minutes that lead up to it (log 5). A deadline beyond the
clock's highest value does not pass. -/
def execIdleDeadlinePass (k : Kind) (s : State) : Host.Outcome State Fault Refusal :=
  match s.intake k with
  | none => .next s
  | some l =>
    match l.stage, l.deadline with
    | .receiving, some n =>
      if s.clock.valid ∧ n ≤ clockLimit then
        if s.clock.minute < n then .next (s.minutes (n - s.clock.minute)) else .next (s.testDeadline k).uplink
      else .next s
    | _, _ => .next s

/-- The hold deadline passes in DUE (R148), with the minutes that lead up to it (log 5). -/
def execHoldDeadlinePass (s : State) : Host.Outcome State Fault Refusal :=
  match s.change.state, s.change.requested, s.change.hold, s.cat.p? with
  | .due, none, .minute n, some p =>
    if s.clock.valid ∧ n ≤ clockLimit then
      if s.clock.minute < n then .next (s.minutes (n - s.clock.minute)) else .next (s.passHold p).conclude
    else .next s
  | _, _, _, _ => .next s

/-- The door deadline passes in DOOR_WAIT (R150). -/
def execDoorDeadline (s : State) : Host.Outcome State Fault Refusal :=
  match s.change.state, s.change.door with
  | .doorWait, some t => .next (s.passTo t).endDoorWait.conclude
  | _, _ => .next s

end Sys2Proof.Machine
end

