-- ==== Sys2Proof/Machine/Settings.lean ====
section
/-! DEFINITION. The configuration record (R178 to R180): its checks, the values brought into range, and what each owner does
in the event that applies it. -/

namespace Sys2Proof.Machine

/-! ### The checks (R89, R178) -/

/-- Whether a number is a power of two from 1 to 65,536. -/
def windowSize (n : Nat) : Bool := (List.range 17).any (fun e => n == 2 ^ e)

/-- Whether a window passes its own checks (R89). -/
def windowOk (base size : Nat) : Bool := size == 0 || (windowSize size && base % size == 0 && base + size ≤ 65536)

/-- Whether two windows overlap (R89). -/
def windowsOverlap (b1 n1 b2 n2 : Nat) : Bool := n1 != 0 && n2 != 0 && b1 < b2 + n2 && b2 < b1 + n1

/-- Whether a class record passes (R89). -/
def RawClass.ok (c : RawClass) : Bool :=
  windowOk c.blockBase.toNat c.blockSize.toNat && windowOk c.fareBase.toNat c.fareSize.toNat &&
    !windowsOverlap c.blockBase.toNat c.blockSize.toNat c.fareBase.toNat c.fareSize.toNat

/-- Whether an entry of the drop map passes (R89). -/
def RawMapEntry.ok (e : RawMapEntry) : Bool := decide (e.enable.toNat ≤ 1) && decide (e.cls.toNat ≤ 3)

/-- The first check of a configuration record that fails (R178). -/
def RawConfig.refusal (r : RawConfig) : Option Code :=
  if !r.classes.toList.all RawClass.ok then some .badWindow
  else if !r.dropMap.toList.all RawMapEntry.ok then some .badMap
  else none

/-! ### Values brought into range (R179) -/

/-- A value brought between two bounds. -/
def clamp (lo hi n : Nat) : Nat := max lo (min hi n)

/-- The class number of a checked map entry. -/
def classNumber (b : Byte) : ClassId := ⟨b.toNat % 4, Nat.mod_lt _ (by decide)⟩

/-- A class record as applied: the base of a window of size 0 is recorded as 0 (R89, R190). -/
def RawClass.applied (c : RawClass) : ClassSettings where
  blockBase := if c.blockSize = 0 then 0 else c.blockBase.toNat
  blockSize := c.blockSize.toNat
  fareBase := if c.fareSize = 0 then 0 else c.fareBase.toNat
  fareSize := c.fareSize.toNat
  delta := c.delta == 1

/-- The trunk rate as applied (R120). -/
def rateOf (n : Nat) : Nat := if 1000 ≤ n then 1000 else if 500 ≤ n then 500 else 250

/-- The configuration record as applied (R16, R23, R91 to R93, R98, R107, R108, R114, R120, R144, R179). -/
def RawConfig.applied (r : RawConfig) (current : BitVec 16) : Settings where
  protocolType := if r.protocolType.toNat < 0x0600 then current else r.protocolType
  enables := ⟨r.enLoad != 0, r.enDrop != 0, r.enJob != 0, r.enChangeover != 0, r.enTable != 0, r.enTapq != 0⟩
  dayStart := min 1439 r.dayStart.toNat
  idleTimeout := min 60 r.idleTimeout.toNat
  classes := r.classes.map RawClass.applied
  dropMap := r.dropMap.map (fun e => ⟨e.enable == 1, classNumber e.cls⟩)
  pollMode := if r.pollMode = 2 then .periodic else .continuous
  period := clamp 1 60 r.period.toNat
  divisor := clamp 1 16 r.divisor.toNat
  parking := if r.parking = 2 then .mru else .fixed
  bias := min 255 r.bias.toNat
  levelUrgent := min 3 r.levelUrgent.toNat
  levelRoutine := min 3 r.levelRoutine.toNat
  levelFare := min 3 r.levelFare.toNat
  floorDepot := clamp 1 3 r.floorDepot.toNat
  floorClosed := clamp 1 3 r.floorClosed.toNat
  floorOpen := clamp 1 3 r.floorOpen.toNat
  retryLimit := max 1 r.retryLimit.toNat
  trunk :=
    { rate := rateOf r.rate.toNat
      quiet := clamp 8 255 r.quiet.toNat
      replyTimeout := clamp 100 5000 r.replyTimeout.toNat
      waitInterval := max 1 r.waitInterval.toNat
      waitLimit := clamp 1 64 r.waitLimit.toNat
      burst := clamp 1 8 r.burst.toNat }
  paceService := clamp 1 32 r.paceService.toNat
  paceDepot := clamp 1 32 r.paceDepot.toNat
  holdLimit := min 30 r.holdLimit.toNat
  doorLimit := min 120 r.doorLimit.toNat

/-! ### The owners (R180) -/

/-- The Edition Intake recomputes the idle deadline of each RECEIVING intake (R23). -/
def State.renewDeadlines (s : State) : State :=
  s.setIntakes
    { s.intakes with fare := s.intakes.fare.map s.renewDeadline, block := s.intakes.block.map s.renewDeadline }

/-- Whether an exchange with a drop is in flight (R88). -/
def State.exchangeWith (s : State) (d : DropId) : Bool :=
  match s.trunk.ex with
  | some x => x.drop == some d
  | none => false

/-- A DISABLED drop enabled (R88). -/
def State.enableDrop (s : State) (d : DropId) : State :=
  s.setDrop d { s.drop d with presence := .absent, run := 0, known := false, holdings := ⟨0, 0, 0⟩ }

/-- The drop map's enable value acts on a drop's record (R88). -/
def State.applyEnable (s : State) (d : DropId) : State :=
  if (s.settings.dropMap.get d).enabled then
    if (s.drop d).stopping then s.setDrop d { s.drop d with stopping := false }
    else if (s.drop d).presence = .disabled then s.enableDrop d
    else s
  else if (s.drop d).presence = .disabled ∨ (s.drop d).stopping then s
  else if s.exchangeWith d then s.setDrop d { s.drop d with stopping := true }
  else s.disableDrop d

/-- The Roster's poll settings (R91, R92): a new D resets the probe count, a new poll mode waits for the round in progress. -/
def State.applyPolling (s : State) (old : Settings) : State :=
  s.setRoster
    { s.roster with
      probe := if s.settings.divisor = old.divisor then s.roster.probe else 0
      pollMode := if s.trunk.round.isSome then s.roster.pollMode else s.settings.pollMode }

/-- The notices of a class that is disabled are withdrawn, but for one in transmission (R186). One that stays so and is then cut by a
loss of the link waits again, until a CONFIGURE with its class still off withdraws it (log 42). -/
def State.withdrawNotices (s : State) : State :=
  s.setPort
    { s.port with
      notices :=
        s.port.notices.filter (fun n =>
          s.settings.enables.has n.flag ||
            (match s.port.tx with
            | some t => (match t.body with | .notice m => m.flag == n.flag | .answer _ | .taps _ => false)
            | none => false)) }

/-- Whether a change of settings is a re-plan trigger (R104). -/
def Settings.replans (old new : Settings) : Bool :=
  old.classes != new.classes || old.dropMap != new.dropMap || old.levelUrgent != new.levelUrgent ||
    old.levelRoutine != new.levelRoutine || old.levelFare != new.levelFare || old.floorDepot != new.floorDepot ||
    old.floorClosed != new.floorClosed || old.floorOpen != new.floorOpen || old.bias != new.bias

/-- Both pairs of every drop planned, in ascending address. -/
def State.planEvery (s : State) : State := allDrops.foldl State.planBoth s

/-- An exchange with a drop that this CONFIGURE makes stopping ends at once while it pauses, or waits to be sent again after a WAIT
(R88, R140); `before` is the hub before the CONFIGURE. For a drop that was stopping already there is nothing further. A frame sent
again after a WAIT that a collision has put back to QUIET counts as one that waits to be sent again after a WAIT (log 17). -/
def State.stopsAtOnce (s before : State) : Option (Exchange × DropId) :=
  match s.trunk.ex with
  | none => none
  | some x =>
    match x.drop with
    | none => none
    | some d =>
      if (before.drop d).stopping = false ∧ (s.drop d).stopping ∧ (x.stage = .pause ∨ (x.stage = .quiet ∧ 0 < x.waits)) then
        some (x, d)
      else none

/-- The end of the event of a CONFIGURE that came to the hub `before`: readiness, the arbiter, the uplink. -/
def State.settleConfigure (s before : State) : State :=
  match s.stopsAtOnce before with
  | some (x, d) => s.endExchange x d .unacknowledged id
  | none => s.judgeReady.conclude

/-- A configuration record that has passed its checks is applied in one event (R180; log 6). -/
def State.configure (s : State) (new : Settings) : State :=
  let old := s.settings
  let s1 := (s.setSettings new).renewDeadlines
  let s2 := (allDrops.foldl State.applyEnable s1).applyPolling old
  let s3 := s2.relevelJobs
  let s4 := if old.replans new then s3.planEvery else s3
  s4.withdrawNotices

end Sys2Proof.Machine
end

