-- ==== Sys2Proof/Machine/Resets.lean ====
section
/-! DEFINITION. The two resets (R35, R51, R76, R95, R119, R142, R158, R172, R188). -/

namespace Sys2Proof.Machine

/-- The warm restart of one intake context (R35). -/
def State.restartIntake (s : State) (k : Kind) : State :=
  match s.intake k with
  | none => s
  | some l =>
    match l.stage with
    | .receiving => s.setIntake k none
    | .checking _ =>
      ((s.setIntake k none).answerClose k l .aborted 0).raiseLoad .loadRefused l.edition .aborted
    | .applying => s.startUndo
    | .rebuilding => s

/-- The warm restart of the trunk and of the round (R95, R142): what is in flight is cut, and nothing of it is handed over. The round
in progress ends with the restart, and a poll mode that waited for that is in force from it on (log 37). After a frame or an answer
that is cut, the quiet time counts from the restart (log 41). -/
def State.restartTrunk (s : State) : State :=
  let busy : Bool :=
    match s.trunk.ex with
    | some x => x.stage == .sending || x.stage == .receiving
    | none => false
  (s.setTrunk
    { s.trunk with
      ex := none, request := none, pushCount := 0, emptyPause := none, lastUrgent := none
      lineFrom := if busy then s.timebase else s.trunk.lineFrom }).endRound

/-- The warm restart of the Planner (R119). -/
def State.restartPlanner (s : State) : State := s.setPlanner { s.planner with jobs := [], lastServed := none }

/-- The warm restart of the Catalogue (R51). -/
def State.restartCatalogue (s : State) : State := s.setCat { s.cat with retired := [], withdrawn := [], hold := none }

/-- The warm restart of the Card Table, its undo apart (R76; log 34). -/
def State.restartTable (s : State) : State :=
  (s.setTable { s.table with marks := Per8.all none, sweep := none, sweepRequest := false }).requestSweep

/-- The warm restart of one drop record (R95). -/
def Drop.restart (r : Drop) : Drop :=
  { r with
    presence := if r.stopping then .disabled else if r.presence = .disabled then .disabled else .absent
    stopping := false, run := 0, tapUrgent := false, fareAhead := false, blockNofit := false }

/-- The warm restart of the Roster (R95). -/
def State.restartRoster (s : State) : State :=
  s.setRoster { s.roster with drops := s.roster.drops.map Drop.restart, probe := 0, lastRound := none }

/-- The warm restart takes effect on every block (R36, R183); the arbiter's first decision stands in the same event. -/
def State.warmRestart (s : State) : State :=
  let s1 := (s.restartIntake .fare).restartIntake .block
  let s2 := s1.restartTrunk.restartPlanner.restartCatalogue.restartTable.restartRoster
  s2.changeoverRestart.conclude

/-- The hard reset (R34, R51, R76, R95, R119, R142, R157, R171, R188), with the arbiter's first decision in the event that ends
it (log 23). The commands that wait are not the hub's and stay. -/
def State.hardReset (s : State) : State := (State.reset.setPending s.pending).conclude

end Sys2Proof.Machine
end

