-- ==== Sys2Proof/Machine/LinkCommands.lean ====
section
/-! DEFINITION. The events of the gateway link's frames and of its PHY (R174 to R177), and the hard reset (R188). -/

namespace Sys2Proof.Machine

/-- A frame with a bad check sequence is dropped (R174). -/
def execFcsBad (s : State) : Host.Outcome State Fault Refusal :=
  .next (s.setPort { s.port with fcsBad := bump s.port.fcsBad 1 })

/-- A good frame of another type is ignored (R174). -/
def execOtherType (s : State) : Host.Outcome State Fault Refusal :=
  .next (s.setPort { s.port with otherType := bump s.port.otherType 1 })

/-- An accepted frame's message is discarded by its header (R174, R175). -/
def execMsgDiscard (src : MacAddr) (_why : DiscardReason) (s : State) : Host.Outcome State Fault Refusal :=
  .next (s.acceptFrom src).discardMessage

/-- A message that takes an answer finds no room for it (R174, R176); with room the event does not arise (log 3). -/
def execAnswerDrop (src : MacAddr) (s : State) : Host.Outcome State Fault Refusal :=
  if s.answerRoom then .next s else .next (s.acceptFrom src).dropAnswer

/-- RESETn low or power-up (R188). -/
def execHardReset (s : State) : Host.Outcome State Fault Refusal := .next s.hardReset

/-- The PHY reports the link UP (R177). -/
def execLinkUp (s : State) : Host.Outcome State Fault Refusal := .next (s.setPort { s.port with linkUp := true }).uplink

/-- The link state becomes DOWN (R169, R177): the frame in transmission is cut, and what it carried stays queued. -/
def execLinkDown (s : State) : Host.Outcome State Fault Refusal :=
  if s.port.linkUp then
    .next (s.setPort { s.port with linkUp := false, tx := none, linkLoss := bump s.port.linkLoss 1 })
  else .next s

/-- What leaves its queue when a frame completes (R168, R177). -/
def State.txDone (s : State) (b : TxBody) : State :=
  let s1 := s.setPort { s.port with tx := none }
  match b with
  | .answer _ => s1.setPort { s1.port with answers := s1.port.answers.drop 1 }
  | .notice _ => s1.setPort { s1.port with notices := s1.port.notices.drop 1 }
  | .taps n => s1.setTaps { s1.taps with queue := s1.taps.queue.drop n, tapsOut := bump s1.taps.tapsOut n }

/-- The MAC completes a frame (R177). -/
def execTransmitComplete (s : State) : Host.Outcome State Fault Refusal :=
  match s.port.tx with
  | some t => .next (s.txDone t.body).uplink
  | none => .next s

end Sys2Proof.Machine
end

