-- ==== Sys2Proof/Machine/LoadCommands.lean ====
section
/-! DEFINITION. The four LOAD messages (chapter 2). -/

namespace Sys2Proof.Machine

/-- LOAD_OPEN (R19 to R21). -/
def execLoadOpen (m : Head) (b : OpenBody) (s : State) : Host.Outcome State Fault Refusal :=
  .next (s.takeMessage m fun s =>
    match s.judgeOpen b with
    | .error c => s.loadResult m.tag c b.kind b.edition.toNat 0 0
    | .ok (k, f) => s.takeOpen m.tag b k f)

/-- LOAD_SEGMENT (R22): it takes no answer, so it is taken whatever room the answer queue has (R176). A payload that is not 240
bytes long is a body of a wrong length (R175). -/
def execLoadSegment (m : Head) (kind : Byte) (edition index : BitVec 16) (payload : Segment) (s : State) :
    Host.Outcome State Fault Refusal :=
  let s1 := s.acceptFrom m.src
  if payload.length = 240 then
    match kindOf kind with
    | none => .next s1.straySegment
    | some k =>
      match s1.intake k with
      | none => .next s1.straySegment
      | some l =>
        if l.stage = .receiving ∧ l.edition = edition.toNat then .next (s1.takeSegment k l index.toNat payload)
        else .next s1.straySegment
  else .next s1.discardMessage

/-- LOAD_CLOSE (R25). -/
def execLoadClose (m : Head) (kind : Byte) (edition : BitVec 16) (s : State) : Host.Outcome State Fault Refusal :=
  .next (s.takeMessage m fun s => s.namedLoad m.tag kind edition.toNat (fun k l => s.takeClose m.tag kind k l))

/-- LOAD_ABORT (R32). -/
def execLoadAbort (m : Head) (kind : Byte) (edition : BitVec 16) (s : State) : Host.Outcome State Fault Refusal :=
  .next (s.takeMessage m fun s => s.namedLoad m.tag kind edition.toNat (fun k l => s.takeAbort m.tag kind k l))

end Sys2Proof.Machine
end

