-- ==== Sys2Proof/Machine/Reports.lean ====
section
/-! DEFINITION. The contents of the six reports (R181; 11, section 11.1.5). -/

namespace Sys2Proof.Machine

/-! ### State codes (11, section 11.1.5) -/

/-- An intake context's state code; IDLE is 0. -/
def LoadStage.byte : LoadStage → Byte
  | .receiving => 1
  | .checking _ => 2
  | .applying => 3
  | .rebuilding => 4

/-- The table state's code. -/
def TableState.byte : TableState → Byte
  | .empty => 0
  | .ready => 1
  | .applying _ _ _ => 2
  | .rebuilding _ _ => 3

/-- A presence state's code. -/
def Presence.byte : Presence → Byte
  | .disabled => 0
  | .absent => 1
  | .joining => 2
  | .present => 3
  | .fading => 4

/-- The changeover state's code. -/
def ChState.byte : ChState → Byte
  | .idle => 0
  | .staging => 1
  | .due => 2
  | .doorWait => 3

/-- The trunk stage's code (R123). -/
def Stage.byte : Stage → Byte
  | .quiet => 0
  | .sending => 1
  | .awaiting => 2
  | .receiving => 3
  | .pause => 4

/-- The exchange kind's code; none is 0. -/
def ExKind.byte : ExKind → Byte
  | .roundPoll => 1
  | .urgentPoll => 2
  | .push _ => 3
  | .broadcast => 4

/-- A job state's code, in the order of R97. -/
def JobState.byte : JobState → Byte
  | .ready => 0
  | .active => 1
  | .paused => 2
  | .held => 3
  | .failed => 4

/-- A phase's code. -/
def Phase.byte : Phase → Byte
  | .open_ => 0
  | .segments => 1
  | .close => 2
  | .activate => 3

/-- A mode's code: that of a VEHICLE (11, section 11.1.2), also in the SUMMARY (log 44). -/
def Mode.byte : Mode → Byte
  | .depot => 1
  | .service => 2

/-- A door state's code: that of a VEHICLE (11, section 11.1.2), also in the SUMMARY (log 44). -/
def Door.byte : Door → Byte
  | .open_ => 1
  | .closed => 2

/-- The form the error log gives, coded. -/
def LogForm.byte : LogForm → Byte
  | .full => 1
  | .delta => 2
  | .activate => 3

/-- A number as a byte. -/
def byteOf (n : Nat) : Byte := BitVec.ofNat 8 n

/-! ### The configuration record in force (11, section 11.1.3) -/

/-- A class record as it is reported. -/
def ClassSettings.record (c : ClassSettings) : RawClass where
  blockBase := BitVec.ofNat 32 c.blockBase
  blockSize := BitVec.ofNat 32 c.blockSize
  fareBase := BitVec.ofNat 32 c.fareBase
  fareSize := BitVec.ofNat 32 c.fareSize
  delta := mark8 c.delta

/-- The record that reports the settings in force (R179). -/
def Settings.record (c : Settings) : RawConfig where
  protocolType := c.protocolType
  enLoad := mark8 c.enables.load
  enDrop := mark8 c.enables.drop
  enJob := mark8 c.enables.job
  enChangeover := mark8 c.enables.changeover
  enTable := mark8 c.enables.table
  enTapq := mark8 c.enables.tapq
  dayStart := BitVec.ofNat 16 c.dayStart
  idleTimeout := byteOf c.idleTimeout
  classes := c.classes.map ClassSettings.record
  dropMap := c.dropMap.map (fun e => ⟨mark8 e.enabled, byteOf e.cls.val⟩)
  pollMode := match c.pollMode with | .continuous => 1 | .periodic => 2
  period := byteOf c.period
  divisor := byteOf c.divisor
  parking := match c.parking with | .fixed => 1 | .mru => 2
  bias := BitVec.ofNat 16 c.bias
  levelUrgent := byteOf c.levelUrgent
  levelRoutine := byteOf c.levelRoutine
  levelFare := byteOf c.levelFare
  floorDepot := byteOf c.floorDepot
  floorClosed := byteOf c.floorClosed
  floorOpen := byteOf c.floorOpen
  retryLimit := byteOf c.retryLimit
  rate := BitVec.ofNat 16 c.trunk.rate
  quiet := BitVec.ofNat 16 c.trunk.quiet
  replyTimeout := BitVec.ofNat 16 c.trunk.replyTimeout
  waitInterval := byteOf c.trunk.waitInterval
  waitLimit := byteOf c.trunk.waitLimit
  burst := byteOf c.trunk.burst
  paceService := byteOf c.paceService
  paceDepot := byteOf c.paceDepot
  holdLimit := byteOf c.holdLimit
  doorLimit := byteOf c.doorLimit

/-! ### SUMMARY -/

/-- Bytes 0 to 15: identity and station address. -/
def summaryIdentity : List Byte :=
  le 2 Config.vendorCode ++ le 2 Config.familyCode ++ le 2 Config.partNumber ++ le 1 Config.siliconRevision ++ [0] ++
    macBytes Config.stationAddress ++ [0, 0]

/-- Bytes 16 to 27: protocol type, link, gateway, queue lengths. The answer queue counts this REPORT too, which the event that takes
the QUERY leaves in it (R181). -/
def State.summaryPort (s : State) : List Byte :=
  le 2 s.settings.protocolType ++ [mark8 s.port.linkUp, mark8 s.port.gateway.isSome] ++ macBytes (s.port.gateway.getD 0) ++
    [byteOf (s.port.answers.length + 1), byteOf s.port.notices.length]

/-- Bytes 28 to 37: the clock, the vehicle condition. -/
def State.summaryClock (s : State) : List Byte :=
  leBytes 4 s.stamp ++ [mark8 s.clock.valid, 0] ++ leBytes 2 s.settings.dayStart ++ [s.port.mode.byte, s.port.door.byte]

/-- The set of flags as a number, one bit for each flag (11, section 11.1.2). -/
def FlagSet.bits (f : FlagSet) : Nat := (allFlags.map (fun g => if (f.get g).isSome then 2 ^ g.code else 0)).sum

/-- The enables as a number, one bit for each class. -/
def Enables.bits (e : Enables) : Nat :=
  (if e.load then 1 else 0) + (if e.drop then 2 else 0) + (if e.job then 4 else 0) + (if e.changeover then 8 else 0) +
    (if e.table then 16 else 0) + (if e.tapq then 32 else 0)

/-- A flag's held context, 8 bytes, zero when the flag is clear. -/
def ctxBytes : Option Ctx → List Byte
  | none => List.replicate 8 0
  | some c =>
    leBytes 2 c.edition ++
      [match c.code with | some x => x.byte | none => 0, byteOf (match c.drop with | some d => addrOf d | none => 0)] ++
      leBytes 4 c.minute

/-- Bytes 38 to 121: the flags, the enables, the held contexts. -/
def State.summaryFlags (s : State) : List Byte :=
  leBytes 2 s.port.flags.bits ++ [byteOf s.settings.enables.bits, 0] ++
    allFlags.flatMap (fun g => ctxBytes (s.port.flags.get g))

/-- An intake context, 8 bytes. -/
def loadBytes : Option Load → List Byte
  | none => List.replicate 8 0
  | some l => [l.stage.byte, formCode l.form] ++ leBytes 2 l.edition ++ leBytes 2 l.segments.length ++ leBytes 2 l.received

/-- Bytes 122 to 153: the intakes, the Catalogue (R50). -/
def State.summaryCatalogue (s : State) : List Byte :=
  loadBytes s.intakes.fare ++ loadBytes s.intakes.block ++ leBytes 2 s.cat.h ++ leBytes 2 s.cat.b ++
    [byteOf s.cat.length, 0] ++ leBytes 2 s.cat.a ++ leBytes 2 (s.cat.p?.getD 0) ++
    leBytes 4 (match s.cat.pendingFare with | some r => r.minute | none => 0) ++ leBytes 2 s.occupancy

/-- Bytes 154 to 169: the Card Table (R75). -/
def State.summaryTable (s : State) : List Byte :=
  [s.table.state.byte, mark8 s.table.sweep.isSome, byteOf s.markedDrops.length, 0] ++ leBytes 4 s.table.entries.length ++
    leBytes 4 s.table.live ++ leBytes 2 s.lowestRead ++ leBytes 2 s.horizon

/-- A drop's presence byte, with bit 7 set for a stopping drop. -/
def Drop.presenceByte (r : Drop) : Byte := if r.stopping then r.presence.byte ||| 0x80 else r.presence.byte

/-- Bytes 178 to 189: the trunk (R141). -/
def State.summaryTrunk (s : State) : List Byte :=
  leBytes 2 s.settings.trunk.rate ++
    (match s.trunk.ex with
    | none => [0, 0, 0]
    | some x => [x.kind.byte, byteOf (match x.drop with | some d => addrOf d | none => 0), x.stage.byte]) ++
    [mark8 s.trunk.round.isSome, byteOf s.trunk.pushCount, mark8 s.trunk.request.isSome] ++
    leBytes 2 (s.trunk.request.getD 0) ++ [0, 0]

/-- The whole seconds left before the door deadline, rounded up (R156). -/
def State.doorSeconds (s : State) : Nat :=
  match s.change.state, s.change.door with
  | .doorWait, some t => (t - s.timebase + 999999) / 1000000
  | _, _ => 0

/-- The form and value of the hold deadline, a value above the top of the range reported as the top (R156). -/
def holdReport : Hold → Byte × Nat
  | .absent | .unset _ => (0, 0)
  | .minute m => (1, min 4294967295 m)
  | .passed => (2, 0)

/-- Bytes 190 to 205: the changeover (R156). -/
def State.summaryChange (s : State) : List Byte :=
  [s.change.state.byte, mark8 s.change.forced, (holdReport s.change.hold).1, 0] ++ leBytes 4 (holdReport s.change.hold).2 ++
    [byteOf s.doorSeconds, byteOf (allDrops.filter s.counted).length,
      byteOf (allDrops.filter (fun d => match s.cat.p? with | some p => s.armed p d | none => false)).length, 0] ++
    leBytes 2 (s.change.requested.getD 0) ++ [0, 0]

/-- The records of a TAPS message in transmission (R170). -/
def Port.tapsSending (p : Port) : Nat :=
  match p.tx with
  | some t => (match t.body with | .taps n => n | .answer _ | .notice _ => 0)
  | none => 0

/-- Bytes 206 to 209: the tap queue (R170). -/
def State.summaryTaps (s : State) : List Byte := leBytes 2 s.taps.queue.length ++ [byteOf s.port.tapsSending, 0]

/-- The SUMMARY content, 346 bytes. -/
def State.summaryReport (s : State) : List Byte :=
  summaryIdentity ++ s.summaryPort ++ s.summaryClock ++ s.summaryFlags ++ s.summaryCatalogue ++ s.summaryTable ++
    s.roster.drops.toList.map Drop.presenceByte ++ s.summaryTrunk ++ s.summaryChange ++ s.summaryTaps ++
    writeConfig s.settings.record

/-! ### CHAIN (R50) -/

/-- A chain record, 12 bytes. -/
def chainBytes (jobs : List Job) (r : Delta) : List Byte :=
  leBytes 2 r.edition ++ leBytes 2 r.segments.length ++ leBytes 2 r.changes ++
    [mark8 r.urgent, byteOf (readers jobs .block r.ref)] ++ le 4 r.digest

/-- A retired record, 6 bytes. -/
def retiredBytes (jobs : List Job) (r : Delta) : List Byte :=
  leBytes 2 r.edition ++ leBytes 2 r.segments.length ++ [byteOf (readers jobs .block r.ref), 0]

/-- A or P, 16 bytes, with T or 0. -/
def fareBytes (jobs : List Job) (t : Nat) (r : Fare) : List Byte :=
  leBytes 2 r.edition ++ leBytes 2 r.segments.length ++ leBytes 2 r.products ++ [byteOf (readers jobs .fare r.ref), 0] ++
    le 4 r.digest ++ leBytes 4 t

/-- A withdrawn record, 6 bytes. -/
def withdrawnBytes (jobs : List Job) (hold : Option Nat) (r : Fare) : List Byte :=
  leBytes 2 r.edition ++ leBytes 2 r.segments.length ++
    [byteOf (readers jobs .fare r.ref), mark8 (hold == some r.ref)]

/-- The CHAIN content. -/
def State.chainReport (s : State) : List Byte :=
  let jobs := s.planner.jobs
  leBytes 2 s.cat.h ++ leBytes 2 s.cat.b ++
    [byteOf s.cat.length, byteOf s.cat.retired.length, byteOf s.cat.withdrawn.length,
      byteOf ((if s.cat.active.isSome then 1 else 0) + (if s.cat.pendingFare.isSome then 2 else 0))] ++
    s.cat.chain.flatMap (chainBytes jobs) ++ s.cat.retired.flatMap (retiredBytes jobs) ++
    s.cat.active.toList.flatMap (fareBytes jobs 0) ++ s.cat.pendingFare.toList.flatMap (fun r => fareBytes jobs r.minute r) ++
    s.cat.withdrawn.flatMap (withdrawnBytes jobs s.cat.hold)

/-! ### JOBS (R118) -/

/-- The form of a job's current step as a job report codes it: STAGE as FULL. -/
def Job.stepByte (j : Job) : Byte := j.logForm.byte

/-- The edition of a job's current step as a job report gives it (R118): h0 for an opened FULL, 0 for one not yet opened. A FAILED
job's FULL step is no longer under way and its mark is released, so it reads 0 (log 48). -/
def State.reportedEdition (s : State) (j : Job) : Nat := if j.isFull ∧ j.underWay = false then 0 else s.stepEdition j

/-- The resume key of an opened FULL (R74, R118). -/
def State.resumeKey (s : State) (j : Job) : Nat :=
  if j.isFull ∧ j.underWay then (match s.mark j.drop with | some m => m.ack.key | none => 0) else 0

/-- A job, 30 bytes. The steps remaining are those of the plan, the current one among them (log 51). -/
def State.jobBytes (s : State) (j : Job) : List Byte :=
  [byteOf (addrOf j.drop), kindCode j.kind, j.state.byte, byteOf j.level, mark8 j.urgent, mark8 j.promoted] ++
    leBytes 2 j.target ++ [j.stepByte] ++ leBytes 2 (s.reportedEdition j) ++ leBytes 2 j.plan.length ++
    [mark8 j.underWay, j.phase.byte] ++ leBytes 2 j.next ++ leBytes 2 j.burstStart ++ leBytes 2 j.retry ++
    [match j.lastCause with | some c => c.byte | none => 0] ++ leBytes 8 (s.resumeKey j)

/-- Jobs, preceded by a one-byte count. -/
def State.jobsBytes (s : State) (js : List Job) : List Byte := byteOf js.length :: js.flatMap s.jobBytes

/-- The JOBS content: every job in queue order. -/
def State.jobsReport (s : State) : List Byte := s.jobsBytes s.planner.jobs

/-! ### DROP (R75, R94, R118; log 19) -/

/-- A drop's six counters in the order of R87. -/
def DropCounters.list (c : DropCounters) : List Nat := [c.good, c.miss, c.garbled, c.joins, c.losses, c.tapsIn]

/-- Some counters, two bytes each. -/
def counterBytes (cs : List Nat) : List Byte := cs.flatMap (leBytes 2)

/-- The Roster's part (R94). The stopping mark has a byte of its own and is not repeated in the presence byte (log 43). The BLOCK
window stands before the FARE window, each by base and size (log 46). -/
def State.rosterPart (s : State) (d : DropId) : List Byte :=
  let r := s.drop d
  let c := s.classOf d
  [mark8 (r.presence != .disabled), mark8 r.stopping, byteOf (s.settings.dropMap.get d).cls.val] ++ leBytes 4 c.blockBase ++
    leBytes 4 c.blockSize ++ leBytes 4 c.fareBase ++ leBytes 4 c.fareSize ++ [mark8 c.delta, r.presence.byte] ++
    leBytes 2 r.run ++ leBytes 2 r.holdings.active ++ leBytes 2 r.holdings.staged ++ leBytes 2 r.holdings.block ++
    [mark8 r.known] ++ leBytes 2 r.tapsHeld ++ [mark8 r.fareAhead, mark8 r.blockNofit, mark8 r.tapUrgent] ++
    counterBytes r.counters.list

/-- The Card Table's part (R75): h0, or 0; and with a mark S, the next index and the acknowledged index. -/
def State.markPart (s : State) (d : DropId) : List Byte :=
  match s.mark d with
  | none => leBytes 2 0
  | some m => leBytes 2 m.edition ++ leBytes 2 m.segs ++ leBytes 2 m.cur.index ++ leBytes 2 m.ack.index

/-- The DROP content. -/
def State.dropReport (s : State) (d : DropId) : List Byte :=
  s.rosterPart d ++ s.markPart d ++ s.jobsBytes (s.planner.jobs.filter (fun j => j.drop == d))

/-! ### ERRORLOG and COUNTERS -/

/-- The ERRORLOG content, 13 bytes, all zero when the log is empty (R116). -/
def State.errorlogReport (s : State) : List Byte :=
  match s.planner.log with
  | none => List.replicate 13 0
  | some e =>
    [1, byteOf (addrOf e.drop), kindCode e.kind, e.form.byte] ++ leBytes 2 e.edition ++ leBytes 2 e.index ++
      leBytes 4 e.minute ++ [e.reason.byte]

/-- The trunk counters in the order of R141. -/
def Trunk.counters (t : Trunk) : List Nat :=
  [t.collision, t.noAnswer, t.garble, t.waitLimit, t.goBack, t.rounds, t.broadcasts]

/-- The Tap Screen's counters in the order of R165. -/
def Taps.counters (q : Taps) : List Nat :=
  [q.unscreened, q.lateListed, q.listedIgnored, q.staleTariff, q.clear, q.zeroAllowance, q.tapsOut]

/-- The blocks that own counters (R187). -/
inductive Owner where
  | gatewayPort
  | editionIntake
  | cardTable
  | dropRoster (d : DropId)
  | planner
  | trunkController
  | tapScreen
  deriving DecidableEq, Repr

/-- The owner of each counter, in the order of R187. The report names an owner by the place of its counters alone, since 11,
section 11.1.5 lays down no bytes for a name (log 19). -/
def counterOwners : List Owner :=
  List.replicate 5 .gatewayPort ++ List.replicate 2 .editionIntake ++ List.replicate 2 .cardTable ++
    allDrops.flatMap (fun d => List.replicate 6 (.dropRoster d)) ++ List.replicate 3 .planner ++
      List.replicate 7 .trunkController ++ List.replicate 7 .tapScreen

/-- Every counter of the hub in the order of R187. -/
def State.counters (s : State) : List Nat :=
  [s.port.fcsBad, s.port.otherType, s.port.msgDiscard, s.port.answerDrop, s.port.linkLoss, s.intakes.segDuplicate,
    s.intakes.segStray, s.table.removeAbsent, s.table.markLag] ++
    s.roster.drops.toList.flatMap (fun r => r.counters.list) ++
    [s.planner.retries, s.planner.jobFail, s.planner.preempt] ++ s.trunk.counters ++ s.taps.counters

/-- Each counter of the hub with its owner (R181, R187). -/
def State.ownedCounters (s : State) : List (Owner × Nat) := counterOwners.zip s.counters

/-- The COUNTERS content: the values in the order that gives each its owner (R181; 11, section 11.1.5; log 19). -/
def State.countersReport (s : State) : List Byte := counterBytes (s.ownedCounters.map Prod.snd)

/-! ### CLEAR (R182) -/

/-- Every counter set to 0 (R182, R187). -/
def State.clearCounters (s : State) : State :=
  let s1 := s.setPort { s.port with fcsBad := 0, otherType := 0, msgDiscard := 0, answerDrop := 0, linkLoss := 0 }
  let s2 := s1.setIntakes { s1.intakes with segDuplicate := 0, segStray := 0 }
  let s3 := s2.setTable { s2.table with removeAbsent := 0, markLag := 0 }
  let s4 := s3.setRoster { s3.roster with drops := s3.roster.drops.map (fun r => { r with counters := ⟨0, 0, 0, 0, 0, 0⟩ }) }
  let s5 := s4.setPlanner { s4.planner with retries := 0, jobFail := 0, preempt := 0 }
  let s6 :=
    s5.setTrunk
      { s5.trunk with
        collision := 0, noAnswer := 0, garble := 0, waitLimit := 0, goBack := 0, rounds := 0, broadcasts := 0 }
  s6.setTaps
    { s6.taps with
      unscreened := 0, lateListed := 0, listedIgnored := 0, staleTariff := 0, clear := 0, zeroAllowance := 0, tapsOut := 0 }

/-- The flags with those a set names made clear (R182); bits above bit 9 name none (R190). -/
def FlagSet.clear (f : FlagSet) (set : BitVec 16) : FlagSet :=
  allFlags.foldl (fun f g => if set.getLsbD g.code then f.put g none else f) f

/-- A FAILED job removed and its pair planned (R117). -/
def State.clearFailed (s : State) (d : DropId) (k : Kind) : State :=
  match s.job? d k with
  | some j => if j.state = .failed then (s.removeJob d k).planPair d k else s
  | none => s

/-- Every FAILED job removed and its pair planned (R182), in queue order. -/
def State.clearAllFailed (s : State) : State :=
  s.planner.jobs.foldl (fun s j => s.clearFailed j.drop j.kind) s

/-- The failed-job selector of a CLEAR: none when it refuses the message (R182, R190). -/
def ClearBody.failedJobs (c : ClearBody) : Option (State → State) :=
  if c.selector = 0 then some id
  else if c.selector = 2 then some State.clearAllFailed
  else if c.selector = 1 then
    match dropAt c.drop.toNat, kindOf c.kind with
    | some d, some k => some (fun s => s.clearFailed d k)
    | _, _ => none
  else none

/-- A CLEAR taken whole (R182; log 29). -/
def State.clearAll (s : State) (c : ClearBody) (jobs : State → State) : State :=
  let s1 := s.setPort { s.port with flags := s.port.flags.clear c.flags }
  let s2 := if c.log = 0 then s1 else s1.setPlanner { s1.planner with log := none }
  let s3 := jobs s2
  if c.counters = 0 then s3 else s3.clearCounters

end Sys2Proof.Machine
end

