-- ==== Sys2Proof/Machine/ManagementCommands.lean ====
section
/-! DEFINITION. CONFIGURE, the QUERY topics, CLEAR, RESTART, TIME and VEHICLE (chapter 10, R14), and the warm restart as an
event of its own (R36). -/

namespace Sys2Proof.Machine

/-- CONFIGURE (R178 to R180): refused whole, or applied whole and answered OK. -/
def execConfigure (m : Head) (r : RawConfig) (s : State) : Host.Outcome State Fault Refusal :=
  .next (s.takeMessage m fun s =>
    match RawConfig.refusal r with
    | some c => s.result m.tag c
    | none => ((s.configure (RawConfig.applied r s.settings.protocolType)).result m.tag .ok).settleConfigure s)

/-- A REPORT formed now (R181). -/
def State.report (s : State) (tag : Tag) (topic : Byte) (content : List Byte) : State := s.answer (.report tag topic content)

/-- QUERY SUMMARY (R181). -/
def execQuerySummary (m : Head) (s : State) : Host.Outcome State Fault Refusal :=
  .next (s.takeMessage m fun s => s.report m.tag 1 s.summaryReport)

/-- QUERY DROP n (R94, R181): BAD_VALUE for an n outside 1 to 8. -/
def execQueryDrop (m : Head) (n : Byte) (s : State) : Host.Outcome State Fault Refusal :=
  .next (s.takeMessage m fun s =>
    match dropAt n.toNat with
    | some d => s.report m.tag 2 (s.dropReport d)
    | none => s.result m.tag .badValue)

/-- QUERY CHAIN (R50). -/
def execQueryChain (m : Head) (s : State) : Host.Outcome State Fault Refusal :=
  .next (s.takeMessage m fun s => s.report m.tag 3 s.chainReport)

/-- QUERY JOBS (R118). -/
def execQueryJobs (m : Head) (s : State) : Host.Outcome State Fault Refusal :=
  .next (s.takeMessage m fun s => s.report m.tag 4 s.jobsReport)

/-- QUERY ERRORLOG (R116). -/
def execQueryErrorlog (m : Head) (s : State) : Host.Outcome State Fault Refusal :=
  .next (s.takeMessage m fun s => s.report m.tag 5 s.errorlogReport)

/-- QUERY COUNTERS (R187). -/
def execQueryCounters (m : Head) (s : State) : Host.Outcome State Fault Refusal :=
  .next (s.takeMessage m fun s => s.report m.tag 6 s.countersReport)

/-- A QUERY whose topic names none of the six (R181). -/
def execQueryBadTopic (m : Head) (_topic : Byte) (s : State) : Host.Outcome State Fault Refusal :=
  .next (s.takeMessage m fun s => s.result m.tag .badValue)

/-- CLEAR (R182): refused with BAD_VALUE, or taken whole and answered OK. -/
def execClear (m : Head) (c : ClearBody) (s : State) : Host.Outcome State Fault Refusal :=
  .next (s.takeMessage m fun s =>
    match ClearBody.failedJobs c with
    | none => s.result m.tag .badValue
    | some jobs => ((s.clearAll c jobs).result m.tag .ok).conclude)

/-- Whether the BLOCK context is REBUILDING (R36). -/
def State.isRebuilding (s : State) : Bool :=
  match s.intakes.block with
  | some l => l.stage == .rebuilding
  | none => false

/-- The mark of a warm restart held back behind a rebuild (R36). -/
def State.holdRestart (s : State) (held : Bool) : State := s.setPort { s.port with restartHeld := held }

/-- RESTART (R183): answered OK, and then the warm restart takes effect or is held back. -/
def execRestart (m : Head) (s : State) : Host.Outcome State Fault Refusal :=
  .next (s.takeMessage m fun s =>
    let s1 := s.result m.tag .ok
    if s1.isRebuilding then s1.holdRestart true else s1.warmRestart)

/-- The warm restart takes effect on every block (R36); it cannot while the BLOCK context is REBUILDING (log 8). -/
def execWarmRestart (s : State) : Host.Outcome State Fault Refusal :=
  if s.isRebuilding then .next s else .next (s.holdRestart false).warmRestart

/-- An accepted TIME (R14): a clock change unless the valid clock already reads M. -/
def State.takeTime (s : State) (n : Nat) : State :=
  let s1 := s.setMinute n
  if s.clock.valid then (if s.clock.minute = n then s1 else s1.clockChange false) else s1.clockChange true

/-- TIME (R14): refused with BAD_VALUE when M is 0. -/
def execTime (m : Head) (minute : BitVec 32) (s : State) : Host.Outcome State Fault Refusal :=
  .next (s.takeMessage m fun s =>
    if minute = 0 then s.result m.tag .badValue else ((s.takeTime minute.toNat).result m.tag .ok).conclude)

/-- The mode a VEHICLE's code gives: any code but DEPOT and SERVICE keeps the mode held (R184). -/
def modeOf (c : Byte) (held : Mode) : Mode := if c = 1 then .depot else if c = 2 then .service else held

/-- The door state a VEHICLE's code gives: any code but CLOSED is OPEN (R184). -/
def doorOf (c : Byte) : Door := if c = 2 then .closed else .open_

/-- The vehicle condition of a VEHICLE handed to its readers (R184). -/
def State.takeVehicle (s : State) (mode door : Byte) : State :=
  let s1 := s.setPort { s.port with mode := modeOf mode s.port.mode, door := doorOf door }
  s1.judgeJobs.changeoverDoors

/-- VEHICLE (R184). -/
def execVehicle (m : Head) (mode door : Byte) (s : State) : Host.Outcome State Fault Refusal :=
  .next (s.takeMessage m fun s => ((s.takeVehicle mode door).result m.tag .ok).conclude)

end Sys2Proof.Machine
end

