-- ==== Sys2Proof/Machine/TrunkCommands.lean ====
section
/-! DEFINITION. The events of the validator trunk (chapter 7, R91). An event whose stage is not the exchange's does not arise
(log 3); a time that passes takes the internal timebase with it (log 2). -/

namespace Sys2Proof.Machine

/-- The exchange in flight, when it is in a stage. -/
def State.inStage (s : State) (g : Stage) : Option Exchange :=
  match s.trunk.ex with
  | some x => if x.stage = g then some x else none
  | none => none

/-- The exchange with a drop in flight, when it is in a stage. -/
def State.inStageWith (s : State) (g : Stage) : Option (Exchange × DropId) :=
  match s.inStage g with
  | some x => x.drop.map fun d => (x, d)
  | none => none

/-- The line has been idle for the quiet time (R124). -/
def execQuietTimeMet (s : State) : Host.Outcome State Fault Refusal :=
  match s.inStage .quiet with
  | some x => .next ((s.passTo (s.trunk.lineFrom + x.set.quiet * x.set.bitTime)).quietMet x)
  | none => .next s

/-- A collision (R125). -/
def execCollision (s : State) : Host.Outcome State Fault Refusal :=
  match s.inStage .sending with
  | some x =>
    .next
      ((s.setTrunk { s.trunk with collision := bump s.trunk.collision 1, lineFrom := s.timebase }).quietFrame x x.frame)
  | none => .next s

/-- A frame's last stop bit has gone out (R123). -/
def execTrunkFrameSent (s : State) : Host.Outcome State Fault Refusal :=
  match s.inStage .sending with
  | some x => .next ((s.passTo (x.since + x.sendTime)).touchLine.frameSent x)
  | none => .next s

/-- A start delimiter is received within the reply timeout (R126). -/
def execAnswerStart (s : State) : Host.Outcome State Fault Refusal :=
  match s.inStage .awaiting with
  | some x => .next (s.touchLine.setExchange { x with stage := .receiving, since := s.timebase })
  | none => .next s

/-- No start delimiter within the reply timeout (R126). -/
def execReplyTimeout (s : State) : Host.Outcome State Fault Refusal :=
  match s.inStageWith .awaiting with
  | some (x, d) => .next ((s.passTo (x.since + x.set.replyTimeout)).noAnswer x d)
  | none => .next s

/-- An answer has ended because the line has just been idle for the quiet time (R124, R126): the last character seen on the line
ended that long ago, and not before the last one known of (log 52). -/
def State.fallSilent (s : State) (x : Exchange) : State :=
  let quiet := x.set.quiet * x.set.bitTime
  let s1 := s.passTo (s.trunk.lineFrom + quiet)
  s1.setTrunk { s1.trunk with lineFrom := s1.timebase - quiet }

/-- The line stays idle before the answer is complete (R126, R127). -/
def execAnswerIncomplete (s : State) : Host.Outcome State Fault Refusal :=
  match s.inStageWith .receiving with
  | some (x, d) => .next ((s.fallSilent x).garbled x d)
  | none => .next s

/-- The answer is complete and is judged (R127, R129). -/
def execAnswerComplete (bytes : List Byte) (s : State) : Host.Outcome State Fault Refusal :=
  match s.inStageWith .receiving with
  | some (x, d) =>
    match judgeAnswer x.drop x.frame bytes with
    | some r => .next (s.touchLine.takeReply x d r)
    | none => .next (s.touchLine.garbled x d)
  | none => .next s

/-- The wait interval passes and the frame is to be sent again (R128). -/
def execWaitInterval (s : State) : Host.Outcome State Fault Refusal :=
  match s.inStage .pause with
  | some x => .next ((s.passTo (x.since + x.set.waitInterval * 1000)).quietFrame x x.frame)
  | none => .next s

/-- The empty-round pause ends and the arbiter decides (R139). -/
def execEmptyRoundPauseEnd (s : State) : Host.Outcome State Fault Refusal :=
  match s.trunk.emptyPause with
  | some t =>
    let s1 := s.passTo t
    .next (s1.setTrunk { s1.trunk with emptyPause := none }).conclude
  | none => .next s

/-- In PERIODIC mode the period passes since the last round start (R91). -/
def execPollPeriod (s : State) : Host.Outcome State Fault Refusal :=
  match s.roster.pollMode, s.roster.lastRound with
  | .periodic, some t => .next (s.passTo (t + s.settings.period * 1000000)).conclude
  | _, _ => .next s

/-- A character arrives (R124, R126): it starts the quiet-time count again, and one of an answer that is being collected does so too
(log 52). -/
def execCharacterReceived (s : State) : Host.Outcome State Fault Refusal := .next s.touchLine

/-- The length field of an answer gives more than the largest answer admitted (R126, R192). -/
def execAnswerLengthTooLarge (s : State) : Host.Outcome State Fault Refusal :=
  match s.inStageWith .receiving with
  | some (x, d) => .next (s.touchLine.garbled x d)
  | none => .next s

end Sys2Proof.Machine
end

