-- ==== Sys2Proof/Machine/WorkCommands.lean ====
section
/-! DEFINITION. The starts and completions of the hub's own work: the check, the apply, the undo, the rebuild and the sweep
(chapters 2 and 4). -/

namespace Sys2Proof.Machine

/-- Stage 3 of a BLOCK DELTA check begins (R57). -/
def execDeltaCheckStart (s : State) : Host.Outcome State Fault Refusal :=
  match s.intakes.block with
  | some l => if l.stage = .checking .notBegun ∧ l.form = .delta then .next (s.beginStage3 l) else .next s
  | none => .next s

/-- The intake check ends with its outcome (R26 to R30). -/
def execCheckComplete (k : Kind) (s : State) : Host.Outcome State Fault Refusal :=
  match s.intake k with
  | some l =>
    match l.stage with
    | .checking third => .next (s.finishCheck k l third).conclude
    | .receiving | .applying | .rebuilding => .next s
  | none => .next s

/-- The forward apply completes (R29, R60). -/
def execApplyComplete (s : State) : Host.Outcome State Fault Refusal :=
  match s.intakes.block, s.table.state with
  | some l, .applying ed la (.purge p) => .next (s.finishApply l ed la (.purge p)).conclude
  | some l, .applying ed la (.write n) => .next (s.finishApply l ed la (.write n)).conclude
  | _, _ => .next s

/-- The undo completes (R33, R61). -/
def execUndoComplete (s : State) : Host.Outcome State Fault Refusal :=
  match s.intakes.block, s.table.state with
  | some l, .applying ed _ (.undo p) => .next (s.finishUndo l ed p).uplink
  | _, _ => .next s

/-- The rebuild completes (R30, R64); a warm restart held back behind it then takes effect (R36; log 9). -/
def execRebuildComplete (s : State) : Host.Outcome State Fault Refusal :=
  match s.intakes.block, s.table.state with
  | some l, .rebuilding ed n =>
    let s1 := (s.finishRebuild l ed n).conclude
    if s1.port.restartHeld then .next (s1.holdRestart false).warmRestart else .next s1
  | _, _ => .next s

/-- A sweep pass completes (R69, R70): a new one starts when a request is marked. -/
def execSweepPassComplete (s : State) : Host.Outcome State Fault Refusal :=
  match s.table.sweep with
  | none => .next s
  | some p =>
    let s1 := s.setTable { s.table with entries := sweptEntries s.table.state.writing p s.table.entries, sweep := none, sweepRequest := false }
    if s.table.sweepRequest then .next s1.requestSweep else .next s1

end Sys2Proof.Machine
end

