-- ==== Sys2Proof/Machine/Dispatch.lean ====
section
/-! DEFINITION. One arm for each command: a direct call of its meaning. -/

namespace Sys2Proof.Machine

/-- A command's effect on everything but the queue of waiting commands. -/
def exec (i : Instr) (s : State) : Host.Outcome State Fault Refusal :=
  match i with
  | .loadOpen m b => Sys2Proof.Machine.execLoadOpen m b s
  | .loadSegment m kind edition index payload => Sys2Proof.Machine.execLoadSegment m kind edition index payload s
  | .loadClose m kind edition => Sys2Proof.Machine.execLoadClose m kind edition s
  | .loadAbort m kind edition => Sys2Proof.Machine.execLoadAbort m kind edition s
  | .configure m r => Sys2Proof.Machine.execConfigure m r s
  | .querySummary m => Sys2Proof.Machine.execQuerySummary m s
  | .queryDrop m n => Sys2Proof.Machine.execQueryDrop m n s
  | .queryChain m => Sys2Proof.Machine.execQueryChain m s
  | .queryJobs m => Sys2Proof.Machine.execQueryJobs m s
  | .queryErrorlog m => Sys2Proof.Machine.execQueryErrorlog m s
  | .queryCounters m => Sys2Proof.Machine.execQueryCounters m s
  | .queryBadTopic m topic => Sys2Proof.Machine.execQueryBadTopic m topic s
  | .clear m c => Sys2Proof.Machine.execClear m c s
  | .restart m => Sys2Proof.Machine.execRestart m s
  | .warmRestart => Sys2Proof.Machine.execWarmRestart s
  | .time m minute => Sys2Proof.Machine.execTime m minute s
  | .vehicle m mode door => Sys2Proof.Machine.execVehicle m mode door s
  | .fcsBad => Sys2Proof.Machine.execFcsBad s
  | .otherType => Sys2Proof.Machine.execOtherType s
  | .msgDiscard src why => Sys2Proof.Machine.execMsgDiscard src why s
  | .answerDrop src => Sys2Proof.Machine.execAnswerDrop src s
  | .hardReset => Sys2Proof.Machine.execHardReset s
  | .linkUp => Sys2Proof.Machine.execLinkUp s
  | .linkDown => Sys2Proof.Machine.execLinkDown s
  | .transmitComplete => Sys2Proof.Machine.execTransmitComplete s
  | .minuteAdvance => Sys2Proof.Machine.execMinuteAdvance s
  | .idleDeadlinePass k => Sys2Proof.Machine.execIdleDeadlinePass k s
  | .deltaCheckStart => Sys2Proof.Machine.execDeltaCheckStart s
  | .checkComplete k => Sys2Proof.Machine.execCheckComplete k s
  | .applyComplete => Sys2Proof.Machine.execApplyComplete s
  | .undoComplete => Sys2Proof.Machine.execUndoComplete s
  | .rebuildComplete => Sys2Proof.Machine.execRebuildComplete s
  | .sweepPassComplete => Sys2Proof.Machine.execSweepPassComplete s
  | .quietTimeMet => Sys2Proof.Machine.execQuietTimeMet s
  | .collision => Sys2Proof.Machine.execCollision s
  | .trunkFrameSent => Sys2Proof.Machine.execTrunkFrameSent s
  | .answerStart => Sys2Proof.Machine.execAnswerStart s
  | .replyTimeout => Sys2Proof.Machine.execReplyTimeout s
  | .answerIncomplete => Sys2Proof.Machine.execAnswerIncomplete s
  | .answerComplete bytes => Sys2Proof.Machine.execAnswerComplete bytes s
  | .waitInterval => Sys2Proof.Machine.execWaitInterval s
  | .emptyRoundPauseEnd => Sys2Proof.Machine.execEmptyRoundPauseEnd s
  | .pollPeriod => Sys2Proof.Machine.execPollPeriod s
  | .holdDeadlinePass => Sys2Proof.Machine.execHoldDeadlinePass s
  | .doorDeadline => Sys2Proof.Machine.execDoorDeadline s
  | .characterReceived => Sys2Proof.Machine.execCharacterReceived s
  | .answerLengthTooLarge => Sys2Proof.Machine.execAnswerLengthTooLarge s

end Sys2Proof.Machine
end

