-- ==== Sys2Proof/Machine/Idle.lean ====
section
/-! DEFINITION. What happens while no command waits: one microsecond of the internal timebase (00, section 2.4; log 1). -/

namespace Sys2Proof.Machine

/-- The internal work in flight goes on for one microsecond, by amounts that the manual leaves open (log 4, log 18). A
completion is an event of its own and never happens here. -/
def State.workOn (s : State) : State :=
  let t := s.timebase
  let s1 := ((s.applySome (Config.applyItems t)).rebuildSome (Config.rebuildItems t)).sweepSome (Config.sweepItems t)
  if Config.figuresForm t then s1.formFigures else s1

/-- One microsecond with no command: time passes, work goes on, and the arbiter and the uplink decide where they can. -/
def State.tick (s : State) : State := (s.workOn.setTimebase (s.timebase + 1)).conclude

end Sys2Proof.Machine
end

