-- ==== Sys2Proof/Safety.lean ====
section
/-! DEFINITION. What claims speak of: what an event may leave changed, and what every step keeps. -/

namespace Sys2Proof.Machine

/-! ### Parts that a decision of the arbiter or a re-plan leaves alone

A record's `bare` form blanks the fields that the arbiter's decision, a re-plan, the raising of a flag or the uplink's choice may
change; two records with the same bare form agree in every other field. -/

/-- A drop record without its three marks (R85, R86). -/
def Drop.bare (r : Drop) : Drop := { r with fareAhead := false, blockNofit := false, tapUrgent := false }

/-- The port without the two flags that planning and a POLL raise (JOB_FAILED, TAPQ_FULL), their notices, and the frame in
transmission. -/
def Port.bare (p : Port) : Port :=
  { p with
    flags := { p.flags with jobFailed := none, tapqFull := none }
    notices := p.notices.filter (fun n => n.flag != .jobFailed && n.flag != .tapqFull), tx := none }

/-- The port without flags, notices and the frame in transmission. -/
def Port.core (p : Port) : Port :=
  { p with flags := ⟨none, none, none, none, none, none, none, none, none, none⟩, notices := [], tx := none }

/-- The Catalogue without the two side lists. -/
def Catalogue.bare (c : Catalogue) : Catalogue := { c with retired := [], withdrawn := [] }

/-- The Card Table without marks and sweep. -/
def CardTable.bare (t : CardTable) : CardTable := { t with marks := Per8.all none, sweep := none, sweepRequest := false }

/-- The Tap Screen without ZERO_ALLOWANCE. -/
def Taps.bare (q : Taps) : Taps := { q with zeroAllowance := 0 }

/-- The trunk without exchange, request, round and what the arbiter keeps. -/
def Trunk.bare (t : Trunk) : Trunk :=
  { t with ex := none, request := none, round := none, pushCount := 0, emptyPause := none, lastUrgent := none, rounds := 0 }

/-- `t` is `s` but for what the arbiter's decision, a re-plan and the uplink's choice may change: the job queue and the Planner's
counters and log, a new exchange where none was in flight, the round and the Roster's probe count and round record, read marks
and sweep, the side lists, a drop's three marks, the flags JOB_FAILED and TAPQ_FULL with their notices, the frame in
transmission, ZERO_ALLOWANCE. -/
structure Decided (s t : State) : Prop where
  pending : t.pending = s.pending
  timebase : t.timebase = s.timebase
  clock : t.clock = s.clock
  settings : t.settings = s.settings
  intakes : t.intakes = s.intakes
  change : t.change = s.change
  port : t.port.bare = s.port.bare
  cat : t.cat.bare = s.cat.bare
  table : t.table.bare = s.table.bare
  taps : t.taps.bare = s.taps.bare
  trunk : t.trunk.bare = s.trunk.bare
  lastTap : t.roster.lastTap = s.roster.lastTap
  drops : ∀ d, (t.drop d).bare = (s.drop d).bare
  /-- an exchange in flight goes on as it is -/
  flying : ∀ x, s.trunk.ex = some x → t.trunk.ex = some x
  /-- a sweep that runs goes on -/
  sweeping : s.table.sweep.isSome = true → t.table.sweep.isSome = true
  /-- with the table EMPTY or REBUILDING and no read mark held, none is placed and no sweep is requested -/
  quiet : s.tableClosed = true → s.table.marks = Per8.all none → t.table = s.table

/-- `t` is `s` but for what the end of an exchange with drop `d` may change: what a decision may change, that drop's record, the
changeover record with the activation hold, flags and notices, the trunk's counters and line time, the tap queue, the timebase.
Every setting, the clock, both intakes, the entries and the state of the Card Table, h, b, the chain, A and P, the answer queue and
every other drop's record (its three marks apart) are as before. -/
structure ExchangeEnded (d : DropId) (s t : State) : Prop where
  pending : t.pending = s.pending
  clock : t.clock = s.clock
  settings : t.settings = s.settings
  intakes : t.intakes = s.intakes
  port : t.port.core = s.port.core
  cat : { t.cat.bare with hold := none } = { s.cat.bare with hold := none }
  table : t.table.bare = s.table.bare
  drops : ∀ e, e ≠ d → (t.drop e).bare = (s.drop e).bare

/-- Every drop that counts for readiness is armed for an edition (R147). -/
def State.busArmed (s : State) (p : Nat) : Prop :=
  ∀ d, (s.drop d).presence = .present → (s.drop d).stopping = false →
    (s.drop d).known = true ∧ (s.drop d).holdings.staged = p

/-- The bus found ready (R149, R151): no hold deadline is left; activation is decided and the hold names P's record, or the doors are
waited for. -/
structure FoundReady (r : Fare) (forced : Bool) (t : State) : Prop where
  forced : t.change.forced = forced
  hold : t.change.hold = .absent
  decided : t.port.door = .closed ∨ t.settings.doorLimit = 0 →
    t.change.state = .due ∧ t.change.requested = some r.edition ∧ t.change.door = none ∧ t.cat.hold = some r.ref
  waits : t.port.door ≠ .closed → t.settings.doorLimit ≠ 0 →
    t.change.state = .doorWait ∧ t.change.requested = none ∧
      t.change.door = some (t.timebase + t.settings.doorLimit * 1000000)

/-- The hold passed for P's record (R148, R149): the bus is ready, by arming when every counted drop is armed, else by the hold, and
then CHANGEOVER_HELD is raised; `held` is that flag before. -/
structure HoldPassed (r : Fare) (held : Option Ctx) (t : State) : Prop where
  armed : t.busArmed r.edition → FoundReady r false t ∧ t.port.flags.changeoverHeld = held
  unarmed : ¬t.busArmed r.edition →
    FoundReady r true t ∧
      t.port.flags.changeoverHeld = some (held.getD { edition := r.edition, code := none, drop := none, minute := t.stamp })

/-- DUE entered for P's record in an event that leaves the hub as `t` (R144, R146 to R149): with a hold limit of 0 the hold passes in
the entry, with a valid clock or without (log 39). Otherwise readiness is judged, and a bus that is not armed waits until C plus the
limit, or, the clock being invalid, for that deadline to be set by the limit of the entry. -/
structure DueEntered (r : Fare) (held : Option Ctx) (t : State) : Prop where
  passed : t.settings.holdLimit = 0 → HoldPassed r held t
  armed : t.settings.holdLimit ≠ 0 → t.busArmed r.edition → FoundReady r false t
  waits : t.settings.holdLimit ≠ 0 → ¬t.busArmed r.edition →
    t.change =
      { state := .due
        hold := if t.clock.valid then .minute (t.clock.minute + t.settings.holdLimit) else .unset t.settings.holdLimit
        door := none, requested := none, forced := false }
  flag : t.settings.holdLimit ≠ 0 → t.port.flags.changeoverHeld = held

/-- Readiness judged at the end of an event that began with the changeover as in `s` and leaves the hub as `t` (R147, R149). -/
structure ReadinessJudged (s t : State) : Prop where
  armed : s.change.state = .due → s.change.requested = none → ∀ r, s.cat.pendingFare = some r → t.busArmed r.edition →
    FoundReady r false t
  passed : s.change.state = .due → s.change.requested = none → ∀ r, s.cat.pendingFare = some r → ¬t.busArmed r.edition →
    s.change.hold = .passed → FoundReady r true t
  unready : s.change.state = .due → s.change.requested = none → ∀ r, s.cat.pendingFare = some r → ¬t.busArmed r.edition →
    s.change.hold ≠ .passed → t.change = s.change
  still : s.change.state ≠ .due ∨ s.change.requested ≠ none ∨ s.cat.pendingFare = none → t.change = s.change

/-- The exchange in flight after the FULL pushes of some drops have ended under it (R63, R67, R112, R133): detached from its job
where it is the BLOCK push of one of them, and otherwise as it was. -/
def Exchange.detachedFrom (ended : DropId → Bool) (x : Exchange) : Exchange :=
  { x with detached := x.detached || (x.kind == .push .block && x.drop.any ended) }

/-- The hub with the exchange in flight so detached. -/
def State.detached (s : State) (ended : DropId → Bool) : State :=
  s.setTrunk { s.trunk with ex := s.trunk.ex.map (Exchange.detachedFrom ended) }

/-- A job after the FULL pushes of some drops have been ended under them (R63, R67, R112): a BLOCK step under way of one of them
starts again at its OPEN. -/
def Job.stopped (ended : DropId → Bool) (j : Job) : Job :=
  if j.kind = .block ∧ ended j.drop = true ∧ j.underWay = true then
    { j with underWay := false, phase := .open_, next := 0, burstStart := 0 }
  else j

/-- The job queue without the FAILED jobs of one kind (R117). -/
def unfailed (k : Kind) (js : List Job) : List Job := js.filter (fun j => !(j.kind == k && j.state == .failed))

/-- Whether a drop's read mark lies more than 64 editions behind h (R67). -/
def State.lags (s : State) (d : DropId) : Bool :=
  match s.mark d with
  | some m => decide (64 < serialDist m.edition s.cat.h)
  | none => false

/-- The jobs that read a record, given by its own number: those whose current step pushes a stored edition of the kind, is under
way and was opened from that record (R42; log 45). -/
def readersOf (jobs : List Job) (k : Kind) (ref : Nat) : Nat :=
  jobs.countP (fun j =>
    j.underWay && j.record == ref && match k, j.plan with | .block, .delta _ :: _ => true | .fare, .stage _ :: _ => true | _, _ => false)

/-- The entries of the segment at a position of a snapshot of edition `h0`: the first ones live at it above the key, up to 20
(R73). -/
def packedAt (es : List Entry) (h0 : Nat) (p : Point) : List Entry :=
  (es.filter (fun e => liveAt h0 e && decide (p.key < e.card))).take 20

/-- A segment of entries as the serializer packs it (R72, R191). -/
def packedPayload (packed : List Entry) : Segment :=
  packed.flatMap (fun e => leBytes 8 e.card ++ leBytes 1 (e.reason % 16) ++ [0] ++ leBytes 2 e.expiry) ++
    List.replicate (240 - 12 * packed.length) 0

/-- The position after that segment (R73). -/
def Point.onward (es : List Entry) (h0 : Nat) (p : Point) : Point :=
  { index := p.index + 1, key := ((packedAt es h0 p).getLast?.map Entry.card).getD p.key
    reg := crc32Feed p.reg (packedPayload (packedAt es h0 p)) }

/-- The retired and withdrawn lists at the end of an event (R43, R45): of the records that could stay, those that have a reader, or
that the activation hold names. -/
structure RecordsFreed (retired : List Delta) (withdrawn : List Fare) (t : State) : Prop where
  retired : t.cat.retired = retired.filter (fun r => readersOf t.planner.jobs .block r.ref != 0)
  withdrawn : t.cat.withdrawn =
    withdrawn.filter (fun r => readersOf t.planner.jobs .fare r.ref != 0 || t.cat.hold == some r.ref)

/-- After the end of an exchange with a drop: the exchange is over, and what is in flight, if anything, is a new exchange whose first
frame waits for its quiet time (R123, R129, R138). -/
def ExchangeOver (t : State) : Prop :=
  ∀ y, t.trunk.ex = some y →
    y.stage = .quiet ∧ y.waits = 0 ∧ y.lastResend = none ∧ y.detached = false ∧ y.since = t.timebase ∧
      y.set = t.settings.trunk

/-- A job after the outcome of its push exchange (R97, R104, R112, R129), from a hub with no exchange in flight: what the outcome
makes of it unless its step has ended under the exchange, then the re-plan that waited for the exchange's end, then the judgement
of its level. -/
def State.jobAfter (v : State) (j : Job) (detached : Bool) (o : PushOutcome) : Option Job :=
  let w := if detached then v else v.takeOutcome j o
  let planned :=
    match w.job? j.drop j.kind with
    | some i =>
      if i.replan then ((w.putJob { i with replan := false }).planPair j.drop j.kind).job? j.drop j.kind else some i
    | none => none
  planned.map (Job.judge v.floor)

/-- Exchange `x` with drop `d` ends in one event (R129, R138). `v` is the hub with its counters raised, what the answer reports
written and no exchange in flight; `o` is the outcome for the Planner. The exchange is over; the arbiter decides on a hub `u` that
holds the job and, with no re-plan waiting, the read mark that the outcome leaves, where the drop stays PRESENT or FADING; a
stopping drop has no job any more. -/
structure ExchangeEnds (x : Exchange) (d : DropId) (o : PushOutcome) (v t : State) : Prop where
  ended : ExchangeOver t
  handed : ∃ u : State, u.trunk.ex = none ∧ t = u.conclude ∧
    ∀ k j, x.kind = .push k → v.job? d k = some j → (v.drop d).stopping = false →
      ((v.drop d).presence = .present ∨ ((v.drop d).presence = .fading ∧ (v.drop d).run < 3)) →
      u.job? d k = v.jobAfter j x.detached o ∧
        let w := if x.detached then v else v.takeOutcome j o
        (∀ i, w.job? d k = some i → i.replan = false) → u.mark d = w.mark d
  /-- a drop that goes from JOINING to PRESENT: its flag, and both its pairs planned (R80, R104) -/
  joined : (v.drop d).presence = .joining → (t.drop d).presence = .present →
    t.port.flags.dropJoined =
        some (v.port.flags.dropJoined.getD { edition := 0, code := none, drop := some d, minute := v.stamp }) ∧
      ∃ u : State, u.trunk.ex = none ∧ t = u.conclude ∧
        let w := match x.kind with | .push k => v.pushEnded d k x.detached o | .roundPoll | .urgentPoll | .broadcast => v
        ∀ k, u.job? d k =
          ((w.setDrop d { w.drop d with presence := .present, run := 0 }).planPair d k).job? d k
  /-- readiness is judged after the presence event (R129, R147) -/
  judged : ReadinessJudged v t
  /-- records that nothing reads any longer are freed (R43, R45) -/
  freed : RecordsFreed v.cat.retired v.cat.withdrawn t
  stopped : (v.drop d).stopping = true → ∀ j ∈ t.planner.jobs, j.drop ≠ d

/-- A drop's record with a good answer counted (R87). -/
def Drop.counted (r : Drop) : Drop := { r with counters := { r.counters with good := min 65535 (r.counters.good + 1) } }

/-- A drop's record with a miss counted, garbled or not (R87). -/
def Drop.missed (r : Drop) (garbled : Bool) : Drop :=
  { r with
    counters :=
      { r.counters with
        miss := min 65535 (r.counters.miss + 1)
        garbled := if garbled then min 65535 (r.counters.garbled + 1) else r.counters.garbled } }

/-- The push exchange that the arbiter forms for job `j`, which becomes `j'` (R109, R110, R123, R139): the frame waits for its quiet
time, the job is ACTIVE and its drop the last served, the push count rises, and another job that was ACTIVE is PAUSED or READY. -/
structure Pushed (j j' : Job) (frame : TrunkFrame) (burstStart burstEnd : Nat) (s t : State) : Prop where
  ex : t.trunk.ex =
    some
      { kind := .push j.kind, drop := some j.drop, frame, stage := .quiet, waits := 0, burstStart, burstEnd, lastResend := none
        set := s.settings.trunk, detached := false, since := s.timebase }
  count : t.trunk.pushCount = min 255 (s.trunk.pushCount + 1)
  served : t.planner.lastServed = some j.drop
  job : t.job? j.drop j.kind = some { j' with state := .active }
  displaced : ∀ i ∈ s.planner.jobs, Job.serves j.drop j.kind i = false →
    (if i.state = .active then { i with state := if i.underWay then .paused else .ready } else i) ∈ t.planner.jobs
  preempt : t.planner.preempt =
    if s.planner.jobs.any (fun i => i.state == .active && !Job.serves j.drop j.kind i) then min 65535 (s.planner.preempt + 1)
    else s.planner.preempt

/-- The next exchange of the chosen job `j` (R111 to R113): OPEN with its step's figures and window base, and for a FULL step the
read mark placed now (R65, R111, R132); a burst (R112, R133); CLOSE with the step's digest (R113, R135); a unicast ACTIVATE (R113,
R136). A paused FULL step goes on from its acknowledged point (R74, R110). -/
def PushFormed (j : Job) (s t : State) : Prop :=
  let c := s.classOf j.drop
  let m' : Option Mark :=
    (s.mark j.drop).map (fun m => if j.state = .paused ∧ j.phase ≠ .open_ then m.toAck else m)
  let next := fun m : Mark => if j.state = .paused then m.ack.index else j.next
  let burst (n total : Nat) : Nat := min (n + s.settings.trunk.burst) total
  (∀ e q r, j.phase = .open_ → j.plan = .delta e :: q → s.cat.deltaOf j e = some r →
    Pushed j { j with underWay := true, base := c.blockBase, record := r.ref }
      (.openF .block e .delta r.segments.length c.blockBase r.urgent false) 0 0 s t ∧ t.table = s.table) ∧
  (∀ e q r, j.phase = .open_ → j.plan = .stage e :: q → s.cat.fareOf j e = some r →
    Pushed j { j with underWay := true, base := c.fareBase, record := r.ref }
      (.openF .fare e .full r.segments.length c.fareBase false false) 0 0 s t ∧ t.table = s.table) ∧
  (∀ q, j.phase = .open_ → j.plan = .full :: q → s.tableClosed = false →
    let n := max 1 ((s.table.live + 19) / 20)
    let start : Point := { index := 0, key := 0, reg := 0xFFFFFFFF }
    n ≤ c.blockSize →
      Pushed j { j with underWay := true, base := c.blockBase } (.openF .block s.cat.h .full n c.blockBase false true) 0 0
        s t ∧
      t.mark j.drop =
        some { edition := s.cat.h, count := s.table.live, segs := n, cur := start, burst := start, ack := start }) ∧
  (j.phase = .segments → j.isFull = false → j.next < burst j.next (s.stepSegments j) →
    Pushed j { j with burstStart := j.next }
      (.segment j.next (j.next + 1 == burst j.next (s.stepSegments j)) none) j.next (burst j.next (s.stepSegments j))
        s t ∧ t.table = s.table) ∧
  (∀ m, j.phase = .segments → j.isFull = true → m' = some m → next m < burst (next m) m.segs →
    Pushed j { j with next := next m, burstStart := next m }
      (.segment (next m) (next m + 1 == burst (next m) m.segs) none) (next m) (burst (next m) m.segs) s t ∧
    t.mark j.drop = some { m with burst := m.cur }) ∧
  (∀ e q r, j.phase = .close → j.plan = .delta e :: q → s.cat.deltaOf j e = some r →
    Pushed j j (.close r.digest) 0 0 s t) ∧
  (∀ e q r, j.phase = .close → j.plan = .stage e :: q → s.cat.fareOf j e = some r →
    Pushed j j (.close r.digest) 0 0 s t) ∧
  (∀ m, j.phase = .close → j.isFull = true → m' = some m →
    Pushed j { j with next := next m } (.close (~~~ m.cur.reg)) 0 0 s t) ∧
  (j.phase = .activate → j.isFull = false → Pushed j j (.activate j.target) 0 0 s t)

/-- The plan computed for a pair, with its target; none for no job (R99 to R101). -/
def State.pairPlan (s : State) (d : DropId) : Kind → Option (List Step × Nat)
  | .block =>
    match s.blockPlan d (s.drop d).holdings.block with
    | .nothing | .nofit => none
    | .full => some ([.full], s.cat.h)
    | .delta es => some (es.map .delta, s.cat.h)
  | .fare =>
    match s.cat.farePlan (s.classOf d).fareSize (s.drop d).holdings with
    | .nothing | .ahead => none
    | .steps plan target => some (plan, target)

/-- A job whose mark and level follow its plan (R106, R107). -/
def State.marked (s : State) (j : Job) : Job :=
  let later (x : Step) : Bool := match x with | .delta e => (s.cat.delta? e).any Delta.urgent | _ => false
  let urgent :=
    j.promoted ||
      (match j.plan with | .delta e :: rest => (s.cat.deltaOf j e).any Delta.urgent || rest.any later | plan => plan.any later)
  { j with
    urgent
    level :=
      match j.kind with
      | .fare => s.settings.levelFare
      | .block => if urgent then s.settings.levelUrgent else s.settings.levelRoutine }

/-- A job that has taken a plan whole (R102, R105, R108): FAILED when its STAGE does not fit the window, else judged. -/
def State.settled (s : State) (j : Job) : Job :=
  if s.stageNofit j.drop j.plan then { j with state := .failed, underWay := false } else s.judgeJob j

/-- What the port holds after a frame from `src` has been accepted and `as` have joined the answer queue: all else of the port is
as before, and a frame in transmission goes on (R174, R176, R177). -/
def Answered (src : MacAddr) (as : List Answer) (s t : State) : Prop :=
  t.port = { s.port with gateway := some src, answers := s.port.answers ++ as, tx := t.port.tx } ∧
    ∀ x, s.port.tx = some x → t.port.tx = some x

/-! ### Rules of the manual in the form in which claims use them -/

/-- The choice of the next frame's content from the three queues (R177, R168). -/
def bodyChoice (as : List Answer) (ns : List Notice) (q : List Screened) : Option TxBody :=
  match as, ns, q with
  | a :: _, _, _ => some (.answer a)
  | [], n :: _, _ => some (.notice n)
  | [], [], [] => none
  | [], [], q => some (.taps (min 8 q.length))

/-- The nine tests of a LOAD_OPEN in their order, each with whether it is passed and the code of its failure (R19, R2, R3). -/
def openTests (c : Catalogue) (b : OpenBody) : List (Bool × Code) :=
  let fare := b.kind == 1
  let full := b.kind == 2 && b.form == 1
  let delta := b.kind == 2 && b.form == 2
  let e := b.edition.toNat
  let items := b.itemCount.toNat
  let n := if fare then 6 else 20
  let limit := if fare then 512 else if delta then 2048 else 131072
  [(((fare && b.form == 1) || full || delta) && e != 0, .badForm),
    (decide (items ≤ limit), .tooLarge),
    (!(items == 0 && (fare || delta)), .badForm),
    (b.segCount.toNat == max 1 ((items + n - 1) / n), .badForm),
    (!fare || (newer e c.a && (match c.p? with | some p => newer e p | none => true)), .stale),
    (!full || c.h == 0 || newer e c.h, .stale),
    (!delta || c.h != 0, .gap),
    (!delta || e == succEdition c.h || newer e c.h, .stale),
    (!delta || !newer e (succEdition c.h), .gap)]

/-- What a clock change that reaches `minute` makes of an intake context (R23, R24). -/
def deadlineTest (timeout minute : Nat) (fromInvalid : Bool) (l : Load) : Option Load :=
  match l.stage, l.deadline with
  | .receiving, some n => if n ≤ minute then none else some l
  | .receiving, none =>
    if fromInvalid then some { l with deadline := if timeout = 0 then none else some (minute + timeout) } else some l
  | _, _ => some l

/-- Presence and run count after a good answer (R79). -/
def goodMove : Presence → Nat → Presence × Nat
  | .disabled, n => (.disabled, n)
  | .absent, _ => (.joining, 1)
  | .joining, _ | .present, _ | .fading, _ => (.present, 0)

/-- Presence and run count after a miss (R79). -/
def missMove : Presence → Nat → Presence × Nat
  | .disabled, n => (.disabled, n)
  | .absent, _ | .joining, _ => (.absent, 0)
  | .present, _ => (.fading, 1)
  | .fading, n => if 3 ≤ n then (.absent, 0) else (.fading, n + 1)

/-- A drop's record after a good answer (R79, R80, R87, R88): counted, then the presence event; a stopping drop's event is not
applied and the drop becomes DISABLED. -/
def afterGood (r : Drop) : Drop :=
  let c := { r.counters with good := min 65535 (r.counters.good + 1) }
  if r.stopping then { r with counters := c, stopping := false, presence := .disabled, run := 0 }
  else
    { r with
      counters := if r.presence = .joining then { c with joins := min 65535 (c.joins + 1) } else c
      presence := (goodMove r.presence r.run).1, run := (goodMove r.presence r.run).2 }

/-- A drop's record after a miss, garbled or not (R79, R82, R87, R88). -/
def afterMiss (garbled : Bool) (r : Drop) : Drop :=
  let c :=
    { r.counters with
      miss := min 65535 (r.counters.miss + 1)
      garbled := if garbled then min 65535 (r.counters.garbled + 1) else r.counters.garbled }
  if r.stopping then { r with counters := c, stopping := false, presence := .disabled, run := 0 }
  else
    { r with
      counters :=
        if r.presence = .joining ∨ (r.presence = .fading ∧ 3 ≤ r.run) then { c with losses := min 65535 (c.losses + 1) } else c
      presence := (missMove r.presence r.run).1, run := (missMove r.presence r.run).2 }

/-- The answer that a pending close gets, if there is one (R27 to R30, R33). -/
def closeAnswers (k : Kind) (l : Load) (code : Code) (v : Nat) : List Answer :=
  l.close.toList.map (fun tag => .result tag code (kindCode k) l.edition v 0)

/-- The slot of item i of an edition (R2): its segment, and its place there. -/
def slotAt (k : Kind) (segs : List Segment) (i : Nat) : List Byte :=
  match k with
  | .fare => (((segs[i / 6]?).getD []).drop (40 * (i % 6))).take 40
  | .block => (((segs[i / 20]?).getD []).drop (12 * (i % 20))).take 12

/-- The slots of an edition (R2). -/
def slotCount (k : Kind) (segs : List Segment) : Nat :=
  match k with | .fare => 6 * segs.length | .block => 20 * segs.length

/-- The number that some bytes of a record hold (R189). -/
def numberAt (record : List Byte) (off width : Nat) : Nat := leNat ((record.drop off).take width)

/-- The product record of a slot is legal after one of ID `prev`, 0 before the first (R4, R191; 11, section 11.2). -/
structure ProductLegal (prev : Nat) (b : List Byte) : Prop where
  id : prev < numberAt b 0 2
  cls : 1 ≤ numberAt b 2 1 ∧ numberAt b 2 1 ≤ 5
  category : 1 ≤ numberAt b 3 1 ∧ numberAt b 3 1 ≤ 4
  zones : numberAt b 6 2 ≠ 0
  validity : numberAt b 8 2 ≤ 10080
  transfer : numberAt b 10 2 ≤ numberAt b 8 2
  flags : numberAt b 12 1 < 8 ∧ numberAt b 12 1 % 4 ≠ 3
  reserved : numberAt b 13 1 = 0 ∧ ∀ x ∈ b.drop 16, x = 0

/-- The blocklist entry of a slot is legal in an edition of a form after one of card ID `prev`, 0 before the first (R5, R191; 11,
section 11.2). -/
structure EntryLegal (form : Form) (prev : Nat) (b : List Byte) : Prop where
  card : prev < numberAt b 0 8
  reserved : numberAt b 8 1 / 16 % 8 = 0 ∧ numberAt b 9 1 = 0
  add : numberAt b 8 1 < 128 → 1 ≤ numberAt b 8 1 % 16
  remove : 128 ≤ numberAt b 8 1 → form = .delta ∧ numberAt b 8 1 % 16 = 0 ∧ numberAt b 10 2 = 0

/-- Slot i is a bad one (R26): below the item count its item is not legal, at or above it a byte is not zero (R2). -/
def SlotBad (k : Kind) (form : Form) (count : Nat) (segs : List Segment) (i : Nat) : Prop :=
  if i < count then
    match k with
    | .fare => ¬ProductLegal (if i = 0 then 0 else numberAt (slotAt .fare segs (i - 1)) 0 2) (slotAt .fare segs i)
    | .block => ¬EntryLegal form (if i = 0 then 0 else numberAt (slotAt .block segs (i - 1)) 0 8) (slotAt .block segs i)
  else ∃ x ∈ slotAt k segs i, x ≠ 0

/-- The check of an intake ends in a refusal with this code and value (R26, R57). The figures of the third check are formed at the
latest when the check completes (the model's choice, log 18). -/
def CheckFails (s : State) (k : Kind) (l : Load) (third : Stage3) (code : Code) (v : Nat) : Prop :=
  let segs := l.segments.filterMap id
  let bad := SlotBad k l.form l.itemCount segs
  if digestOf segs.flatten ≠ l.digest then code = .digestBad ∧ v = 0
  else
    (code = .malformed ∧ v < slotCount k segs ∧ bad v ∧ ∀ i, i < v → ¬bad i) ∨
      ((∀ i, i < slotCount k segs → ¬bad i) ∧ k = .block ∧ l.form = .delta ∧ code = .tableFull ∧ v = 0 ∧
        ∃ f, (third = .formed f ∨ (third = .begun ∧ f = s.figures l.changes)) ∧ (f.available < f.adds ∨ 131072 < f.liveAfter))

/-- The check of an intake passes its stages 1 and 2 (R26). -/
def CheckPasses (k : Kind) (l : Load) : Prop :=
  let segs := l.segments.filterMap id
  digestOf segs.flatten = l.digest ∧ ∀ i, i < slotCount k segs → ¬SlotBad k l.form l.itemCount segs i

/-- The lowest read edition and the horizon are the serially lowest of h, or of b, and every marked edition (R68). -/
structure FrontierHolds (s : State) : Prop where
  none : s.cat.h = 0 → s.lowestRead = 0 ∧ s.horizon = 0
  lowest : s.cat.h ≠ 0 →
    (s.lowestRead = s.cat.h ∨ ∃ d m, s.mark d = some m ∧ s.lowestRead = m.edition) ∧
      ∀ d m, s.mark d = some m → serialDist m.edition s.cat.h ≤ serialDist s.lowestRead s.cat.h
  horizon : s.cat.h ≠ 0 →
    (s.horizon = s.cat.b ∨ ∃ d m, s.mark d = some m ∧ s.horizon = m.edition) ∧
      serialDist s.cat.b s.cat.h ≤ serialDist s.horizon s.cat.h ∧
        ∀ d m, s.mark d = some m → serialDist m.edition s.cat.h ≤ serialDist s.horizon s.cat.h

/-- A value brought into its range (R179). -/
def within (lo hi n : Nat) : Nat := if n < lo then lo else if hi < n then hi else n

/-- The settings are those of record `r` after the handling of R179, where `current` was the protocol type in force (R16, R23, R89,
R91, R92, R93, R98, R107, R108, R114, R120, R144, R186, R190). -/
structure SettingsTaken (r : RawConfig) (current : BitVec 16) (c : Settings) : Prop where
  protocolType : c.protocolType = if r.protocolType.toNat < 0x0600 then current else r.protocolType
  enables : c.enables =
    { load := decide (r.enLoad ≠ 0), drop := decide (r.enDrop ≠ 0), job := decide (r.enJob ≠ 0)
      changeover := decide (r.enChangeover ≠ 0), table := decide (r.enTable ≠ 0), tapq := decide (r.enTapq ≠ 0) }
  clock : c.dayStart = within 0 1439 r.dayStart.toNat ∧ c.idleTimeout = within 0 60 r.idleTimeout.toNat
  classes : ∀ i,
    let w := r.classes.get i
    c.classes.get i =
      { blockBase := if w.blockSize = 0 then 0 else w.blockBase.toNat, blockSize := w.blockSize.toNat
        fareBase := if w.fareSize = 0 then 0 else w.fareBase.toNat, fareSize := w.fareSize.toNat
        delta := decide (w.delta = 1) }
  dropMap : ∀ d, ((c.dropMap.get d).enabled = true ↔ (r.dropMap.get d).enable = 1) ∧
    (c.dropMap.get d).cls.val = (r.dropMap.get d).cls.toNat
  polling : c.pollMode = (if r.pollMode = 2 then .periodic else .continuous) ∧ c.period = within 1 60 r.period.toNat ∧
    c.divisor = within 1 16 r.divisor.toNat ∧ c.parking = (if r.parking = 2 then .mru else .fixed)
  bias : c.bias = within 0 255 r.bias.toNat
  levels : c.levelUrgent = within 0 3 r.levelUrgent.toNat ∧ c.levelRoutine = within 0 3 r.levelRoutine.toNat ∧
    c.levelFare = within 0 3 r.levelFare.toNat
  floors : c.floorDepot = within 1 3 r.floorDepot.toNat ∧ c.floorClosed = within 1 3 r.floorClosed.toNat ∧
    c.floorOpen = within 1 3 r.floorOpen.toNat
  retryLimit : c.retryLimit = within 1 255 r.retryLimit.toNat
  rate : c.trunk.rate = if 1000 ≤ r.rate.toNat then 1000 else if 500 ≤ r.rate.toNat then 500 else 250
  times : c.trunk.quiet = within 8 255 r.quiet.toNat ∧ c.trunk.replyTimeout = within 100 5000 r.replyTimeout.toNat ∧
    c.trunk.waitInterval = within 1 255 r.waitInterval.toNat
  counts : c.trunk.waitLimit = within 1 64 r.waitLimit.toNat ∧ c.trunk.burst = within 1 8 r.burst.toNat ∧
    c.paceService = within 1 32 r.paceService.toNat ∧ c.paceDepot = within 1 32 r.paceDepot.toNat
  limits : c.holdLimit = within 0 30 r.holdLimit.toNat ∧ c.doorLimit = within 0 120 r.doorLimit.toNat

/-- Every setting lies in its range, and every class's windows pass their checks (R16, R23, R89, R91, R92, R98, R107, R108, R114,
R120, R144, R179). -/
structure SettingsFit (c : Settings) : Prop where
  protocolType : 0x0600 ≤ c.protocolType.toNat
  dayStart : c.dayStart ≤ 1439
  idleTimeout : c.idleTimeout ≤ 60
  windows : ∀ i, windowOk (c.classes.get i).blockBase (c.classes.get i).blockSize = true ∧
    windowOk (c.classes.get i).fareBase (c.classes.get i).fareSize = true ∧
    windowsOverlap (c.classes.get i).blockBase (c.classes.get i).blockSize (c.classes.get i).fareBase
      (c.classes.get i).fareSize = false
  polling : 1 ≤ c.period ∧ c.period ≤ 60 ∧ 1 ≤ c.divisor ∧ c.divisor ≤ 16
  bias : c.bias ≤ 255
  levels : c.levelUrgent ≤ 3 ∧ c.levelRoutine ≤ 3 ∧ c.levelFare ≤ 3
  floors : (1 ≤ c.floorDepot ∧ c.floorDepot ≤ 3) ∧ (1 ≤ c.floorClosed ∧ c.floorClosed ≤ 3) ∧ 1 ≤ c.floorOpen ∧ c.floorOpen ≤ 3
  retryLimit : 1 ≤ c.retryLimit ∧ c.retryLimit ≤ 255
  rate : c.trunk.rate = 250 ∨ c.trunk.rate = 500 ∨ c.trunk.rate = 1000
  times : (8 ≤ c.trunk.quiet ∧ c.trunk.quiet ≤ 255) ∧ (100 ≤ c.trunk.replyTimeout ∧ c.trunk.replyTimeout ≤ 5000) ∧
    1 ≤ c.trunk.waitInterval ∧ c.trunk.waitInterval ≤ 255
  counts : (1 ≤ c.trunk.waitLimit ∧ c.trunk.waitLimit ≤ 64) ∧ 1 ≤ c.trunk.burst ∧ c.trunk.burst ≤ 8
  pacing : (1 ≤ c.paceService ∧ c.paceService ≤ 32) ∧ 1 ≤ c.paceDepot ∧ c.paceDepot ≤ 32
  limits : c.holdLimit ≤ 30 ∧ c.doorLimit ≤ 120

/-- What a clock change that leaves C at `minute` does (R15, R23, R24, R145 to R148): the intakes' deadlines and the changeover are
tested, and nothing else moves but what a decision may move. -/
structure ClockChanged (minute : Nat) (fromInvalid : Bool) (s t : State) : Prop where
  pending : t.pending = s.pending
  settings : t.settings = s.settings
  clock : t.clock.minute = minute ∧ t.clock.valid = true
  fare : t.intakes.fare = s.intakes.fare.bind (deadlineTest s.settings.idleTimeout minute fromInvalid)
  block : t.intakes.block = s.intakes.block.bind (deadlineTest s.settings.idleTimeout minute fromInvalid)
  intakeCounters : t.intakes.segDuplicate = s.intakes.segDuplicate ∧ t.intakes.segStray = s.intakes.segStray
  /-- STAGING takes the due test (R145) -/
  staging : s.change.state = .staging → ∀ r, s.cat.pendingFare = some r →
    if r.minute ≤ minute then DueEntered r s.port.flags.changeoverHeld t
    else t.change = s.change ∧ t.port.flags.changeoverHeld = s.port.flags.changeoverHeld
  /-- DUE with a hold minute: the hold passes, and the bus is ready (R148) -/
  hold : s.change.state = .due → s.change.requested = none → ∀ n r, s.change.hold = .minute n → s.cat.pendingFare = some r →
    if n ≤ minute then HoldPassed r s.port.flags.changeoverHeld t
    else t.change = s.change ∧ t.port.flags.changeoverHeld = s.port.flags.changeoverHeld
  /-- DUE entered with the clock invalid: a set from invalid gives the hold, by the limit of the entry -/
  unset : s.change.state = .due → s.change.requested = none → ∀ limit, s.change.hold = .unset limit → s.cat.p?.isSome = true →
    limit ≠ 0 → t.change = { s.change with hold := if fromInvalid then .minute (minute + limit) else .unset limit } ∧
      t.port.flags.changeoverHeld = s.port.flags.changeoverHeld
  /-- everywhere else the changeover stands still -/
  still : s.change.state = .idle ∨ s.change.state = .doorWait ∨
    (s.change.state = .due ∧ (s.change.requested.isSome = true ∨ s.change.hold = .passed ∨ s.change.hold = .absent)) →
    t.change = s.change ∧ t.port.flags.changeoverHeld = s.port.flags.changeoverHeld
  port : t.port.core = s.port.core
  flags : ∀ f, f ≠ .loadRefused → f ≠ .changeoverHeld → f ≠ .jobFailed → f ≠ .tapqFull → t.port.flags.get f = s.port.flags.get f
  cat : { t.cat.bare with hold := none } = { s.cat.bare with hold := none }
  table : t.table.bare = s.table.bare
  taps : t.taps.bare = s.taps.bare
  trunk : t.trunk.bare = s.trunk.bare
  lastTap : t.roster.lastTap = s.roster.lastTap
  drops : ∀ d, (t.drop d).bare = (s.drop d).bare

/-- What a warm restart makes of an intake context (R35). -/
def restartLoad (l : Load) : Option Load :=
  match l.stage with
  | .receiving | .checking _ => none
  | .applying | .rebuilding => some l

/-- The answers a warm restart forms: ABORTED for the pending close of a context that is CHECKING (R35). -/
def restartAnswers (k : Kind) (l : Option Load) : List Answer :=
  match l with
  | some l => (match l.stage with | .checking _ => closeAnswers k l .aborted 0 | .receiving | .applying | .rebuilding => [])
  | none => []

/-- The port after the warm restart of one context: for one that is CHECKING, ABORTED answers its pending close and LOAD_REFUSED is
raised (R35). -/
def restartedPort (s : State) (k : Kind) (p : Port) : Port :=
  match s.intake k with
  | some l =>
    match l.stage with
    | .checking _ =>
      { p with answers := p.answers ++ closeAnswers k l .aborted 0 }.raise s.settings.enables .loadRefused
        { edition := l.edition, code := some .aborted, drop := none, minute := s.stamp }
    | .receiving | .applying | .rebuilding => p
  | none => p

/-- What a warm restart does when it takes effect (R35, R51, R76, R95, R119, R142, R158, R172, R183), the arbiter's first
decision included. -/
structure WarmRestarted (s t : State) : Prop where
  pending : t.pending = s.pending
  timebase : t.timebase = s.timebase
  clock : t.clock = s.clock
  settings : t.settings = s.settings
  fare : t.intakes.fare = s.intakes.fare.bind restartLoad
  block : t.intakes.block = s.intakes.block.bind restartLoad
  intakeCounters : t.intakes.segDuplicate = s.intakes.segDuplicate ∧ t.intakes.segStray = s.intakes.segStray
  answers : t.port.answers = s.port.answers ++ restartAnswers .fare s.intakes.fare ++ restartAnswers .block s.intakes.block
  /-- flags, notices and answers (R183): what the two contexts give, and, where the first exchange is a POLL with an allowance of 0,
  TAPQ_FULL and ZERO_ALLOWANCE (R167) -/
  polled : (∃ x, t.trunk.ex = some x ∧ x.kind = .roundPoll) → 256 ≤ s.taps.queue.length →
    t.port =
        { (restartedPort s .block (restartedPort s .fare s.port)).raise s.settings.enables .tapqFull
            { edition := 0, code := none, drop := none, minute := s.stamp } with tx := t.port.tx } ∧
      t.taps = { s.taps with zeroAllowance := min 65535 (s.taps.zeroAllowance + 1) }
  unpolled : ¬((∃ x, t.trunk.ex = some x ∧ x.kind = .roundPoll) ∧ 256 ≤ s.taps.queue.length) →
    t.port = { restartedPort s .block (restartedPort s .fare s.port) with tx := t.port.tx } ∧ t.taps = s.taps
  /-- a frame in transmission is carried to its end (R183) -/
  tx : ∀ x, s.port.tx = some x → t.port.tx = some x
  cat : t.cat = { s.cat with retired := [], withdrawn := [], hold := t.cat.hold }
  table : t.table =
    { s.table with
      state := t.table.state, marks := Per8.all none, sweepRequest := false
      sweep := some { lowest := s.cat.h, horizon := if s.cat.h = 0 then 0 else s.cat.b, after := none } }
  apply : ∀ l, s.intakes.block = some l → l.stage = .applying → t.table.state = s.startUndo.table.state
  work : (∀ k l, s.intake k = some l → l.stage ≠ .applying) → t.table.state = s.table.state
  planner : t.planner = { s.planner with jobs := [], lastServed := none }
  drops : ∀ d, t.drop d =
    { s.drop d with
      presence := if (s.drop d).stopping = true ∨ (s.drop d).presence = .disabled then .disabled else .absent
      stopping := false, run := 0, tapUrgent := false, fareAhead := false, blockNofit := false }
  lastTap : t.roster.lastTap = s.roster.lastTap
  /-- a poll mode that waited for the round's end is in force (log 37) -/
  pollMode : t.roster.pollMode = s.settings.pollMode
  /-- the trunk (R142): its six other counters are kept, and the line time but for a frame or an answer that is cut (log 41) -/
  trunk : t.trunk =
    { s.trunk with
      ex := t.trunk.ex, request := none, round := t.trunk.round, pushCount := 0, emptyPause := t.trunk.emptyPause
      lastUrgent := none, rounds := t.trunk.rounds
      lineFrom :=
        if s.trunk.ex.any (fun x => x.stage == .sending || x.stage == .receiving) then s.timebase else s.trunk.lineFrom }
  pause : (∃ d, (t.drop d).presence = .absent) → t.trunk.emptyPause = none
  /-- IDLE stays as it is (R158) -/
  idle : s.change.state = .idle → t.change = s.change
  /-- the due test (R145, R158); no drop is counted after the restart, so the bus is ready at once (R147) -/
  change : ∀ r, s.cat.pendingFare = some r → s.change.state ≠ .idle →
    if r.minute = 0 ∨ (s.clock.valid = true ∧ r.minute ≤ s.clock.minute) then FoundReady r false t
    else t.change = { state := .staging, hold := .absent, door := none, requested := none, forced := false }
  /-- the first exchange: the broadcast that the changeover requests, or else the first turn of a round over every drop that is
  not DISABLED -/
  broadcast : ∀ p, t.change.requested = some p → s.change.state ≠ .idle →
    t.cat.hold = s.cat.pendingFare.map Fare.ref ∧ t.trunk.rounds = s.trunk.rounds ∧ t.roster.probe = 0 ∧ t.roster.lastRound = none ∧
      t.trunk.round = none ∧ ∃ x, t.trunk.ex = some x ∧ x.kind = .broadcast ∧ x.frame = .activate p ∧ x.stage = .quiet
  round : t.change.requested = none →
    t.cat.hold = none ∧ t.trunk.rounds = bump s.trunk.rounds 1 ∧ t.roster.probe = 1 % s.settings.divisor ∧
      t.roster.lastRound = some s.timebase ∧
      ((∃ d, (t.drop d).presence = .absent) → ∃ x, t.trunk.ex = some x ∧ x.kind = .roundPoll ∧ x.stage = .quiet)

/-! ### The reports (R181; 11, section 11.1.5) -/

/-- A layout: the fields of a content in order, each with its offset and its bytes. -/
abbrev Layout := List (Nat × List Byte)

/-- Each field of a layout begins where the one before it ends. -/
def Layout.Gapless : Nat → Layout → Prop
  | _, [] => True
  | off, f :: fs => f.1 = off ∧ Layout.Gapless (off + f.2.length) fs

/-- The content that a layout gives. -/
def Layout.bytes (l : Layout) : List Byte := l.flatMap Prod.snd

/-- A mark in a report: 0 or 1. -/
def bitOf (b : Bool) : Nat := if b then 1 else 0

/-- A drop in a report: its address, 0 for none. -/
def dropNumber (d : Option DropId) : Nat := match d with | some d => d.val + 1 | none => 0

/-- A held context at an offset, 8 bytes (R185). -/
def contextAt (off : Nat) (c : Option Ctx) : Layout :=
  let c := c.getD { edition := 0, code := none, drop := none, minute := 0 }
  [(off, leBytes 2 c.edition), (off + 2, leBytes 1 (match c.code with | some x => x.byte.toNat | none => 0)),
    (off + 3, leBytes 1 (dropNumber c.drop)), (off + 4, leBytes 4 c.minute)]

/-- An intake context at an offset, 8 bytes (R18). -/
def intakeAt (off : Nat) (l : Option Load) : Layout :=
  let stage : Nat :=
    match l with
    | none => 0
    | some l => match l.stage with | .receiving => 1 | .checking _ => 2 | .applying => 3 | .rebuilding => 4
  let form : Nat := match l with | none => 0 | some l => (match l.form with | .full => 1 | .delta => 2)
  let segs := match l with | none => [] | some l => l.segments
  [(off, leBytes 1 stage), (off + 1, leBytes 1 form), (off + 2, leBytes 2 (match l with | none => 0 | some l => l.edition)),
    (off + 4, leBytes 2 segs.length), (off + 6, leBytes 2 (segs.countP (fun x => x.isSome)))]

/-- A class record at an offset, 20 bytes (11, section 11.1.3). -/
def classAt (off : Nat) (c : ClassSettings) : Layout :=
  [(off, leBytes 4 c.blockBase), (off + 4, leBytes 4 c.blockSize), (off + 8, leBytes 4 c.fareBase), (off + 12, leBytes 4 c.fareSize),
    (off + 16, leBytes 1 (bitOf c.delta)), (off + 17, [0, 0, 0])]

/-- An entry of the drop map at an offset. -/
def mapEntryAt (off : Nat) (e : MapEntry) : Layout := [(off, leBytes 1 (bitOf e.enabled)), (off + 1, leBytes 1 e.cls.val)]

/-- The configuration record in force, at an offset of the SUMMARY: 136 bytes (R179; 11, section 11.1.3). -/
def settingsAt (off : Nat) (c : Settings) : Layout :=
  [(off, leBytes 2 c.protocolType.toNat),
    (off + 2, leBytes 1 (bitOf c.enables.load)), (off + 3, leBytes 1 (bitOf c.enables.drop)),
    (off + 4, leBytes 1 (bitOf c.enables.job)), (off + 5, leBytes 1 (bitOf c.enables.changeover)),
    (off + 6, leBytes 1 (bitOf c.enables.table)), (off + 7, leBytes 1 (bitOf c.enables.tapq)),
    (off + 8, leBytes 2 c.dayStart), (off + 10, leBytes 1 c.idleTimeout), (off + 11, [0])] ++
    (classAt (off + 12) c.classes.c0 ++ classAt (off + 32) c.classes.c1 ++ classAt (off + 52) c.classes.c2 ++
      classAt (off + 72) c.classes.c3) ++
    (mapEntryAt (off + 92) c.dropMap.d1 ++ mapEntryAt (off + 94) c.dropMap.d2 ++ mapEntryAt (off + 96) c.dropMap.d3 ++
      mapEntryAt (off + 98) c.dropMap.d4 ++ mapEntryAt (off + 100) c.dropMap.d5 ++ mapEntryAt (off + 102) c.dropMap.d6 ++
      mapEntryAt (off + 104) c.dropMap.d7 ++ mapEntryAt (off + 106) c.dropMap.d8) ++
    [(off + 108, leBytes 1 (match c.pollMode with | .continuous => 1 | .periodic => 2)), (off + 109, leBytes 1 c.period),
      (off + 110, leBytes 1 c.divisor), (off + 111, leBytes 1 (match c.parking with | .fixed => 1 | .mru => 2)),
      (off + 112, leBytes 2 c.bias), (off + 114, leBytes 1 c.levelUrgent), (off + 115, leBytes 1 c.levelRoutine),
      (off + 116, leBytes 1 c.levelFare), (off + 117, leBytes 1 c.floorDepot), (off + 118, leBytes 1 c.floorClosed),
      (off + 119, leBytes 1 c.floorOpen), (off + 120, leBytes 1 c.retryLimit), (off + 121, [0]),
      (off + 122, leBytes 2 c.trunk.rate), (off + 124, leBytes 2 c.trunk.quiet), (off + 126, leBytes 2 c.trunk.replyTimeout),
      (off + 128, leBytes 1 c.trunk.waitInterval), (off + 129, leBytes 1 c.trunk.waitLimit), (off + 130, leBytes 1 c.trunk.burst),
      (off + 131, leBytes 1 c.paceService), (off + 132, leBytes 1 c.paceDepot), (off + 133, leBytes 1 c.holdLimit),
      (off + 134, leBytes 1 c.doorLimit), (off + 135, [0])]

/-- A drop's presence byte in the SUMMARY: its state, with bit 7 for a stopping drop. -/
def presenceNumber (r : Drop) : Nat :=
  (match r.presence with | .disabled => 0 | .absent => 1 | .joining => 2 | .present => 3 | .fading => 4) +
    (if r.stopping then 128 else 0)

/-- Bytes 0 to 121 of the SUMMARY: identity, port, clock, vehicle condition, flags (R181). The answer queue counts this REPORT too.
-/
def summaryHead (s : State) : Layout :=
  let f := s.port.flags
  let e := s.settings.enables
  [(0, leBytes 2 Config.vendorCode.toNat), (2, leBytes 2 Config.familyCode.toNat), (4, leBytes 2 Config.partNumber.toNat),
    (6, leBytes 1 Config.siliconRevision.toNat), (7, [0]), (8, (leBytes 6 Config.stationAddress.toNat).reverse), (14, [0, 0]),
    (16, leBytes 2 s.settings.protocolType.toNat), (18, leBytes 1 (bitOf s.port.linkUp)),
    (19, leBytes 1 (bitOf s.port.gateway.isSome)),
    (20, (leBytes 6 (match s.port.gateway with | some a => a.toNat | none => 0)).reverse),
    (26, leBytes 1 (s.port.answers.length + 1)), (27, leBytes 1 s.port.notices.length),
    (28, leBytes 4 (if s.clock.valid then s.clock.minute else 0)), (32, leBytes 1 (bitOf s.clock.valid)), (33, [0]),
    (34, leBytes 2 s.settings.dayStart), (36, leBytes 1 (match s.port.mode with | .depot => 1 | .service => 2)),
    (37, leBytes 1 (match s.port.door with | .open_ => 1 | .closed => 2)),
    (38, leBytes 2
      (bitOf f.loadDone.isSome + 2 * bitOf f.loadRefused.isSome + 4 * bitOf f.dropJoined.isSome + 8 * bitOf f.dropLost.isSome +
        16 * bitOf f.jobFailed.isSome + 32 * bitOf f.changeoverDone.isSome + 64 * bitOf f.changeoverHeld.isSome +
        128 * bitOf f.changeoverForced.isSome + 256 * bitOf f.tableFull.isSome + 512 * bitOf f.tapqFull.isSome)),
    (40, leBytes 1
      (bitOf e.load + 2 * bitOf e.drop + 4 * bitOf e.job + 8 * bitOf e.changeover + 16 * bitOf e.table + 32 * bitOf e.tapq)),
    (41, [0])] ++
    contextAt 42 f.loadDone ++ contextAt 50 f.loadRefused ++ contextAt 58 f.dropJoined ++ contextAt 66 f.dropLost ++
    contextAt 74 f.jobFailed ++ contextAt 82 f.changeoverDone ++ contextAt 90 f.changeoverHeld ++
    contextAt 98 f.changeoverForced ++ contextAt 106 f.tableFull ++ contextAt 114 f.tapqFull

/-- Bytes 122 to 177 of the SUMMARY: the intakes, the Catalogue, the Card Table, the drops (R50, R75, R94). -/
def summaryStores (s : State) : Layout :=
  let r := s.roster.drops
  intakeAt 122 s.intakes.fare ++ intakeAt 130 s.intakes.block ++
    [(138, leBytes 2 s.cat.h), (140, leBytes 2 s.cat.b), (142, leBytes 1 (if s.cat.h = 0 then 0 else serialDist s.cat.b s.cat.h)),
      (143, [0]), (144, leBytes 2 (match s.cat.active with | some a => a.edition | none => 0)),
      (146, leBytes 2 (match s.cat.pendingFare with | some p => p.edition | none => 0)),
      (148, leBytes 4 (match s.cat.pendingFare with | some p => p.minute | none => 0)),
      (152, leBytes 2
        (((s.cat.chain ++ s.cat.retired).map (fun d => d.segments.length)).sum +
          ((s.cat.active.toList ++ s.cat.pendingFare.toList ++ s.cat.withdrawn).map (fun d => d.segments.length)).sum +
            ((s.intakes.fare.toList ++ s.intakes.block.toList).map (fun l => l.segments.length)).sum)),
      (154, leBytes 1
        (match s.table.state with | .empty => 0 | .ready => 1 | .applying _ _ _ => 2 | .rebuilding _ _ => 3)),
      (155, leBytes 1 (bitOf s.table.sweep.isSome)), (156, leBytes 1 (allDrops.countP (fun d => (s.mark d).isSome))), (157, [0]),
      (158, leBytes 4 s.table.entries.length), (162, leBytes 4 s.table.live), (166, leBytes 2 s.lowestRead),
      (168, leBytes 2 s.horizon),
      (170, leBytes 1 (presenceNumber r.d1)), (171, leBytes 1 (presenceNumber r.d2)), (172, leBytes 1 (presenceNumber r.d3)),
      (173, leBytes 1 (presenceNumber r.d4)), (174, leBytes 1 (presenceNumber r.d5)), (175, leBytes 1 (presenceNumber r.d6)),
      (176, leBytes 1 (presenceNumber r.d7)), (177, leBytes 1 (presenceNumber r.d8))]

/-- Bytes 178 to 209 of the SUMMARY: the trunk, the changeover, the tap queue (R141, R156, R170). -/
def summaryLines (s : State) : Layout :=
  let counted (d : DropId) : Bool := (s.drop d).presence == .present && !(s.drop d).stopping
  let armed (d : DropId) : Bool :=
    counted d && (s.drop d).known && decide (s.cat.pendingFare.map Fare.edition = some (s.drop d).holdings.staged)
  let ex (f : Exchange → Nat) : Nat := match s.trunk.ex with | some x => f x | none => 0
  [(178, leBytes 2 s.settings.trunk.rate),
    (180, leBytes 1 (ex fun x => match x.kind with | .roundPoll => 1 | .urgentPoll => 2 | .push _ => 3 | .broadcast => 4)),
    (181, leBytes 1 (ex fun x => dropNumber x.drop)),
    (182, leBytes 1 (ex fun x => match x.stage with | .quiet => 0 | .sending => 1 | .awaiting => 2 | .receiving => 3 | .pause => 4)),
    (183, leBytes 1 (bitOf s.trunk.round.isSome)), (184, leBytes 1 s.trunk.pushCount),
    (185, leBytes 1 (bitOf s.trunk.request.isSome)), (186, leBytes 2 (match s.trunk.request with | some p => p | none => 0)),
    (188, [0, 0]),
    (190, leBytes 1 (match s.change.state with | .idle => 0 | .staging => 1 | .due => 2 | .doorWait => 3)),
    (191, leBytes 1 (bitOf s.change.forced)),
    (192, leBytes 1 (match s.change.hold with | .absent | .unset _ => 0 | .minute _ => 1 | .passed => 2)), (193, [0]),
    (194, leBytes 4 (match s.change.hold with | .minute m => min 4294967295 m | .absent | .unset _ | .passed => 0)),
    (198, leBytes 1
      (match s.change.state, s.change.door with | .doorWait, some t => (t - s.timebase + 999999) / 1000000 | _, _ => 0)),
    (199, leBytes 1 (allDrops.countP counted)), (200, leBytes 1 (allDrops.countP armed)), (201, [0]),
    (202, leBytes 2 (match s.change.requested with | some p => p | none => 0)), (204, [0, 0]),
    (206, leBytes 2 s.taps.queue.length),
    (208, leBytes 1
      (match s.port.tx with | some t => (match t.body with | .taps n => n | .answer _ | .notice _ => 0) | none => 0)),
    (209, [0])]

/-- The SUMMARY. -/
def summaryLayout (s : State) : Layout := summaryHead s ++ summaryStores s ++ summaryLines s ++ settingsAt 210 s.settings

/-- The CHAIN report: its head, and then its records (R50). -/
def chainContent (s : State) : List Byte :=
  let jobs := s.planner.jobs
  let fare (t : Nat) (r : Fare) : List Byte :=
    leBytes 2 r.edition ++ leBytes 2 r.segments.length ++ leBytes 2 r.products ++ leBytes 1 (readersOf jobs .fare r.ref) ++ [0] ++
      leBytes 4 r.digest.toNat ++ leBytes 4 t
  leBytes 2 s.cat.h ++ leBytes 2 s.cat.b ++ leBytes 1 (if s.cat.h = 0 then 0 else serialDist s.cat.b s.cat.h) ++
    leBytes 1 s.cat.retired.length ++ leBytes 1 s.cat.withdrawn.length ++
    leBytes 1 (bitOf s.cat.active.isSome + 2 * bitOf s.cat.pendingFare.isSome) ++
    s.cat.chain.flatMap (fun r =>
      leBytes 2 r.edition ++ leBytes 2 r.segments.length ++ leBytes 2 r.changes ++ leBytes 1 (bitOf r.urgent) ++
        leBytes 1 (readersOf jobs .block r.ref) ++ leBytes 4 r.digest.toNat) ++
    s.cat.retired.flatMap (fun r =>
      leBytes 2 r.edition ++ leBytes 2 r.segments.length ++ leBytes 1 (readersOf jobs .block r.ref) ++ [0]) ++
    s.cat.active.toList.flatMap (fare 0) ++ s.cat.pendingFare.toList.flatMap (fun r => fare r.minute r) ++
    s.cat.withdrawn.flatMap (fun r =>
      leBytes 2 r.edition ++ leBytes 2 r.segments.length ++ leBytes 1 (readersOf jobs .fare r.ref) ++
        leBytes 1 (bitOf (s.cat.hold == some r.ref)))

/-- One job of a report, 30 bytes (R118). The steps remaining count the current one (log 51), and a FULL step that is not under way
reports edition 0, also that of a FAILED job (log 48). -/
def jobLayout (s : State) (j : Job) : Layout :=
  [(0, leBytes 1 (j.drop.val + 1)), (1, leBytes 1 (match j.kind with | .fare => 1 | .block => 2)),
    (2, leBytes 1 (match j.state with | .ready => 0 | .active => 1 | .paused => 2 | .held => 3 | .failed => 4)),
    (3, leBytes 1 j.level), (4, leBytes 1 (bitOf j.urgent)), (5, leBytes 1 (bitOf j.promoted)), (6, leBytes 2 j.target),
    (8, leBytes 1 (match j.plan with | .delta _ :: _ => 2 | .activate _ :: _ => 3 | .full :: _ | .stage _ :: _ | [] => 1)),
    (9, leBytes 2
      (match j.plan with
      | .delta e :: _ => e
      | .full :: _ => if j.underWay then (match s.mark j.drop with | some m => m.edition | none => 0) else 0
      | .stage x :: _ => x
      | .activate x :: _ => x
      | [] => 0)),
    (11, leBytes 2 j.plan.length), (13, leBytes 1 (bitOf j.underWay)),
    (14, leBytes 1 (match j.phase with | .open_ => 0 | .segments => 1 | .close => 2 | .activate => 3)), (15, leBytes 2 j.next),
    (17, leBytes 2 j.burstStart), (19, leBytes 2 j.retry),
    (21, leBytes 1 (match j.lastCause with | some c => c.byte.toNat | none => 0)),
    (22, leBytes 8
      (if j.plan.head? = some .full ∧ j.underWay = true then (match s.mark j.drop with | some m => m.ack.key | none => 0) else 0))]

/-- The Roster's part of a DROP report, and the Card Table's (R75, R94). The order of the windows is log 46's, the stopping mark's
own byte log 43's. -/
def dropLayout (s : State) (d : DropId) : Layout :=
  let r := s.drop d
  let c := s.settings.classes.get (s.settings.dropMap.get d).cls
  [(0, leBytes 1 (bitOf (decide (r.presence ≠ .disabled)))), (1, leBytes 1 (bitOf r.stopping)),
    (2, leBytes 1 (s.settings.dropMap.get d).cls.val), (3, leBytes 4 c.blockBase), (7, leBytes 4 c.blockSize),
    (11, leBytes 4 c.fareBase), (15, leBytes 4 c.fareSize), (19, leBytes 1 (bitOf c.delta)),
    (20, leBytes 1 (presenceNumber { r with stopping := false })), (21, leBytes 2 r.run), (23, leBytes 2 r.holdings.active),
    (25, leBytes 2 r.holdings.staged), (27, leBytes 2 r.holdings.block), (29, leBytes 1 (bitOf r.known)),
    (30, leBytes 2 r.tapsHeld), (32, leBytes 1 (bitOf r.fareAhead)), (33, leBytes 1 (bitOf r.blockNofit)),
    (34, leBytes 1 (bitOf r.tapUrgent)), (35, leBytes 2 r.counters.good), (37, leBytes 2 r.counters.miss),
    (39, leBytes 2 r.counters.garbled), (41, leBytes 2 r.counters.joins), (43, leBytes 2 r.counters.losses),
    (45, leBytes 2 r.counters.tapsIn)] ++
    match s.mark d with
    | none => [(47, leBytes 2 0)]
    | some m =>
      [(47, leBytes 2 m.edition), (49, leBytes 2 m.segs), (51, leBytes 2 m.cur.index), (53, leBytes 2 m.ack.index)]

/-- The ERRORLOG report, 13 bytes (R116). -/
def errorlogLayout (log : Option LogEntry) : Layout :=
  match log with
  | none => [(0, [0, 0, 0, 0, 0, 0, 0, 0, 0, 0, 0, 0, 0])]
  | some e =>
    [(0, leBytes 1 1), (1, leBytes 1 (e.drop.val + 1)), (2, leBytes 1 (match e.kind with | .fare => 1 | .block => 2)),
      (3, leBytes 1 (match e.form with | .full => 1 | .delta => 2 | .activate => 3)), (4, leBytes 2 e.edition),
      (6, leBytes 2 e.index), (8, leBytes 4 e.minute), (12, leBytes 1 e.reason.byte.toNat)]

/-- Every counter in the order of R187. -/
def countersInOrder (s : State) : List Nat :=
  let ofDrop (r : Drop) : List Nat :=
    [r.counters.good, r.counters.miss, r.counters.garbled, r.counters.joins, r.counters.losses, r.counters.tapsIn]
  [s.port.fcsBad, s.port.otherType, s.port.msgDiscard, s.port.answerDrop, s.port.linkLoss, s.intakes.segDuplicate,
    s.intakes.segStray, s.table.removeAbsent, s.table.markLag] ++
    allDrops.flatMap (fun d => ofDrop (s.drop d)) ++
    [s.planner.retries, s.planner.jobFail, s.planner.preempt, s.trunk.collision, s.trunk.noAnswer, s.trunk.garble, s.trunk.waitLimit,
      s.trunk.goBack, s.trunk.rounds, s.trunk.broadcasts, s.taps.unscreened, s.taps.lateListed, s.taps.listedIgnored,
      s.taps.staleTariff, s.taps.clear, s.taps.zeroAllowance, s.taps.tapsOut]

/-! ### What every step keeps -/

/-- C stays within 32 bits, and reads 0 while the clock is invalid (R12, R13). -/
def ClockInRange (s : State) : Prop := s.clock.minute ≤ clockLimit ∧ (s.clock.valid = false → s.clock.minute = 0)

/-- The answers formed and the answers owed are at most 16 (R176). -/
def AnswersFit (s : State) : Prop := s.port.answers.length + s.deferred ≤ 16

/-- At most one NOTICE waits for each flag (R185). -/
def NoticesOnce (s : State) : Prop := (s.port.notices.map Notice.flag).Nodup

/-- The tap records that the frame in flight may still bring: the allowance of a POLL. -/
def Trunk.owedTaps (t : Trunk) : Nat :=
  match t.ex with
  | some x => (match x.frame with | .poll a => a | _ => 0)
  | none => 0

/-- The tap queue holds at most 256 records, and there is room for what the POLL in flight may bring (R166). -/
def TapsFit (s : State) : Prop := s.taps.queue.length + s.trunk.owedTaps ≤ 256

/-- A drop's enable value is off exactly when its presence is DISABLED or it is stopping, and a stopping drop is not yet DISABLED
(R77, R88). -/
def EnableAgrees (s : State) : Prop :=
  ∀ d, (s.settings.dropMap.get d).enabled = ((s.drop d).presence != .disabled && !(s.drop d).stopping) ∧
    ((s.drop d).stopping = true → (s.drop d).presence ≠ .disabled)

/-- The run count that goes with a presence (R79). -/
def runFits (p : Presence) (run : Nat) : Prop :=
  match p with
  | .joining => run = 1
  | .fading => 1 ≤ run ∧ run ≤ 3
  | .disabled | .absent | .present => run = 0

/-- Every drop's run count is one that R79 gives its presence. -/
def RunsFit (s : State) : Prop := ∀ d, runFits (s.drop d).presence (s.drop d).run

/-- Every counter stops at 65,535 (R187). -/
def CountersFit (s : State) : Prop := ∀ n ∈ s.counters, n ≤ 65535

/-- At most one job for each pair of drop and kind, and none for a DISABLED drop (R96). -/
def JobsOnce (s : State) : Prop :=
  (s.planner.jobs.map (fun j => (j.drop, j.kind))).Nodup ∧
    ∀ j ∈ s.planner.jobs, (s.drop j.drop).presence ≠ .disabled

/-- The Card Table's work is the BLOCK intake's: the table is APPLYING exactly for a BLOCK DELTA that is APPLYING, and REBUILDING
exactly for a BLOCK FULL that is REBUILDING, with the intake's edition (R29, R30). -/
def WorkFollows (s : State) : Prop :=
  match s.table.state with
  | .empty | .ready => ∀ l, s.intakes.block = some l → l.stage ≠ .applying ∧ l.stage ≠ .rebuilding
  | .applying e _ _ => ∃ l, s.intakes.block = some l ∧ l.stage = .applying ∧ l.form = .delta ∧ l.edition = e
  | .rebuilding e _ => ∃ l, s.intakes.block = some l ∧ l.stage = .rebuilding ∧ l.form = .full ∧ l.edition = e

/-- The chain holds one delta record for each edition from successor(b) through h, at most 12, and a BLOCK DELTA in the intake
is the successor of h (R29, R39). -/
def ChainFollows (s : State) : Prop :=
  s.cat.h ≤ 65535 ∧ s.cat.b ≤ 65535 ∧ (s.cat.h = 0 ↔ s.cat.b = 0) ∧ s.cat.length ≤ 12 ∧
    s.cat.chain.map Delta.edition = editionsAfter s.cat.b s.cat.length ∧
    ∀ l, s.intakes.block = some l →
      (1 ≤ l.edition ∧ l.edition ≤ 65535) ∧ (l.form = .delta → s.cat.h ≠ 0 ∧ l.edition = succEdition s.cat.h)

/-- The changeover record follows P: IDLE exactly when there is no P, a hold deadline only in DUE with no request, a door
deadline exactly in DOOR_WAIT, a requested edition only in DUE (R143). -/
def ChangeFollows (s : State) : Prop :=
  (s.change.state = .idle ↔ s.cat.pendingFare = none) ∧
    (s.change.hold ≠ .absent → s.change.state = .due ∧ s.change.requested = none) ∧
    (s.change.door.isSome ↔ s.change.state = .doorWait) ∧ (s.change.requested.isSome → s.change.state = .due)

end Sys2Proof.Machine
end

