-- ==== Sys2Proof/Certificates/Slice0/Obligations.lean ====
section
/-! DEFINITION. The statements for the provers. The rules named in a docstring are those of spec/; a statement that rests on a
choice of the model says so and names its log entry. `s.answerRoom` is the test of R176. -/

open Sys2Proof Sys2Proof.Machine

/-! ### The step -/

/-- A step runs the command at the front of the queue on the state with the queue's rest (the model's queue, log 30). -/
def Obligations.StepRunsFrontCommand : Prop :=
  ∀ (c : Instr) (rest : List Instr) (s : State), step (s.setPending (c :: rest)) = exec c (s.setPending rest)

/-- With no command waiting, a step is one microsecond of the internal timebase (the model's choice, log 1): work in flight goes
on, the arbiter and the uplink decide, and nothing a deadline keeps moves. Of the counters only those that a decision raises may
rise: ROUNDS, ZERO_ALLOWANCE and the Planner's. -/
def Obligations.StepWithEmptyQueuePassesTime : Prop :=
  ∀ s : State, s.pending = [] → ∃ t, step s = .next t ∧ t.pending = [] ∧ t.timebase = s.timebase + 1 ∧ t.clock = s.clock ∧
    t.settings = s.settings ∧ t.change = s.change ∧ t.intakes.fare = s.intakes.fare ∧ t.port.bare = s.port.bare ∧
    t.cat.bare = s.cat.bare ∧ t.taps.bare = s.taps.bare ∧ t.trunk.bare = s.trunk.bare ∧ t.table.live = s.table.live ∧
    t.table.removeAbsent = s.table.removeAbsent ∧ t.table.markLag = s.table.markLag ∧
    t.intakes.segDuplicate = s.intakes.segDuplicate ∧ t.intakes.segStray = s.intakes.segStray ∧
    ∀ d, (t.drop d).bare = (s.drop d).bare

/-- No command stops the hub, and none touches the commands that wait behind it. The model's own in this: that every command,
HARD_RESET included, keeps the commands that wait is log 30, and that an event which cannot arise still answers a next state is log
3; the spec says neither. -/
def Obligations.EveryCommandCompletes : Prop :=
  ∀ (c : Instr) (s : State), ∃ t, exec c s = .next t ∧ t.pending = s.pending

/-! ### Resets -/

/-- A hard reset gives every block its reset value, and the arbiter's first decision in the same event starts a probing round
with a POLL of drop 1 (R34, R51, R76, R95, R119, R142, R157, R171, R188); the reset values are those of R12, R18, R37, R54, R77, R96,
R123, R143, R166 and R173, and for the settings those of R16, R23, R77, R89, R91 to R93, R98, R107, R108, R114, R120, R139, R144,
R173 and R186. The model's own: that the decision stands inside the event (log 23), that the internal timebase reads 0
(log 27), that the commands which wait are kept (log 30), and that the line was last busy at time 0 (log 31). -/
def Obligations.HardResetRestoresDefaults : Prop :=
  (∀ s : State, exec .hardReset s = .next
    (((State.reset.setPending s.pending).setTrunk
      { State.reset.trunk with
        ex :=
          some
            { kind := .roundPoll, drop := some 0, frame := .poll 8, stage := .quiet, waits := 0, burstStart := 0, burstEnd := 0
              lastResend := none, set := Settings.defaults.trunk, detached := false, since := 0 }
        round := some [1, 2, 3, 4, 5, 6, 7], rounds := 1 }).setRoster
      { State.reset.roster with probe := 1, lastRound := some 0 })) ∧
  let s := State.reset
  let c := s.settings
  (s.clock.valid = false ∧ s.clock.minute = 0 ∧ s.minutePhase = 0 ∧ c.dayStart = 180 ∧ c.idleTimeout = 10) ∧
  (s.intakes.fare = none ∧ s.intakes.block = none ∧ s.cat.h = 0 ∧ s.cat.b = 0 ∧ s.cat.length = 0 ∧ s.cat.a = 0 ∧
    s.cat.p? = none ∧ s.cat.retired = [] ∧ s.cat.withdrawn = [] ∧ s.cat.hold = none ∧ s.occupancy = 0) ∧
  (s.table.state = .empty ∧ s.table.entries = [] ∧ s.table.live = 0 ∧ s.table.sweep = none ∧ s.table.sweepRequest = false ∧
    ∀ d, s.mark d = none) ∧
  (∀ d, (c.dropMap.get d).enabled = true ∧ (c.dropMap.get d).cls = 0 ∧
    s.drop d =
      { stopping := false, presence := .absent, run := 0, holdings := ⟨0, 0, 0⟩, known := false, tapsHeld := 0, fareAhead := false
        blockNofit := false, tapUrgent := false, counters := ⟨0, 0, 0, 0, 0, 0⟩ }) ∧
  (s.roster.pollMode = .continuous ∧ s.roster.probe = 0 ∧ s.roster.lastTap = none ∧ s.roster.lastRound = none) ∧
  (c.enables = { load := true, drop := true, job := true, changeover := true, table := true, tapq := true } ∧
    c.classes.get 0 = { blockBase := 0, blockSize := 8192, fareBase := 8192, fareSize := 128, delta := true } ∧
    ∀ i, i ≠ 0 → c.classes.get i = { blockBase := 0, blockSize := 0, fareBase := 0, fareSize := 0, delta := false }) ∧
  (c.pollMode = .continuous ∧ c.period = 4 ∧ c.divisor = 4 ∧ c.parking = .fixed ∧ c.bias = 0 ∧ c.retryLimit = 8) ∧
  (c.levelUrgent = 3 ∧ c.levelRoutine = 2 ∧ c.levelFare = 2 ∧ c.floorDepot = 1 ∧ c.floorClosed = 1 ∧ c.floorOpen = 3) ∧
  (c.trunk = { rate := 1000, quiet := 24, replyTimeout := 500, waitInterval := 5, waitLimit := 20, burst := 4 } ∧
    c.paceService = 4 ∧ c.paceDepot = 32) ∧
  (s.planner.jobs = [] ∧ s.planner.log = none ∧ s.trunk.ex = none ∧ s.trunk.request = none ∧ s.trunk.pushCount = 0) ∧
  (s.change = { state := .idle, hold := .absent, door := none, requested := none, forced := false } ∧ c.holdLimit = 5 ∧
    c.doorLimit = 60 ∧ s.taps.queue = []) ∧
  (s.port.gateway = none ∧ s.port.linkUp = false ∧ s.port.mode = .depot ∧ s.port.door = .closed ∧ s.port.answers = [] ∧
    s.port.notices = [] ∧ s.port.tx = none ∧ c.protocolType = 0x88B5 ∧ ∀ f, s.port.flags.get f = none) ∧
  ∀ n ∈ s.counters, n = 0

/-- WARM_RESTART takes effect on every block, and RESTART does the same after its answer OK has joined; while the BLOCK context is
REBUILDING the first changes nothing and the second is answered and held back (R35, R36, R51, R76, R95, R119, R142, R158, R183).
The model's own: the order of the two contexts, FARE before BLOCK (log 6), the command WARM_RESTART (log 8), the sweep request mark
(log 34), a poll mode that waited (log 37), the due test in DUE and DOOR_WAIT (log 40), the line time (log 41). -/
def Obligations.RestartActsOnEveryBlock : Prop :=
  ∀ (m : Head) (s : State),
    let s' := s.setPort { s.port with gateway := some m.src, answers := s.port.answers ++ [.result m.tag .ok 0 0 0 0] }
    ((∀ l, s.intakes.block = some l → l.stage ≠ .rebuilding) →
      (∃ t, exec .warmRestart s = .next t ∧ WarmRestarted (s.setPort { s.port with restartHeld := false }) t) ∧
      (s.answerRoom = true → ∃ t, exec (.restart m) s = .next t ∧ WarmRestarted s' t)) ∧
    (∀ l, s.intakes.block = some l → l.stage = .rebuilding →
      exec .warmRestart s = .next s ∧
      (s.answerRoom = true →
        ∃ t, exec (.restart m) s = .next t ∧ t = s.setPort t.port ∧
          t.port = { s'.port with restartHeld := true, tx := t.port.tx }))

/-! ### Gateway Port: frames, link, uplink -/

/-- Frames that carry no message for a block: each raises its own counter, and a discarded message still gives the gateway address
(R174, R175). -/
def Obligations.UnusableFramesAreCounted : Prop :=
  ∀ (s : State) (src : MacAddr) (why : DiscardReason),
    exec .fcsBad s = .next (s.setPort { s.port with fcsBad := min 65535 (s.port.fcsBad + 1) }) ∧
    exec .otherType s = .next (s.setPort { s.port with otherType := min 65535 (s.port.otherType + 1) }) ∧
    exec (.msgDiscard src why) s =
      .next (s.setPort { s.port with gateway := some src, msgDiscard := min 65535 (s.port.msgDiscard + 1) })

/-- Without answer room every message that takes an answer is discarded whole, whatever it asks: ANSWER_DROP rises and the gateway
address is taken, and nothing else changes (R174, R176). There is room while the answers queued and the answers owed, the pending
closes and the pending abort, are fewer than 16. -/
def Obligations.NoAnswerRoomDiscardsTheMessage : Prop :=
  (∀ s : State,
    let owed (l : Option Load) : Nat := match l with | some l => l.close.toList.length + l.abort.toList.length | none => 0
    s.answerRoom = true ↔ s.port.answers.length + (owed s.intakes.fare + owed s.intakes.block) < 16) ∧
  ∀ (c : Instr) (m : Head) (s : State), c.head? = some m → (∀ k e i p, c ≠ .loadSegment m k e i p) → s.answerRoom = false →
    exec c s = .next
      (s.setPort { s.port with gateway := some m.src, answerDrop := min 65535 (s.port.answerDrop + 1) }) ∧
    exec (.answerDrop m.src) s = exec c s

/-- The link state: UP lets the port form the next frame, oldest answer first, then NOTICE, then TAPS; DOWN counts LINK_LOSS and
cuts the frame, whose content stays queued (R168, R169, R174, R177). That LINK_DOWN on a link that is DOWN changes nothing is the
model's choice (log 3). -/
def Obligations.LinkStateGovernsTheUplink : Prop :=
  ∀ s : State,
    (∃ t, exec .linkUp s = .next t ∧ t = s.setPort t.port ∧ t.port = { s.port with linkUp := true, tx := t.port.tx } ∧
      (∀ x, s.port.tx = some x → t.port.tx = some x) ∧
      (s.port.tx = none →
        t.port.tx = (bodyChoice s.port.answers s.port.notices s.taps.queue).map (fun b =>
          { dest := s.port.gateway.getD 0xFFFFFFFFFFFF, etherType := s.settings.protocolType, body := b }))) ∧
    (s.port.linkUp = true →
      exec .linkDown s = .next
        (s.setPort { s.port with linkUp := false, tx := none, linkLoss := min 65535 (s.port.linkLoss + 1) })) ∧
    (s.port.linkUp = false → exec .linkDown s = .next s)

/-- A completed frame: what it carried leaves its queue, and the next frame is formed while the link is UP, to the gateway address or
broadcast, with the protocol type in force (R168, R174, R177). -/
def Obligations.CompletedFrameLeavesItsQueue : Prop :=
  ∀ (s : State) (x : Tx), s.port.tx = some x →
    ∃ t, exec .transmitComplete s = .next t ∧ t = (s.setPort t.port).setTaps t.taps ∧
      (∀ a, x.body = .answer a →
        t.port = { s.port with answers := s.port.answers.drop 1, tx := t.port.tx } ∧ t.taps = s.taps) ∧
      (∀ n, x.body = .notice n →
        t.port = { s.port with notices := s.port.notices.drop 1, tx := t.port.tx } ∧ t.taps = s.taps) ∧
      (∀ n, x.body = .taps n →
        t.port = { s.port with tx := t.port.tx } ∧
          t.taps = { s.taps with queue := s.taps.queue.drop n, tapsOut := min 65535 (s.taps.tapsOut + n) }) ∧
      t.port.tx =
        if s.port.linkUp then
          (bodyChoice t.port.answers t.port.notices t.taps.queue).map (fun b =>
            { dest := s.port.gateway.getD 0xFFFFFFFFFFFF, etherType := s.settings.protocolType, body := b })
        else none

/-- Raising a flag: a set flag keeps its first context and queues nothing; a clear one takes the context, and where its class is
enabled its NOTICE joins the end of the queue or takes the place of the one that waits for the same flag (R185, R186). The enable
of a flag is that of its class. -/
def Obligations.RaisingAFlagQueuesOneNotice : Prop :=
  (∀ e : Enables,
    (e.has .loadDone = e.load ∧ e.has .loadRefused = e.load) ∧ (e.has .dropJoined = e.drop ∧ e.has .dropLost = e.drop) ∧
    e.has .jobFailed = e.job ∧
    (e.has .changeoverDone = e.changeover ∧ e.has .changeoverHeld = e.changeover ∧ e.has .changeoverForced = e.changeover) ∧
    e.has .tableFull = e.table ∧ e.has .tapqFull = e.tapq) ∧
  ∀ (p : Port) (e : Enables) (f : Flag) (c : Ctx),
    ((p.flags.get f).isSome = true → p.raise e f c = p) ∧
    (p.flags.get f = none →
      (∀ g, (p.raise e f c).flags.get g = if g = f then some c else p.flags.get g) ∧
      { p.raise e f c with flags := p.flags, notices := p.notices } = p ∧
      (e.has f = false → (p.raise e f c).notices = p.notices) ∧
      (e.has f = true → (∀ n ∈ p.notices, n.flag ≠ f) → (p.raise e f c).notices = p.notices ++ [⟨f, c⟩]) ∧
      (e.has f = true → (∃ n ∈ p.notices, n.flag = f) →
        (p.raise e f c).notices.map Notice.flag = p.notices.map Notice.flag ∧
          ∀ n ∈ (p.raise e f c).notices, if n.flag = f then n = ⟨f, c⟩ else n ∈ p.notices))

/-! ### Gateway Port: management messages -/

/-- Each QUERY topic is answered with its REPORT and changes nothing else (R50, R94, R116, R118, R181, R187). Every field of a report
stands at its place with the value that the hub holds (R75, R141, R156, R170; 11, section 11.1.5). The model's rendering where that
section leaves one: logs 19, 20, 43, 44, 46, 48, 50, 51. -/
def Obligations.QueryIsAnsweredWithItsReport : Prop :=
  (∀ (m : Head) (s : State), s.answerRoom = true →
    let answered (c : Instr) (topic : Byte) (content : List Byte) : Prop :=
      ∃ t, exec c s = .next t ∧ t = s.setPort t.port ∧ Answered m.src [.report m.tag topic content] s t
    let jobs (js : List Job) : List Byte := leBytes 1 js.length ++ js.flatMap (fun j => (jobLayout s j).bytes)
    answered (.querySummary m) 1 (summaryLayout (s.setPort { s.port with gateway := some m.src })).bytes ∧
    (∀ (d : DropId) (n : Byte), n.toNat = d.val + 1 →
      answered (.queryDrop m n) 2 ((dropLayout s d).bytes ++ jobs (s.planner.jobs.filter (fun j => j.drop == d)))) ∧
    answered (.queryChain m) 3 (chainContent s) ∧ answered (.queryJobs m) 4 (jobs s.planner.jobs) ∧
    answered (.queryErrorlog m) 5 (errorlogLayout s.planner.log).bytes ∧
    answered (.queryCounters m) 6 ((countersInOrder s).flatMap (leBytes 2))) ∧
  ∀ (s : State) (d : DropId) (j : Job),
    ((summaryLayout s).Gapless 0 ∧ (summaryLayout s).bytes.length = 346) ∧ (dropLayout s d).Gapless 0 ∧
    ((jobLayout s j).Gapless 0 ∧ (jobLayout s j).bytes.length = 30) ∧
    ((errorlogLayout s.planner.log).Gapless 0 ∧ (errorlogLayout s.planner.log).bytes.length = 13)

/-- The messages that are refused with a RESULT change nothing: a QUERY of no topic or of a drop outside 1 to 8, a TIME of 0, a CLEAR
whose failed-job selector names nothing, a CONFIGURE whose windows or drop map fail a check (R14, R89, R178, R181, R182,
R190). A class's windows pass when each size is 0 or a power of two up to 65,536 whose multiple the base is, each window ends by
65,536, and no segment position lies in both (R89). -/
def Obligations.RefusedMessagesChangeNothing : Prop :=
  (∀ c : RawClass, RawClass.ok c = true ↔
    let passes (base size : BitVec 32) : Prop :=
      size = 0 ∨ (∃ e, e ≤ 16 ∧ size.toNat = 2 ^ e) ∧ size.toNat ∣ base.toNat ∧ base.toNat + size.toNat ≤ 65536
    let inside (base size : BitVec 32) (n : Nat) : Prop := base.toNat ≤ n ∧ n < base.toNat + size.toNat
    passes c.blockBase c.blockSize ∧ passes c.fareBase c.fareSize ∧
      ∀ n, ¬(inside c.blockBase c.blockSize n ∧ inside c.fareBase c.fareSize n)) ∧
  ∀ (m : Head) (s : State), s.answerRoom = true →
    (∀ topic, ∃ t, exec (.queryBadTopic m topic) s = .next t ∧ t = s.setPort t.port ∧
      Answered m.src [.result m.tag .badValue 0 0 0 0] s t) ∧
    (∀ n : Byte, n.toNat = 0 ∨ 8 < n.toNat → ∃ t, exec (.queryDrop m n) s = .next t ∧ t = s.setPort t.port ∧
      Answered m.src [.result m.tag .badValue 0 0 0 0] s t) ∧
    (∃ t, exec (.time m 0) s = .next t ∧ t = s.setPort t.port ∧ Answered m.src [.result m.tag .badValue 0 0 0 0] s t) ∧
    (∀ c : ClearBody,
      (2 < c.selector.toNat ∨ c.selector.toNat = 1 ∧
        (c.drop.toNat = 0 ∨ 8 < c.drop.toNat ∨ (c.kind.toNat ≠ 1 ∧ c.kind.toNat ≠ 2))) →
      ∃ t, exec (.clear m c) s = .next t ∧ t = s.setPort t.port ∧ Answered m.src [.result m.tag .badValue 0 0 0 0] s t) ∧
    (∀ r : RawConfig, (∃ i, RawClass.ok (r.classes.get i) = false) →
      ∃ t, exec (.configure m r) s = .next t ∧ t = s.setPort t.port ∧
        Answered m.src [.result m.tag .badWindow 0 0 0 0] s t) ∧
    (∀ r : RawConfig, (∀ i, RawClass.ok (r.classes.get i) = true) →
      (∃ d, 1 < (r.dropMap.get d).enable.toNat ∨ 3 < (r.dropMap.get d).cls.toNat) →
      ∃ t, exec (.configure m r) s = .next t ∧ t = s.setPort t.port ∧ Answered m.src [.result m.tag .badMap 0 0 0 0] s t)

/-- A CLEAR that is taken (R117, R182): each named flag is clear and its waiting NOTICE stays, the log is emptied and the counters
are 0 where the marks say so, and each FAILED job that the selector names is removed and its pair planned. What the planning and
the arbiter's decision in the same event may add is the model's order (log 29): JOB_FAILED, TAPQ_FULL and a log entry of reason
NOFIT. With an exchange in flight there is no decision, and the rest is exact. -/
def Obligations.ClearTakesItsSelectors : Prop :=
  ∀ (m : Head) (c : ClearBody) (s : State), s.answerRoom = true →
    (c.selector.toNat = 0 ∨ c.selector.toNat = 2 ∨
      (c.selector.toNat = 1 ∧ 1 ≤ c.drop.toNat ∧ c.drop.toNat ≤ 8 ∧ (c.kind.toNat = 1 ∨ c.kind.toNat = 2))) →
    ∃ t, exec (.clear m c) s = .next t ∧
      (let s1 := s.setPort
          { s.port with
            gateway := some m.src, answers := s.port.answers ++ [.result m.tag .ok 0 0 0 0]
            flags := s.port.flags.clear c.flags }
       Decided (if c.counters = 0 then s1 else s1.clearCounters) t) ∧
      (∀ f, f ≠ .jobFailed → f ≠ .tapqFull →
        t.port.flags.get f = if c.flags.getLsbD f.code then none else s.port.flags.get f) ∧
      (let log := if c.log = 0 then s.planner.log else none
       t.planner.log = log ∨ (log = none ∧ ∃ e, t.planner.log = some e ∧ e.reason = .nofit)) ∧
      (s.trunk.ex.isSome = true →
        t.port.flags.get .tapqFull = (if c.flags.getLsbD Flag.tapqFull.code then none else s.port.flags.get .tapqFull) ∧
        (c.counters ≠ 0 → ∀ n ∈ t.counters, n = 0) ∧
        (c.selector.toNat = 0 →
          (∀ f, t.port.flags.get f = if c.flags.getLsbD f.code then none else s.port.flags.get f) ∧
            t.port.notices = s.port.notices ∧ t.planner.jobs = s.planner.jobs ∧
            t.planner.log = (if c.log = 0 then s.planner.log else none)) ∧
        ((s.planner.jobs.map (fun j => (j.drop, j.kind))).Nodup → ∀ (d : DropId) (k : Kind),
          let named := c.selector.toNat = 2 ∨ (c.selector.toNat = 1 ∧ c.drop.toNat = d.val + 1 ∧ kindOf c.kind = some k)
          (∀ j, s.job? d k = some j → j.state = .failed → named →
            t.job? d k = ((s.removeJob d k).planPair d k).job? d k) ∧
          ((∀ j, s.job? d k = some j → j.state ≠ .failed) ∨ ¬named → t.job? d k = s.job? d k)))

/-- A CONFIGURE that passes its checks (R23, R88, R91, R92, R104, R107, R108, R140, R178 to R180, R186): the record is in force in
its event, with every value brought into its range, and the RESULT is OK; readiness is judged on the drops as the event leaves them
(R147); every RECEIVING intake's idle deadline is recomputed; each drop's enable value acts, with an exchange of a disabled drop
that pauses ended at once; NOTICEs of a class that is off are withdrawn. While the exchange in flight goes on, the poll settings
and every pair's job are exact: levels and floor anew, and a re-plan where the settings call for it. The order of the owners inside
the event is log 6; that a frame which waits to be sent again after a WAIT counts as one that pauses, also where a collision
put it back, is log 17; a NOTICE in transmission log 42. A drop that is stopping already is left as it is, its exchange too. -/
def Obligations.ConfigureAppliesTheRecord : Prop :=
  ∀ (m : Head) (r : RawConfig) (s : State), s.answerRoom = true → (∀ i, RawClass.ok (r.classes.get i) = true) →
    (∀ d, (r.dropMap.get d).enable.toNat ≤ 1 ∧ (r.dropMap.get d).cls.toNat ≤ 3) →
    ∃ t, exec (.configure m r) s = .next t ∧ SettingsTaken r s.settings.protocolType t.settings ∧ ReadinessJudged s t ∧
      t.pending = s.pending ∧ t.timebase = s.timebase ∧ t.clock = s.clock ∧
      t.port.core =
        { s.port with gateway := some m.src, answers := s.port.answers ++ [Answer.result m.tag .ok 0 0 0 0] }.core ∧
      { t.cat.bare with hold := none } = { s.cat.bare with hold := none } ∧ t.table.bare = s.table.bare ∧
      t.taps.bare = s.taps.bare ∧ t.trunk.bare = s.trunk.bare ∧ t.roster.lastTap = s.roster.lastTap ∧
      (let deadline (l : Load) : Load :=
          if l.stage = .receiving then
            { l with
              deadline :=
                if s.clock.valid = true ∧ t.settings.idleTimeout ≠ 0 then some (s.clock.minute + t.settings.idleTimeout)
                else none }
          else l
       t.intakes =
          { s.intakes with fare := s.intakes.fare.map deadline, block := s.intakes.block.map deadline }) ∧
      (∀ d,
        ((r.dropMap.get d).enable = 1 → (s.drop d).stopping = false → (s.drop d).presence ≠ .disabled →
          (t.drop d).bare = (s.drop d).bare) ∧
        ((r.dropMap.get d).enable = 1 → (s.drop d).stopping = true →
          (t.drop d).bare = { s.drop d with stopping := false }.bare) ∧
        ((r.dropMap.get d).enable = 1 → (s.drop d).stopping = false → (s.drop d).presence = .disabled →
          (t.drop d).bare =
            { s.drop d with presence := .absent, run := 0, known := false, holdings := ⟨0, 0, 0⟩ }.bare) ∧
        ((r.dropMap.get d).enable = 0 → (s.drop d).stopping = false → (s.drop d).presence ≠ .disabled →
          (∀ x, s.trunk.ex = some x → x.drop ≠ some d) →
          t.drop d =
            { s.drop d with
              presence := .disabled, run := 0, fareAhead := false, blockNofit := false, tapUrgent := false }) ∧
        ((r.dropMap.get d).enable = 0 → (s.drop d).presence ≠ .disabled →
          ∀ x, s.trunk.ex = some x → x.drop = some d →
            if (s.drop d).stopping = false ∧ (x.stage = .pause ∨ (x.stage = .quiet ∧ 0 < x.waits)) then
              ExchangeOver t ∧ (∀ j ∈ t.planner.jobs, j.drop ≠ d) ∧
                t.drop d =
                  { s.drop d with
                    stopping := false, presence := .disabled, run := 0, fareAhead := false, blockNofit := false
                    tapUrgent := false }
            else (t.drop d).bare = { s.drop d with stopping := true }.bare) ∧
        ((r.dropMap.get d).enable = 0 → (s.drop d).stopping = false → (s.drop d).presence = .disabled →
          (t.drop d).bare = (s.drop d).bare)) ∧
      (∀ f, f ≠ .jobFailed → f ≠ .tapqFull → t.port.flags.get f = s.port.flags.get f) ∧
      (let other (n : Notice) : Bool := n.flag != .jobFailed && n.flag != .tapqFull
       let kept (n : Notice) : Bool :=
          t.settings.enables.has n.flag ||
            (match s.port.tx with
            | some x => (match x.body with | .notice m => m.flag == n.flag | .answer _ | .taps _ => false)
            | none => false)
       let replans : Prop :=
          s.settings.classes ≠ t.settings.classes ∨ s.settings.dropMap ≠ t.settings.dropMap ∨
            s.settings.levelUrgent ≠ t.settings.levelUrgent ∨ s.settings.levelRoutine ≠ t.settings.levelRoutine ∨
            s.settings.levelFare ≠ t.settings.levelFare ∨ s.settings.floorDepot ≠ t.settings.floorDepot ∨
            s.settings.floorClosed ≠ t.settings.floorClosed ∨ s.settings.floorOpen ≠ t.settings.floorOpen ∨
            s.settings.bias ≠ t.settings.bias
       t.port.notices.filter other = (s.port.notices.filter kept).filter other ∧
       ∀ x, s.trunk.ex = some x →
        (∀ d, x.drop = some d →
          (r.dropMap.get d).enable = 1 ∨ (s.drop d).stopping = true ∨
            ¬(x.stage = .pause ∨ (x.stage = .quiet ∧ 0 < x.waits))) →
        t.trunk.ex = some x ∧
        (¬replans → t.port.notices = s.port.notices.filter kept) ∧
        t.roster.probe = (if t.settings.divisor = s.settings.divisor then s.roster.probe else 0) ∧
        t.roster.pollMode = (if s.trunk.round.isSome then s.roster.pollMode else t.settings.pollMode) ∧
        t.roster.lastRound = s.roster.lastRound ∧ t.trunk.round = s.trunk.round ∧
        ∀ d, ((r.dropMap.get d).enable = 1 ↔ ((s.drop d).presence ≠ .disabled ∧ (s.drop d).stopping = false)) →
          (r.dropMap.get d).enable = 1 ∨ (s.drop d).stopping = false → ∀ k,
          let v := s.setSettings t.settings
          let w := v.setJobs (s.planner.jobs.map (fun j => v.judgeJob (v.markLevel j)))
          (replans → t.job? d k = (w.planPair d k).job? d k) ∧ (¬replans → t.job? d k = w.job? d k))

/-- VEHICLE: the two codes, the readers of the floor, and in DOOR_WAIT the activation that CLOSED doors decide, with the broadcast
formed at once where the trunk is free (R108, R150, R151, R184). -/
def Obligations.VehicleSetsModeAndDoors : Prop :=
  ∀ (m : Head) (mode door : Byte) (s : State), s.answerRoom = true →
    let p : Port :=
      { s.port with
        gateway := some m.src, answers := s.port.answers ++ [.result m.tag .ok 0 0 0 0]
        mode := if mode = 1 then .depot else if mode = 2 then .service else s.port.mode
        door := if door = 2 then .closed else .open_ }
    ∃ t, exec (.vehicle m mode door) s = .next t ∧
      (¬(s.change.state = .doorWait ∧ door = 2) → Decided (s.setPort p) t) ∧
      (∀ e, s.change.state = .doorWait → door = 2 → s.cat.p? = some e →
        Decided
          (((s.setPort p).setChange
            { s.change with state := .due, hold := .absent, door := none, requested := some e }).setCat
              { s.cat with hold := s.cat.pendingFare.map Fare.ref }) t ∧
        (s.trunk.ex.isSome = true → t.trunk.request = some e) ∧
        (s.trunk.ex = none → t.trunk.request = none ∧
          ∃ x, t.trunk.ex = some x ∧ x.kind = .broadcast ∧ x.drop = none ∧ x.frame = .activate e ∧ x.stage = .quiet)) ∧
      (∀ x, s.trunk.ex = some x →
        let floor :=
          match p.mode, p.door with
          | .depot, _ => s.settings.floorDepot
          | .service, .closed => s.settings.floorClosed
          | .service, .open_ => s.settings.floorOpen
        t.planner.jobs =
          s.planner.jobs.map (fun j =>
            if x.kind = .push j.kind ∧ x.drop = some j.drop then j
            else
              { j with
                state :=
                  match j.state with
                  | .failed => .failed
                  | .held => if 1 ≤ j.level ∧ floor ≤ j.level then (if j.underWay then .paused else .ready) else .held
                  | st => if j.level = 0 ∨ j.level < floor then .held else st }))

/-! ### The service clock and the deadlines -/

/-- TIME M for M other than 0: C becomes M, the flag is set, the minute phase starts afresh, and the RESULT is OK; it is a clock
change unless a valid C already read M (R14, R15). -/
def Obligations.TimeSetsTheClock : Prop :=
  ∀ (m : Head) (n : BitVec 32) (s : State), s.answerRoom = true → n ≠ 0 →
    let s' := s.setPort { s.port with gateway := some m.src, answers := s.port.answers ++ [.result m.tag .ok 0 0 0 0] }
    ∃ t, exec (.time m n) s = .next t ∧ t.clock = { minute := n.toNat, valid := true, phaseStart := s.timebase } ∧
      t.timebase = s.timebase ∧
      (s.clock.valid = true → s.clock.minute = n.toNat →
        Decided (s'.setClock { minute := n.toNat, valid := true, phaseStart := s.timebase }) t) ∧
      (¬(s.clock.valid = true ∧ s.clock.minute = n.toNat) → ClockChanged n.toNat (!s.clock.valid) s' t)

/-- MINUTE_ADVANCE: C rises by 1 and the phase starts from 0 as one clock change; at its highest value C stays and only time passes;
while the clock is invalid nothing happens (R13). The timebase stands at the minute's end at least (log 2). -/
def Obligations.MinuteAdvanceIsOneClockChange : Prop :=
  ∀ s : State,
    (s.clock.valid = true → s.clock.minute < 4294967295 →
      ∃ t, exec .minuteAdvance s = .next t ∧ ClockChanged (s.clock.minute + 1) false s t ∧
        t.timebase = max s.timebase (s.clock.phaseStart + 60000000) ∧ t.clock.phaseStart = t.timebase) ∧
    (s.clock.valid = true → 4294967295 ≤ s.clock.minute →
      exec .minuteAdvance s = .next (s.setTimebase (max s.timebase (s.clock.phaseStart + 60000000)))) ∧
    (s.clock.valid = false → exec .minuteAdvance s = .next s)

/-- An idle deadline n passes (R13, R15, R24): each minute up to n ends as MINUTE_ADVANCE ends one, and the clock change that
reaches n discards the intake and raises LOAD_REFUSED with TIMEOUT. That the command stands for the minutes that lead up to the
deadline is the model's choice (log 5). -/
def Obligations.IdleDeadlineDiscardsTheIntake : Prop :=
  ∀ (k : Kind) (l : Load) (n : Nat) (s : State), s.intake k = some l → l.stage = .receiving → l.deadline = some n →
    s.clock.valid = true → n ≤ 4294967295 →
    ∃ t, exec (.idleDeadlinePass k) s = .next t ∧ t.intake k = none ∧ t.port.flags.loadRefused.isSome = true ∧
      t.port.answers = s.port.answers ∧
      (s.clock.minute < n → t.clock.minute = n ∧ t.clock.valid = true ∧
        ∃ u : Nat → State, u 0 = s ∧ u (n - s.clock.minute) = t ∧
          ∀ i, i < n - s.clock.minute →
            (u i).clock.minute = s.clock.minute + i ∧ (u i).intake k = some l ∧ exec .minuteAdvance (u i) = .next (u (i + 1))) ∧
      (n ≤ s.clock.minute →
        t = (s.setIntake k none).setPort t.port ∧
        t.port =
          { s.port.raise s.settings.enables .loadRefused
              { edition := l.edition, code := some .timeout, drop := none, minute := s.clock.minute } with
            tx := t.port.tx })

/-- The hold deadline n passes in DUE (R13, R15, R148, R149): each minute up to n ends as MINUTE_ADVANCE ends one, and the clock
change that reaches n makes the bus ready by the hold, or by arming when every counted drop is armed; CHANGEOVER_HELD is raised
only in the first case. That the command stands for the minutes that lead up to the deadline is the model's choice (log 5). -/
def Obligations.HoldDeadlineMakesTheBusReady : Prop :=
  ∀ (n e : Nat) (s : State), s.change.state = .due → s.change.requested = none → s.change.hold = .minute n →
    s.cat.p? = some e → s.clock.valid = true → n ≤ 4294967295 →
    ∃ t, exec .holdDeadlinePass s = .next t ∧ (s.allArmed e = true ↔ s.busArmed e) ∧ t.change.hold = .absent ∧
      t.change.forced = !s.allArmed e ∧
      (if s.port.door = .closed ∨ s.settings.doorLimit = 0 then
        t.change.state = .due ∧ t.change.requested = some e ∧ t.change.door = none ∧ t.cat.hold = t.cat.pendingFare.map Fare.ref
      else t.change.state = .doorWait ∧ t.change.requested = none ∧ t.change.door.isSome = true) ∧
      (s.allArmed e = true → t.port.flags.changeoverHeld = s.port.flags.changeoverHeld) ∧
      (s.allArmed e = false → s.port.flags.changeoverHeld = none →
        t.port.flags.changeoverHeld = some { edition := e, code := none, drop := none, minute := max s.clock.minute n }) ∧
      (s.clock.minute < n → t.clock.minute = n ∧ t.clock.valid = true ∧
        ∃ u : Nat → State, u 0 = s ∧ u (n - s.clock.minute) = t ∧
          ∀ i, i < n - s.clock.minute →
            (u i).clock.minute = s.clock.minute + i ∧ (u i).change = s.change ∧
              exec .minuteAdvance (u i) = .next (u (i + 1))) ∧
      (n ≤ s.clock.minute → t.clock = s.clock ∧ t.timebase = s.timebase ∧ t.intakes = s.intakes)

/-- The door deadline passes in DOOR_WAIT: activation is decided, with the forced mark as it stands; the hold names p, and the
broadcast is requested, and formed at once where the trunk is free (R150, R151). The timebase stands at the deadline at least (the
model's choice, log 2). -/
def Obligations.DoorDeadlineDecidesActivation : Prop :=
  ∀ (e at_ : Nat) (s : State), s.change.state = .doorWait → s.change.door = some at_ → s.cat.p? = some e →
    ∃ t, exec .doorDeadline s = .next t ∧
      Decided
        (((s.setTimebase (max s.timebase at_)).setChange
          { s.change with state := .due, hold := .absent, door := none, requested := some e }).setCat
            { s.cat with hold := s.cat.pendingFare.map Fare.ref }) t ∧
      (s.trunk.ex.isSome = true → t.trunk.request = some e) ∧
      (s.trunk.ex = none → t.trunk.request = none ∧
        ∃ x, t.trunk.ex = some x ∧ x.kind = .broadcast ∧ x.drop = none ∧ x.frame = .activate e ∧ x.stage = .quiet)

/-! ### Edition Intake -/

/-- A LOAD_OPEN is answered with the code of the first of R19's nine tests that fails, and leaves both contexts as they were. The
RESULT echoes the kind byte as it came (11, section 11.1.4), also one that names no dataset (the model's inference, log 21). -/
def Obligations.LoadOpenRefusedByFirstFailingTest : Prop :=
  ∀ (m : Head) (b : OpenBody) (s : State) (x : Bool × Code), s.answerRoom = true →
    (openTests s.cat b).find? (fun q => !q.1) = some x →
    ∃ t, exec (.loadOpen m b) s = .next t ∧ t = s.setPort t.port ∧
      Answered m.src [.result m.tag x.2 b.kind b.edition.toNat 0 0] s t

/-- A LOAD_OPEN that passes every test is taken against its kind's context: ACCEPTED, ACCEPTED_CONTINUE, RESTARTED or BUSY, with the
missing count and the first missing index in each accepting answer (R20, R21, R23). -/
def Obligations.LoadOpenTakenAgainstItsContext : Prop :=
  ∀ (m : Head) (b : OpenBody) (s : State), s.answerRoom = true → (openTests s.cat b).all (fun q => q.1) = true →
    let k : Kind := if b.kind = 1 then .fare else .block
    let f : Form := if b.form = 1 then .full else .delta
    let e := b.edition.toNat
    let deadline : Option Nat :=
      if s.clock.valid = true ∧ s.settings.idleTimeout ≠ 0 then some (s.clock.minute + s.settings.idleTimeout) else none
    let urgent := k == .block && f == .delta && b.urgent != 0
    let minute := if k = .fare then b.minute.toNat else 0
    let fresh : Load :=
      { stage := .receiving, edition := e, form := f, itemCount := b.itemCount.toNat, digest := b.digest, urgent, minute
        segments := List.replicate b.segCount.toNat none, deadline, close := none, abort := none }
    let answer (code : Code) (l : Load) : Answer :=
      .result m.tag code b.kind e (l.segments.countP (fun x => x.isNone)) (l.segments.findIdx (fun x => x.isNone))
    let opened (code : Code) (shown kept : Load) : Prop :=
      ∃ t, exec (.loadOpen m b) s = .next t ∧ t = (s.setIntake k (some kept)).setPort t.port ∧
        Answered m.src [answer code shown] s t
    (s.intake k = none → opened .accepted fresh fresh) ∧
    (∀ l, s.intake k = some l → l.stage = .receiving →
      if l.edition = e ∧ l.form = f ∧ l.segments.length = b.segCount.toNat ∧ l.itemCount = b.itemCount.toNat ∧
          l.digest = b.digest then
        opened .acceptedContinue l { l with urgent, minute, deadline }
      else opened .restarted fresh fresh) ∧
    (∀ l, s.intake k = some l → l.stage ≠ .receiving →
      ∃ t, exec (.loadOpen m b) s = .next t ∧ t = s.setPort t.port ∧
        Answered m.src [.result m.tag .busy b.kind e 0 0] s t)

/-- A LOAD_SEGMENT is stored under its clear mark with the deadline renewed, or counted as a duplicate or as a stray; it takes no
answer and leaves the other context alone (R22). -/
def Obligations.LoadSegmentStoredDuplicateOrStray : Prop :=
  ∀ (m : Head) (kind : Byte) (edition index : BitVec 16) (payload : Segment) (s : State), payload.length = 240 →
    let s' := s.setPort { s.port with gateway := some m.src }
    let run := exec (.loadSegment m kind edition index payload) s
    (∀ k l, kindOf kind = some k → s.intake k = some l → l.stage = .receiving → l.edition = edition.toNat →
      (l.segments[index.toNat]? = some none →
        run = .next
          (s'.setIntake k
            (some
              { l with
                segments := l.segments.set index.toNat (some payload)
                deadline :=
                  if s.clock.valid = true ∧ s.settings.idleTimeout ≠ 0 then some (s.clock.minute + s.settings.idleTimeout)
                  else none }))) ∧
      (∀ q, l.segments[index.toNat]? = some (some q) →
        run = .next (s'.setIntakes { s.intakes with segDuplicate := min 65535 (s.intakes.segDuplicate + 1) })) ∧
      (l.segments.length ≤ index.toNat →
        run = .next (s'.setIntakes { s.intakes with segStray := min 65535 (s.intakes.segStray + 1) }))) ∧
    ((∀ k l, kindOf kind = some k → s.intake k = some l → l.stage = .receiving → l.edition ≠ edition.toNat) →
      run = .next (s'.setIntakes { s.intakes with segStray := min 65535 (s.intakes.segStray + 1) }))

/-- A LOAD_CLOSE: NOT_OPEN, INCOMPLETE with its two figures, IN_PROGRESS, or the start of the check with the answer deferred
(R25). NOT_OPEN echoes also a kind byte that names no dataset (the model's inference, log 21). -/
def Obligations.LoadCloseStartsTheCheck : Prop :=
  ∀ (m : Head) (kind : Byte) (edition : BitVec 16) (s : State), s.answerRoom = true →
    let same (code : Code) (v1 v2 : Nat) : Prop :=
      ∃ t, exec (.loadClose m kind edition) s = .next t ∧ t = s.setPort t.port ∧
        Answered m.src [.result m.tag code kind edition.toNat v1 v2] s t
    ((∀ k l, kindOf kind = some k → s.intake k = some l → l.edition ≠ edition.toNat) → same .notOpen 0 0) ∧
    (∀ k l, kindOf kind = some k → s.intake k = some l → l.edition = edition.toNat →
      (l.stage = .receiving → none ∈ l.segments →
        same .incomplete (l.segments.countP (fun x => x.isNone)) (l.segments.findIdx (fun x => x.isNone))) ∧
      (l.stage = .receiving → none ∉ l.segments →
        ∃ t, exec (.loadClose m kind edition) s = .next t ∧
          t = (s.setIntake k (some { l with stage := .checking .notBegun, deadline := none, close := some m.tag })).setPort
            t.port ∧ Answered m.src [] s t) ∧
      (l.stage ≠ .receiving → same .inProgress 0 0))

/-- A LOAD_ABORT by the state of the context that holds its edition (R32): the answers, the flag, and during a forward apply the
undo that begins. NOT_OPEN echoes also a kind byte that names no dataset (the model's inference, log 21). -/
def Obligations.LoadAbortByState : Prop :=
  ∀ (m : Head) (kind : Byte) (edition : BitVec 16) (s : State), s.answerRoom = true →
    let own (code : Code) : Answer := .result m.tag code kind edition.toNat 0 0
    let same (code : Code) : Prop :=
      ∃ t, exec (.loadAbort m kind edition) s = .next t ∧ t = s.setPort t.port ∧ Answered m.src [own code] s t
    ((∀ k l, kindOf kind = some k → s.intake k = some l → l.edition ≠ edition.toNat) → same .notOpen) ∧
    (∀ k l, kindOf kind = some k → s.intake k = some l → l.edition = edition.toNat →
      (l.stage = .receiving →
        ∃ t, exec (.loadAbort m kind edition) s = .next t ∧ t = (s.setIntake k none).setPort t.port ∧
          Answered m.src [own .aborted] s t) ∧
      (∀ third, l.stage = .checking third →
        ∃ t, exec (.loadAbort m kind edition) s = .next t ∧ t = (s.setIntake k none).setPort t.port ∧
          t.port =
            { { s.port with
                  gateway := some m.src
                  answers := s.port.answers ++ closeAnswers k l .aborted 0 ++ [own .aborted] }.raise s.settings.enables
                .loadRefused { edition := l.edition, code := some .aborted, drop := none, minute := s.stamp } with
              tx := t.port.tx }) ∧
      (l.stage = .applying → l.abort = none →
        ∃ t, exec (.loadAbort m kind edition) s = .next t ∧
          t = ((s.setIntake k (some { l with abort := some m.tag })).setTable t.table).setPort t.port ∧
          Answered m.src [] s t ∧ t.table = { s.table with state := t.table.state } ∧
          ∀ ed la w, s.table.state = .applying ed la w →
            ∃ p, t.table.state = .applying ed la (.undo p) ∧ (∀ q, w = .undo q → p = q) ∧ ((∀ q, w ≠ .undo q) → p = none)) ∧
      (l.stage = .applying → l.abort.isSome = true → same .inProgress) ∧
      (l.stage = .rebuilding → same .busy))

/-! ### The check and the work that follows it -/

/-- A check that refuses the edition: the context is IDLE, the pending close gets the outcome, LOAD_REFUSED is raised and after it,
for TABLE_FULL, the TABLE_FULL flag; the Catalogue, the table, A and P are untouched (R2, R4, R5, R26, R27, R57, R58, R191). That
the figures of the third check are formed when the check completes, where they were not formed before, is the model's choice (log
18). -/
def Obligations.CheckRefusesTheEdition : Prop :=
  ∀ (k : Kind) (l : Load) (third : Stage3) (code : Code) (v : Nat) (s : State), s.intake k = some l →
    l.stage = .checking third → CheckFails s k l third code v →
    ∃ t, exec (.checkComplete k) s = .next t ∧
      (let p1 :=
          { s.port with answers := s.port.answers ++ closeAnswers k l code v }.raise s.settings.enables .loadRefused
            { edition := l.edition, code := some code, drop := none, minute := s.stamp }
       let p2 :=
          if code = .tableFull then
            p1.raise s.settings.enables .tableFull { edition := l.edition, code := none, drop := none, minute := s.stamp }
          else p1
       Decided ((s.setIntake k none).setPort p2) t)

/-- A check that passes a FARE edition: it is P with its minute and segments, the context is IDLE, the close is answered DONE,
LOAD_DONE is raised, and the changeover takes the new P up unless a request stands (R28, R44, R145, R153, R154). The old P is
withdrawn while something keeps it (R45). The FAILED FARE jobs go and every FARE pair is planned for the new P (R104, R117), the
BLOCK jobs standing: exact with an exchange in flight, after which no decision follows. DUE is entered with its hold deadline and its
readiness judged (R146 to R149). A record's own number is the model's (log 45). -/
def Obligations.CheckPassesTheFareEdition : Prop :=
  ∀ (l : Load) (third : Stage3) (s : State), s.intakes.fare = some l → l.stage = .checking third → CheckPasses .fare l →
    let r : Fare :=
      { ref := s.cat.records, edition := l.edition, products := l.itemCount, digest := l.digest, segments := l.segments.filterMap id
        minute := l.minute }
    let withdrawn :=
      s.cat.withdrawn ++
        s.cat.pendingFare.toList.filter (fun q => readersOf s.planner.jobs .fare q.ref != 0 || s.cat.hold == some q.ref)
    let held := s.port.flags.changeoverHeld
    ∃ t, exec (.checkComplete .fare) s = .next t ∧
      (let p :=
          { s.port with answers := s.port.answers ++ closeAnswers .fare l .done 0 }.raise s.settings.enables .loadDone
            { edition := l.edition, code := some .done, drop := none, minute := s.stamp }
       Decided
          ((((s.setIntakes { s.intakes with fare := none }).setCat
            { s.cat with pendingFare := some r, hold := t.cat.hold, records := s.cat.records + 1 }).setChange t.change).setPort
              { p with
                flags := { p.flags with changeoverHeld := t.port.flags.changeoverHeld }, notices := t.port.notices }) t) ∧
      RecordsFreed s.cat.retired withdrawn t ∧
      (s.trunk.ex.isSome = true → ∀ d,
        let w :=
          (s.setCat { s.cat with pendingFare := some r, withdrawn, records := s.cat.records + 1 }).setJobs
            (unfailed .fare s.planner.jobs)
        t.job? d .fare = (w.planPair d .fare).job? d .fare ∧ t.job? d .block = s.job? d .block) ∧
      (s.change.requested.isSome = true →
        t.change = s.change ∧ t.cat.hold = s.cat.hold ∧ t.port.flags.changeoverHeld = held) ∧
      (s.change.requested = none →
        if l.minute = 0 ∨ (s.clock.valid = true ∧ l.minute ≤ s.clock.minute) then DueEntered r held t
        else
          t.change = { state := .staging, hold := .absent, door := none, requested := none, forced := false } ∧
            t.port.flags.changeoverHeld = held)

/-- Stage 3 of a BLOCK DELTA check begins only with the sweep IDLE, no request pending and stages 1 and 2 passed (R57). A check that
passes the delta starts the forward apply with its live-after figure, and REMOVE_ABSENT rises (R29, R57, R58, R59). The figures count
the delta's changes against the entries live at h, and the entries that the lowest read edition (R68) lets go (R57, R58). -/
def Obligations.DeltaCheckWaitsThenStartsTheApply : Prop :=
  (∀ (l : Load) (s : State), s.intakes.block = some l → l.stage = .checking .notBegun → l.form = .delta →
    (s.table.sweep = none → s.table.sweepRequest = false → CheckPasses .block l →
      exec .deltaCheckStart s = .next (s.setIntakes { s.intakes with block := some { l with stage := .checking .begun } })) ∧
    (s.table.sweep.isSome = true ∨ s.table.sweepRequest = true ∨ ¬CheckPasses .block l → exec .deltaCheckStart s = .next s)) ∧
  (∀ s : State, FrontierHolds s) ∧
  (∀ (s : State) (cs : List Change),
    let held (c : Change) : Bool := s.table.entries.any (fun e => e.card == c.card && liveAt s.cat.h e)
    let purgeable := s.table.entries.countP (fun e => match e.until_ with | some u => !newer u s.lowestRead | none => false)
    s.figures cs =
      { adds := cs.countP (fun c => !c.remove)
        liveAfter :=
          s.table.live + cs.countP (fun c => !c.remove && !held c) - cs.countP (fun c => c.remove && held c)
        purgeable, available := 133120 - s.table.entries.length + purgeable
        removeAbsent := cs.countP (fun c => c.remove && !held c) }) ∧
  ∀ (l : Load) (third : Stage3) (f : Figures) (s : State), s.intakes.block = some l → l.stage = .checking third →
    l.form = .delta → CheckPasses .block l → (third = .formed f ∨ (third = .begun ∧ f = s.figures l.changes)) →
    f.adds ≤ f.available → f.liveAfter ≤ 131072 →
    ∃ t, exec (.checkComplete .block) s = .next t ∧
      Decided
        ((s.setIntakes { s.intakes with block := some { l with stage := .applying } }).setTable
          { s.table with
            state := .applying l.edition f.liveAfter (.purge none)
            removeAbsent := min 65535 (s.table.removeAbsent + f.removeAbsent) }) t

/-- A check that passes a BLOCK FULL: every mark is released, the sweep is cut, every entry is cleared and the rebuild begins (R30,
R63). The FULL step that each mark stood for is no longer under way, an exchange in flight that pushes one is detached from its job
(R63, R112, R133), and the drops that held a mark are planned again, with live at h as 0 (the model's choice, log 36); with an
exchange in flight no decision follows, and the jobs are exact. -/
def Obligations.CheckStartsTheRebuild : Prop :=
  ∀ (l : Load) (third : Stage3) (s : State), s.intakes.block = some l → l.stage = .checking third → l.form = .full →
    CheckPasses .block l →
    ∃ t, exec (.checkComplete .block) s = .next t ∧
      t.table =
        { s.table with
          state := .rebuilding l.edition 0, entries := [], live := 0, marks := Per8.all none, sweep := none
          sweepRequest := false } ∧
      (let marked (d : DropId) : Bool := (s.mark d).isSome
       let v :=
          ((s.setIntakes { s.intakes with block := some { l with stage := .rebuilding } }).setTable t.table).detached marked
       Decided v t ∧
        (s.trunk.ex.isSome = true → ∀ d,
          let w := v.setJobs (s.planner.jobs.map (Job.stopped marked))
          t.job? d .fare = s.job? d .fare ∧
            t.job? d .block = if marked d then (w.planPair d .block).job? d .block else s.job? d .block))

/-- The forward apply completes (R29, R40, R60): h is E, the delta stands at the chain's end, which is trimmed to 12, the table is
READY with the live-after figure, the close is answered DONE, LOAD_DONE is raised and a sweep runs. The changes not yet taken are
taken in index order, each closing the card's live entry at E and an ADD placing its new entry after those of its card (R52, R59):
that the command stands for the rest of the work is the model's choice (log 4). A purge in progress takes away purgeable entries
alone. Each read mark more than 64 editions behind the new h raises MARK_LAG, and none is left (R67); the FULL step that held it is
ended, and an exchange in flight that pushes that step is detached from its job (R112, R133). A trimmed record is retired while it is
read (R40, R43). The FAILED BLOCK jobs go and every BLOCK pair is planned for the new h (R104, R117), the FARE jobs standing: exact
with an exchange in flight, after which no decision follows. That the lag check stands before that planning is log 6; a record's own
number is the model's (log 45). -/
def Obligations.ApplyCompleteAdvancesTheHead : Prop :=
  (∀ (l : Load) (ed la : Nat) (w : ApplyWork) (s : State), s.intakes.block = some l → s.table.state = .applying ed la w →
    (∀ p, w ≠ .undo p) →
    ∃ t, exec .applyComplete s = .next t ∧
      (let r : Delta :=
          { ref := s.cat.records, edition := l.edition, changes := l.itemCount, urgent := l.urgent, digest := l.digest
            segments := l.segments.filterMap id }
       let p :=
          { s.port with answers := s.port.answers ++ closeAnswers .block l .done 0 }.raise s.settings.enables .loadDone
            { edition := l.edition, code := some .done, drop := none, minute := s.stamp }
       let chain := s.cat.chain ++ [r]
       let retired :=
          s.cat.retired ++
            (if s.cat.chain.length < 12 then [] else s.cat.chain.take 1).filter (fun r =>
              readersOf s.planner.jobs .block r.ref != 0)
       let v :=
          (((s.setIntakes { s.intakes with block := none }).setCat
            { s.cat with
              h := l.edition, records := s.cat.records + 1
              b := if chain.length ≤ 12 then s.cat.b else (chain.head?.map Delta.edition).getD s.cat.b
              chain := if chain.length ≤ 12 then chain else chain.drop 1, retired }).setTable
                { s.table with
                  state := .ready, live := la, entries := s.appliedEntries ed w, markLag := t.table.markLag
                  sweep := t.table.sweep }).setPort p
       Decided (v.detached v.lags) t ∧ RecordsFreed retired s.cat.withdrawn t ∧
        (s.trunk.ex.isSome = true → (s.planner.jobs.map (fun j => (j.drop, j.kind))).Nodup → ∀ d,
          let w :=
            ((allDrops.filter v.lags).foldl (fun v d => v.setMark d none) (v.detached v.lags)).setJobs
              (unfailed .block (s.planner.jobs.map (Job.stopped v.lags)))
          t.job? d .fare = s.job? d .fare ∧ t.job? d .block = (w.planPair d .block).job? d .block)) ∧
      t.table.sweep.isSome = true ∧
      (let lagging :=
          allDrops.countP (fun d => match s.mark d with | some m => decide (64 < serialDist m.edition l.edition) | none => false)
       t.table.markLag = (if lagging = 0 then s.table.markLag else min 65535 (s.table.markLag + lagging)) ∧
        ∀ d m, t.mark d = some m → serialDist m.edition t.cat.h ≤ 64) ∧
      (∀ n, w = .write n → t.table.entries = (l.changes.drop n).foldl (writeChange s.cat.h ed) s.table.entries) ∧
      (∀ p, w = .purge p → ∃ kept,
        kept.Sublist s.table.entries ∧
          (s.table.entries.filter (fun e => match e.until_ with | some u => newer u s.lowestRead | none => true)).Sublist kept ∧
          t.table.entries = l.changes.foldl (writeChange s.cat.h ed) kept)) ∧
  ∀ (h ed : Nat) (c : Change) (low high : List Entry),
    let closed (e : Entry) : Entry := if e.card = c.card ∧ liveAt h e = true then { e with until_ := some ed } else e
    (c.remove = true → ∀ es, writeChange h ed es c = es.map closed) ∧
    (c.remove = false → (∀ e ∈ low, e.card ≤ c.card) → (∀ e ∈ high, c.card < e.card) →
      writeChange h ed (low ++ high) c =
        low.map closed ++ { card := c.card, reason := c.reason, expiry := c.expiry, since := ed, until_ := none } :: high)

/-- The undo completes (R33, R61): the table is READY with h unchanged and the apply's stamps taken back, the context is IDLE, the
pending close and then the abort are answered ABORTED, LOAD_REFUSED is raised; nothing else changes. Of the entries not yet visited,
which stand in the visiting order (R69), those made by E go and an until-stamp of E is cleared (R61): that the command stands for the
rest of the work is the model's choice (log 4). -/
def Obligations.UndoCompleteTakesTheDeltaBack : Prop :=
  (∀ (l : Load) (ed la : Nat) (p : Place) (s : State), s.intakes.block = some l →
    s.table.state = .applying ed la (.undo p) →
    ∃ t, exec .undoComplete s = .next t ∧
      t =
        ((s.setIntakes { s.intakes with block := none }).setTable
          { s.table with state := .ready, entries := undoneEntries ed p s.table.entries }).setPort t.port ∧
      t.port =
        { { s.port with
              answers :=
                s.port.answers ++ closeAnswers .block l .aborted 0 ++
                  l.abort.toList.map (fun tag => Answer.result tag .aborted 2 l.edition 0 0) }.raise s.settings.enables .loadRefused
            { edition := l.edition, code := some .aborted, drop := none, minute := s.stamp } with
          tx := t.port.tx }) ∧
  ∀ (ed : Nat) (p : Place) (done todo : List Entry),
    (∀ e ∈ done, afterPlace p e = false) → (∀ e ∈ todo, afterPlace p e = true) →
    todo.Pairwise (fun a b => a.card < b.card ∨ (a.card = b.card ∧ newer b.since a.since = true)) →
    undoneEntries ed p (done ++ todo) =
      done ++ (todo.filter (fun e => e.since != ed)).map (fun e => if e.until_ = some ed then { e with until_ := none } else e)

/-- The rebuild completes (R30, R41, R64): h and b are E, the chain is empty, the table is READY with the image's entries, the
close is answered DONE, LOAD_DONE is raised; a warm restart held back behind it then takes effect (R36; that both stand in one
event is log 9). Each record of the emptied chain is retired while it is read (R41, R43). The FAILED BLOCK jobs go and every BLOCK
pair is planned for the new h (R104, R117), the FARE jobs standing: exact with an exchange in flight, after which no decision
follows. That the command makes the entries not yet made is the model's choice (log 4). -/
def Obligations.RebuildCompleteMovesTheHead : Prop :=
  ∀ (l : Load) (ed made : Nat) (s : State), s.intakes.block = some l → s.table.state = .rebuilding ed made →
    let retired := s.cat.retired ++ s.cat.chain.filter (fun r => readersOf s.planner.jobs .block r.ref != 0)
    ∃ u,
      (let p :=
          { s.port with answers := s.port.answers ++ closeAnswers .block l .done 0 }.raise s.settings.enables .loadDone
            { edition := l.edition, code := some .done, drop := none, minute := s.stamp }
       let v :=
          (((s.setIntakes { s.intakes with block := none }).setCat { s.cat with h := ed, b := ed, chain := [], retired }).setTable
            { s.table with
              state := .ready, live := l.itemCount
              entries := s.table.entries ++ (imageEntries ed l.changes).drop made
              sweep := u.table.sweep }).setPort p
       Decided v u ∧
        (s.trunk.ex.isSome = true → ∀ d,
          let w := v.setJobs (unfailed .block s.planner.jobs)
          u.job? d .fare = s.job? d .fare ∧ u.job? d .block = (w.planPair d .block).job? d .block)) ∧
      u.table.sweep.isSome = true ∧
      (s.port.restartHeld = false →
        exec .rebuildComplete s = .next u ∧ RecordsFreed retired s.cat.withdrawn u) ∧
      (s.port.restartHeld = true →
        ∃ t, exec .rebuildComplete s = .next t ∧ WarmRestarted (u.setPort { u.port with restartHeld := false }) t)

/-- A sweep pass completes: its work on the entries stands, and a new pass starts at once when a request is marked, with the lowest
read edition and the horizon of that moment (R68, R69). A pass does with an entry the first of the three cases of R70 that applies,
but for an entry that an apply in flight has written, which it leaves alone (R71; where R70 says otherwise, log 35). The entries not
yet visited, which stand in the visiting order (R69), are each done so; that the command stands for the rest of the pass is the
model's choice (log 4). The lowest read edition and the horizon are those of R68. -/
def Obligations.SweepPassCompletesAndMayRestart : Prop :=
  (∀ (p : Pass) (s : State), s.table.sweep = some p →
    exec .sweepPassComplete s = .next
      (s.setTable
        { s.table with
          entries := sweptEntries s.table.state.writing p s.table.entries, sweepRequest := false
          sweep :=
            if s.table.sweepRequest then some { lowest := s.lowestRead, horizon := s.horizon, after := none } else none })) ∧
  (∀ s : State, FrontierHolds s) ∧
  (∀ s : State, ∀ ed, s.table.state.writing = some ed ↔ ∃ la w, s.table.state = .applying ed la w) ∧
  (∀ (w : Option Nat) (lowest horizon : Nat) (e : Entry),
    let written := ∃ ed, w = some ed ∧ (e.since = ed ∨ e.until_ = some ed)
    (written → sweepEntry w lowest horizon e = some e) ∧
    (¬written → ∀ u, e.until_ = some u → newer u lowest = false → sweepEntry w lowest horizon e = none) ∧
    (¬written → (∀ u, e.until_ = some u → newer u lowest = true) →
      sweepEntry w lowest horizon e = some { e with since := if newer horizon e.since = true then horizon else e.since })) ∧
  ∀ (w : Option Nat) (p : Pass) (done todo : List Entry),
    (∀ e ∈ done, afterPlace p.after e = false) → (∀ e ∈ todo, afterPlace p.after e = true) →
    todo.Pairwise (fun a b => a.card < b.card ∨ (a.card = b.card ∧ newer b.since a.since = true ∧
      ∀ a', sweepEntry w p.lowest p.horizon a = some a' → newer b.since a'.since = true)) →
    sweptEntries w p (done ++ todo) = done ++ todo.filterMap (sweepEntry w p.lowest p.horizon)

/-- After the lag check of an apply's completion no read mark lies more than 64 editions behind h, and one at 64 stands; MARK_LAG
rises by one for each mark that goes, the FULL step that held it is no longer under way (R67), and an exchange in flight that pushes
it is detached from its job (R112, R133). -/
def Obligations.NoMarkLagsMoreThan64Editions : Prop :=
  (∀ s : State,
    let lagging := allDrops.countP (fun d => match s.mark d with | some m => decide (64 < serialDist m.edition s.cat.h) | none => false)
    (allDrops.foldl State.lagCheck s).table.markLag =
      if lagging = 0 then s.table.markLag else min 65535 (s.table.markLag + lagging)) ∧
  (∀ s : State, (allDrops.foldl State.lagCheck s).trunk.ex = s.trunk.ex.map (Exchange.detachedFrom s.lags)) ∧
  ∀ (s : State) (d : DropId),
    (∀ m j, s.mark d = some m → 64 < serialDist m.edition s.cat.h → s.job? d .block = some j → j.underWay = true →
      (allDrops.foldl State.lagCheck s).job? d .block =
        some { j with underWay := false, phase := .open_, next := 0, burstStart := 0 }) ∧
    (∀ m, (allDrops.foldl State.lagCheck s).mark d = some m → serialDist m.edition s.cat.h ≤ 64) ∧
    (∀ m, s.mark d = some m → serialDist m.edition s.cat.h ≤ 64 → (allDrops.foldl State.lagCheck s).mark d = some m)

/-! ### Validator trunk -/

/-- The quiet time is met: the frame is sent; a SEGMENT takes its payload now, from its record, wherever that now stands (R47, by
its number, log 45), or from the serializer, which packs the first entries live at h0 above the last one packed, up to 20 (R72,
R73); and where the drop is stopping or the step has ended, no frame is formed and the exchange ends unacknowledged, with no
presence event (R123, R124, R129, R133, R140). The timebase stands at the due time at least (log 2), the payload is taken now (log
16), and that a frame not yet formed ends the exchange of a stopping drop is log 17. -/
def Obligations.QuietTimeMetSendsTheFrame : Prop :=
  (∀ (c : Catalogue) (j : Job) (e : Nat),
    (j.underWay = true →
      c.deltaOf j e = (c.chain ++ c.retired).find? (fun r => r.ref == j.record) ∧
        c.fareOf j e = (c.pendingFare.toList ++ c.active.toList ++ c.withdrawn).find? (fun r => r.ref == j.record)) ∧
    (j.underWay = false →
      c.deltaOf j e = c.chain.find? (fun r => r.edition == e) ∧
        c.fareOf j e = (c.pendingFare.toList ++ c.active.toList ++ c.withdrawn).find? (fun r => r.edition == e))) ∧
  ∀ (x : Exchange) (s : State), s.trunk.ex = some x → x.stage = .quiet →
    let T := max s.timebase (s.trunk.lineFrom + x.set.quiet * (1000 / x.set.rate))
    let sent (s' : State) (f : TrunkFrame) : State :=
      (s'.setTimebase T).setTrunk { s.trunk with ex := some { x with frame := f, stage := .sending, since := T } }
    ((∀ i last, x.frame ≠ .segment i last none) → exec .quietTimeMet s = .next (sent s x.frame)) ∧
    ∀ i last d k, x.frame = .segment i last none → x.drop = some d → x.kind = .push k →
      ((s.drop d).stopping = false → x.detached = false → ∀ j rest, s.job? d k = some j →
        (∀ e r, j.plan = .delta e :: rest → s.cat.deltaOf j e = some r →
          exec .quietTimeMet s = .next (sent s (.segment i last r.segments[i]?))) ∧
        (∀ e r, j.plan = .stage e :: rest → s.cat.fareOf j e = some r →
          exec .quietTimeMet s = .next (sent s (.segment i last r.segments[i]?))) ∧
        (∀ m, j.plan = .full :: rest → s.mark d = some m →
          let payload := packedPayload (packedAt s.table.entries m.edition m.cur)
          exec .quietTimeMet s = .next
            (sent (s.setMark d (some { m with cur := m.cur.onward s.table.entries m.edition })) (.segment i last (some payload))))) ∧
      ((s.drop d).stopping = true ∨ x.detached = true →
        ∃ t, exec .quietTimeMet s = .next t ∧ ExchangeEnded d s t ∧
          ExchangeEnds x d .unacknowledged ((s.setTimebase T).setTrunk { s.trunk with ex := none }) t ∧ t.timebase = T ∧
          t.trunk.bare = s.trunk.bare ∧ t.taps.bare = s.taps.bare ∧
          (t.drop d).bare =
            (if (s.drop d).stopping then { s.drop d with stopping := false, presence := .disabled, run := 0 }
            else s.drop d).bare)

/-- A collision, which COLLISION counts and no block hears of, and the end of a wait interval put the frame back to QUIET
unchanged, its WAIT count kept; the start delimiter of an awaited answer begins its reception; any character, in every stage (log
52), moves the time from which the quiet time is counted (R123, R124, R125, R126, R128). The end of a wait interval takes the
timebase to its due time at least (the model's choice, log 2). -/
def Obligations.LineEventsMoveTheStage : Prop :=
  (∀ (x : Exchange) (s : State), s.trunk.ex = some x →
    (x.stage = .sending →
      exec .collision s = .next
        (s.setTrunk
          { s.trunk with
            collision := min 65535 (s.trunk.collision + 1), lineFrom := s.timebase
            ex := some { x with stage := .quiet, since := s.timebase } })) ∧
    (x.stage = .pause →
      exec .waitInterval s = .next
        ((s.setTimebase (max s.timebase (x.since + x.set.waitInterval * 1000))).setTrunk
          { s.trunk with
            ex := some { x with stage := .quiet, since := max s.timebase (x.since + x.set.waitInterval * 1000) } }))) ∧
  ∀ s : State,
    (∀ x, s.trunk.ex = some x → x.stage = .awaiting →
      exec .answerStart s = .next
        (s.setTrunk
          { s.trunk with lineFrom := s.timebase, ex := some { x with stage := .receiving, since := s.timebase } })) ∧
    exec .characterReceived s = .next (s.setTrunk { s.trunk with lineFrom := s.timebase })

/-- A frame to a drop has gone out: the answer is awaited, or the burst's next SEGMENT waits for its quiet time, or a burst that is
to be stopped ends unacknowledged (R123, R124, R129, R133, R140). The timebase stands at the frame's end at least (the model's
choice, log 2). -/
def Obligations.SentFrameAwaitsOrContinues : Prop :=
  ∀ (x : Exchange) (d : DropId) (s : State), s.trunk.ex = some x → x.stage = .sending → x.drop = some d →
    let T := max s.timebase (x.since + 10 * (1000 / x.set.rate) * (trunkBytes x.drop x.frame).length)
    ((∀ i p, x.frame ≠ .segment i false p) →
      exec .trunkFrameSent s = .next
        ((s.setTimebase T).setTrunk
          { s.trunk with lineFrom := T, ex := some { x with stage := .awaiting, since := T } })) ∧
    ∀ i p, x.frame = .segment i false p →
      ((s.drop d).stopping = false → x.detached = false →
        exec .trunkFrameSent s = .next
          ((s.setTimebase T).setTrunk
            { s.trunk with
              lineFrom := T
              ex :=
                some
                  { x with
                    frame := .segment (i + 1) (i + 2 == x.burstEnd) none, stage := .quiet, waits := 0, since := T } })) ∧
      ((s.drop d).stopping = true ∨ x.detached = true →
        ∃ t, exec .trunkFrameSent s = .next t ∧ ExchangeEnded d s t ∧
          ExchangeEnds x d .unacknowledged ((s.setTimebase T).setTrunk { s.trunk with ex := none, lineFrom := T }) t ∧
          t.timebase = T ∧ t.trunk.bare = { s.trunk with lineFrom := T }.bare ∧ t.taps.bare = s.taps.bare ∧
          (t.drop d).bare =
            (if (s.drop d).stopping then { s.drop d with stopping := false, presence := .disabled, run := 0 }
            else s.drop d).bare)

/-- The broadcast of p has gone out whole: BROADCASTS rises, p, the record that the activation hold names (log 45), is promoted
from P or from the withdrawn list, the old A is withdrawn while it is read (R45), CHANGEOVER_DONE or CHANGEOVER_FORCED is raised
with p, and the due test is made for a P that remains (R46, R137, R145, R152): DUE is entered with its hold deadline and its
readiness judged (R146 to R149). The FAILED FARE jobs go and every FARE pair is planned for the new A, the BLOCK jobs standing (R104,
R117), and then the arbiter decides. The timebase stands at the frame's end at least (the model's choice, log 2). -/
def Obligations.BroadcastSentPromotes : Prop :=
  ∀ (x : Exchange) (p : Nat) (s : State), s.trunk.ex = some x → x.stage = .sending → x.drop = none →
    x.frame = .activate p →
    let T := max s.timebase (x.since + 10 * (1000 / x.set.rate) * (trunkBytes x.drop x.frame).length)
    let old := s.cat.active.toList.filter (fun a => readersOf s.planner.jobs .fare a.ref != 0)
    ∃ t, exec .trunkFrameSent s = .next t ∧ t.timebase = T ∧ t.pending = s.pending ∧ t.clock = s.clock ∧
      t.settings = s.settings ∧ t.intakes = s.intakes ∧ t.port.core = s.port.core ∧ t.table.bare = s.table.bare ∧
      t.taps.bare = s.taps.bare ∧ (∀ d, (t.drop d).bare = (s.drop d).bare) ∧
      t.trunk.bare = { s.trunk with lineFrom := T, broadcasts := min 65535 (s.trunk.broadcasts + 1) }.bare ∧
      t.cat.h = s.cat.h ∧ t.cat.b = s.cat.b ∧ t.cat.chain = s.cat.chain ∧
      (let planned (c : Catalogue) : Prop :=
          ∃ u : State, u.trunk.ex = none ∧ t = u.conclude ∧
            let w := ((s.setTrunk { s.trunk with ex := none }).setCat c).setJobs (unfailed .fare s.planner.jobs)
            ∀ d, u.job? d .fare = (w.planPair d .fare).job? d .fare ∧ u.job? d .block = s.job? d .block
       (∀ r, s.cat.pendingFare = some r → r.edition = p → (∀ i, s.cat.hold = some i → i = r.ref) →
        t.cat.active = some r ∧ t.cat.pendingFare = none ∧ t.cat.hold = none ∧
          RecordsFreed s.cat.retired (s.cat.withdrawn ++ old) t ∧
          planned { s.cat with active := some r, pendingFare := none, hold := none, withdrawn := s.cat.withdrawn ++ old } ∧
          t.change = { state := .idle, hold := .absent, door := none, requested := none, forced := false } ∧
          t.port.flags.changeoverHeld = s.port.flags.changeoverHeld) ∧
       ∀ q r i, s.cat.pendingFare = some q → s.cat.hold = some i → q.ref ≠ i →
        s.cat.withdrawn.find? (fun r => r.edition == p && r.ref == i) = some r →
        let withdrawn := s.cat.withdrawn.filter (fun x => x.ref != i) ++ old
        t.cat.active = some r ∧ t.cat.pendingFare = some q ∧ RecordsFreed s.cat.retired withdrawn t ∧
          planned { s.cat with active := some r, hold := t.cat.hold, withdrawn } ∧
          if q.minute = 0 ∨ (s.clock.valid = true ∧ q.minute ≤ s.clock.minute) then
            DueEntered q s.port.flags.changeoverHeld t
          else
            t.change = { state := .staging, hold := .absent, door := none, requested := none, forced := false } ∧
              t.port.flags.changeoverHeld = s.port.flags.changeoverHeld) ∧
      (let f : Flag := if s.change.forced then .changeoverForced else .changeoverDone
       t.port.flags.get f =
        some ((s.port.flags.get f).getD { edition := p, code := none, drop := none, minute := s.stamp }))

/-- A miss, by the reply timeout, by an answer cut short or too long, or by an answer that fails its judgement: the exchange is
over, the trunk's and the drop's counters rise, a push's cause goes to its job, and the presence moves by R79, or the drop becomes
DISABLED when it was stopping (R79, R82, R87, R88, R114, R126, R127, R129). A drop that is lost raises DROP_LOST, and its jobs, its
read mark and its three marks go (R82). The reply timeout takes the timebase to its due time at least, and an answer cut short to
the moment at which the line has been idle for the quiet time, so that the next frame waits no second quiet time for it (R124; the
model's choice, log 2, log 52). -/
def Obligations.MissEndsTheExchange : Prop :=
  ∀ (x : Exchange) (d : DropId) (s : State), s.trunk.ex = some x → x.drop = some d →
    let missed (t : State) (garbled : Bool) (T : Nat) (k : Trunk) : Prop :=
      ExchangeEnded d s t ∧
        ExchangeEnds x d (.missed (if garbled then .garbled else .noAnswer))
          (((s.setTimebase T).setTrunk { k with ex := none }).setDrop d ((s.drop d).missed garbled)) t ∧
        (t.drop d).bare = (afterMiss garbled (s.drop d)).bare ∧ t.timebase = T ∧
        t.taps.bare = s.taps.bare ∧ t.roster.lastTap = s.roster.lastTap ∧ t.trunk.bare = k.bare ∧
        ((s.drop d).stopping = false → (s.drop d).presence = .joining ∨ ((s.drop d).presence = .fading ∧ 3 ≤ (s.drop d).run) →
          t.port.flags.dropLost =
              some (s.port.flags.dropLost.getD { edition := 0, code := none, drop := some d, minute := s.stamp }) ∧
            (∀ j ∈ t.planner.jobs, j.drop ≠ d) ∧ t.mark d = none ∧ (t.drop d).fareAhead = false ∧
            (t.drop d).blockNofit = false ∧ (t.drop d).tapUrgent = false)
    (x.stage = .awaiting →
      ∃ t, exec .replyTimeout s = .next t ∧
        missed t false (max s.timebase (x.since + x.set.replyTimeout))
          { s.trunk with noAnswer := min 65535 (s.trunk.noAnswer + 1) }) ∧
    (x.stage = .receiving →
      (let quiet := x.set.quiet * (1000 / x.set.rate)
       let T := max s.timebase (s.trunk.lineFrom + quiet)
       ∃ t, exec .answerIncomplete s = .next t ∧
        missed t true T { s.trunk with garble := min 65535 (s.trunk.garble + 1), lineFrom := T - quiet }) ∧
      (∃ t, exec .answerLengthTooLarge s = .next t ∧
        missed t true s.timebase
          { s.trunk with garble := min 65535 (s.trunk.garble + 1), lineFrom := s.timebase }) ∧
      ∀ bytes, judgeAnswer x.drop x.frame bytes = none →
        ∃ t, exec (.answerComplete bytes) s = .next t ∧
          missed t true s.timebase
            { s.trunk with garble := min 65535 (s.trunk.garble + 1), lineFrom := s.timebase })

/-- An answer is judged garbled exactly as R127 and R192 list: its length, check, address, kind, and for a STATUS its record count
against the POLL's allowance. A good answer gives the values that stand at its fields' offsets, and the hub's own frames are written
from the same table (R121, R122, R189, R192; 11, section 11.3). The check is that of R121. -/
def Obligations.AnswerIsGarbledByTheListedTests : Prop :=
  (∀ bytes : List Byte,
    trunkCheck bytes =
      (bytes.flatMap (fun b => [7, 6, 5, 4, 3, 2, 1, 0].map b.getLsbD)).foldl
        (fun (r : BitVec 16) bit => if r.getLsbD 15 = bit then r <<< 1 else (r <<< 1) ^^^ 0x1021) 0xFFFF) ∧
  (∀ drop : Option DropId,
    let sent (f : TrunkFrame) (kind : Byte) (payload : List Byte) : Prop :=
      let covered := leBytes 1 (dropNumber drop) ++ kind :: leBytes 1 payload.length ++ payload
      trunkBytes drop f = 0xA5 :: covered ++ (leBytes 2 (trunkCheck covered).toNat).reverse
    (∀ a, sent (.poll a) 0x10 (leBytes 1 a)) ∧
    (∀ k e f n base urgent restart,
      sent (.openF k e f n base urgent restart) 0x11
        ([if k = .fare then 1 else 2, if f = .full then 1 else 2] ++ leBytes 2 e ++ leBytes 2 n ++ leBytes 2 base ++
          leBytes 1 (bitOf urgent + 2 * bitOf restart))) ∧
    (∀ i last q, sent (.segment i last (some q)) 0x12 (leBytes 2 i ++ leBytes 1 (bitOf last) ++ q)) ∧
    (∀ x : BitVec 32, sent (.close x) 0x13 (leBytes 4 x.toNat)) ∧ ∀ e, sent (.activate e) 0x14 (leBytes 2 e)) ∧
  ∀ (d : DropId) (f : TrunkFrame) (addr kind len : Byte) (payload check : List Byte),
    (payload.length ≠ len.toNat ∨ check ≠ checkBytes (trunkCheck (addr :: kind :: len :: payload)) ∨ addr.toNat ≠ d.val + 1 →
      check.length = 2 → judgeAnswer (some d) f (addr :: kind :: len :: payload ++ check) = none) ∧
    (payload.length = len.toNat → check = checkBytes (trunkCheck (addr :: kind :: len :: payload)) → addr.toNat = d.val + 1 →
      ((judgeAnswer (some d) f (addr :: kind :: len :: payload ++ check)).isSome = true ↔
        (kind = 0x22 ∧ payload.length = 0) ∨ (kind = 0x23 ∧ payload.length = 1) ∨
          match f with
          | .poll allowance =>
            kind = 0x20 ∧ 9 ≤ payload.length ∧ payload.length = 9 + 24 * (payload.getD 8 0).toNat ∧
              (payload.getD 8 0).toNat ≤ allowance
          | .segment _ _ _ => kind = 0x21 ∧ payload.length = 4
          | .openF _ _ _ _ _ _ _ | .close _ | .activate _ => kind = 0x21 ∧ payload.length = 2) ∧
      let number (off width : Nat) : Nat := numberAt payload off width
      let gives (r : Reply) : Prop := judgeAnswer (some d) f (addr :: kind :: len :: payload ++ check) = some r
      (kind = 0x22 → payload.length = 0 → gives .wait) ∧
      (kind = 0x23 → payload.length = 1 →
        gives (.nak
          (match number 0 1 with | 1 => .noRoom | 2 => .badSequence | 3 => .digest | 4 => .notStaged | _ => .refused))) ∧
      (∀ i last q, f = .segment i last q → kind = 0x21 → payload.length = 4 →
        gives (.ack (number 0 2) (some (number 2 2)))) ∧
      ((∃ k e form n base urgent restart, f = .openF k e form n base urgent restart) ∨ (∃ x, f = .close x) ∨
          (∃ e, f = .activate e) →
        kind = 0x21 → payload.length = 2 → gives (.ack (number 0 2) none)) ∧
      ∀ allowance, f = .poll allowance → kind = 0x20 → 9 ≤ payload.length → payload.length = 9 + 24 * number 8 1 →
        number 8 1 ≤ allowance →
        gives (.status { active := number 0 2, staged := number 2 2, block := number 4 2 } (number 6 2)
          ((List.range (number 8 1)).map (fun i =>
            let at_ (off width : Nat) : Nat := number (9 + 24 * i + off) width
            { seq := .ofNat 16 (at_ 0 2), card := .ofNat 64 (at_ 2 8), product := .ofNat 16 (at_ 10 2)
              fare := .ofNat 16 (at_ 12 2), fareUsed := .ofNat 16 (at_ 14 2), blockUsed := .ofNat 16 (at_ 16 2)
              decision := .ofNat 8 (at_ 18 1), byte19 := .ofNat 8 (at_ 19 1), minute := .ofNat 32 (at_ 20 4) }))))

/-- A WAIT: a good answer; within the limit the frame pauses, beyond it the exchange is over, WAIT_LIMIT rises and a push's job
gets the cause, and a stopping drop's exchange is over at once (R79, R87, R88, R114, R128, R129, R140). A drop that the answer takes
from JOINING to PRESENT raises DROP_JOINED and has both its pairs planned (R80, R104). That the burst-end frame of a burst whose mark
has been released pauses too is log 38. -/
def Obligations.WaitPausesOrEndsTheExchange : Prop :=
  ∀ (x : Exchange) (d : DropId) (bytes : List Byte) (s : State), s.trunk.ex = some x → x.stage = .receiving →
    x.drop = some d → judgeAnswer x.drop x.frame bytes = some .wait →
    ∃ t, exec (.answerComplete bytes) s = .next t ∧ ExchangeEnded d s t ∧
      (t.drop d).bare = (afterGood (s.drop d)).bare ∧ t.timebase = s.timebase ∧ t.taps.bare = s.taps.bare ∧
      t.roster.lastTap = s.roster.lastTap ∧ ReadinessJudged s t ∧ RecordsFreed s.cat.retired s.cat.withdrawn t ∧
      ((s.drop d).stopping = false → x.waits + 1 ≤ x.set.waitLimit →
        t.trunk.ex = some { x with waits := x.waits + 1, stage := .pause, since := s.timebase } ∧
        t.trunk.bare = { s.trunk with lineFrom := s.timebase }.bare ∧
        ((s.drop d).presence ≠ .joining → t.planner.jobs = s.planner.jobs) ∧
        ((s.drop d).presence = .joining →
          t.port.flags.dropJoined =
              some (s.port.flags.dropJoined.getD { edition := 0, code := none, drop := some d, minute := s.stamp }) ∧
            ∀ k, t.job? d k = (((s.setTrunk t.trunk).setDrop d (afterGood (s.drop d))).planPair d k).job? d k)) ∧
      ((s.drop d).stopping = false → x.set.waitLimit < x.waits + 1 →
        ExchangeEnds x d (.missed .waitLimit)
          ((s.setTrunk
            { s.trunk with
              ex := none, lineFrom := s.timebase, waitLimit := min 65535 (s.trunk.waitLimit + 1) }).setDrop d
                (s.drop d).counted) t ∧
        t.trunk.bare = { s.trunk with lineFrom := s.timebase, waitLimit := min 65535 (s.trunk.waitLimit + 1) }.bare) ∧
      ((s.drop d).stopping = true →
        ExchangeEnds x d .unacknowledged
          ((s.setTrunk { s.trunk with ex := none, lineFrom := s.timebase }).setDrop d (s.drop d).counted) t ∧
        t.trunk.bare = { s.trunk with lineFrom := s.timebase }.bare)

/-- A STATUS: the exchange is over; holdings, known mark, taps held, last tap drop and TAPS_IN are taken, the presence moves, and
the tap records join the queue in their order, each with the hub's five fields and its verdict counted (R79, R83, R87, R130, R160,
R165, R166). Both pairs of the drop are planned when its holdings are new or it has joined (R80, R83, R104), a LATE_LISTED tap acts
on its BLOCK job (R106), and a drop that was stopping has no job any more (R88, R129). -/
def Obligations.StatusGivesHoldingsAndTaps : Prop :=
  ∀ (x : Exchange) (d : DropId) (bytes : List Byte) (h : Holdings) (held : Nat) (taps : List Tap) (s : State),
    s.trunk.ex = some x → x.stage = .receiving → x.drop = some d →
    judgeAnswer x.drop x.frame bytes = some (.status h held taps) →
    let c := (s.drop d).counters
    let s' :=
      (s.setTrunk { s.trunk with ex := none }).setDrop d
        (afterGood
          { s.drop d with
            holdings := h, known := true, tapsHeld := held
            counters := if taps = [] then c else { c with tapsIn := min 65535 (c.tapsIn + taps.length) } })
    ∃ t, exec (.answerComplete bytes) s = .next t ∧ ExchangeEnded d s t ∧ t.timebase = s.timebase ∧
      t.trunk.bare = { s.trunk with lineFrom := s.timebase }.bare ∧
      t.roster.lastTap = (if taps = [] then s.roster.lastTap else some d) ∧
      (t.drop d).bare = (s'.drop d).bare ∧
      t.taps.queue = s.taps.queue ++ taps.map (s.screened d) ∧
      t.taps.bare =
        (taps.foldl (fun q r => ({ q with queue := q.queue ++ [s.screened d r] } : Taps).count (s.screened d r).verdict)
          s.taps).bare ∧
      ExchangeOver t ∧ ReadinessJudged s' t ∧ RecordsFreed s.cat.retired s.cat.withdrawn t ∧
      ((s.drop d).stopping = true → ∀ j ∈ t.planner.jobs, j.drop ≠ d) ∧
      (x.kind = .roundPoll ∨ x.kind = .urgentPoll → (s.drop d).stopping = false →
        ∃ u : State, u.trunk.ex = none ∧ t = u.conclude ∧
          (∀ e k, e ≠ d → u.job? e k = s.job? e k) ∧
          let fresh : Prop := (s.drop d).known = false ∨ (s.drop d).holdings ≠ h ∨ (s.drop d).presence = .joining
          let late : Prop := ∃ r ∈ taps, (s.screened d r).verdict = .lateListed
          ∀ k, k = .fare ∨ ¬late →
            (fresh → u.job? d k = (s'.planPair d k).job? d k) ∧ (¬fresh → u.job? d k = s.job? d k))

/-- A NAK to any frame, and an ACK to an OPEN, a CLOSE or an ACTIVATE: the exchange is over by a good answer, a push's job gets the
answer, and the holding that the ACK of a CLOSE or an ACTIVATE reports is written first, with the known mark (R79, R84, R87, R88,
R113, R129, R130). A drop that the answer takes from JOINING to PRESENT raises DROP_JOINED and has both its pairs planned (R80,
R104). -/
def Obligations.AckWritesTheReportedHolding : Prop :=
  ∀ (x : Exchange) (d : DropId) (bytes : List Byte) (s : State), s.trunk.ex = some x → x.stage = .receiving →
    x.drop = some d →
    let ended (o : PushOutcome) (r : Drop) : Prop :=
      ∃ t, exec (.answerComplete bytes) s = .next t ∧ ExchangeEnded d s t ∧
        ExchangeEnds x d o ((s.setTrunk { s.trunk with ex := none, lineFrom := s.timebase }).setDrop d r.counted) t ∧
        (t.drop d).bare = (afterGood r).bare ∧
        t.timebase = s.timebase ∧ t.taps.bare = s.taps.bare ∧ t.roster.lastTap = s.roster.lastTap ∧
        t.trunk.bare = { s.trunk with lineFrom := s.timebase }.bare
    (∀ why, judgeAnswer x.drop x.frame bytes = some (.nak why) → ended (.nak why) (s.drop d)) ∧
    ∀ k v w, x.kind = .push k → judgeAnswer x.drop x.frame bytes = some (.ack v w) →
      (∀ k' e f n base u r, x.frame = .openF k' e f n base u r → ended (.ack v) (s.drop d)) ∧
      (∀ g, x.frame = .close g → k = .block →
        ended (.ack v) { s.drop d with holdings := { (s.drop d).holdings with block := v }, known := true }) ∧
      (∀ g, x.frame = .close g → k = .fare →
        ended (.ack v) { s.drop d with holdings := { (s.drop d).holdings with staged := v }, known := true }) ∧
      (∀ e, x.frame = .activate e →
        ended (.ack v) { s.drop d with holdings := { (s.drop d).holdings with active := v }, known := true })

/-- A burst ACK: a go-back within the burst that advances past the last resend keeps the exchange and sends again from n; with every
other value the exchange is over, and its job gets the ACK through the burst's end, BAD_SEQUENCE, the index below the burst start, or
nothing where the drop is stopping or the step has ended; four or more taps waiting set the tap-urgent mark first (R79, R86, R112,
R129, R133, R134, R140). At a go-back the snapshot cursor of a FULL step returns to the burst start and produces again the segments
before n (R74). -/
def Obligations.BurstAckGoesBackOrEnds : Prop :=
  ∀ (x : Exchange) (d : DropId) (k : Kind) (bytes : List Byte) (i n w : Nat) (last : Bool) (q : Option Segment) (s : State),
    s.trunk.ex = some x → x.stage = .receiving → x.drop = some d → x.kind = .push k → x.frame = .segment i last q →
    judgeAnswer x.drop x.frame bytes = some (.ack n (some w)) →
    ∃ t, exec (.answerComplete bytes) s = .next t ∧ ExchangeEnded d s t ∧ (t.drop d).bare = (afterGood (s.drop d)).bare ∧
      t.timebase = s.timebase ∧ t.taps.bare = s.taps.bare ∧ t.roster.lastTap = s.roster.lastTap ∧ ReadinessJudged s t ∧
      RecordsFreed s.cat.retired s.cat.withdrawn t ∧
      if (x.burstStart ≤ n ∧ n < x.burstEnd ∧ ∀ l, x.lastResend = some l → l < n) ∧
          (s.drop d).stopping = false ∧ x.detached = false then
        t.trunk.bare = { s.trunk with lineFrom := s.timebase, goBack := min 65535 (s.trunk.goBack + 1) }.bare ∧
          (4 ≤ w → (t.drop d).tapUrgent = true) ∧
          (∀ j m, k = .block → s.job? d .block = some j → s.mark d = some m →
            t.mark d =
              if j.isFull then
                some { m with cur := Nat.iterate (Point.onward s.table.entries m.edition) (n - x.burstStart) m.burst }
              else some m) ∧
          t.trunk.ex =
            some
              { x with
                waits := 0, lastResend := some n, frame := .segment n (n + 1 == x.burstEnd) none, stage := .quiet
                since := s.timebase }
      else
        let o : PushOutcome :=
          if n = x.burstEnd then .ack n
          else if x.burstEnd < n then .badSequence
          else if n < x.burstStart then .goBack n
          else if x.lastResend.any (fun l => n ≤ l) then .badSequence
          else .unacknowledged
        ExchangeEnds x d o
          ((s.setTrunk { s.trunk with ex := none, lineFrom := s.timebase }).setDrop d
            { (s.drop d).counted with tapUrgent := decide (4 ≤ w) || (s.drop d).tapUrgent }) t ∧
          t.trunk.bare = { s.trunk with lineFrom := s.timebase }.bare

/-- The ends of the empty-round pause and of the poll period make the arbiter decide; with nothing else to do a round starts (R91,
R138, R139). The timebase stands at the due time at least (log 2). -/
def Obligations.RoundTimersWakeTheArbiter : Prop :=
  ∀ s : State,
    let idle := s.trunk.ex = none ∧ s.trunk.request = none ∧ s.nextUrgent = none ∧ s.trunk.round = none
    (∀ e, s.trunk.emptyPause = some e →
      ∃ t, exec .emptyRoundPauseEnd s = .next t ∧ Decided (s.setTimebase (max s.timebase e)) t ∧
        (s.trunk.ex.isSome = true → t.trunk.emptyPause = none) ∧
        (idle → s.roster.pollMode = .continuous → s.candidates = [] → t.trunk.rounds = min 65535 (s.trunk.rounds + 1))) ∧
    (∀ r, s.roster.pollMode = .periodic → s.roster.lastRound = some r →
      ∃ t, exec .pollPeriod s = .next t ∧
        Decided (s.setTimebase (max s.timebase (r + s.settings.period * 1000000))) t ∧
        (idle → t.trunk.rounds = min 65535 (s.trunk.rounds + 1)))

/-- The arbiter's order at a decision (R131, R137, R138, R139): a waiting broadcast, an urgent poll, by the rotation after the last
urgently polled drop (R131), the round in progress, a round that is due (R91, R139) with its list in its order (R92, R93), and then
the next exchange of the first candidate by its phase (R109, R111 to R113). A FULL step whose S has outgrown the window gives its
mark up, is planned again, and the next candidate is taken (R110, R111). With no candidate, in CONTINUOUS mode, a round starts; a
round with no turn ends in the event, and an empty one starts the empty-round pause (R139), whose end is fixed then (the model's
choice, log 49). The trunk stays idle in PERIODIC mode and while that pause runs. A POLL formed with an allowance of 0 raises
ZERO_ALLOWANCE and TAPQ_FULL (R167). -/
def Obligations.ArbiterDecidesInOrder : Prop :=
  (∀ s : State,
    let pace := match s.port.mode with | .service => s.settings.paceService | .depot => s.settings.paceDepot
    let off (d : DropId) : Prop := (s.drop d).presence = .disabled ∨ (s.drop d).stopping = true
    let place (d : DropId) : Nat :=
      match s.settings.parking, s.roster.lastTap with | .mru, some l => (d.val + 8 - l.val) % 8 | _, _ => d.val
    let turn (d : DropId) : Nat := match s.trunk.lastUrgent with | some l => (d.val + 7 - l.val) % 8 | none => d.val
    (s.roundDue = true ↔ s.roster.lastRound = none ∨ ∃ r, s.roster.lastRound = some r ∧
      ((s.roster.pollMode = .continuous ∧ pace ≤ s.trunk.pushCount) ∨
        (s.roster.pollMode = .periodic ∧ r + s.settings.period * 1000000 ≤ s.timebase))) ∧
    (∀ d, d ∈ s.roundList ↔ ¬off d ∧ ((s.drop d).presence ≠ .absent ∨ s.roster.probe = 0)) ∧
    s.roundList.Pairwise (fun a b => place a < place b) ∧
    (∀ d, s.passedOver d = true ↔ off d) ∧
    ∀ d, s.nextUrgent = some d ↔
      (s.drop d).tapUrgent = true ∧ ¬off d ∧ ∀ e, (s.drop e).tapUrgent = true → ¬off e → turn d ≤ turn e) ∧
  ∀ s : State, s.trunk.ex = none →
    let t := s.arbitrate
    let formed (kind : ExKind) (drop : Option DropId) (f : TrunkFrame) : Prop :=
      t.trunk.ex =
        some
          { kind, drop, frame := f, stage := .quiet, waits := 0, burstStart := 0, burstEnd := 0, lastResend := none
            set := s.settings.trunk, detached := false, since := s.timebase }
    let allowance := min 8 (256 - s.taps.queue.length)
    let ended : State := (s.setTrunk { s.trunk with round := none }).setRoster { s.roster with pollMode := s.settings.pollMode }
    let polled (kind : ExKind) (d : DropId) : Prop :=
      formed kind (some d) (.poll allowance) ∧
        if allowance = 0 then
          t.taps = { s.taps with zeroAllowance := min 65535 (s.taps.zeroAllowance + 1) } ∧
            t.port =
              s.port.raise s.settings.enables .tapqFull { edition := 0, code := none, drop := none, minute := s.stamp }
        else t.taps = s.taps ∧ t.port = s.port
    let started (d : DropId) (rest : List DropId) : Prop :=
      polled .roundPoll d ∧ t.trunk.round = some rest ∧ t.trunk.pushCount = 0 ∧
        t.trunk.rounds = min 65535 (s.trunk.rounds + 1) ∧ t.roster.probe = (s.roster.probe + 1) % s.settings.divisor ∧
          t.roster.lastRound = some s.timebase
    let empty : State :=
      (s.setTrunk
        { s.trunk with
          round := none, pushCount := 0, rounds := min 65535 (s.trunk.rounds + 1)
          emptyPause :=
            if s.settings.pollMode = .continuous then some (s.timebase + s.settings.trunk.replyTimeout)
            else s.trunk.emptyPause }).setRoster
        { s.roster with
          pollMode := s.settings.pollMode, probe := (s.roster.probe + 1) % s.settings.divisor, lastRound := some s.timebase }
    (∀ p, s.trunk.request = some p → formed .broadcast none (.activate p) ∧ t.trunk.request = none) ∧
    (s.trunk.request = none → ∀ d, s.nextUrgent = some d →
      polled .urgentPoll d ∧ t.trunk.lastUrgent = some d ∧ (t.drop d).tapUrgent = false) ∧
    (s.trunk.request = none → s.nextUrgent = none →
      (∀ l d rest, s.trunk.round = some l → l.dropWhile s.passedOver = d :: rest →
        polled .roundPoll d ∧ t.trunk.round = some rest) ∧
      (∀ l, s.trunk.round = some l → l.dropWhile s.passedOver = [] → t = ended.arbitrate) ∧
      (s.trunk.round = none → s.roundDue = true →
        (∀ d rest, s.roundList = d :: rest → started d rest) ∧
        (s.roundList = [] → SettingsFit s.settings → t = empty.arbitrate))) ∧
    (s.trunk.request = none → s.nextUrgent = none → s.trunk.round = none → s.roundDue = false →
      (s.candidates = [] →
        (s.roster.pollMode = .periodic ∨ s.trunk.emptyPause.isSome = true → t = s) ∧
        (s.roster.pollMode = .continuous → s.trunk.emptyPause = none →
          (∀ d rest, s.roundList = d :: rest → started d rest) ∧ (s.roundList = [] → t = empty))) ∧
      ∀ j rest, s.candidates = j :: rest → s.job? j.drop j.kind = some j →
        PushFormed j s t ∧
        (∀ q, j.kind = .block → j.phase = .open_ → j.plan = .full :: q →
          (s.classOf j.drop).blockSize < max 1 ((s.table.live + 19) / 20) →
          ∃ u, Decided s u ∧ u.trunk = s.trunk ∧ u.mark j.drop = none ∧
            u.job? j.drop .block = ((s.putJob { j with underWay := false }).planPair j.drop .block).job? j.drop .block ∧
            (rest = [] → s.roster.pollMode = .periodic ∨ s.trunk.emptyPause.isSome = true → t = u) ∧
            ∀ i others, rest = i :: others → i.drop ≠ j.drop ∨ i.kind ≠ j.kind → s.job? i.drop i.kind = some i →
              PushFormed i u t))

/-- The candidates are the jobs that may push (R109), and the choice among them takes the highest level, then the ACTIVE job, then
BLOCK before FARE, then the rotation after the last-served drop: its successor comes first, itself last, and with none drop 1
first. -/
def Obligations.ChoiceFollowsLevelThenActiveThenKind : Prop :=
  (∀ d : DropId, turnsAfter none d = d.val ∧ ∀ l, turnsAfter (some l) d = (d.val + 7 - l.val) % 8) ∧
  (∀ l : DropId, turnsAfter (some l) (l + 1) = 0 ∧ turnsAfter (some l) l = 7 ∧
    ∀ d, d ≠ l → turnsAfter (some l) (d + 1) = turnsAfter (some l) d + 1) ∧
  (∀ (s : State) (j : Job),
    (s.candidate j = true ↔
      (j.state = .ready ∨ j.state = .active ∨ j.state = .paused) ∧ (s.drop j.drop).presence = .present ∧
        (s.drop j.drop).stopping = false ∧
        ¬(j.phase = .open_ ∧ j.plan.head? = some .full ∧
          (s.table.state = .empty ∨ ∃ e n, s.table.state = .rebuilding e n))) ∧
    (j ∈ s.candidates ↔ j ∈ s.planner.jobs ∧ s.candidate j = true)) ∧
  ∀ (s : State) (j : Job) (rest : List Job), (∀ i ∈ s.planner.jobs, i.level ≤ 3) → s.candidates = j :: rest →
    j ∈ s.planner.jobs ∧ s.candidate j = true ∧
    ∀ i ∈ s.planner.jobs, s.candidate i = true →
      i.level ≤ j.level ∧
      (i.level = j.level →
        (i.state = .active → j.state = .active) ∧
        ((i.state = .active ↔ j.state = .active) →
          (i.kind = .block → j.kind = .block) ∧
          (i.kind = j.kind → turnsAfter s.planner.lastServed j.drop ≤ turnsAfter s.planner.lastServed i.drop)))

/-! ### Planner -/

/-- What the outcome of a push exchange makes of its job (R111 to R115): the table of outcomes and phases. A retry below the limit
counts and moves the job, one at the limit fails it where it stands (log 33). A NAK REFUSED, and what is taken as one, resumes a
burst at its start, as a miss does (the model's inference, log 22). The end of a step takes it out of the plan, and the next one
starts. A NOT_STAGED to an ACTIVATE puts STAGE before it, settled by the fit test on the answer (log 14). The read mark of a FULL
step keeps its snapshot cursor's acknowledged point at a burst ACK, returns to the burst start where the burst is sent again, and
starts at index 0 where the push restarts (R74). A failure raises JOB_FAILED with the drop, counts JOB_FAIL, and is written to the
error log when that is empty (R115, R116); so does the NOFIT of that STAGE, in which the plan's first edition, FULL and index 0 are
logged (R102, R116). A retry below the limit does none of these. -/
def Obligations.PushOutcomeMovesTheJob : Prop :=
  ∀ (j : Job) (s : State), s.job? j.drop j.kind = some j →
    let after (o : PushOutcome) : Option Job := (s.takeOutcome j o).job? j.drop j.kind
    let n := s.stepSegments j
    let edition : Nat :=
      match j.plan with
      | .delta e :: _ => e
      | .full :: _ => (match s.mark j.drop with | some m => m.edition | none => 0)
      | .stage x :: _ | .activate x :: _ => x
      | [] => 0
    let form : LogForm :=
      match j.plan with | .delta _ :: _ => .delta | .activate _ :: _ => .activate | .full :: _ | .stage _ :: _ | [] => .full
    let reported (o : PushOutcome) (edition : Nat) (form : LogForm) (index : Nat) (reason : Cause) : Prop :=
      (s.takeOutcome j o).port =
          s.port.raise s.settings.enables .jobFailed { edition := 0, code := none, drop := some j.drop, minute := s.stamp } ∧
        (s.takeOutcome j o).planner.log =
          some (s.planner.log.getD { drop := j.drop, kind := j.kind, edition, form, index, reason, minute := s.stamp }) ∧
        (s.takeOutcome j o).planner.jobFail = min 65535 (s.planner.jobFail + 1)
    let calm (o : PushOutcome) : Prop :=
      (s.takeOutcome j o).port = s.port ∧ (s.takeOutcome j o).planner.log = s.planner.log ∧
        (s.takeOutcome j o).planner.jobFail = s.planner.jobFail
    let retried (c : Cause) (o : PushOutcome) (moved : Job → Job) (rest : Prop) : Prop :=
      let counted := { j with retry := min 255 (j.retry + 1), lastCause := some c }
      (counted.retry < s.settings.retryLimit → after o = some (moved counted) ∧ rest) ∧
      (s.settings.retryLimit ≤ counted.retry →
        after o = some { counted with state := .failed, underWay := false } ∧ reported o edition form j.next c) ∧
      (s.takeOutcome j o).planner.retries = min 65535 (s.planner.retries + 1)
    let again (c : Cause) (o : PushOutcome) (moved : Job → Job) : Prop := retried c o moved (calm o)
    let back (i : Job) : Job := { i with next := if j.phase = .segments then j.burstStart else j.next }
    let fresh (i : Job) (plan : List Step) : Job :=
      s.marked { i with plan, underWay := false, phase := firstPhase plan, next := 0, burstStart := 0 }
    let planned (i : Job) : Option Job :=
      (((s.putJob i).leaveMark j.drop j.kind).planPair j.drop j.kind).job? j.drop j.kind
    let clean : Job := { j with retry := 0, lastCause := none }
    (j.phase = .open_ → j.isFull = true → ∀ k, after (.ack k) = some { j with next := 0, phase := .segments }) ∧
    (j.phase = .open_ → j.isFull = false → ∀ k,
      (k < n → after (.ack k) = some { j with next := k, phase := .segments }) ∧
      (k = n → after (.ack k) = some { j with next := k, phase := .close }) ∧
      (n < k → again .badSequence (.ack k) id)) ∧
    (j.phase = .segments → ∀ k,
      after (.ack k) = some { j with next := k, phase := if k = n then .close else .segments }) ∧
    (j.phase = .close → ∀ e,
      (e = s.stepEdition j → j.plan.drop 1 ≠ [] → after (.ack e) = some (fresh clean (j.plan.drop 1))) ∧
      (e ≠ s.stepEdition j ∨ j.plan.drop 1 = [] → after (.ack e) = planned (fresh clean (j.plan.drop 1))) ∧
      (j.kind = .block → (s.takeOutcome j (.ack e)).mark j.drop = none)) ∧
    (j.phase = .activate → ∀ e,
      after (.ack e) = planned (fresh (if e = j.target then clean else j) (j.plan.drop 1))) ∧
    (∀ c, again c (.missed c) back) ∧
    again .refused (.nak .refused) back ∧
    (j.phase ≠ .activate → again .badSequence (.nak .badSequence) (fun i => { i with phase := .open_ })) ∧
    (j.phase = .activate → again .refused (.nak .badSequence) id) ∧
    (j.phase = .close → again .digest (.nak .digest) (fun i => { i with phase := .segments, next := 0 })) ∧
    (j.phase ≠ .close → again .refused (.nak .digest) back) ∧
    (j.phase = .activate →
      retried .notStaged (.nak .notStaged) (fun i => s.settled (fresh i [.stage j.target, .activate j.target]))
        (if s.stageNofit j.drop [.stage j.target, .activate j.target] = true then reported (.nak .notStaged) j.target .full 0 .nofit
        else calm (.nak .notStaged))) ∧
    (j.phase ≠ .activate → again .refused (.nak .notStaged) back) ∧
    (∀ k, again .goBack (.goBack k) (fun i => { i with next := if j.isFull then 0 else k })) ∧
    (after (.nak .noRoom) = some { j with state := .failed, underWay := false } ∧
      (s.takeOutcome j (.nak .noRoom)).planner.retries = s.planner.retries ∧
      reported (.nak .noRoom) edition form j.next .noRoom) ∧
    (j.isFull = true → j.kind = .block →
      let mark (o : PushOutcome) : Option Mark := (s.takeOutcome j o).mark j.drop
      let m := s.mark j.drop
      let start : Point := { index := 0, key := 0, reg := 0xFFFFFFFF }
      let restarted := m.map (fun m => { m with cur := start, burst := start, ack := start })
      let resumed := if j.phase = .segments then m.map (fun m => { m with cur := m.burst }) else m
      let limit : Prop := s.settings.retryLimit ≤ min 255 (j.retry + 1)
      (j.phase = .open_ → ∀ k, mark (.ack k) = m) ∧
      (j.phase = .segments → ∀ k, mark (.ack k) = m.map (fun m => { m with ack := m.cur })) ∧
      (¬limit →
        (∀ c, mark (.missed c) = resumed) ∧ mark (.nak .refused) = resumed ∧ (j.phase ≠ .activate → mark (.nak .badSequence) = m) ∧
        (j.phase = .close → mark (.nak .digest) = restarted) ∧ (j.phase ≠ .close → mark (.nak .digest) = resumed) ∧
        ∀ k, mark (.goBack k) = restarted) ∧
      (limit →
        (∀ c, mark (.missed c) = none) ∧ mark (.nak .refused) = none ∧ mark (.nak .badSequence) = none ∧ mark (.nak .digest) = none ∧
          ∀ k, mark (.goBack k) = none) ∧
      mark (.nak .noRoom) = none) ∧
    s.takeOutcome j .unacknowledged = s

/-- FARE planning takes the first case of R101's table that applies; the BLOCK computation settles its form by R99's stages, with a
tie of the two costs going to DELTA, and fits it to the window by R100. Planning a pair then acts on its job by R103: none for a
drop that is not planned (R98: ENABLED, not stopping, PRESENT or FADING, its holdings known) or a FAILED job, put off while its
exchange is in flight; else the job is removed, made at the end of the queue, or takes the plan, keeping its current step where
R105 lets it. The model's choices and inferences in this: a pair whose job is FAILED keeps the drop's two marks (log 12), a FULL
step that is kept makes a plan of that one step (log 13), the fit of a STAGE is tested whenever a plan is taken whole (log 14), and
one that does not fit fails its job with flag, counter and log (R102, R115, R116), a job keeps its state when it takes one (log
28), and a DELTA step kept before a full chain makes a plan of 13 steps (log 47). -/
def Obligations.PlansFollowTheirTables : Prop :=
  (∀ (c : Catalogue) (size : Nat) (hold : Holdings),
    let a := hold.active
    let A := c.a
    let P := c.p?
    let p := P.getD 0
    let cases_ : List (Bool × FarePlan) :=
      [(size == 0, .nothing),
        (A == 0 && P.isNone, .nothing),
        (newer a A && (P.isNone || newer a p), .ahead),
        (P.isSome && a != p && hold.staged == p, .nothing),
        (P.isSome && a != p && hold.staged != p, .steps [.stage p] p),
        (a == A, .nothing),
        (hold.staged == A, .steps [.activate A] A),
        (true, .steps [.stage A, .activate A] A)]
    (cases_.find? (fun x => x.1)).map Prod.snd = some (c.farePlan size hold)) ∧
  (∀ (c : Catalogue) (cls : ClassSettings) (bias live v : Nat),
    let d := serialDist v c.h
    let D := ((editionsAfter v d).map c.chainSegments).sum + 2 * d
    let F := max 1 ((live + 19) / 20) + 2 + bias
    c.blockForm cls bias live v =
      if v = c.h then .equal
      else if v = 0 ∨ 32768 ≤ d ∨ c.length < d ∨ cls.delta = false ∨ F < D then .full
      else .delta) ∧
  (∀ (s : State) (d : DropId) (v : Nat),
    let c := s.classOf d
    let es := editionsAfter v (serialDist v s.cat.h)
    let form := s.cat.blockForm c s.settings.bias s.table.live v
    s.blockPlan d v =
      if s.cat.h = 0 ∨ c.blockSize = 0 ∨ form = .equal then .nothing
      else if form = .delta ∧ ∀ e ∈ es, s.cat.chainSegments e ≤ c.blockSize then .delta es
      else if max 1 ((s.table.live + 19) / 20) ≤ c.blockSize then .full
      else .nofit) ∧
  (∀ (s : State) (d : DropId),
    s.planned d = true ↔
      ((s.drop d).presence = .present ∨ (s.drop d).presence = .fading) ∧ (s.drop d).stopping = false ∧ (s.drop d).known = true) ∧
  (∀ (s : State) (d : DropId) (plan : List Step),
    s.stageNofit d plan = true ↔
      ∃ x q r, plan = .stage x :: q ∧ s.cat.fare? x = some r ∧ (s.classOf d).fareSize < r.segments.length) ∧
  ∀ (s : State) (d : DropId) (k : Kind),
    let t := s.planPair d k
    let c := s.classOf d
    let calm : Prop := t.port = s.port ∧ t.planner.log = s.planner.log ∧ t.planner.jobFail = s.planner.jobFail
    let whole (plan : List Step) : Prop :=
      if s.stageNofit d plan = true then
        t.port =
            s.port.raise s.settings.enables .jobFailed { edition := 0, code := none, drop := some d, minute := s.stamp } ∧
          t.planner.jobFail = min 65535 (s.planner.jobFail + 1) ∧
          ∀ x q, plan = .stage x :: q →
            t.planner.log =
              some (s.planner.log.getD
                { drop := d, kind := .fare, edition := x, form := .full, index := 0, reason := .nofit, minute := s.stamp })
      else calm
    let others := s.planner.jobs.filter (fun i => !(i.drop == d && i.kind == k))
    let replaced (j : Job) : List Job := s.planner.jobs.map (fun i => if i.drop = d ∧ i.kind = k then j else i)
    (s.planned d = false → t = s) ∧
    (∀ j, s.job? d k = some j → j.state = .failed → t = s) ∧
    (s.planned d = true → ∀ j, s.job? d k = some j → j.state ≠ .failed → s.inFlight d k = true →
      t = s.putJob { j with replan := true }) ∧
    (s.planned d = true → (∀ j, s.job? d k = some j → j.state ≠ .failed ∧ s.inFlight d k = false) →
      (k = .block →
        let nofit := s.blockPlan d (s.drop d).holdings.block = .nofit
        ((t.drop d).blockNofit = true ↔ nofit) ∧
        (nofit → (s.drop d).blockNofit = false →
          t.port =
            s.port.raise s.settings.enables .jobFailed { edition := 0, code := none, drop := some d, minute := s.stamp } ∧
          t.planner.log =
            some (s.planner.log.getD
              { drop := d, kind := .block, edition := s.cat.h, form := .full, index := 0, reason := .nofit
                minute := s.stamp })) ∧
        (¬nofit ∨ (s.drop d).blockNofit = true → t.port = s.port ∧ t.planner.log = s.planner.log)) ∧
      (k = .fare →
        ((t.drop d).fareAhead = true ↔ s.cat.farePlan c.fareSize (s.drop d).holdings = .ahead)) ∧
      (s.pairPlan d k = none → t.planner.jobs = others ∧ (k = .block → t.mark d = none) ∧ (k = .fare → calm)) ∧
      ∀ plan target, s.pairPlan d k = some (plan, target) →
        (s.job? d k = none →
          t.planner.jobs =
            s.planner.jobs ++
              [s.settled (s.marked
                { drop := d, kind := k, target, plan, underWay := false, base := 0, record := 0, phase := firstPhase plan, next := 0
                  burstStart := 0, retry := 0, lastCause := none, urgent := false, promoted := false, level := 0
                  state := .ready, replan := false })] ∧
            (k = .fare → whole plan)) ∧
        ∀ j, s.job? d k = some j →
          let keep (p : List Step) : Prop :=
            t.planner.jobs = replaced (s.judgeJob (s.marked { j with plan := p, target })) ∧ t.mark d = s.mark d ∧
              (k = .fare → calm)
          let keepsDelta := ∃ e q r, j.plan = .delta e :: q ∧ s.cat.deltaOf j e = some r ∧ c.delta = true ∧ c.blockBase = j.base ∧
            r.segments.length ≤ c.blockSize ∧ s.blockPlan d e ≠ .full ∧ s.blockPlan d e ≠ .nofit
          let keepsFull := ∃ q, j.plan = .full :: q ∧ plan = [.full] ∧ (s.mark d).isSome = true ∧ c.blockBase = j.base
          let keepsStage := ∃ x q p, j.plan = .stage x :: q ∧ plan = .stage x :: p ∧ c.fareBase = j.base
          (j.underWay = true → keepsDelta → ∀ e, j.plan.head? = some (.delta e) →
            (s.blockPlan d e = .nothing → keep [.delta e]) ∧
            (∀ es, s.blockPlan d e = .delta es → keep (.delta e :: es.map .delta))) ∧
          (j.underWay = true → keepsFull ∨ keepsStage → keep plan) ∧
          (¬(j.underWay = true ∧ (keepsDelta ∨ keepsFull ∨ keepsStage)) →
            t.planner.jobs =
              replaced (s.settled (s.marked
                { j with plan, target, underWay := false, phase := firstPhase plan, next := 0, burstStart := 0 })) ∧
            (k = .block → t.mark d = none) ∧ (k = .fare → whole plan)))

/-- LATE_LISTED on a tap of a drop promotes its BLOCK job, whose level becomes BLOCK_URGENT and is judged; a planned drop without
one is planned, and a job that results is promoted; a FAILED job, or a drop that is not planned, gains nothing (R106, R107, R108,
R164). -/
def Obligations.LateListedPromotesTheJob : Prop :=
  ∀ (d : DropId) (s : State),
    let promoted (j : Job) : Job := s.judgeJob { j with promoted := true, urgent := true, level := s.settings.levelUrgent }
    (∀ j, s.job? d .block = some j → j.state ≠ .failed → (s.lateListed d).job? d .block = some (promoted j)) ∧
    (∀ j, s.job? d .block = some j → j.state = .failed → s.lateListed d = s) ∧
    (s.job? d .block = none → s.planned d = true →
      (s.lateListed d).job? d .block = ((s.planPair d .block).job? d .block).map promoted) ∧
    (s.job? d .block = none → s.planned d = false → s.lateListed d = s)

/-! ### Editions, days, verdicts -/

/-- The serial order (R8, R9, R10): a successor is newer and one step away, every edition is newer than 0, and of two different
editions exactly one is newer. The service day and the expiry match (R17). An entry's liveness (R53), and the answer to a lookup
(R56), which the card's one entry live at h gives, whatever stands around it. -/
def Obligations.EditionsDaysAndLookups : Prop :=
  (∀ a b : Nat, 1 ≤ a → a ≤ 65535 → 1 ≤ b → b ≤ 65535 →
    newer a 0 = true ∧ newer 0 a = false ∧ newer a a = false ∧
    (1 ≤ succEdition a ∧ succEdition a ≤ 65535 ∧ newer (succEdition a) a = true ∧ serialDist a (succEdition a) = 1) ∧
    (a ≠ b → (newer a b = !newer b a)) ∧
    (newer a b = true ↔ 1 ≤ serialDist b a ∧ serialDist b a ≤ 32767) ∧
    serialDist a b < 65535 ∧ (serialDist a b = 0 ↔ a = b)) ∧
  (∀ o m : Nat, (m < o → serviceDay o m = 0) ∧
    (o ≤ m → serviceDay o m * 1440 ≤ m - o ∧ m - o < (serviceDay o m + 1) * 1440)) ∧
  (∀ (s : State) (x m : Nat),
    s.expiryMatches 0 m = true ∧
    (x ≠ 0 → m ≠ 0 → (s.expiryMatches x m = true ↔ serviceDay s.settings.dayStart m ≤ x)) ∧
    (x ≠ 0 → s.clock.valid = true →
      (s.expiryMatches x 0 = true ↔ serviceDay s.settings.dayStart s.clock.minute ≤ x)) ∧
    (s.clock.valid = false → s.expiryMatches x 0 = true)) ∧
  (∀ (ed : Nat) (e : Entry),
    liveAt ed e = true ↔ ed ≠ 0 ∧ newer e.since ed = false ∧ ∀ u, e.until_ = some u → newer u ed = true) ∧
  ∀ (s : State) (card m : Nat),
    let held (e : Entry) : Prop := e.card = card ∧ liveAt s.cat.h e = true
    (s.table.state = .empty ∨ (∃ e n, s.table.state = .rebuilding e n) → s.lookup card m = .unusable) ∧
    (s.table.state = .ready ∨ (∃ e la w, s.table.state = .applying e la w) →
      (∀ before after e, s.table.entries = before ++ e :: after → held e → (∀ x ∈ before, ¬held x) → (∀ x ∈ after, ¬held x) →
        s.lookup card m = if s.expiryMatches e.expiry m = true then .listed e.since e.reason else .notListed) ∧
      ((∀ e ∈ s.table.entries, ¬held e) → s.lookup card m = .notListed))

/-- The verdict on a tap record is the first of R162's conditions that applies, against the lookup at h and against A, and the record
takes the hub's five fields (R160, R162). -/
def Obligations.VerdictIsTheFirstCondition : Prop :=
  ∀ (s : State) (d : DropId) (t : Tap),
    let found := s.lookup t.card.toNat t.minute.toNat
    let accepted := t.decision == 1
    let conditions : List (Bool × Verdict) :=
      [(decide (found = .unusable), .unscreened),
        ((match found with | .listed since _ => accepted && newer since t.blockUsed.toNat | _ => false), .lateListed),
        ((match found with | .listed since _ => accepted && !newer since t.blockUsed.toNat | _ => false), .listedIgnored),
        (s.cat.a != 0 && t.fareUsed.toNat != s.cat.a, .staleTariff),
        (true, .clear)]
    (conditions.find? (fun x => x.1)).map Prod.snd = some (s.screened d t).verdict ∧
    (s.screened d t).tap = t ∧ (s.screened d t).drop = d ∧ (s.screened d t).head = s.cat.h ∧ (s.screened d t).active = s.cat.a ∧
    (s.screened d t).arrival = if s.clock.valid then s.clock.minute else 0

/-! ### Events that do not arise -/

/-- An event whose condition does not hold has no effect (the model's choice, log 3): a stage event outside its stage, a completion
of work that is not in flight, a deadline that is not set, a message dropped for want of room while there is room. -/
def Obligations.EventsThatCannotAriseChangeNothing : Prop :=
  ∀ s : State,
    ((∀ x, s.trunk.ex = some x → x.stage ≠ .quiet) → exec .quietTimeMet s = .next s) ∧
    ((∀ x, s.trunk.ex = some x → x.stage ≠ .sending) → exec .collision s = .next s ∧ exec .trunkFrameSent s = .next s) ∧
    ((∀ x, s.trunk.ex = some x → x.stage ≠ .awaiting) → exec .answerStart s = .next s ∧ exec .replyTimeout s = .next s) ∧
    ((∀ x, s.trunk.ex = some x → x.stage ≠ .receiving) → ∀ bytes, exec (.answerComplete bytes) s = .next s ∧
      exec .answerIncomplete s = .next s ∧ exec .answerLengthTooLarge s = .next s) ∧
    ((∀ x, s.trunk.ex = some x → x.stage ≠ .pause) → exec .waitInterval s = .next s) ∧
    (s.trunk.emptyPause = none → exec .emptyRoundPauseEnd s = .next s) ∧
    (s.roster.pollMode = .continuous → exec .pollPeriod s = .next s) ∧
    (∀ k, (∀ l, s.intake k = some l → l.stage ≠ .receiving) → exec (.idleDeadlinePass k) s = .next s) ∧
    (∀ k, (∀ l g, s.intake k = some l → l.stage ≠ .checking g) → exec (.checkComplete k) s = .next s) ∧
    ((∀ e l w, s.table.state ≠ .applying e l w) → exec .applyComplete s = .next s ∧ exec .undoComplete s = .next s) ∧
    ((∀ e n, s.table.state ≠ .rebuilding e n) → exec .rebuildComplete s = .next s) ∧
    (s.table.sweep = none → exec .sweepPassComplete s = .next s) ∧
    (s.change.state ≠ .due → exec .holdDeadlinePass s = .next s) ∧
    (s.change.state ≠ .doorWait → exec .doorDeadline s = .next s) ∧
    (s.port.tx = none → exec .transmitComplete s = .next s) ∧
    (s.answerRoom = true → ∀ src, exec (.answerDrop src) s = .next s)

/-! ### Messages in bytes -/

/-- A message written out and read again is the same command, whatever padding follows it and with every field at every value
(R175, R189, R190; 11, sections 11.1.1 to 11.1.3). A payload is discarded by the first of R175's four tests that it fails. The
command that an arriving frame is follows R174 and R176: its check sequence, its type, its message, the room for an answer. The
bytes of the frames that the hub sends (R174, R189, R190; 11, sections 11.1.4 and 11.3). -/
def Obligations.MessagesReadBackAsWritten : Prop :=
  (∀ (i : Instr) (m : Head) (payload padding : List Byte), WellFormed i = true → i.head? = some m →
    encodeMessage i = some payload → decodeMessage m.src (payload ++ padding) = .ok i) ∧
  (∀ (src : MacAddr) (payload : List Byte),
    let kind := payload.getD 0 0
    let bodies : List (Byte × Nat) :=
      [(0x01, 20), (0x02, 246), (0x03, 4), (0x04, 4), (0x05, 136), (0x06, 2), (0x07, 7), (0x08, 0), (0x09, 4), (0x0A, 2)]
    (payload.length < 5 → decodeMessage src payload = .error .shortHeader) ∧
    (5 ≤ payload.length →
      ((∀ n, (kind, n) ∉ bodies) → decodeMessage src payload = .error .unknownKind) ∧
      ∀ n, (kind, n) ∈ bodies →
        (numberAt payload 3 2 ≠ n → decodeMessage src payload = .error .wrongLength) ∧
        (numberAt payload 3 2 = n → payload.length < 5 + n → decodeMessage src payload = .error .shortPayload) ∧
        (numberAt payload 3 2 = n → 5 + n ≤ payload.length →
          ∃ i, decodeMessage src payload = .ok i ∧ i.head? = some { src, tag := .ofNat 16 (numberAt payload 1 2) }))) ∧
  (∀ (s : State) (src : MacAddr) (type : BitVec 16) (payload : List Byte),
    classifyFrame s false src type payload = .fcsBad ∧
    (type ≠ s.settings.protocolType → classifyFrame s true src type payload = .otherType) ∧
    (type = s.settings.protocolType →
      (∀ why, decodeMessage src payload = .error why → classifyFrame s true src type payload = .msgDiscard src why) ∧
      ∀ i, decodeMessage src payload = .ok i →
        ((∃ m kind edition index body, i = .loadSegment m kind edition index body) ∨ s.answerRoom = true →
          classifyFrame s true src type payload = i) ∧
        ((∀ m kind edition index body, i ≠ .loadSegment m kind edition index body) → s.answerRoom = false →
          classifyFrame s true src type payload = .answerDrop src))) ∧
  ∀ (s : State) (x : Tx), s.port.tx = some x →
    let sent (kind : Byte) (tag : Tag) (body : List Byte) : Prop :=
      s.txBytes =
        some
          ((leBytes 6 x.dest.toNat).reverse ++ (leBytes 6 Config.stationAddress.toNat).reverse ++
            (leBytes 2 x.etherType.toNat).reverse ++ kind :: leBytes 2 tag.toNat ++ leBytes 2 body.length ++ body ++
            List.replicate (41 - body.length) 0)
    let record (r : Screened) : List Byte :=
      leBytes 2 r.tap.seq.toNat ++ leBytes 8 r.tap.card.toNat ++ leBytes 2 r.tap.product.toNat ++ leBytes 2 r.tap.fare.toNat ++
        leBytes 2 r.tap.fareUsed.toNat ++ leBytes 2 r.tap.blockUsed.toNat ++ [r.tap.decision, r.tap.byte19] ++
        leBytes 4 r.tap.minute.toNat ++ leBytes 1 (dropNumber (some r.drop)) ++
        [match r.verdict with | .unscreened => 0 | .lateListed => 1 | .listedIgnored => 2 | .staleTariff => 3 | .clear => 4] ++
        leBytes 2 r.head ++ leBytes 2 r.active ++ [0, 0] ++ leBytes 4 r.arrival
    let result (c : Code) : Byte :=
      match c with
      | .ok => 0x00 | .accepted => 0x01 | .acceptedContinue => 0x02 | .restarted => 0x03 | .incomplete => 0x04 | .done => 0x05
      | .busy => 0x10 | .inProgress => 0x11 | .notOpen => 0x12 | .aborted => 0x13 | .badForm => 0x20 | .tooLarge => 0x21
      | .stale => 0x22 | .gap => 0x23 | .digestBad => 0x24 | .malformed => 0x25 | .tableFull => 0x26 | .timeout => 0x27
      | .badWindow => 0x30 | .badMap => 0x31 | .badValue => 0x32
    let flag (f : Flag) : Byte :=
      match f with
      | .loadDone => 0 | .loadRefused => 1 | .dropJoined => 2 | .dropLost => 3 | .jobFailed => 4 | .changeoverDone => 5
      | .changeoverHeld => 6 | .changeoverForced => 7 | .tableFull => 8 | .tapqFull => 9
    (∀ tag code kind edition v1 v2, x.body = .answer (.result tag code kind edition v1 v2) →
      sent 0x81 tag ([result code, kind] ++ leBytes 2 edition ++ leBytes 4 v1 ++ leBytes 4 v2)) ∧
    (∀ tag topic content, x.body = .answer (.report tag topic content) → sent 0x82 tag ([topic, 0] ++ content)) ∧
    (∀ n, x.body = .notice n →
      sent 0x83 0
        ([flag n.flag, 0] ++ leBytes 2 n.ctx.edition ++ [match n.ctx.code with | some c => result c | none => 0] ++
          leBytes 1 (dropNumber n.ctx.drop) ++ [0, 0] ++ leBytes 4 n.ctx.minute)) ∧
    ∀ k, x.body = .taps k →
      let records := s.taps.queue.take k
      sent 0x84 0 (leBytes 1 records.length ++ [0] ++ records.flatMap record)

/-! ### What every step keeps -/

/-- The state after a hard reset meets every invariant below. -/
def Obligations.ResetMeetsEveryInvariant : Prop :=
  ClockInRange State.reset ∧ AnswersFit State.reset ∧ NoticesOnce State.reset ∧ TapsFit State.reset ∧ EnableAgrees State.reset ∧
    RunsFit State.reset ∧ CountersFit State.reset ∧ SettingsFit State.reset.settings ∧ JobsOnce State.reset ∧
    WorkFollows State.reset ∧ ChainFollows State.reset ∧ ChangeFollows State.reset

/-- C stays within 32 bits and reads 0 while the clock is invalid (R12, R13), every setting stays in its range, whatever a CONFIGURE
carries (R179), and every counter stays at or below 65,535 (R187). -/
def Obligations.EveryStepKeepsValuesInRange : Prop :=
  (∀ s t, ClockInRange s → step s = .next t → ClockInRange t) ∧
  (∀ s t, SettingsFit s.settings → step s = .next t → SettingsFit t.settings) ∧
  ∀ s t, CountersFit s → step s = .next t → CountersFit t

/-- The answers formed and owed never exceed 16, so that a deferred answer always finds room (R176), at most one NOTICE waits for
each flag (R185), and the tap queue never exceeds 256 records, with room for all that the POLL in flight may bring (R166, R167). -/
def Obligations.EveryStepKeepsTheQueuesBounded : Prop :=
  (∀ s t, AnswersFit s → step s = .next t → AnswersFit t) ∧ (∀ s t, NoticesOnce s → step s = .next t → NoticesOnce t) ∧
  ∀ s t, TapsFit s → step s = .next t → TapsFit t

/-- A drop's presence, stopping mark and enable value stay in agreement, its run count fits its presence (R77, R79, R88), and the
queue holds at most one job for each pair and none for a DISABLED drop (R88, R96, R103). -/
def Obligations.EveryStepKeepsTheRosterConsistent : Prop :=
  (∀ s t, EnableAgrees s → step s = .next t → EnableAgrees t) ∧ (∀ s t, RunsFit s → step s = .next t → RunsFit t) ∧
  ∀ s t, JobsOnce s → step s = .next t → JobsOnce t

/-- The Card Table's work is the BLOCK intake's (R29, R30), and with that the chain is the run of editions from b to h, at most 12
long, and a BLOCK DELTA in the intake follows h (R21, R38 to R41). -/
def Obligations.EveryStepKeepsTheChainWhole : Prop :=
  (∀ s t, WorkFollows s → step s = .next t → WorkFollows t) ∧
  ∀ s t, WorkFollows s → ChainFollows s → step s = .next t → ChainFollows t

/-- The changeover's state, deadlines and requested edition follow P (R143). -/
def Obligations.EveryStepKeepsTheChangeoverWithP : Prop :=
  ∀ s t, ChangeFollows s → step s = .next t → ChangeFollows t
end

