-- ==== Sys2Proof/Laws/State.lean ====
section
/-! SUPPORT. One lemma for each field under each setter of `State`, and the laws of the eight-drop container: no proof has to
unfold a record update. -/

namespace Sys2Proof.Machine

/-! `setPending` -/

@[simp] theorem State.setPending_pending (s : State) (x : List Instr) : (s.setPending x).pending = x := rfl
@[simp] theorem State.setPending_timebase (s : State) (x : List Instr) : (s.setPending x).timebase = s.timebase := rfl
@[simp] theorem State.setPending_clock (s : State) (x : List Instr) : (s.setPending x).clock = s.clock := rfl
@[simp] theorem State.setPending_settings (s : State) (x : List Instr) : (s.setPending x).settings = s.settings := rfl
@[simp] theorem State.setPending_port (s : State) (x : List Instr) : (s.setPending x).port = s.port := rfl
@[simp] theorem State.setPending_intakes (s : State) (x : List Instr) : (s.setPending x).intakes = s.intakes := rfl
@[simp] theorem State.setPending_cat (s : State) (x : List Instr) : (s.setPending x).cat = s.cat := rfl
@[simp] theorem State.setPending_table (s : State) (x : List Instr) : (s.setPending x).table = s.table := rfl
@[simp] theorem State.setPending_roster (s : State) (x : List Instr) : (s.setPending x).roster = s.roster := rfl
@[simp] theorem State.setPending_planner (s : State) (x : List Instr) : (s.setPending x).planner = s.planner := rfl
@[simp] theorem State.setPending_trunk (s : State) (x : List Instr) : (s.setPending x).trunk = s.trunk := rfl
@[simp] theorem State.setPending_change (s : State) (x : List Instr) : (s.setPending x).change = s.change := rfl
@[simp] theorem State.setPending_taps (s : State) (x : List Instr) : (s.setPending x).taps = s.taps := rfl
@[simp] theorem State.setPending_self (s : State) : s.setPending s.pending = s := rfl

/-! `setTimebase` -/

@[simp] theorem State.setTimebase_pending (s : State) (x : Nat) : (s.setTimebase x).pending = s.pending := rfl
@[simp] theorem State.setTimebase_timebase (s : State) (x : Nat) : (s.setTimebase x).timebase = x := rfl
@[simp] theorem State.setTimebase_clock (s : State) (x : Nat) : (s.setTimebase x).clock = s.clock := rfl
@[simp] theorem State.setTimebase_settings (s : State) (x : Nat) : (s.setTimebase x).settings = s.settings := rfl
@[simp] theorem State.setTimebase_port (s : State) (x : Nat) : (s.setTimebase x).port = s.port := rfl
@[simp] theorem State.setTimebase_intakes (s : State) (x : Nat) : (s.setTimebase x).intakes = s.intakes := rfl
@[simp] theorem State.setTimebase_cat (s : State) (x : Nat) : (s.setTimebase x).cat = s.cat := rfl
@[simp] theorem State.setTimebase_table (s : State) (x : Nat) : (s.setTimebase x).table = s.table := rfl
@[simp] theorem State.setTimebase_roster (s : State) (x : Nat) : (s.setTimebase x).roster = s.roster := rfl
@[simp] theorem State.setTimebase_planner (s : State) (x : Nat) : (s.setTimebase x).planner = s.planner := rfl
@[simp] theorem State.setTimebase_trunk (s : State) (x : Nat) : (s.setTimebase x).trunk = s.trunk := rfl
@[simp] theorem State.setTimebase_change (s : State) (x : Nat) : (s.setTimebase x).change = s.change := rfl
@[simp] theorem State.setTimebase_taps (s : State) (x : Nat) : (s.setTimebase x).taps = s.taps := rfl
@[simp] theorem State.setTimebase_self (s : State) : s.setTimebase s.timebase = s := rfl

/-! `setClock` -/

@[simp] theorem State.setClock_pending (s : State) (x : Clock) : (s.setClock x).pending = s.pending := rfl
@[simp] theorem State.setClock_timebase (s : State) (x : Clock) : (s.setClock x).timebase = s.timebase := rfl
@[simp] theorem State.setClock_clock (s : State) (x : Clock) : (s.setClock x).clock = x := rfl
@[simp] theorem State.setClock_settings (s : State) (x : Clock) : (s.setClock x).settings = s.settings := rfl
@[simp] theorem State.setClock_port (s : State) (x : Clock) : (s.setClock x).port = s.port := rfl
@[simp] theorem State.setClock_intakes (s : State) (x : Clock) : (s.setClock x).intakes = s.intakes := rfl
@[simp] theorem State.setClock_cat (s : State) (x : Clock) : (s.setClock x).cat = s.cat := rfl
@[simp] theorem State.setClock_table (s : State) (x : Clock) : (s.setClock x).table = s.table := rfl
@[simp] theorem State.setClock_roster (s : State) (x : Clock) : (s.setClock x).roster = s.roster := rfl
@[simp] theorem State.setClock_planner (s : State) (x : Clock) : (s.setClock x).planner = s.planner := rfl
@[simp] theorem State.setClock_trunk (s : State) (x : Clock) : (s.setClock x).trunk = s.trunk := rfl
@[simp] theorem State.setClock_change (s : State) (x : Clock) : (s.setClock x).change = s.change := rfl
@[simp] theorem State.setClock_taps (s : State) (x : Clock) : (s.setClock x).taps = s.taps := rfl
@[simp] theorem State.setClock_self (s : State) : s.setClock s.clock = s := rfl

/-! `setSettings` -/

@[simp] theorem State.setSettings_pending (s : State) (x : Settings) : (s.setSettings x).pending = s.pending := rfl
@[simp] theorem State.setSettings_timebase (s : State) (x : Settings) : (s.setSettings x).timebase = s.timebase := rfl
@[simp] theorem State.setSettings_clock (s : State) (x : Settings) : (s.setSettings x).clock = s.clock := rfl
@[simp] theorem State.setSettings_settings (s : State) (x : Settings) : (s.setSettings x).settings = x := rfl
@[simp] theorem State.setSettings_port (s : State) (x : Settings) : (s.setSettings x).port = s.port := rfl
@[simp] theorem State.setSettings_intakes (s : State) (x : Settings) : (s.setSettings x).intakes = s.intakes := rfl
@[simp] theorem State.setSettings_cat (s : State) (x : Settings) : (s.setSettings x).cat = s.cat := rfl
@[simp] theorem State.setSettings_table (s : State) (x : Settings) : (s.setSettings x).table = s.table := rfl
@[simp] theorem State.setSettings_roster (s : State) (x : Settings) : (s.setSettings x).roster = s.roster := rfl
@[simp] theorem State.setSettings_planner (s : State) (x : Settings) : (s.setSettings x).planner = s.planner := rfl
@[simp] theorem State.setSettings_trunk (s : State) (x : Settings) : (s.setSettings x).trunk = s.trunk := rfl
@[simp] theorem State.setSettings_change (s : State) (x : Settings) : (s.setSettings x).change = s.change := rfl
@[simp] theorem State.setSettings_taps (s : State) (x : Settings) : (s.setSettings x).taps = s.taps := rfl
@[simp] theorem State.setSettings_self (s : State) : s.setSettings s.settings = s := rfl

/-! `setPort` -/

@[simp] theorem State.setPort_pending (s : State) (x : Port) : (s.setPort x).pending = s.pending := rfl
@[simp] theorem State.setPort_timebase (s : State) (x : Port) : (s.setPort x).timebase = s.timebase := rfl
@[simp] theorem State.setPort_clock (s : State) (x : Port) : (s.setPort x).clock = s.clock := rfl
@[simp] theorem State.setPort_settings (s : State) (x : Port) : (s.setPort x).settings = s.settings := rfl
@[simp] theorem State.setPort_port (s : State) (x : Port) : (s.setPort x).port = x := rfl
@[simp] theorem State.setPort_intakes (s : State) (x : Port) : (s.setPort x).intakes = s.intakes := rfl
@[simp] theorem State.setPort_cat (s : State) (x : Port) : (s.setPort x).cat = s.cat := rfl
@[simp] theorem State.setPort_table (s : State) (x : Port) : (s.setPort x).table = s.table := rfl
@[simp] theorem State.setPort_roster (s : State) (x : Port) : (s.setPort x).roster = s.roster := rfl
@[simp] theorem State.setPort_planner (s : State) (x : Port) : (s.setPort x).planner = s.planner := rfl
@[simp] theorem State.setPort_trunk (s : State) (x : Port) : (s.setPort x).trunk = s.trunk := rfl
@[simp] theorem State.setPort_change (s : State) (x : Port) : (s.setPort x).change = s.change := rfl
@[simp] theorem State.setPort_taps (s : State) (x : Port) : (s.setPort x).taps = s.taps := rfl
@[simp] theorem State.setPort_self (s : State) : s.setPort s.port = s := rfl

/-! `setIntakes` -/

@[simp] theorem State.setIntakes_pending (s : State) (x : Intakes) : (s.setIntakes x).pending = s.pending := rfl
@[simp] theorem State.setIntakes_timebase (s : State) (x : Intakes) : (s.setIntakes x).timebase = s.timebase := rfl
@[simp] theorem State.setIntakes_clock (s : State) (x : Intakes) : (s.setIntakes x).clock = s.clock := rfl
@[simp] theorem State.setIntakes_settings (s : State) (x : Intakes) : (s.setIntakes x).settings = s.settings := rfl
@[simp] theorem State.setIntakes_port (s : State) (x : Intakes) : (s.setIntakes x).port = s.port := rfl
@[simp] theorem State.setIntakes_intakes (s : State) (x : Intakes) : (s.setIntakes x).intakes = x := rfl
@[simp] theorem State.setIntakes_cat (s : State) (x : Intakes) : (s.setIntakes x).cat = s.cat := rfl
@[simp] theorem State.setIntakes_table (s : State) (x : Intakes) : (s.setIntakes x).table = s.table := rfl
@[simp] theorem State.setIntakes_roster (s : State) (x : Intakes) : (s.setIntakes x).roster = s.roster := rfl
@[simp] theorem State.setIntakes_planner (s : State) (x : Intakes) : (s.setIntakes x).planner = s.planner := rfl
@[simp] theorem State.setIntakes_trunk (s : State) (x : Intakes) : (s.setIntakes x).trunk = s.trunk := rfl
@[simp] theorem State.setIntakes_change (s : State) (x : Intakes) : (s.setIntakes x).change = s.change := rfl
@[simp] theorem State.setIntakes_taps (s : State) (x : Intakes) : (s.setIntakes x).taps = s.taps := rfl
@[simp] theorem State.setIntakes_self (s : State) : s.setIntakes s.intakes = s := rfl

/-! `setCat` -/

@[simp] theorem State.setCat_pending (s : State) (x : Catalogue) : (s.setCat x).pending = s.pending := rfl
@[simp] theorem State.setCat_timebase (s : State) (x : Catalogue) : (s.setCat x).timebase = s.timebase := rfl
@[simp] theorem State.setCat_clock (s : State) (x : Catalogue) : (s.setCat x).clock = s.clock := rfl
@[simp] theorem State.setCat_settings (s : State) (x : Catalogue) : (s.setCat x).settings = s.settings := rfl
@[simp] theorem State.setCat_port (s : State) (x : Catalogue) : (s.setCat x).port = s.port := rfl
@[simp] theorem State.setCat_intakes (s : State) (x : Catalogue) : (s.setCat x).intakes = s.intakes := rfl
@[simp] theorem State.setCat_cat (s : State) (x : Catalogue) : (s.setCat x).cat = x := rfl
@[simp] theorem State.setCat_table (s : State) (x : Catalogue) : (s.setCat x).table = s.table := rfl
@[simp] theorem State.setCat_roster (s : State) (x : Catalogue) : (s.setCat x).roster = s.roster := rfl
@[simp] theorem State.setCat_planner (s : State) (x : Catalogue) : (s.setCat x).planner = s.planner := rfl
@[simp] theorem State.setCat_trunk (s : State) (x : Catalogue) : (s.setCat x).trunk = s.trunk := rfl
@[simp] theorem State.setCat_change (s : State) (x : Catalogue) : (s.setCat x).change = s.change := rfl
@[simp] theorem State.setCat_taps (s : State) (x : Catalogue) : (s.setCat x).taps = s.taps := rfl
@[simp] theorem State.setCat_self (s : State) : s.setCat s.cat = s := rfl

/-! `setTable` -/

@[simp] theorem State.setTable_pending (s : State) (x : CardTable) : (s.setTable x).pending = s.pending := rfl
@[simp] theorem State.setTable_timebase (s : State) (x : CardTable) : (s.setTable x).timebase = s.timebase := rfl
@[simp] theorem State.setTable_clock (s : State) (x : CardTable) : (s.setTable x).clock = s.clock := rfl
@[simp] theorem State.setTable_settings (s : State) (x : CardTable) : (s.setTable x).settings = s.settings := rfl
@[simp] theorem State.setTable_port (s : State) (x : CardTable) : (s.setTable x).port = s.port := rfl
@[simp] theorem State.setTable_intakes (s : State) (x : CardTable) : (s.setTable x).intakes = s.intakes := rfl
@[simp] theorem State.setTable_cat (s : State) (x : CardTable) : (s.setTable x).cat = s.cat := rfl
@[simp] theorem State.setTable_table (s : State) (x : CardTable) : (s.setTable x).table = x := rfl
@[simp] theorem State.setTable_roster (s : State) (x : CardTable) : (s.setTable x).roster = s.roster := rfl
@[simp] theorem State.setTable_planner (s : State) (x : CardTable) : (s.setTable x).planner = s.planner := rfl
@[simp] theorem State.setTable_trunk (s : State) (x : CardTable) : (s.setTable x).trunk = s.trunk := rfl
@[simp] theorem State.setTable_change (s : State) (x : CardTable) : (s.setTable x).change = s.change := rfl
@[simp] theorem State.setTable_taps (s : State) (x : CardTable) : (s.setTable x).taps = s.taps := rfl
@[simp] theorem State.setTable_self (s : State) : s.setTable s.table = s := rfl

/-! `setRoster` -/

@[simp] theorem State.setRoster_pending (s : State) (x : Roster) : (s.setRoster x).pending = s.pending := rfl
@[simp] theorem State.setRoster_timebase (s : State) (x : Roster) : (s.setRoster x).timebase = s.timebase := rfl
@[simp] theorem State.setRoster_clock (s : State) (x : Roster) : (s.setRoster x).clock = s.clock := rfl
@[simp] theorem State.setRoster_settings (s : State) (x : Roster) : (s.setRoster x).settings = s.settings := rfl
@[simp] theorem State.setRoster_port (s : State) (x : Roster) : (s.setRoster x).port = s.port := rfl
@[simp] theorem State.setRoster_intakes (s : State) (x : Roster) : (s.setRoster x).intakes = s.intakes := rfl
@[simp] theorem State.setRoster_cat (s : State) (x : Roster) : (s.setRoster x).cat = s.cat := rfl
@[simp] theorem State.setRoster_table (s : State) (x : Roster) : (s.setRoster x).table = s.table := rfl
@[simp] theorem State.setRoster_roster (s : State) (x : Roster) : (s.setRoster x).roster = x := rfl
@[simp] theorem State.setRoster_planner (s : State) (x : Roster) : (s.setRoster x).planner = s.planner := rfl
@[simp] theorem State.setRoster_trunk (s : State) (x : Roster) : (s.setRoster x).trunk = s.trunk := rfl
@[simp] theorem State.setRoster_change (s : State) (x : Roster) : (s.setRoster x).change = s.change := rfl
@[simp] theorem State.setRoster_taps (s : State) (x : Roster) : (s.setRoster x).taps = s.taps := rfl
@[simp] theorem State.setRoster_self (s : State) : s.setRoster s.roster = s := rfl

/-! `setPlanner` -/

@[simp] theorem State.setPlanner_pending (s : State) (x : Planner) : (s.setPlanner x).pending = s.pending := rfl
@[simp] theorem State.setPlanner_timebase (s : State) (x : Planner) : (s.setPlanner x).timebase = s.timebase := rfl
@[simp] theorem State.setPlanner_clock (s : State) (x : Planner) : (s.setPlanner x).clock = s.clock := rfl
@[simp] theorem State.setPlanner_settings (s : State) (x : Planner) : (s.setPlanner x).settings = s.settings := rfl
@[simp] theorem State.setPlanner_port (s : State) (x : Planner) : (s.setPlanner x).port = s.port := rfl
@[simp] theorem State.setPlanner_intakes (s : State) (x : Planner) : (s.setPlanner x).intakes = s.intakes := rfl
@[simp] theorem State.setPlanner_cat (s : State) (x : Planner) : (s.setPlanner x).cat = s.cat := rfl
@[simp] theorem State.setPlanner_table (s : State) (x : Planner) : (s.setPlanner x).table = s.table := rfl
@[simp] theorem State.setPlanner_roster (s : State) (x : Planner) : (s.setPlanner x).roster = s.roster := rfl
@[simp] theorem State.setPlanner_planner (s : State) (x : Planner) : (s.setPlanner x).planner = x := rfl
@[simp] theorem State.setPlanner_trunk (s : State) (x : Planner) : (s.setPlanner x).trunk = s.trunk := rfl
@[simp] theorem State.setPlanner_change (s : State) (x : Planner) : (s.setPlanner x).change = s.change := rfl
@[simp] theorem State.setPlanner_taps (s : State) (x : Planner) : (s.setPlanner x).taps = s.taps := rfl
@[simp] theorem State.setPlanner_self (s : State) : s.setPlanner s.planner = s := rfl

/-! `setTrunk` -/

@[simp] theorem State.setTrunk_pending (s : State) (x : Trunk) : (s.setTrunk x).pending = s.pending := rfl
@[simp] theorem State.setTrunk_timebase (s : State) (x : Trunk) : (s.setTrunk x).timebase = s.timebase := rfl
@[simp] theorem State.setTrunk_clock (s : State) (x : Trunk) : (s.setTrunk x).clock = s.clock := rfl
@[simp] theorem State.setTrunk_settings (s : State) (x : Trunk) : (s.setTrunk x).settings = s.settings := rfl
@[simp] theorem State.setTrunk_port (s : State) (x : Trunk) : (s.setTrunk x).port = s.port := rfl
@[simp] theorem State.setTrunk_intakes (s : State) (x : Trunk) : (s.setTrunk x).intakes = s.intakes := rfl
@[simp] theorem State.setTrunk_cat (s : State) (x : Trunk) : (s.setTrunk x).cat = s.cat := rfl
@[simp] theorem State.setTrunk_table (s : State) (x : Trunk) : (s.setTrunk x).table = s.table := rfl
@[simp] theorem State.setTrunk_roster (s : State) (x : Trunk) : (s.setTrunk x).roster = s.roster := rfl
@[simp] theorem State.setTrunk_planner (s : State) (x : Trunk) : (s.setTrunk x).planner = s.planner := rfl
@[simp] theorem State.setTrunk_trunk (s : State) (x : Trunk) : (s.setTrunk x).trunk = x := rfl
@[simp] theorem State.setTrunk_change (s : State) (x : Trunk) : (s.setTrunk x).change = s.change := rfl
@[simp] theorem State.setTrunk_taps (s : State) (x : Trunk) : (s.setTrunk x).taps = s.taps := rfl
@[simp] theorem State.setTrunk_self (s : State) : s.setTrunk s.trunk = s := rfl

/-! `setChange` -/

@[simp] theorem State.setChange_pending (s : State) (x : Changeover) : (s.setChange x).pending = s.pending := rfl
@[simp] theorem State.setChange_timebase (s : State) (x : Changeover) : (s.setChange x).timebase = s.timebase := rfl
@[simp] theorem State.setChange_clock (s : State) (x : Changeover) : (s.setChange x).clock = s.clock := rfl
@[simp] theorem State.setChange_settings (s : State) (x : Changeover) : (s.setChange x).settings = s.settings := rfl
@[simp] theorem State.setChange_port (s : State) (x : Changeover) : (s.setChange x).port = s.port := rfl
@[simp] theorem State.setChange_intakes (s : State) (x : Changeover) : (s.setChange x).intakes = s.intakes := rfl
@[simp] theorem State.setChange_cat (s : State) (x : Changeover) : (s.setChange x).cat = s.cat := rfl
@[simp] theorem State.setChange_table (s : State) (x : Changeover) : (s.setChange x).table = s.table := rfl
@[simp] theorem State.setChange_roster (s : State) (x : Changeover) : (s.setChange x).roster = s.roster := rfl
@[simp] theorem State.setChange_planner (s : State) (x : Changeover) : (s.setChange x).planner = s.planner := rfl
@[simp] theorem State.setChange_trunk (s : State) (x : Changeover) : (s.setChange x).trunk = s.trunk := rfl
@[simp] theorem State.setChange_change (s : State) (x : Changeover) : (s.setChange x).change = x := rfl
@[simp] theorem State.setChange_taps (s : State) (x : Changeover) : (s.setChange x).taps = s.taps := rfl
@[simp] theorem State.setChange_self (s : State) : s.setChange s.change = s := rfl

/-! `setTaps` -/

@[simp] theorem State.setTaps_pending (s : State) (x : Taps) : (s.setTaps x).pending = s.pending := rfl
@[simp] theorem State.setTaps_timebase (s : State) (x : Taps) : (s.setTaps x).timebase = s.timebase := rfl
@[simp] theorem State.setTaps_clock (s : State) (x : Taps) : (s.setTaps x).clock = s.clock := rfl
@[simp] theorem State.setTaps_settings (s : State) (x : Taps) : (s.setTaps x).settings = s.settings := rfl
@[simp] theorem State.setTaps_port (s : State) (x : Taps) : (s.setTaps x).port = s.port := rfl
@[simp] theorem State.setTaps_intakes (s : State) (x : Taps) : (s.setTaps x).intakes = s.intakes := rfl
@[simp] theorem State.setTaps_cat (s : State) (x : Taps) : (s.setTaps x).cat = s.cat := rfl
@[simp] theorem State.setTaps_table (s : State) (x : Taps) : (s.setTaps x).table = s.table := rfl
@[simp] theorem State.setTaps_roster (s : State) (x : Taps) : (s.setTaps x).roster = s.roster := rfl
@[simp] theorem State.setTaps_planner (s : State) (x : Taps) : (s.setTaps x).planner = s.planner := rfl
@[simp] theorem State.setTaps_trunk (s : State) (x : Taps) : (s.setTaps x).trunk = s.trunk := rfl
@[simp] theorem State.setTaps_change (s : State) (x : Taps) : (s.setTaps x).change = s.change := rfl
@[simp] theorem State.setTaps_taps (s : State) (x : Taps) : (s.setTaps x).taps = x := rfl
@[simp] theorem State.setTaps_self (s : State) : s.setTaps s.taps = s := rfl

/-! The eight drops -/

theorem Per8.get_set {α : Type} (p : Per8 α) (i j : DropId) (x : α) :
    (p.set i x).get j = if j = i then x else p.get j := by
  fin_cases i <;> fin_cases j <;> rfl

@[simp] theorem Per8.get_set_self {α : Type} (p : Per8 α) (i : DropId) (x : α) : (p.set i x).get i = x := by
  simp [Per8.get_set]

theorem Per8.get_set_ne {α : Type} (p : Per8 α) {i j : DropId} (h : j ≠ i) (x : α) : (p.set i x).get j = p.get j := by
  simp [Per8.get_set, h]

@[simp] theorem Per8.get_map {α β : Type} (f : α → β) (p : Per8 α) (i : DropId) : (p.map f).get i = f (p.get i) := by
  fin_cases i <;> rfl

@[simp] theorem Per8.get_all {α : Type} (x : α) (i : DropId) : (Per8.all x).get i = x := by
  fin_cases i <;> rfl

/-- Two containers with the same value at every drop are the same. -/
theorem Per8.ext_get {α : Type} {p q : Per8 α} (h : ∀ i, p.get i = q.get i) : p = q := by
  have h0 := h 0; have h1 := h 1; have h2 := h 2; have h3 := h 3
  have h4 := h 4; have h5 := h 5; have h6 := h 6; have h7 := h 7
  cases p; cases q; simp_all [Per8.get]

/-! A drop's record -/

theorem State.drop_setDrop (s : State) (d e : DropId) (r : Drop) :
    (s.setDrop d r).drop e = if e = d then r else s.drop e := by
  simp [State.drop, State.setDrop, Per8.get_set]

@[simp] theorem Per8.set_set {α : Type} (p : Per8 α) (i : DropId) (x y : α) : (p.set i x).set i y = p.set i y := by
  apply Per8.ext_get
  intro j
  simp only [Per8.get_set]
  split <;> rfl

/-- Of two records written for one drop the last stands. -/
@[simp] theorem State.setDrop_setDrop (s : State) (d : DropId) (x y : Drop) : (s.setDrop d x).setDrop d y = s.setDrop d y := by
  simp only [State.setDrop, State.setRoster, Per8.set_set]

@[simp] theorem State.drop_setDrop_self (s : State) (d : DropId) (r : Drop) : (s.setDrop d r).drop d = r := by
  simp [State.drop_setDrop]

@[simp] theorem State.setDrop_pending (s : State) (d : DropId) (r : Drop) : (s.setDrop d r).pending = s.pending := rfl
@[simp] theorem State.drop_setPending (s : State) (x : List Instr) (d : DropId) : (s.setPending x).drop d = s.drop d := rfl
@[simp] theorem State.setDrop_timebase (s : State) (d : DropId) (r : Drop) : (s.setDrop d r).timebase = s.timebase := rfl
@[simp] theorem State.drop_setTimebase (s : State) (x : Nat) (d : DropId) : (s.setTimebase x).drop d = s.drop d := rfl
@[simp] theorem State.setDrop_clock (s : State) (d : DropId) (r : Drop) : (s.setDrop d r).clock = s.clock := rfl
@[simp] theorem State.drop_setClock (s : State) (x : Clock) (d : DropId) : (s.setClock x).drop d = s.drop d := rfl
@[simp] theorem State.setDrop_settings (s : State) (d : DropId) (r : Drop) : (s.setDrop d r).settings = s.settings := rfl
@[simp] theorem State.drop_setSettings (s : State) (x : Settings) (d : DropId) : (s.setSettings x).drop d = s.drop d := rfl
@[simp] theorem State.setDrop_port (s : State) (d : DropId) (r : Drop) : (s.setDrop d r).port = s.port := rfl
@[simp] theorem State.drop_setPort (s : State) (x : Port) (d : DropId) : (s.setPort x).drop d = s.drop d := rfl
@[simp] theorem State.setDrop_intakes (s : State) (d : DropId) (r : Drop) : (s.setDrop d r).intakes = s.intakes := rfl
@[simp] theorem State.drop_setIntakes (s : State) (x : Intakes) (d : DropId) : (s.setIntakes x).drop d = s.drop d := rfl
@[simp] theorem State.setDrop_cat (s : State) (d : DropId) (r : Drop) : (s.setDrop d r).cat = s.cat := rfl
@[simp] theorem State.drop_setCat (s : State) (x : Catalogue) (d : DropId) : (s.setCat x).drop d = s.drop d := rfl
@[simp] theorem State.setDrop_table (s : State) (d : DropId) (r : Drop) : (s.setDrop d r).table = s.table := rfl
@[simp] theorem State.drop_setTable (s : State) (x : CardTable) (d : DropId) : (s.setTable x).drop d = s.drop d := rfl
@[simp] theorem State.setDrop_planner (s : State) (d : DropId) (r : Drop) : (s.setDrop d r).planner = s.planner := rfl
@[simp] theorem State.drop_setPlanner (s : State) (x : Planner) (d : DropId) : (s.setPlanner x).drop d = s.drop d := rfl
@[simp] theorem State.setDrop_trunk (s : State) (d : DropId) (r : Drop) : (s.setDrop d r).trunk = s.trunk := rfl
@[simp] theorem State.drop_setTrunk (s : State) (x : Trunk) (d : DropId) : (s.setTrunk x).drop d = s.drop d := rfl
@[simp] theorem State.setDrop_change (s : State) (d : DropId) (r : Drop) : (s.setDrop d r).change = s.change := rfl
@[simp] theorem State.drop_setChange (s : State) (x : Changeover) (d : DropId) : (s.setChange x).drop d = s.drop d := rfl
@[simp] theorem State.setDrop_taps (s : State) (d : DropId) (r : Drop) : (s.setDrop d r).taps = s.taps := rfl
@[simp] theorem State.drop_setTaps (s : State) (x : Taps) (d : DropId) : (s.setTaps x).drop d = s.drop d := rfl

/-! Folds -/

/-- What every step of a fold keeps, the fold keeps. -/
theorem foldl_keeps {α β σ : Type} (f : σ → α → σ) (v : σ → β) (h : ∀ s a, v (f s a) = v s) (l : List α) (s : σ) :
    v (l.foldl f s) = v s := by
  induction l generalizing s with
  | nil => rfl
  | cons a l ih => rw [List.foldl_cons, ih, h]

/-- What every step of a fold preserves, the fold preserves. -/
theorem foldl_preserves {α σ : Type} (f : σ → α → σ) (P : σ → Prop) (h : ∀ s a, P s → P (f s a)) (l : List α) (s : σ)
    (hs : P s) : P (l.foldl f s) := by
  induction l generalizing s with
  | nil => exact hs
  | cons a l ih => exact ih _ (h _ _ hs)

end Sys2Proof.Machine
end

