-- ==== Sys2Proof/Laws/Decided.lean ====
section
/-! SUPPORT. One lemma for each operation of the Planner, the Roster and the arbiter that changes no more than `Decided` admits:
what a decision, a re-plan, a raising of a flag or the uplink's choice leaves alone is read off here and never unfolded. -/

namespace Sys2Proof.Machine

theorem Decided.refl (s : State) : Decided s s := by
  constructor <;> intros <;> first | rfl | assumption

theorem Decided.trans {s t u : State} (h : Decided s t) (g : Decided t u) : Decided s u where
  pending := g.pending.trans h.pending
  timebase := g.timebase.trans h.timebase
  clock := g.clock.trans h.clock
  settings := g.settings.trans h.settings
  intakes := g.intakes.trans h.intakes
  change := g.change.trans h.change
  port := g.port.trans h.port
  cat := g.cat.trans h.cat
  table := g.table.trans h.table
  taps := g.taps.trans h.taps
  trunk := g.trunk.trans h.trunk
  lastTap := g.lastTap.trans h.lastTap
  drops := fun d => (g.drops d).trans (h.drops d)
  flying := fun x hx => g.flying x (h.flying x hx)
  sweeping := fun hs => g.sweeping (h.sweeping hs)
  quiet := fun hc hm => by
    have ht := h.quiet hc hm
    have hc' : t.tableClosed = true := by unfold State.tableClosed at hc ⊢; rw [ht]; exact hc
    exact (g.quiet hc' (by rw [ht]; exact hm)).trans ht

/-- A fold of operations of which each is `Decided`. -/
theorem decided_foldl {α : Type} (f : State → α → State) (h : ∀ s a, Decided s (f s a)) (l : List α) (s : State) :
    Decided s (l.foldl f s) := by
  induction l generalizing s with
  | nil => exact .refl s
  | cons a l ih => exact (h s a).trans (ih (f s a))

/-! ### The setters -/

theorem decided_setPlanner (s : State) (x : Planner) : Decided s (s.setPlanner x) := by
  constructor <;> intros <;> first | rfl | assumption

theorem decided_setCat (s : State) (x : Catalogue) (h : x.bare = s.cat.bare) : Decided s (s.setCat x) := by
  constructor <;> intros <;> first | exact h | rfl | assumption

theorem decided_setPort (s : State) (x : Port) (h : x.bare = s.port.bare) : Decided s (s.setPort x) := by
  constructor <;> intros <;> first | exact h | rfl | assumption

theorem decided_setTaps (s : State) (x : Taps) (h : x.bare = s.taps.bare) : Decided s (s.setTaps x) := by
  constructor <;> intros <;> first | exact h | rfl | assumption

/-- A change of the trunk that leaves an exchange in flight where it is. -/
theorem decided_setTrunk (s : State) (x : Trunk) (h : x.bare = s.trunk.bare)
    (g : ∀ y, s.trunk.ex = some y → x.ex = some y) : Decided s (s.setTrunk x) := by
  constructor <;> intros <;> first | exact h | exact g _ (by assumption) | rfl | assumption

/-- A change of the table's marks and sweep alone, one that does nothing while no mark can be held. -/
theorem decided_setTable (s : State) (x : CardTable) (h : x.bare = s.table.bare)
    (g : s.table.sweep.isSome = true → x.sweep.isSome = true)
    (q : s.tableClosed = true → s.table.marks = Per8.all none → x = s.table) : Decided s (s.setTable x) := by
  constructor <;> intros <;>
    first | exact h | exact q (by assumption) (by assumption) | exact g (by assumption) | rfl | assumption

theorem decided_setRoster (s : State) (x : Roster) (h : x.lastTap = s.roster.lastTap) (g : x.drops = s.roster.drops) :
    Decided s (s.setRoster x) := by
  constructor <;> intros <;> first | exact h | assumption | simp [State.drop, g]

theorem decided_setDrop (s : State) (d : DropId) (x : Drop) (h : x.bare = (s.drop d).bare) : Decided s (s.setDrop d x) := by
  constructor <;> intros <;>
    first | rfl | assumption | (rw [State.drop_setDrop]; split <;> simp_all)

/-! ### Read marks and sweep requests -/

theorem requestSweep_table (s : State) : s.requestSweep = s.setTable s.requestSweep.table := by
  unfold State.requestSweep; split <;> rfl

theorem requestSweep_bare (s : State) : s.requestSweep.table.bare = s.table.bare := by
  unfold State.requestSweep; split <;> rfl

theorem requestSweep_sweep (s : State) : s.requestSweep.table.sweep.isSome = true := by
  unfold State.requestSweep; split <;> simp_all

/-- With no mark held anywhere, no drop holds one. -/
theorem mark_of_none (s : State) (h : s.table.marks = Per8.all none) (d : DropId) : s.mark d = none := by
  unfold State.mark; rw [h]; exact Per8.get_all _ _

theorem Per8.set_all {α : Type} (x : α) (d : DropId) : (Per8.all x).set d x = Per8.all x := by
  apply Per8.ext_get
  intro i
  rw [Per8.get_set]
  split <;> simp

/-- A read mark moved, where one is held; the drop's mark is replaced by `m`. -/
theorem setMark_decided (s : State) (d : DropId) (m : Option Mark) (h : s.mark d = none → m = none) :
    Decided s (s.setMark d m) := by
  refine decided_setTable _ _ rfl (fun h => h) (fun _ hm => ?_)
  rw [h (mark_of_none s hm d)]
  show { s.table with marks := s.table.marks.set d none } = s.table
  rw [hm, Per8.set_all]
  cases h : s.table; simp_all

theorem onMark_decided (s : State) (d : DropId) (f : Mark → Mark) : Decided s (s.onMark d f) :=
  setMark_decided _ _ _ (fun h => by rw [h]; rfl)

theorem releaseMark_decided (s : State) (d : DropId) : Decided s (s.releaseMark d) := by
  unfold State.releaseMark
  split
  · exact .refl s
  next m hm =>
    rw [requestSweep_table]
    refine (decided_setTable s (s.setMark d none).requestSweep.table ?_ ?_ ?_ : Decided s (s.setTable _))
    · rw [requestSweep_bare]; rfl
    · exact fun _ => requestSweep_sweep _
    · intro _ h; rw [mark_of_none s h d] at hm; exact absurd hm (by simp)

/-- The placing of a mark: the table is open. -/
theorem placeMark_decided (s : State) (d : DropId) (h : s.tableClosed = false) : Decided s (s.placeMark d) := by
  have hc : (s.releaseMark d).tableClosed = false := by
    unfold State.releaseMark; split
    · exact h
    · unfold State.requestSweep; split <;> exact h
  exact (releaseMark_decided s d).trans
    (decided_setTable _ _ rfl (fun h => h) (fun h' => absurd (hc.symm.trans h') (by simp)))

/-! ### Flags and the uplink -/

/-- A notice put into the queue is seen only by a reader of its flag. -/
theorem queueNotice_filter (q : List Notice) (n : Notice) (P : Notice → Bool) (hn : P n = false)
    (hP : ∀ x, x.flag = n.flag → P x = false) : (queueNotice q n).filter P = q.filter P := by
  unfold queueNotice
  split
  · induction q with
    | nil => rfl
    | cons x xs ih =>
      have ih' : (xs.map fun x => if x.flag = n.flag then n else x).filter P = xs.filter P := by
        by_cases h : xs.any (fun x => x.flag == n.flag) = true
        · exact ih h
        · have : xs.map (fun x => if x.flag = n.flag then n else x) = xs := by
            simp only [List.any_eq_true, beq_iff_eq, not_exists, not_and] at h
            exact (List.map_congr_left (fun y hy => if_neg (h y hy))).trans (List.map_id xs)
          rw [this]
      rw [List.map_cons, List.filter_cons, List.filter_cons, ih']
      by_cases h : x.flag = n.flag
      · simp [h, hn, hP x h]
      · simp [h]
  · simp [hn]

theorem Port.raise_bare (p : Port) (e : Enables) (f : Flag) (c : Ctx) (h : f = .jobFailed ∨ f = .tapqFull) :
    (p.raise e f c).bare = p.bare := by
  unfold Port.raise
  split
  · rfl
  · rcases h with rfl | rfl <;> simp only [Port.bare, FlagSet.put] <;> split <;>
      first
      | rfl
      | (rw [queueNotice_filter _ _ _ (by simp) (by intro x hx; simp only at hx; simp [hx])])

theorem raise_decided (s : State) (f : Flag) (ed : Nat) (c : Option Code) (d : Option DropId)
    (h : f = .jobFailed ∨ f = .tapqFull) : Decided s (s.raise f ed c d) :=
  decided_setPort _ _ (Port.raise_bare _ _ _ _ h)

theorem raiseFailed_decided (s : State) (d : DropId) : Decided s (s.raiseDrop .jobFailed d) :=
  raise_decided _ _ _ _ _ (.inl rfl)

theorem uplink_decided (s : State) : Decided s s.uplink := by
  unfold State.uplink
  split
  · exact decided_setPort _ _ rfl
  · exact .refl s

/-! ### The job queue -/

theorem setJobs_decided (s : State) (js : List Job) : Decided s (s.setJobs js) := decided_setPlanner _ _
theorem putJob_decided (s : State) (j : Job) : Decided s (s.putJob j) := setJobs_decided _ _
theorem addJob_decided (s : State) (j : Job) : Decided s (s.addJob j) := setJobs_decided _ _

theorem leaveMark_decided (s : State) (d : DropId) (k : Kind) : Decided s (s.leaveMark d k) := by
  cases k
  · exact .refl s
  · exact releaseMark_decided s d

theorem removeJob_decided (s : State) (d : DropId) (k : Kind) : Decided s (s.removeJob d k) :=
  (setJobs_decided _ _).trans (leaveMark_decided _ _ _)

theorem writeLog_decided (s : State) (e : LogEntry) : Decided s (s.writeLog e) := by
  unfold State.writeLog
  split
  · exact .refl s
  · exact decided_setPlanner _ _

theorem failJob_decided (s : State) (j : Job) (c : Cause) : Decided s (s.failJob j c) :=
  ((((putJob_decided _ _).trans (leaveMark_decided _ _ _)).trans (raiseFailed_decided _ _)).trans
    (decided_setPlanner _ _)).trans (writeLog_decided _ _)

theorem judgeJobs_decided (s : State) : Decided s s.judgeJobs := setJobs_decided _ _
theorem relevelJobs_decided (s : State) : Decided s s.relevelJobs := setJobs_decided _ _

/-! ### Planning -/

theorem settleJob_decided (s : State) (j : Job) : Decided s (s.settleJob j) := by
  unfold State.settleJob
  split
  · exact failJob_decided _ _ _
  · exact putJob_decided _ _

theorem takePlan_decided (s : State) (d : DropId) (k : Kind) (plan : List Step) (target : Nat) :
    Decided s (s.takePlan d k plan target) := by
  unfold State.takePlan
  split
  · exact (addJob_decided _ _).trans (settleJob_decided _ _)
  · split
    · exact putJob_decided _ _
    · exact ((putJob_decided _ _).trans (leaveMark_decided _ _ _)).trans (settleJob_decided _ _)

theorem noteNofit_decided (s : State) (d : DropId) (b : Bool) : Decided s (s.noteNofit d b) := by
  unfold State.noteNofit
  have h : Decided s (s.setDrop d { s.drop d with blockNofit := b }) := decided_setDrop _ _ _ rfl
  split
  · exact (h.trans (raiseFailed_decided _ _)).trans (writeLog_decided _ _)
  · exact h

theorem noteAhead_decided (s : State) (d : DropId) (b : Bool) : Decided s (s.noteAhead d b) := decided_setDrop _ _ _ rfl

theorem planBlock_decided (s : State) (d : DropId) : Decided s (s.planBlock d) := by
  unfold State.planBlock
  split
  · exact (noteNofit_decided _ _ _).trans (removeJob_decided _ _ _)
  · exact (noteNofit_decided _ _ _).trans (removeJob_decided _ _ _)
  · exact (noteNofit_decided _ _ _).trans (takePlan_decided _ _ _ _ _)
  · exact (noteNofit_decided _ _ _).trans (takePlan_decided _ _ _ _ _)

theorem planFare_decided (s : State) (d : DropId) : Decided s (s.planFare d) := by
  unfold State.planFare
  split
  · exact (noteAhead_decided _ _ _).trans (removeJob_decided _ _ _)
  · exact (noteAhead_decided _ _ _).trans (removeJob_decided _ _ _)
  · exact (noteAhead_decided _ _ _).trans (takePlan_decided _ _ _ _ _)

theorem planKind_decided (s : State) (d : DropId) (k : Kind) : Decided s (s.planKind d k) := by
  cases k
  · exact planFare_decided s d
  · exact planBlock_decided s d

theorem planPair_decided (s : State) (d : DropId) (k : Kind) : Decided s (s.planPair d k) := by
  unfold State.planPair
  split
  · split
    · exact planKind_decided _ _ _
    · split
      · exact .refl s
      · split
        · exact putJob_decided _ _
        · exact planKind_decided _ _ _
  · exact .refl s

theorem planBoth_decided (s : State) (d : DropId) : Decided s (s.planBoth d) :=
  (planPair_decided _ _ _).trans (planPair_decided _ _ _)

theorem planAll_decided (s : State) (k : Kind) : Decided s (s.planAll k) :=
  decided_foldl _ (fun s d => planPair_decided s d k) _ _

theorem planEvery_decided (s : State) : Decided s s.planEvery := decided_foldl _ planBoth_decided _ _

theorem dropFailed_decided (s : State) (k : Kind) : Decided s (s.dropFailed k) := setJobs_decided _ _

theorem replanKind_decided (s : State) (k : Kind) : Decided s (s.replanKind k) :=
  (dropFailed_decided _ _).trans (planAll_decided _ _)

theorem stopStep_decided (s : State) (d : DropId) : Decided s (s.stopStep d) := by
  unfold State.stopStep
  split
  · split
    · exact putJob_decided _ _
    · exact .refl s
  · exact .refl s

/-- The exchange in flight may be replaced on both sides of a decision. -/
theorem Decided.withEx {s t : State} (h : Decided s t) (e : Option Exchange) :
    Decided (s.setTrunk { s.trunk with ex := e }) (t.setTrunk { t.trunk with ex := e }) :=
  ⟨h.pending, h.timebase, h.clock, h.settings, h.intakes, h.change, h.port, h.cat, h.table, h.taps, h.trunk, h.lastTap, h.drops,
    fun _ hx => hx, h.sweeping, h.quiet⟩

theorem stopStep_trunk (s : State) (d : DropId) : (s.stopStep d).trunk = s.trunk := by
  unfold State.stopStep
  split
  · split <;> rfl
  · rfl

/-- The FULL push of a drop ended under the exchange in flight: its step, and the exchange detached from it (R112). -/
theorem endPush_eq (s : State) (d : DropId) :
    s.endPush d = (s.stopStep d).detached (fun e => e == d) := by
  have ht := stopStep_trunk s d
  unfold State.endPush State.detached
  dsimp only
  rw [ht]
  cases hx : s.trunk.ex with
  | none =>
    rw [if_neg (by unfold State.inFlight; rw [ht, hx]; simp)]
    show s.stopStep d = (s.stopStep d).setTrunk { s.trunk with ex := none }
    rw [← hx, ← ht]; rfl
  | some x =>
    split
    next h =>
      unfold State.inFlight at h
      rw [ht, hx] at h
      simp only [Bool.and_eq_true, beq_iff_eq] at h
      simp [Exchange.detachedFrom, h.1, h.2]
    next h =>
      unfold State.inFlight at h
      rw [ht, hx] at h
      simp only [Bool.and_eq_true, beq_iff_eq, not_and] at h
      have e : Exchange.detachedFrom (fun e => e == d) x = x := by
        unfold Exchange.detachedFrom
        by_cases k : x.kind = .push .block
        · cases hd : x.drop with
          | none => cases x; simp_all
          | some f =>
            have hf : (f == d) = false := by simp; rintro rfl; exact h k hd
            cases x; simp_all
        · cases x; simp_all
      show s.stopStep d = (s.stopStep d).setTrunk { s.trunk with ex := some (Exchange.detachedFrom (fun e => e == d) x) }
      rw [e, ← hx, ← ht]; rfl

/-- A decision after which the exchange is detached is one on the hub with the exchange detached. -/
theorem Decided.detached {s t : State} (h : Decided s t) (p : DropId → Bool) (g : t.trunk.ex = s.trunk.ex) :
    Decided (s.detached p) (t.detached p) := by
  have := h.withEx (s.trunk.ex.map (Exchange.detachedFrom p))
  unfold State.detached
  rw [g]
  exact this

/-- To be detached twice. -/
theorem detachedFrom_trans (p q : DropId → Bool) (x : Exchange) :
    Exchange.detachedFrom q (Exchange.detachedFrom p x) = Exchange.detachedFrom (fun d => p d || q d) x := by
  unfold Exchange.detachedFrom
  cases hd : x.drop with
  | none => simp
  | some d => simp [Bool.or_assoc, Bool.and_or_distrib_left]

theorem detached_trans (s : State) (p q : DropId → Bool) : (s.detached p).detached q = s.detached (fun d => p d || q d) := by
  unfold State.detached
  show s.setTrunk { s.trunk with ex := (s.trunk.ex.map (Exchange.detachedFrom p)).map (Exchange.detachedFrom q) } = _
  rw [Option.map_map, show Exchange.detachedFrom q ∘ Exchange.detachedFrom p = Exchange.detachedFrom (fun d => p d || q d) from
    funext (detachedFrom_trans p q)]

/-- No drop's push has ended. -/
theorem detached_none (s : State) (p : DropId → Bool) (h : ∀ d, p d = false) : s.detached p = s := by
  have e : Exchange.detachedFrom p = id := by
    funext x
    unfold Exchange.detachedFrom
    cases hd : x.drop <;> simp [h]
    all_goals cases x; simp_all
  unfold State.detached
  rw [e, Option.map_id]; rfl

theorem endPush_decided (s : State) (d : DropId) : Decided (s.detached (fun e => e == d)) (s.endPush d) := by
  rw [endPush_eq]
  exact (stopStep_decided s d).detached _ (by rw [stopStep_trunk])

theorem promoteJob_decided (s : State) (j : Job) : Decided s (s.promoteJob j) := putJob_decided _ _

theorem lateListed_decided (s : State) (d : DropId) : Decided s (s.lateListed d) := by
  unfold State.lateListed
  split
  · split
    · exact .refl s
    · exact promoteJob_decided _ _
  · dsimp only
    split
    · exact (planPair_decided _ _ _).trans (promoteJob_decided _ _)
    · exact planPair_decided _ _ _

/-! ### The outcome of a push exchange -/

theorem moveCursor_decided (s : State) (j : Job) (f : Mark → Mark) : Decided s (s.moveCursor j f) := by
  unfold State.moveCursor
  split
  · exact onMark_decided _ _ _
  · exact .refl s

theorem countRetry_decided (s : State) (j : Job) (c : Cause) (move : State → Job → State)
    (h : ∀ s j, Decided s (move s j)) : Decided s (s.countRetry j c move) := by
  unfold State.countRetry
  dsimp only
  split
  · exact (decided_setPlanner _ _).trans (failJob_decided _ _ _)
  · exact (decided_setPlanner _ _).trans (h _ _)

theorem resume_decided (s : State) (j : Job) : Decided s (s.resume j) := by
  unfold State.resume
  split
  · exact (moveCursor_decided _ _ _).trans (putJob_decided _ _)
  · exact putJob_decided _ _

theorem reopen_decided (s : State) (j : Job) : Decided s (s.reopen j) := putJob_decided _ _

theorem resend_decided (s : State) (j : Job) : Decided s (s.resend j) :=
  (moveCursor_decided _ _ _).trans (putJob_decided _ _)

theorem restage_decided (s : State) (j : Job) : Decided s (s.restage j) :=
  (putJob_decided _ _).trans (settleJob_decided _ _)

theorem stepBack_decided (s : State) (j : Job) (n : Nat) : Decided s (s.stepBack j n) := by
  unfold State.stepBack
  split
  · exact (moveCursor_decided _ _ _).trans (putJob_decided _ _)
  · exact putJob_decided _ _

theorem takeBadSequence_decided (s : State) (j : Job) : Decided s (s.takeBadSequence j) := by
  unfold State.takeBadSequence
  split
  · exact countRetry_decided _ _ _ _ resume_decided
  · exact countRetry_decided _ _ _ _ reopen_decided

theorem takeNak_decided (s : State) (j : Job) (r : NakReason) : Decided s (s.takeNak j r) := by
  unfold State.takeNak
  split
  · exact failJob_decided _ _ _
  · exact takeBadSequence_decided _ _
  · split
    · exact countRetry_decided _ _ _ _ resend_decided
    · exact countRetry_decided _ _ _ _ resume_decided
  · split
    · exact countRetry_decided _ _ _ _ restage_decided
    · exact countRetry_decided _ _ _ _ resume_decided
  · exact countRetry_decided _ _ _ _ resume_decided

theorem takeOpened_decided (s : State) (j : Job) (k : Nat) : Decided s (s.takeOpened j k) := by
  unfold State.takeOpened
  split
  · exact putJob_decided _ _
  · split
    · exact putJob_decided _ _
    · exact takeBadSequence_decided _ _

theorem takeBurst_decided (s : State) (j : Job) (n : Nat) : Decided s (s.takeBurst j n) :=
  (moveCursor_decided _ _ _).trans (putJob_decided _ _)

theorem endStep_decided (s : State) (j : Job) : Decided s (s.endStep j) :=
  (putJob_decided _ _).trans (leaveMark_decided _ _ _)

theorem takeClosed_decided (s : State) (j : Job) (e : Nat) : Decided s (s.takeClosed j e) := by
  unfold State.takeClosed
  dsimp only
  split
  · exact endStep_decided _ _
  · exact (endStep_decided _ _).trans (planPair_decided _ _ _)

theorem takeActivated_decided (s : State) (j : Job) (e : Nat) : Decided s (s.takeActivated j e) :=
  (endStep_decided _ _).trans (planPair_decided _ _ _)

theorem takeOutcome_decided (s : State) (j : Job) (o : PushOutcome) : Decided s (s.takeOutcome j o) := by
  unfold State.takeOutcome
  split
  · split
    · exact takeOpened_decided _ _ _
    · exact takeBurst_decided _ _ _
    · exact takeClosed_decided _ _ _
    · exact takeActivated_decided _ _ _
  · exact takeNak_decided _ _ _
  · exact countRetry_decided _ _ _ _ resume_decided
  · exact takeBadSequence_decided _ _
  · exact countRetry_decided _ _ _ _ (fun s j => stepBack_decided s j _)
  · exact .refl s

theorem handOutcome_decided (s : State) (d : DropId) (k : Kind) (b : Bool) (o : PushOutcome) :
    Decided s (s.handOutcome d k b o) := by
  unfold State.handOutcome
  split
  · split
    · exact .refl s
    · exact takeOutcome_decided _ _ _
  · exact .refl s

theorem takeReplan_decided (s : State) (d : DropId) (k : Kind) : Decided s (s.takeReplan d k) := by
  unfold State.takeReplan
  split
  · split
    · exact (putJob_decided _ _).trans (planPair_decided _ _ _)
    · exact .refl s
  · exact .refl s

theorem rejudge_decided (s : State) (d : DropId) (k : Kind) : Decided s (s.rejudge d k) := by
  unfold State.rejudge
  split
  · exact putJob_decided _ _
  · exact .refl s

theorem pushEnded_decided (s : State) (d : DropId) (k : Kind) (detached : Bool) (o : PushOutcome) :
    Decided s (s.pushEnded d k detached o) :=
  ((handOutcome_decided _ _ _ _ _).trans (takeReplan_decided _ _ _)).trans (rejudge_decided _ _ _)

/-! ### Forming exchanges and the arbiter -/

theorem displace_decided (s : State) (d : DropId) (k : Kind) : Decided s (s.displace d k) := by
  unfold State.displace
  split
  · exact decided_setPlanner _ _
  · exact .refl s

/-- What forms an exchange: none is in flight. -/
theorem decided_setTrunk_idle (s : State) (x : Trunk) (h : x.bare = s.trunk.bare) (g : s.trunk.ex = none) :
    Decided s (s.setTrunk x) := decided_setTrunk s x h (fun y hy => absurd (g.symm.trans hy) (by simp))

/-- A change of the trunk that keeps the exchange. -/
theorem decided_setTrunk_same (s : State) (x : Trunk) (h : x.bare = s.trunk.bare) (g : x.ex = s.trunk.ex) :
    Decided s (s.setTrunk x) := decided_setTrunk s x h (fun y hy => g.trans hy)

theorem beginExchange_decided (s : State) (kind : ExKind) (drop : Option DropId) (f : TrunkFrame) (bs be : Nat)
    (g : s.trunk.ex = none) : Decided s (s.beginExchange kind drop f bs be) := decided_setTrunk_idle _ _ (by rfl) g

theorem formBroadcast_decided (s : State) (p : Nat) (g : s.trunk.ex = none) : Decided s (s.formBroadcast p) :=
  (decided_setTrunk_same s { s.trunk with request := none } rfl rfl).trans (beginExchange_decided _ _ _ _ _ _ g)

theorem noteAllowance_trunk (s : State) : s.noteAllowance.trunk = s.trunk := by
  unfold State.noteAllowance; split <;> rfl

theorem noteAllowance_decided (s : State) : Decided s s.noteAllowance := by
  unfold State.noteAllowance
  split
  · exact (decided_setTaps _ _ (by rfl)).trans (raise_decided _ _ _ _ _ (.inr rfl))
  · exact .refl s

theorem formPoll_decided (s : State) (kind : ExKind) (d : DropId) (g : s.trunk.ex = none) : Decided s (s.formPoll kind d) :=
  ((noteAllowance_decided _).trans (decided_setDrop _ _ _ (by rfl))).trans
    (beginExchange_decided _ _ _ _ _ _ (by rw [State.setDrop_trunk, noteAllowance_trunk]; exact g))

theorem formUrgent_decided (s : State) (d : DropId) (g : s.trunk.ex = none) : Decided s (s.formUrgent d) :=
  (decided_setTrunk_same s { s.trunk with lastUrgent := some d } rfl rfl).trans (formPoll_decided _ _ _ g)

theorem displace_trunk (s : State) (d : DropId) (k : Kind) : (s.displace d k).trunk = s.trunk := by
  unfold State.displace; split <;> rfl

theorem formPush_decided (s : State) (j : Job) (f : TrunkFrame) (bs be : Nat) (g : s.trunk.ex = none) :
    Decided s (s.formPush j f bs be) := by
  have g' : (s.displace j.drop j.kind).trunk.ex = none := by rw [displace_trunk]; exact g
  exact ((((displace_decided _ _ _).trans (putJob_decided _ _)).trans (decided_setPlanner _ _)).trans
    (decided_setTrunk_same _ _ (by rfl) (by rfl))).trans (beginExchange_decided _ _ _ _ _ _ g')

theorem releaseMark_trunk (s : State) (d : DropId) : (s.releaseMark d).trunk = s.trunk := by
  unfold State.releaseMark State.requestSweep
  split
  · rfl
  · split <;> rfl

theorem placeMark_trunk (s : State) (d : DropId) : (s.placeMark d).trunk = s.trunk := releaseMark_trunk s d

theorem openFull_decided (s : State) (j : Job) (g : s.trunk.ex = none) : Decided s (s.openFull j) := by
  unfold State.openFull
  split
  · exact .refl s
  next h =>
    have hp := placeMark_decided s j.drop (by simpa using h)
    dsimp only
    split
    · exact hp.trans (formPush_decided _ _ _ _ _ (by rw [placeMark_trunk]; exact g))
    · exact ((hp.trans (releaseMark_decided _ _)).trans (putJob_decided _ _)).trans (planPair_decided _ _ _)

theorem openStep_decided (s : State) (j : Job) (g : s.trunk.ex = none) : Decided s (s.openStep j) := by
  unfold State.openStep
  split
  · split
    · exact formPush_decided _ _ _ _ _ g
    · exact .refl s
  · exact openFull_decided _ _ g
  · split
    · exact formPush_decided _ _ _ _ _ g
    · exact .refl s
  · exact .refl s
  · exact .refl s

theorem moveCursor_trunk (s : State) (j : Job) (f : Mark → Mark) : (s.moveCursor j f).trunk = s.trunk := by
  unfold State.moveCursor; split <;> rfl

theorem sendBurst_decided (s : State) (j : Job) (g : s.trunk.ex = none) : Decided s (s.sendBurst j) := by
  unfold State.sendBurst
  dsimp only
  split
  · exact (moveCursor_decided _ _ _).trans (formPush_decided _ _ _ _ _ (by rw [moveCursor_trunk]; exact g))
  · exact .refl s

theorem wake_decided (s : State) (j : Job) : Decided s (s.wake j).1 := by
  unfold State.wake
  split
  · split
    next m hm => exact setMark_decided _ _ _ (fun h => absurd (hm.symm.trans h) (by simp))
    · exact .refl s
  · exact .refl s

theorem wake_trunk (s : State) (j : Job) : (s.wake j).1.trunk = s.trunk := by
  unfold State.wake
  split
  · split <;> rfl
  · rfl

theorem pushJob_decided (s : State) (j : Job) (g : s.trunk.ex = none) : Decided s (s.pushJob j) := by
  have g' : (s.wake j).1.trunk.ex = none := by rw [wake_trunk]; exact g
  unfold State.pushJob
  dsimp only
  split
  · exact (wake_decided _ _).trans (openStep_decided _ _ g')
  · exact (wake_decided _ _).trans (sendBurst_decided _ _ g')
  · split
    · exact (wake_decided _ _).trans (formPush_decided _ _ _ _ _ g')
    · exact wake_decided _ _
  · exact (wake_decided _ _).trans (formPush_decided _ _ _ _ _ g')

theorem tryJob_decided (s : State) (d : DropId) (k : Kind) : Decided s (s.tryJob d k) := by
  unfold State.tryJob
  split
  · exact .refl s
  next h =>
    split
    · split
      · exact pushJob_decided _ _ (by simpa using h)
      · exact .refl s
    · exact .refl s

theorem pushChoice_decided (s : State) : Decided s s.pushChoice :=
  decided_foldl _ (fun s (j : Job) => tryJob_decided s j.drop j.kind) _ _

theorem endRound_decided (s : State) : Decided s s.endRound :=
  (decided_setTrunk_same s { s.trunk with round := none } rfl rfl).trans (decided_setRoster _ _ (by rfl) (by rfl))

theorem openRound_decided (s : State) : Decided s s.openRound :=
  (decided_setTrunk_same s { s.trunk with round := some s.roundList, pushCount := 0, rounds := bump s.trunk.rounds 1 } rfl
    rfl).trans (decided_setRoster _ _ (by rfl) (by rfl))

theorem startPause_decided (s : State) : Decided s s.startPause := by
  unfold State.startPause
  split
  · exact decided_setTrunk_same _ _ (by rfl) (by rfl)
  · exact .refl s

theorem startRound_decided (s : State) : Decided s s.startRound := by
  unfold State.startRound
  split
  · exact ((openRound_decided _).trans (endRound_decided _)).trans (startPause_decided _)
  · exact openRound_decided _

theorem startPause_ex (s : State) : s.startPause.trunk.ex = s.trunk.ex := by
  unfold State.startPause; split <;> rfl

theorem startRound_ex (s : State) : s.startRound.trunk.ex = s.trunk.ex := by
  unfold State.startRound
  split
  · rw [startPause_ex]; rfl
  · rfl

theorem takeTurn_decided (s : State) (g : s.trunk.ex = none) : Decided s s.takeTurn := by
  unfold State.takeTurn
  split
  · exact .refl s
  · split
    · exact endRound_decided _
    next d rest _ => exact (decided_setTrunk_same s { s.trunk with round := some rest } rfl rfl).trans (formPoll_decided _ _ _ g)

theorem roundStep_decided (s : State) (g : s.trunk.ex = none) : Decided s s.roundStep := by
  unfold State.roundStep
  dsimp only
  split
  next h =>
    have h' : s.takeTurn.trunk.ex = none := by simpa using h.1
    exact ((takeTurn_decided _ g).trans (startRound_decided _)).trans (takeTurn_decided _ (by rw [startRound_ex]; exact h'))
  · exact takeTurn_decided _ g

theorem pushStep_decided (s : State) : Decided s s.pushStep := by
  unfold State.pushStep
  dsimp only
  split
  next h =>
    have h' : s.pushChoice.trunk.ex = none := by simpa using h.1
    exact ((pushChoice_decided _).trans (startRound_decided _)).trans (takeTurn_decided _ (by rw [startRound_ex]; exact h'))
  · exact pushChoice_decided _

theorem arbitrate_decided (s : State) : Decided s s.arbitrate := by
  unfold State.arbitrate
  split
  · exact .refl s
  next h =>
    have g : s.trunk.ex = none := by simpa using h
    split
    · exact formBroadcast_decided _ _ g
    · split
      · exact formUrgent_decided _ _ g
      · dsimp only
        split
        · exact roundStep_decided _ g
        · exact (roundStep_decided _ g).trans (pushStep_decided _)

theorem freeRecords_decided (s : State) : Decided s s.freeRecords := decided_setCat _ _ (by rfl)

theorem conclude_decided (s : State) : Decided s s.conclude :=
  ((arbitrate_decided _).trans (freeRecords_decided _)).trans (uplink_decided _)

end Sys2Proof.Machine
end

