-- ==== Sys2Proof/Laws/Moved.lean ====
section
/-! SUPPORT. What the Changeover Controller may change besides what a decision may change, and what the presence events of one drop
may change: one lemma for each operation. -/

namespace Sys2Proof.Machine

/-- `t` is `s` but for what a decision may change, the changeover record, the activation hold and the flag CHANGEOVER_HELD. -/
structure Moved (s t : State) : Prop where
  pending : t.pending = s.pending
  timebase : t.timebase = s.timebase
  clock : t.clock = s.clock
  settings : t.settings = s.settings
  intakes : t.intakes = s.intakes
  port : t.port.core = s.port.core
  flags : ∀ f, f ≠ .changeoverHeld → f ≠ .jobFailed → f ≠ .tapqFull → t.port.flags.get f = s.port.flags.get f
  cat : { t.cat.bare with hold := none } = { s.cat.bare with hold := none }
  table : t.table.bare = s.table.bare
  taps : t.taps.bare = s.taps.bare
  trunk : t.trunk.bare = s.trunk.bare
  lastTap : t.roster.lastTap = s.roster.lastTap
  drops : ∀ d, (t.drop d).bare = (s.drop d).bare
  flying : ∀ x, s.trunk.ex = some x → t.trunk.ex = some x
  sweeping : s.table.sweep.isSome = true → t.table.sweep.isSome = true
  quiet : s.tableClosed = true → s.table.marks = Per8.all none → t.table = s.table

/-- Two ports with the same bare form agree in every flag but two. -/
theorem Port.flags_of_bare {p q : Port} (h : p.bare = q.bare) (f : Flag) (h1 : f ≠ .jobFailed) (h2 : f ≠ .tapqFull) :
    p.flags.get f = q.flags.get f := by
  have hf := congrArg (fun x => x.flags.get f) h
  cases f <;> first | exact hf | exact absurd rfl h1 | exact absurd rfl h2

/-- Two ports with the same bare form agree in everything but flags, notices and the frame in transmission. -/
theorem Port.core_of_bare {p q : Port} (h : p.bare = q.bare) : p.core = q.core := by
  have := congrArg Port.core h
  exact this

theorem Decided.moved {s t : State} (h : Decided s t) : Moved s t where
  pending := h.pending
  timebase := h.timebase
  clock := h.clock
  settings := h.settings
  intakes := h.intakes
  port := Port.core_of_bare h.port
  flags := fun f _ h1 h2 => Port.flags_of_bare h.port f h1 h2
  cat := by rw [h.cat]
  table := h.table
  taps := h.taps
  trunk := h.trunk
  lastTap := h.lastTap
  drops := h.drops
  flying := h.flying
  sweeping := h.sweeping
  quiet := h.quiet

theorem Moved.refl (s : State) : Moved s s := (Decided.refl s).moved

theorem Moved.trans {s t u : State} (h : Moved s t) (g : Moved t u) : Moved s u where
  pending := g.pending.trans h.pending
  timebase := g.timebase.trans h.timebase
  clock := g.clock.trans h.clock
  settings := g.settings.trans h.settings
  intakes := g.intakes.trans h.intakes
  port := g.port.trans h.port
  flags := fun f h1 h2 h3 => (g.flags f h1 h2 h3).trans (h.flags f h1 h2 h3)
  cat := g.cat.trans h.cat
  table := g.table.trans h.table
  taps := g.taps.trans h.taps
  trunk := g.trunk.trans h.trunk
  lastTap := g.lastTap.trans h.lastTap
  drops := fun d => (g.drops d).trans (h.drops d)
  flying := fun x hx => g.flying x (h.flying x hx)
  sweeping := fun hs => g.sweeping (h.sweeping hs)
  quiet := fun hc hm => by
    have ht := h.quiet hc hm
    have hc' : t.tableClosed = true := by unfold State.tableClosed at hc ⊢; rw [ht]; exact hc
    exact (g.quiet hc' (by rw [ht]; exact hm)).trans ht

/-! ### The Changeover Controller -/

theorem moved_setChange (s : State) (x : Changeover) : Moved s (s.setChange x) := by
  constructor <;> intros <;> first | rfl | assumption

theorem moved_setHold (s : State) (h : Option Nat) : Moved s (s.setCat { s.cat with hold := h }) := by
  constructor <;> intros <;> first | rfl | assumption

theorem moved_setRequest (s : State) (p : Option Nat) : Moved s (s.setTrunk { s.trunk with request := p }) := by
  constructor <;> intros <;> first | rfl | assumption

/-- A raising leaves every other flag alone. -/
theorem Port.raise_flags (p : Port) (e : Enables) (f : Flag) (c : Ctx) (g : Flag) (h : g ≠ f) :
    (p.raise e f c).flags.get g = p.flags.get g := by
  unfold Port.raise
  split
  · rfl
  · cases f <;> cases g <;> first | rfl | exact absurd rfl h

/-- A raising changes flags and notices alone. -/
theorem Port.raise_core (p : Port) (e : Enables) (f : Flag) (c : Ctx) : (p.raise e f c).core = p.core := by
  unfold Port.raise
  split <;> rfl

theorem moved_raiseHeld (s : State) (p : Nat) : Moved s (s.raiseEdition .changeoverHeld p) := by
  constructor <;> intros <;>
    first
    | rfl
    | assumption
   
    | exact Port.raise_core _ _ _ _
    | exact Port.raise_flags _ _ _ _ _ (by assumption)

theorem activate_moved (s : State) (p : Nat) : Moved s (s.activate p) :=
  ((moved_setHold _ _).trans (moved_setRequest _ _)).trans (moved_setChange _ _)

theorem foundReady_moved (s : State) (p : Nat) (f : Bool) : Moved s (s.foundReady p f) := by
  unfold State.foundReady
  dsimp only
  split
  · exact (moved_setChange _ _).trans (activate_moved _ _)
  · exact (moved_setChange _ _).trans (moved_setChange _ _)

theorem judgeReady_moved (s : State) : Moved s s.judgeReady := by
  unfold State.judgeReady
  split
  · split
    · exact foundReady_moved _ _ _
    · split
      · exact foundReady_moved _ _ _
      · exact .refl s
  · exact .refl s

theorem passHold_moved (s : State) (p : Nat) : Moved s (s.passHold p) := by
  unfold State.passHold
  dsimp only
  split
  · exact (moved_setChange _ _).trans (judgeReady_moved _)
  · exact ((moved_setChange _ _).trans (moved_raiseHeld _ _)).trans (judgeReady_moved _)

theorem enterDue_moved (s : State) (p : Nat) : Moved s (s.enterDue p) := by
  unfold State.enterDue
  dsimp only
  split
  · exact (moved_setChange _ _).trans (passHold_moved _ _)
  · split
    · exact ((moved_setChange _ _).trans (moved_setChange _ _)).trans (judgeReady_moved _)
    · exact (moved_setChange _ _).trans (judgeReady_moved _)

theorem dueTest_moved (s : State) : Moved s s.dueTest := by
  unfold State.dueTest
  split
  · exact moved_setChange _ _
  · split
    · exact enterDue_moved _ _
    · exact moved_setChange _ _

theorem changeoverClock_moved (s : State) (b : Bool) : Moved s (s.changeoverClock b) := by
  unfold State.changeoverClock
  split
  · split
    · exact enterDue_moved _ _
    · exact .refl s
  · split
    · split
      · split
        · exact passHold_moved _ _
        · exact moved_setChange _ _
      · exact .refl s
    · split
      · exact passHold_moved _ _
      · exact .refl s
    · exact .refl s
    · exact .refl s
  · exact .refl s

theorem changeoverNewP_moved (s : State) : Moved s s.changeoverNewP := by
  unfold State.changeoverNewP
  split
  · exact .refl s
  · exact dueTest_moved s

theorem endDoorWait_moved (s : State) : Moved s s.endDoorWait := by
  unfold State.endDoorWait
  split
  · exact activate_moved _ _
  · exact .refl s

theorem changeoverDoors_moved (s : State) : Moved s s.changeoverDoors := by
  unfold State.changeoverDoors
  split
  · exact endDoorWait_moved s
  · exact .refl s

theorem changeoverRestart_moved (s : State) : Moved s s.changeoverRestart := by
  unfold State.changeoverRestart
  split
  · exact .refl s
  all_goals exact dueTest_moved s

end Sys2Proof.Machine
end

