-- ==== Sys2Proof/Laws/Ended.lean ====
section
/-! SUPPORT. What the end of an exchange with a drop may change, operation by operation, and the drop's record after it. -/

namespace Sys2Proof.Machine

/-- `t` is `s` but for what a decision or the changeover may change, any flag and notice, the exchange, and the record of `d`. -/
structure Ended (d : DropId) (s t : State) : Prop where
  pending : t.pending = s.pending
  timebase : t.timebase = s.timebase
  clock : t.clock = s.clock
  settings : t.settings = s.settings
  intakes : t.intakes = s.intakes
  port : t.port.core = s.port.core
  cat : { t.cat.bare with hold := none } = { s.cat.bare with hold := none }
  table : t.table.bare = s.table.bare
  taps : t.taps.bare = s.taps.bare
  trunk : t.trunk.bare = s.trunk.bare
  lastTap : t.roster.lastTap = s.roster.lastTap
  drops : ∀ e, e ≠ d → (t.drop e).bare = (s.drop e).bare

theorem Ended.refl (d : DropId) (s : State) : Ended d s s := by constructor <;> intros <;> rfl

theorem Ended.trans {d : DropId} {s t u : State} (h : Ended d s t) (g : Ended d t u) : Ended d s u where
  pending := g.pending.trans h.pending
  timebase := g.timebase.trans h.timebase
  clock := g.clock.trans h.clock
  settings := g.settings.trans h.settings
  intakes := g.intakes.trans h.intakes
  port := g.port.trans h.port
  cat := g.cat.trans h.cat
  table := g.table.trans h.table
  taps := g.taps.trans h.taps
  trunk := g.trunk.trans h.trunk
  lastTap := g.lastTap.trans h.lastTap
  drops := fun e he => (g.drops e he).trans (h.drops e he)

theorem Moved.ended {s t : State} (d : DropId) (h : Moved s t) : Ended d s t :=
  ⟨h.pending, h.timebase, h.clock, h.settings, h.intakes, h.port, h.cat, h.table, h.taps, h.trunk, h.lastTap,
    fun e _ => h.drops e⟩

theorem Decided.ended {s t : State} (d : DropId) (h : Decided s t) : Ended d s t := h.moved.ended d

theorem Ended.exchangeEnded {d : DropId} {s t : State} (h : Ended d s t) : ExchangeEnded d s t :=
  ⟨h.pending, h.clock, h.settings, h.intakes, h.port, h.cat, h.table, h.drops⟩

theorem ExchangeEnded.trans {d : DropId} {s t u : State} (h : ExchangeEnded d s t) (g : ExchangeEnded d t u) :
    ExchangeEnded d s u where
  pending := g.pending.trans h.pending
  clock := g.clock.trans h.clock
  settings := g.settings.trans h.settings
  intakes := g.intakes.trans h.intakes
  port := g.port.trans h.port
  cat := g.cat.trans h.cat
  table := g.table.trans h.table
  drops := fun e he => (g.drops e he).trans (h.drops e he)

/-- Any change of the trunk, of the timebase or of the tap queue is admitted. -/
theorem ExchangeEnded.setTrunk {d : DropId} (s : State) (x : Trunk) : ExchangeEnded d s (s.setTrunk x) := by
  constructor <;> intros <;> rfl
theorem ExchangeEnded.setTimebase {d : DropId} (s : State) (x : Nat) : ExchangeEnded d s (s.setTimebase x) := by
  constructor <;> intros <;> rfl

theorem ended_setDrop (s : State) (d : DropId) (x : Drop) : Ended d s (s.setDrop d x) := by
  constructor <;> intros <;> first | rfl | (rw [State.drop_setDrop, if_neg (by assumption)])

theorem ended_raise (s : State) (d : DropId) (f : Flag) (ed : Nat) (c : Option Code) (o : Option DropId) :
    Ended d s (s.raise f ed c o) := by
  constructor <;> intros <;> first | rfl | exact Port.raise_core _ _ _ _

theorem ended_setTrunk (s : State) (d : DropId) (x : Trunk) (h : x.bare = s.trunk.bare) : Ended d s (s.setTrunk x) := by
  constructor <;> intros <;> first | rfl | exact h

/-! ### The record of a drop through the planning operations and the raising of a flag -/

theorem Moved.drop {s t : State} (h : Moved s t) (d : DropId) : (t.drop d).bare = (s.drop d).bare := h.drops d

theorem forgetDrop_ended (s : State) (d : DropId) : Ended d s (s.forgetDrop d) := by
  unfold State.forgetDrop
  dsimp only
  exact (((removeJob_decided _ _ _).trans (removeJob_decided _ _ _)).trans (releaseMark_decided _ _)).ended d |>.trans
    (ended_setDrop _ _ _)

theorem forgetDrop_drop (s : State) (d : DropId) : ((s.forgetDrop d).drop d).bare = (s.drop d).bare := by
  have h := ((removeJob_decided s d .fare).trans (removeJob_decided _ d .block)).trans (releaseMark_decided _ d)
  unfold State.forgetDrop
  dsimp only
  rw [State.drop_setDrop, if_pos rfl]
  exact h.drops d

theorem countDrop_ended (s : State) (d : DropId) (f : DropCounters → DropCounters) : Ended d s (s.countDrop d f) :=
  ended_setDrop _ _ _

theorem countDrop_drop (s : State) (d : DropId) (f : DropCounters → DropCounters) :
    (s.countDrop d f).drop d = { s.drop d with counters := f (s.drop d).counters } := by
  unfold State.countDrop; rw [State.drop_setDrop, if_pos rfl]

theorem setPresence_ended (s : State) (d : DropId) (p : Presence) (n : Nat) : Ended d s (s.setPresence d p n) :=
  ended_setDrop _ _ _

theorem setPresence_drop (s : State) (d : DropId) (p : Presence) (n : Nat) :
    (s.setPresence d p n).drop d = { s.drop d with presence := p, run := n } := by
  unfold State.setPresence; rw [State.drop_setDrop, if_pos rfl]

theorem raiseDrop_drop (s : State) (f : Flag) (o d : DropId) : (s.raiseDrop f o).drop d = s.drop d := rfl

theorem joinDrop_ended (s : State) (d : DropId) : Ended d s (s.joinDrop d) := by
  unfold State.joinDrop
  dsimp only
  exact (((setPresence_ended _ _ _ _).trans (countDrop_ended _ _ _)).trans (ended_raise _ _ _ _ _ _)).trans
    ((planBoth_decided _ _).ended d)

theorem joinDrop_drop (s : State) (d : DropId) :
    ((s.joinDrop d).drop d).bare =
      { s.drop d with
        presence := .present, run := 0
        counters := { (s.drop d).counters with joins := bump (s.drop d).counters.joins 1 } }.bare := by
  unfold State.joinDrop
  dsimp only
  rw [(planBoth_decided _ _).drops d, raiseDrop_drop, countDrop_drop, setPresence_drop]

theorem loseDrop_ended (s : State) (d : DropId) : Ended d s (s.loseDrop d) := by
  unfold State.loseDrop
  dsimp only
  exact (((setPresence_ended _ _ _ _).trans (forgetDrop_ended _ _)).trans (countDrop_ended _ _ _)).trans
    (ended_raise _ _ _ _ _ _)

/-- Two records with the same bare form have the same bare form after a change of the counters. -/
theorem Drop.bare_counters {r q : Drop} (h : r.bare = q.bare) (f : DropCounters → DropCounters) :
    { r with counters := f r.counters }.bare = { q with counters := f q.counters }.bare := by
  have := congrArg (fun x : Drop => { x with counters := f x.counters }) h
  exact this

theorem loseDrop_drop (s : State) (d : DropId) :
    ((s.loseDrop d).drop d).bare =
      { s.drop d with
        presence := .absent, run := 0
        counters := { (s.drop d).counters with losses := bump (s.drop d).counters.losses 1 } }.bare := by
  unfold State.loseDrop
  dsimp only
  rw [raiseDrop_drop, countDrop_drop]
  have h := forgetDrop_drop (s.setPresence d .absent 0) d
  rw [setPresence_drop] at h
  exact Drop.bare_counters h (fun c => { c with losses := bump c.losses 1 })

theorem presenceGood_ended (s : State) (d : DropId) : Ended d s (s.presenceGood d) := by
  unfold State.presenceGood
  split
  · exact .refl d s
  · exact setPresence_ended _ _ _ _
  · exact joinDrop_ended _ _
  · exact setPresence_ended _ _ _ _
  · exact setPresence_ended _ _ _ _

theorem presenceMiss_ended (s : State) (d : DropId) : Ended d s (s.presenceMiss d) := by
  unfold State.presenceMiss
  split
  · exact .refl d s
  · exact setPresence_ended _ _ _ _
  · exact loseDrop_ended _ _
  · exact setPresence_ended _ _ _ _
  · split
    · exact loseDrop_ended _ _
    · exact setPresence_ended _ _ _ _

theorem goodEvent_ended (s : State) (d : DropId) : Ended d s (s.goodEvent d) := by
  unfold State.goodEvent; split
  · exact .refl d s
  · exact presenceGood_ended s d

theorem missEvent_ended (s : State) (d : DropId) : Ended d s (s.missEvent d) := by
  unfold State.missEvent; split
  · exact .refl d s
  · exact presenceMiss_ended s d

theorem disableDrop_ended (s : State) (d : DropId) : Ended d s (s.disableDrop d) := by
  unfold State.disableDrop; exact (forgetDrop_ended _ _).trans (ended_setDrop _ _ _)

theorem disableDrop_drop (s : State) (d : DropId) :
    ((s.disableDrop d).drop d).bare = { s.drop d with stopping := false, presence := .disabled, run := 0 }.bare := by
  unfold State.disableDrop
  dsimp only
  rw [State.drop_setDrop, if_pos rfl]
  have h := congrArg (fun x : Drop => { x with stopping := false, presence := .disabled, run := 0 }) (forgetDrop_drop s d)
  exact h

theorem settleStopping_ended (s : State) (d : DropId) : Ended d s (s.settleStopping d) := by
  unfold State.settleStopping; split
  · exact disableDrop_ended s d
  · exact .refl d s

theorem settleStopping_drop (s : State) (d : DropId) :
    ((s.settleStopping d).drop d).bare =
      (if (s.drop d).stopping then { s.drop d with stopping := false, presence := .disabled, run := 0 } else s.drop d).bare := by
  unfold State.settleStopping
  split
  · exact disableDrop_drop s d
  · rfl

/-- The record after the presence event of a good answer and the disable of a stopping drop. -/
def goodRecord (r : Drop) : Drop :=
  if r.stopping then { r with stopping := false, presence := .disabled, run := 0 }
  else
    { r with
      counters := if r.presence = .joining then { r.counters with joins := bump r.counters.joins 1 } else r.counters
      presence := (goodMove r.presence r.run).1, run := (goodMove r.presence r.run).2 }

/-- The record after the presence event of a miss and the disable of a stopping drop. -/
def missRecord (r : Drop) : Drop :=
  if r.stopping then { r with stopping := false, presence := .disabled, run := 0 }
  else
    { r with
      counters :=
        if r.presence = .joining ∨ (r.presence = .fading ∧ 3 ≤ r.run) then
          { r.counters with losses := bump r.counters.losses 1 }
        else r.counters
      presence := (missMove r.presence r.run).1, run := (missMove r.presence r.run).2 }

/-- A presence event keeps the stopping mark. -/
theorem stopping_of_bare {r q : Drop} (h : r.bare = q.bare) : r.stopping = q.stopping := by
  have := congrArg (fun x : Drop => x.stopping) h
  exact this

theorem presenceGood_drop (s : State) (d : DropId) (h : (s.drop d).stopping = false) :
    ((s.presenceGood d).drop d).bare = (goodRecord (s.drop d)).bare := by
  unfold State.presenceGood goodRecord
  split <;> rename_i hp
  · simp [h, hp, goodMove, Drop.bare]
  · rw [setPresence_drop]; simp [h, hp, goodMove, Drop.bare]
  · rw [joinDrop_drop]; simp [h, hp, goodMove, Drop.bare]
  · rw [setPresence_drop]; simp [h, hp, goodMove, Drop.bare]
  · rw [setPresence_drop]; simp [h, hp, goodMove, Drop.bare]

theorem presenceMiss_drop (s : State) (d : DropId) (h : (s.drop d).stopping = false) :
    ((s.presenceMiss d).drop d).bare = (missRecord (s.drop d)).bare := by
  unfold State.presenceMiss missRecord
  split <;> rename_i hp
  · simp [h, hp, missMove, Drop.bare]
  · rw [setPresence_drop]; simp [h, hp, missMove, Drop.bare]
  · rw [loseDrop_drop]; simp [h, hp, missMove, Drop.bare]
  · rw [setPresence_drop]; simp [h, hp, missMove, Drop.bare]
  · split <;> rename_i hr
    · rw [loseDrop_drop]; simp [h, hp, missMove, Drop.bare, hr]
    · rw [setPresence_drop]; simp [h, hp, missMove, Drop.bare, hr]

theorem goodSettled_drop (s : State) (d : DropId) :
    ((((s.goodEvent d).settleStopping d).drop d)).bare = (goodRecord (s.drop d)).bare := by
  rw [settleStopping_drop]
  unfold State.goodEvent
  by_cases h : (s.drop d).stopping = true
  · simp [h, goodRecord]
  · have h' : (s.drop d).stopping = false := by simpa using h
    have hd := presenceGood_drop s d h'
    have hs := stopping_of_bare hd
    rw [if_neg h, if_neg (by rw [hs]; simp [goodRecord, h'])]
    exact hd

theorem missSettled_drop (s : State) (d : DropId) :
    ((((s.missEvent d).settleStopping d).drop d)).bare = (missRecord (s.drop d)).bare := by
  rw [settleStopping_drop]
  unfold State.missEvent
  by_cases h : (s.drop d).stopping = true
  · simp [h, missRecord]
  · have h' : (s.drop d).stopping = false := by simpa using h
    have hd := presenceMiss_drop s d h'
    have hs := stopping_of_bare hd
    rw [if_neg h, if_neg (by rw [hs]; simp [missRecord, h'])]
    exact hd

/-- Records with the same bare form give the same bare form after the end of an exchange. -/
theorem goodRecord_bare {r q : Drop} (h : r.bare = q.bare) : (goodRecord r).bare = (goodRecord q).bare := by
  have := congrArg (fun x => (goodRecord x).bare) h
  have e : ∀ x : Drop, (goodRecord x.bare).bare = (goodRecord x).bare := by
    intro x; unfold goodRecord Drop.bare; cases x.stopping <;> rfl
  exact (e r).symm.trans (this.trans (e q))

theorem missRecord_bare {r q : Drop} (h : r.bare = q.bare) : (missRecord r).bare = (missRecord q).bare := by
  have := congrArg (fun x => (missRecord x).bare) h
  have e : ∀ x : Drop, (missRecord x.bare).bare = (missRecord x).bare := by
    intro x; unfold missRecord Drop.bare; cases x.stopping <;> rfl
  exact (e r).symm.trans (this.trans (e q))

/-! ### The end of the exchange itself -/

theorem clearExchange_ended (s : State) (x : Exchange) (d : DropId) : Ended d s (s.clearExchange x) := by
  unfold State.clearExchange
  dsimp only
  split
  · exact (ended_setTrunk s d { s.trunk with ex := none } rfl).trans ((endRound_decided _).ended d)
  · exact ended_setTrunk _ _ _ rfl

theorem clearExchange_drop (s : State) (x : Exchange) (d : DropId) : (s.clearExchange x).drop d = s.drop d := by
  unfold State.clearExchange; dsimp only; split <;> rfl

/-- The push outcome handed over, when the exchange was a push. -/
def State.handed (s : State) (x : Exchange) (d : DropId) (o : PushOutcome) : State :=
  match x.kind with
  | .push k => s.pushEnded d k x.detached o
  | .roundPoll | .urgentPoll | .broadcast => s

theorem handed_decided (s : State) (x : Exchange) (d : DropId) (o : PushOutcome) : Decided s (s.handed x d o) := by
  unfold State.handed
  split
  · exact pushEnded_decided _ _ _ _ _
  all_goals exact .refl s

theorem endExchange_eq (s : State) (x : Exchange) (d : DropId) (o : PushOutcome) (event : State → State) :
    s.endExchange x d o event =
      ((event ((s.clearExchange x).handed x d o)).settleStopping d).judgeReady.conclude := by
  unfold State.endExchange State.handed
  cases x.kind <;> rfl

/-- The state in which the presence event of an ending exchange is made. -/
theorem beforeEvent (s : State) (x : Exchange) (d : DropId) (o : PushOutcome) :
    Ended d s ((s.clearExchange x).handed x d o) ∧ (((s.clearExchange x).handed x d o).drop d).bare = (s.drop d).bare := by
  refine ⟨(clearExchange_ended _ _ _).trans ((handed_decided _ _ _ _).ended d), ?_⟩
  rw [(handed_decided _ _ _ _).drops d, clearExchange_drop]

/-- The end of an exchange whose presence event keeps to the drop. -/
theorem endExchange_ended (s : State) (x : Exchange) (d : DropId) (o : PushOutcome) (event : State → State)
    (h : ∀ s, Ended d s (event s)) : Ended d s (s.endExchange x d o event) := by
  rw [endExchange_eq]
  exact (((beforeEvent s x d o).1.trans (h _)).trans (settleStopping_ended _ _)).trans
    (((judgeReady_moved _).trans (conclude_decided _).moved).ended d)

/-- The record of the drop at the end of an exchange is that of its presence event and its disable. -/
theorem endExchange_drop (s : State) (x : Exchange) (d : DropId) (o : PushOutcome) (event : State → State) :
    ((s.endExchange x d o event).drop d).bare =
      (((event ((s.clearExchange x).handed x d o)).settleStopping d).drop d).bare := by
  rw [endExchange_eq, (conclude_decided _).drops d, (judgeReady_moved _).drops d]

theorem endGood_ended (s : State) (x : Exchange) (d : DropId) (o : PushOutcome) :
    Ended d s (s.endGood x d o) ∧ ((s.endGood x d o).drop d).bare = (goodRecord (s.drop d)).bare := by
  refine ⟨endExchange_ended _ _ _ _ _ (fun s => goodEvent_ended s d), ?_⟩
  unfold State.endGood
  rw [endExchange_drop, goodSettled_drop]
  exact goodRecord_bare (beforeEvent s x d o).2

theorem endMiss_ended (s : State) (x : Exchange) (d : DropId) (o : PushOutcome) :
    Ended d s (s.endExchange x d o (fun s => s.missEvent d)) ∧
      ((s.endExchange x d o (fun s => s.missEvent d)).drop d).bare = (missRecord (s.drop d)).bare := by
  refine ⟨endExchange_ended _ _ _ _ _ (fun s => missEvent_ended s d), ?_⟩
  rw [endExchange_drop, missSettled_drop]
  exact missRecord_bare (beforeEvent s x d o).2

/-- An exchange that ends unacknowledged makes no presence event. -/
theorem endQuiet_ended (s : State) (x : Exchange) (d : DropId) (o : PushOutcome) :
    Ended d s (s.endExchange x d o id) ∧
      ((s.endExchange x d o id).drop d).bare =
        (if (s.drop d).stopping then { s.drop d with stopping := false, presence := .disabled, run := 0 } else s.drop d).bare := by
  refine ⟨endExchange_ended _ _ _ _ _ (fun s => .refl d s), ?_⟩
  rw [endExchange_drop]
  show (((State.handed _ x d o).settleStopping d).drop d).bare = _
  rw [settleStopping_drop]
  have h := (beforeEvent s x d o).2
  have hs := stopping_of_bare h
  rw [hs]
  split
  · exact congrArg (fun x : Drop => { x with stopping := false, presence := .disabled, run := 0 }) h
  · exact h

end Sys2Proof.Machine
end

