-- ==== Sys2Proof/Laws/Uplink.lean ====
section
/-! SUPPORT. The gateway port: taking a message with or without answer room, raising a flag, the uplink's choice, the answers of a LOAD. -/

namespace Sys2Proof.Machine

/-- The uplink's choice changes the frame in transmission only, and never one that is being sent. -/
theorem uplink_port (s : State) :
    s.uplink = s.setPort s.uplink.port ∧ s.uplink.port = { s.port with tx := s.uplink.port.tx } ∧
      (∀ x, s.port.tx = some x → s.uplink.port.tx = some x) := by
  unfold State.uplink
  split
  next h => exact ⟨rfl, rfl, fun x hx => by rw [h.2] at hx; cases hx⟩
  · exact ⟨rfl, rfl, fun x hx => hx⟩

/-- The next content by R177. -/
theorem nextBody_eq (s : State) : s.nextBody = bodyChoice s.port.answers s.port.notices s.taps.queue := by
  unfold State.nextBody bodyChoice
  cases h : s.port.answers with
  | cons => rfl
  | nil =>
    cases h2 : s.port.notices with
    | cons => rfl
    | nil => cases h3 : s.taps.queue <;> simp

/-- The frame that the uplink forms (R174, R177). -/
theorem uplink_tx (s : State) (h : s.port.tx = none) :
    s.uplink.port.tx = if s.port.linkUp then (bodyChoice s.port.answers s.port.notices s.taps.queue).map (fun b =>
          { dest := s.port.gateway.getD 0xFFFFFFFFFFFF, etherType := s.settings.protocolType, body := b }) else none := by
  unfold State.uplink
  rw [nextBody_eq]
  split
  next g => rw [if_pos g.1]; rfl
  next g =>
    rw [if_neg (fun hl => g ⟨hl, h⟩)]; exact h

/-- A message without answer room is discarded (R176). -/
theorem takeMessage_none (s : State) (m : Head) (f : State → State) (h : s.answerRoom = false) :
    s.takeMessage m f = s.setPort { s.port with gateway := some m.src, answerDrop := min 65535 (s.port.answerDrop + 1) } := by
  unfold State.takeMessage
  have : (s.acceptFrom m.src).answerRoom = false := h
  rw [this]; rfl

/-- A message with answer room is taken. -/
theorem takeMessage_some (s : State) (m : Head) (f : State → State) (h : s.answerRoom = true) :
    s.takeMessage m f = (f (s.acceptFrom m.src)).uplink := by
  unfold State.takeMessage
  have : (s.acceptFrom m.src).answerRoom = true := h
  rw [this]; rfl

/-- A message that joins answers and changes nothing else. -/
theorem takeMessage_answer (s : State) (m : Head) (f : State → State) (as : List Answer) (h : s.answerRoom = true)
   (hf : f (s.acceptFrom m.src) = (s.acceptFrom m.src).setPort { (s.acceptFrom m.src).port with answers := s.port.answers ++ as}) :
    s.takeMessage m f = s.setPort (s.takeMessage m f).port ∧ Answered m.src as s (s.takeMessage m f) := by
  rw [takeMessage_some s m f h, hf]
  obtain ⟨h1, h2, h3⟩ := uplink_port ((s.acceptFrom m.src).setPort { (s.acceptFrom m.src).port with answers := s.port.answers ++ as})
  exact ⟨h1, h2, h3⟩

/-- A message that joins answers to a state that keeps the port. -/
theorem takeMessage_set (s : State) (m : Head) (f : State → State) (as : List Answer) (u : State) (h : s.answerRoom = true)
   (hu : u.port = s.port) (hf : f (s.acceptFrom m.src) = u.setPort { (s.acceptFrom m.src).port with answers := s.port.answers ++ as}) :
    s.takeMessage m f = u.setPort (s.takeMessage m f).port ∧ Answered m.src as s (s.takeMessage m f) := by
  rw [takeMessage_some s m f h, hf]
  obtain ⟨h1, h2, h3⟩ := uplink_port (u.setPort { (s.acceptFrom m.src).port with answers := s.port.answers ++ as})
  exact ⟨h1, h2, h3⟩

theorem dropAt_addr (d : DropId) (n : Byte) (h : n.toNat = d.val + 1) : dropAt n.toNat = some d := by
  unfold dropAt
  rw [dif_pos ⟨by omega, by omega⟩]
  congr 1
  apply Fin.ext
  show n.toNat - 1 = _
  omega

theorem Per4.all_toList (p : Per4 RawClass) (P : RawClass → Bool) : p.toList.all P = true ↔ ∀ i, P (p.get i) = true := by
  constructor
  · intro h i; simp only [Per4.toList, List.all_cons, List.all_nil, Bool.and_eq_true] at h
    fin_cases i <;> simp [Per4.get, h]
  · intro h
    simp only [Per4.toList, List.all_cons, List.all_nil, Bool.and_eq_true]
    exact ⟨h 0, h 1, h 2, h 3, trivial⟩

theorem Per8.all_toList {α} (p : Per8 α) (P : α → Bool) : p.toList.all P = true ↔ ∀ i, P (p.get i) = true := by
  constructor
  · intro h i; simp only [Per8.toList, List.all_cons, List.all_nil, Bool.and_eq_true] at h
    fin_cases i <;> simp [Per8.get, h]
  · intro h
    simp only [Per8.toList, List.all_cons, List.all_nil, Bool.and_eq_true]
    exact ⟨h 0, h 1, h 2, h 3, h 4, h 5, h 6, h 7, trivial⟩

theorem raise_answers (p : Port) (e f c) : (p.raise e f c).answers = p.answers := by unfold Port.raise; split <;> rfl

theorem raise_tx (p : Port) (e f c) : (p.raise e f c).tx = p.tx := by unfold Port.raise; split <;> rfl

/-- A raised flag is set, with its first context kept (R185). -/
theorem raise_sets (p : Port) (e : Enables) (f : Flag) (c : Ctx) :
    (p.raise e f c).flags.get f = some ((p.flags.get f).getD c) := by
  unfold Port.raise
  split
  next v hv => rw [hv]; rfl
  next hv => rw [hv]; cases f <;> rfl

theorem setIntake_self (s : State) (k) : s.setIntake k (s.intake k) = s := by cases k <;> rfl

theorem setIntake_eq (s : State) (k l) : ∃ i, s.setIntake k l = s.setIntakes i := by cases k <;> exact ⟨_, rfl⟩

/-- The pending close is answered, when there is one. -/
theorem answerClose_eq (s : State) (k : Kind) (l : Load) (code : Code) (v : Nat) :
   s.answerClose k l code v = s.setPort { s.port with answers := s.port.answers ++ closeAnswers k l code v } := by
  unfold State.answerClose closeAnswers
  cases l.close with
  | none => dsimp only [Option.toList, List.map]; rw [List.append_nil]; rfl
  | some t => rfl

/-- A check that refuses, written out (R27). -/
theorem refuseLoad_eq (s : State) (k l code v) : s.refuseLoad k l code v = (s.setIntake k none).setPort
     (let p1 :=
          { s.port with answers := s.port.answers ++ closeAnswers k l code v }.raise s.settings.enables .loadRefused
            { edition := l.edition, code := some code, drop := none, minute := s.stamp }
       if code = .tableFull then
            p1.raise s.settings.enables .tableFull { edition := l.edition, code := none, drop := none, minute := s.stamp }
          else p1) := by
  unfold State.refuseLoad
  rw [answerClose_eq]
  dsimp only
  cases k <;> (split <;> rfl)

/-- A BLOCK edition taken, written out. -/
theorem loadDone_eq (s : State) (l : Load) : s.loadDone .block l = (s.setIntakes { s.intakes with block := none }).setPort
   ({ s.port with answers := s.port.answers ++ closeAnswers .block l .done 0 }.raise s.settings.enables .loadDone
            { edition := l.edition, code := some .done, drop := none, minute := s.stamp }) := by
  unfold State.loadDone; rw [answerClose_eq]; rfl

end Sys2Proof.Machine
end

