-- ==== Sys2Proof/Laws/Jobs.lean ====
section
/-! SUPPORT. Which operations make jobs for a drop, and which leave the Roster alone. -/

namespace Sys2Proof.Machine

/-- Jobs appear for drop `d` only where some stood before. -/
def JobsFrom (d : DropId) (s t : State) : Prop := (∀ j ∈ s.planner.jobs, j.drop ≠ d) → ∀ j ∈ t.planner.jobs, j.drop ≠ d

theorem JobsFrom.refl (d s) : JobsFrom d s s := fun h => h

theorem JobsFrom.trans {d s t u} (h : JobsFrom d s t) (g : JobsFrom d t u) : JobsFrom d s u := fun x => g (h x)

theorem JobsFrom.of_eq {d} {s t : State} (h : t.planner.jobs = s.planner.jobs) : JobsFrom d s t := fun x => by rw [h]; exact x

theorem putJob_from (d s) (j : Job) (h : j.drop ≠ d) : JobsFrom d s (s.putJob j) := by
  intro g i hi
  obtain ⟨y, hy, rfl⟩ := List.mem_map.mp hi
  split
  · exact h
  · exact g y hy

theorem setJobs_filter_from (d) (s : State) (P : Job → Bool) : JobsFrom d s (s.setJobs (s.planner.jobs.filter P)) := by
  intro g i hi; exact g i (List.mem_filter.mp hi).1

theorem releaseMark_jobs (s : State) (d) : (s.releaseMark d).planner = s.planner := by
  unfold State.releaseMark; split
  · rfl
  · unfold State.requestSweep; split <;> rfl

theorem leaveMark_jobs (s : State) (d k) : (s.leaveMark d k).planner = s.planner := by
  cases k
  · rfl
  · exact releaseMark_jobs s d

theorem raise_jobs (s : State) (f ed c o) : (s.raise f ed c o).planner = s.planner := rfl

theorem writeLog_jobs (s : State) (e) : (s.writeLog e).planner.jobs = s.planner.jobs := by
  unfold State.writeLog; split <;> rfl

theorem failJob_from (d) (s : State) (j : Job) (c) (h : j.drop ≠ d) : JobsFrom d s (s.failJob j c) := by
  unfold State.failJob; dsimp only
  refine (putJob_from d s { j with state := .failed, underWay := false } h).trans ?_
  apply JobsFrom.of_eq
  rw [writeLog_jobs]
  show (State.leaveMark _ _ _).planner.jobs = _
  rw [leaveMark_jobs]

theorem judge_drop (f) (j : Job) : (j.judge f).drop = j.drop ∧ (j.judge f).kind = j.kind := by
  unfold Job.judge; split <;> (try split) <;> exact ⟨rfl, rfl⟩

theorem judgeJob_drop (s : State) (j : Job) : (s.judgeJob j).drop = j.drop ∧ (s.judgeJob j).kind = j.kind := by
  unfold State.judgeJob; split
  · exact ⟨rfl, rfl⟩
  · exact judge_drop _ _

theorem settleJob_from (d) (s : State) (j : Job) (h : j.drop ≠ d) : JobsFrom d s (s.settleJob j) := by
  unfold State.settleJob; split
  · exact failJob_from d s j _ h
  · exact putJob_from d s _ (by rw [(judgeJob_drop s j).1]; exact h)

theorem addJob_from (d s) (j : Job) (h : j.drop ≠ d) : JobsFrom d s (s.addJob j) := by
  intro g i hi
  rcases List.mem_append.mp hi with hi | hi
  · exact g i hi
  · rw [List.mem_singleton.mp hi]; exact h

theorem job?_drop {s : State} {d k j} (h : s.job? d k = some j) : j.drop = d ∧ j.kind = k ∧ j ∈ s.planner.jobs := by
  unfold State.job? at h
  have h1 := List.find?_some h
  have h2 := List.mem_of_find?_eq_some h
  unfold Job.serves at h1
  simp at h1
  exact ⟨h1.1, h1.2, h2⟩

theorem takePlan_from (d) (s : State) (e : DropId) (k plan t) (h : e ≠ d) : JobsFrom d s (s.takePlan e k plan t) := by
  unfold State.takePlan
  split
  · exact (addJob_from d s _ (by exact h)).trans (settleJob_from d _ _ (by exact h))
  next j hj =>
    have hd : j.drop ≠ d := by rw [(job?_drop hj).1]; exact h
    split
    · exact putJob_from d s _ (by rw [(judgeJob_drop s _).1]; exact hd)
    · refine ((putJob_from d s (s.markLevel (s.markUrgent (j.takeWhole plan t))) hd).trans (.of_eq (by rw [leaveMark_jobs]))).trans (settleJob_from d _ _ (by exact hd))

theorem removeJob_from (d) (s : State) (e k) : JobsFrom d s (s.removeJob e k) := by
  unfold State.removeJob
  exact (setJobs_filter_from d s _).trans (.of_eq (by rw [leaveMark_jobs]))

theorem noteNofit_jobs (s : State) (d b) : (s.noteNofit d b).planner.jobs = s.planner.jobs := by
  unfold State.noteNofit; dsimp only; split
  · rw [writeLog_jobs]; rfl
  · rfl

theorem planKind_from (d) (s : State) (e k) (h : e ≠ d) : JobsFrom d s (s.planKind e k) := by
  cases k
  · show JobsFrom d s (s.planFare e)
    unfold State.planFare
    split
    · exact JobsFrom.trans (t := s.noteAhead e false) (.of_eq rfl) (removeJob_from d _ _ _)
    · exact JobsFrom.trans (t := s.noteAhead e true) (.of_eq rfl) (removeJob_from d _ _ _)
    · exact JobsFrom.trans (t := s.noteAhead e false) (.of_eq rfl) (takePlan_from d _ _ _ _ _ h)
  · show JobsFrom d s (s.planBlock e)
    unfold State.planBlock
    split
    · exact JobsFrom.trans (.of_eq (noteNofit_jobs _ _ _)) (removeJob_from d _ _ _)
    · exact JobsFrom.trans (.of_eq (noteNofit_jobs _ _ _)) (removeJob_from d _ _ _)
    · exact JobsFrom.trans (.of_eq (noteNofit_jobs _ _ _)) (takePlan_from d _ _ _ _ _ h)
    · exact JobsFrom.trans (.of_eq (noteNofit_jobs _ _ _)) (takePlan_from d _ _ _ _ _ h)

theorem planPair_from (d) (s : State) (e k) (h : e ≠ d) : JobsFrom d s (s.planPair e k) := by
  unfold State.planPair
  split
  · split
    · exact planKind_from d s e k h
    next j hj =>
      split
      · exact .refl d s
      · split
        · exact putJob_from d s _ (by show j.drop ≠ d; rw [(job?_drop hj).1]; exact h)
        · exact planKind_from d s e k h
  · exact .refl d s

theorem onMark_jobs (s : State) (d f) : (s.onMark d f).planner = s.planner := rfl

theorem moveCursor_jobs (s : State) (j f) : (s.moveCursor j f).planner = s.planner := by
  unfold State.moveCursor; split <;> rfl

theorem displace_from (d) (s : State) (e k) : JobsFrom d s (s.displace e k) := by
  unfold State.displace; split
  · intro g i hi
    obtain ⟨y, hy, rfl⟩ := List.mem_map.mp hi
    split <;> exact g y hy
  · exact .refl d s

theorem formPush_from (d) (s : State) (j : Job) (f a b) (h : j.drop ≠ d) : JobsFrom d s (s.formPush j f a b) := by
  unfold State.formPush
  exact (displace_from d s _ _).trans ((putJob_from d _ { j with state := .active } h).trans (.of_eq rfl))

theorem openFull_from (d) (s : State) (j : Job) (h : j.drop ≠ d) : JobsFrom d s (s.openFull j) := by
  unfold State.openFull
  split
  · exact .refl d s
  · dsimp only
    have hp : ∀ e, JobsFrom d s (s.placeMark e) := fun e => .of_eq (by show (s.releaseMark e).planner.jobs = _; rw [releaseMark_jobs])
    split
    · exact (hp _).trans (formPush_from d _ _ _ _ _ (by exact h))
    · exact (((hp _).trans (.of_eq (by rw [releaseMark_jobs]))).trans (putJob_from d _ _ (by exact h))).trans (planPair_from d _ _ _ h)

theorem openStep_from (d) (s : State) (j : Job) (h : j.drop ≠ d) : JobsFrom d s (s.openStep j) := by
  unfold State.openStep
  split
  · split
    · exact formPush_from d _ _ _ _ _ (by exact h)
    · exact .refl d s
  · exact openFull_from d s j h
  · split
    · exact formPush_from d _ _ _ _ _ (by exact h)
    · exact .refl d s
  · exact .refl d s
  · exact .refl d s

theorem sendBurst_from (d) (s : State) (j : Job) (h : j.drop ≠ d) : JobsFrom d s (s.sendBurst j) := by
  unfold State.sendBurst; dsimp only; split
  · exact JobsFrom.trans (.of_eq (by rw [moveCursor_jobs])) (formPush_from d _ _ _ _ _ (by exact h))
  · exact .refl d s

theorem wake_from (d) (s : State) (j : Job) : JobsFrom d s (s.wake j).1 ∧ (s.wake j).2.drop = j.drop := by
  unfold State.wake; split
  · split
    · exact ⟨.of_eq rfl, rfl⟩
    · exact ⟨.refl d s, rfl⟩
  · exact ⟨.refl d s, rfl⟩

theorem pushJob_from (d) (s : State) (j : Job) (h : j.drop ≠ d) : JobsFrom d s (s.pushJob j) := by
  unfold State.pushJob; dsimp only
  obtain ⟨h1, h2⟩ := wake_from d s j
  have h' : (s.wake j).2.drop ≠ d := by rw [h2]; exact h
  split
  · exact h1.trans (openStep_from d _ _ h')
  · exact h1.trans (sendBurst_from d _ _ h')
  · split
    · exact h1.trans (formPush_from d _ _ _ _ _ h')
    · exact h1
  · exact h1.trans (formPush_from d _ _ _ _ _ h')

theorem tryJob_from (d) (s : State) (e k) : JobsFrom d s (s.tryJob e k) := by
  unfold State.tryJob
  split
  · exact .refl d s
  · split
    next j hj =>
      split
      · intro g
        have : j.drop ≠ d := g j (job?_drop hj).2.2
        exact pushJob_from d s j this g
      · exact .refl d s
    · exact .refl d s

theorem foldl_from {α} (d) (f : State → α → State) (h : ∀ s a, JobsFrom d s (f s a)) (l : List α) (s : State) :
    JobsFrom d s (l.foldl f s) := by
  induction l generalizing s with
  | nil => exact .refl d s
  | cons a l ih => exact (h s a).trans (ih _)

theorem noteAllowance_jobs (s : State) : s.noteAllowance.planner = s.planner := by
  unfold State.noteAllowance; split <;> rfl

theorem formPoll_jobs (s : State) (k d) : (s.formPoll k d).planner = s.planner := by
  unfold State.formPoll; exact noteAllowance_jobs s

theorem takeTurn_jobs (s : State) : s.takeTurn.planner = s.planner := by
  unfold State.takeTurn
  split
  · rfl
  · split
    · rfl
    · exact formPoll_jobs _ _ _

theorem startRound_jobs (s : State) : s.startRound.planner = s.planner := by
  unfold State.startRound State.startPause; split
  · split <;> rfl
  · rfl

theorem arbitrate_from (d) (s : State) : JobsFrom d s s.arbitrate := by
  unfold State.arbitrate
  split
  · exact .refl d s
  · split
    · exact .of_eq rfl
    · split
      · exact .of_eq (by unfold State.formUrgent; rw [formPoll_jobs]; rfl)
      · dsimp only
        have h1 : JobsFrom d s s.roundStep := .of_eq (by
          unfold State.roundStep; dsimp only; split
          · rw [takeTurn_jobs, startRound_jobs, takeTurn_jobs]
          · rw [takeTurn_jobs])
        split
        · exact h1
        · refine h1.trans ?_
          unfold State.pushStep; dsimp only
          have h2 : JobsFrom d s.roundStep s.roundStep.pushChoice := foldl_from d _ (fun s a => tryJob_from d s _ _) _ _
          split
          · exact h2.trans (.of_eq (by rw [takeTurn_jobs, startRound_jobs]))
          · exact h2

theorem uplink_jobs (s : State) : s.uplink.planner = s.planner := by rw [(uplink_port s).1]; rfl

theorem conclude_from (d) (s : State) : JobsFrom d s s.conclude :=
  (arbitrate_from d s).trans (.of_eq (by unfold State.conclude; rw [uplink_jobs]; rfl))

theorem activate_jobs (s : State) (p) : (s.activate p).planner = s.planner := rfl

theorem foundReady_jobs (s : State) (p b) : (s.foundReady p b).planner = s.planner := by
  unfold State.foundReady; dsimp only; split <;> rfl

theorem judgeReady_jobs (s : State) : s.judgeReady.planner = s.planner := by
  unfold State.judgeReady; split
  · split
    · exact foundReady_jobs _ _ _
    · split
      · exact foundReady_jobs _ _ _
      · rfl
  · rfl

theorem forgetDrop_clears (s : State) (d) : ∀ j ∈ (s.forgetDrop d).planner.jobs, j.drop ≠ d := by
  intro j hj
  unfold State.forgetDrop at hj
  have hh : j ∈ (((s.removeJob d .fare).removeJob d .block).releaseMark d).planner.jobs := hj
  rw [releaseMark_jobs] at hh
  have hb : j ∈ (((s.removeJob d .fare).setJobs ((s.removeJob d .fare).planner.jobs.filter (fun x => !Job.serves d .block x))).leaveMark d .block).planner.jobs := hh
  rw [leaveMark_jobs] at hb
  obtain ⟨h1, h2⟩ := List.mem_filter.mp hb
  have h1' : j ∈ ((s.setJobs (s.planner.jobs.filter (fun x => !Job.serves d .fare x))).leaveMark d .fare).planner.jobs := h1
  rw [leaveMark_jobs] at h1'
  obtain ⟨h3, h4⟩ := List.mem_filter.mp h1'
  intro he
  cases hk : j.kind <;> simp [Job.serves, he, hk] at h2 h4

theorem loseDrop_more (s : State) (d) :
    (s.loseDrop d).port.flags.dropLost.isSome = true ∧ ∀ j ∈ (s.loseDrop d).planner.jobs, j.drop ≠ d := by
  constructor
  · unfold State.loseDrop; dsimp only
    generalize State.countDrop _ _ _ = u
    unfold State.raiseDrop State.raise Port.raise
    split
    next hh =>
      show (u.port.flags.get .dropLost).isSome = true
      rw [hh]; rfl
    · rfl
  · exact forgetDrop_clears (s.setPresence d .absent 0) d

/-- Every tap-urgent mark is as it was. -/
def UrgentKept (s t : State) : Prop := ∀ d, (t.drop d).tapUrgent = (s.drop d).tapUrgent

theorem UrgentKept.refl (s) : UrgentKept s s := fun _ => rfl

theorem UrgentKept.trans {s t u} (h : UrgentKept s t) (g : UrgentKept t u) : UrgentKept s u := fun d => (g d).trans (h d)

theorem UrgentKept.of_roster {s t : State} (h : t.roster = s.roster) : UrgentKept s t := fun d => by unfold State.drop; rw [h]

theorem releaseMark_roster (s : State) (d) : (s.releaseMark d).roster = s.roster := by
  unfold State.releaseMark; split
  · rfl
  · unfold State.requestSweep; split <;> rfl

theorem leaveMark_roster (s : State) (d k) : (s.leaveMark d k).roster = s.roster := by
  cases k
  · rfl
  · exact releaseMark_roster s d

theorem removeJob_roster (s : State) (d k) : (s.removeJob d k).roster = s.roster := by
  unfold State.removeJob; rw [leaveMark_roster]; rfl

theorem writeLog_roster (s : State) (e) : (s.writeLog e).roster = s.roster := by
  unfold State.writeLog; split <;> rfl

theorem failJob_roster (s : State) (j c) : (s.failJob j c).roster = s.roster := by
  unfold State.failJob; dsimp only
  rw [writeLog_roster]
  show (State.leaveMark _ _ _).roster = _
  rw [leaveMark_roster]; rfl

theorem settleJob_roster (s : State) (j) : (s.settleJob j).roster = s.roster := by
  unfold State.settleJob; split
  · exact failJob_roster _ _ _
  · rfl

theorem takePlan_roster (s : State) (d k p t) : (s.takePlan d k p t).roster = s.roster := by
  unfold State.takePlan; split
  · dsimp only; rw [settleJob_roster]; rfl
  · split
    · rfl
    · dsimp only; rw [settleJob_roster, leaveMark_roster]; rfl

theorem setDrop_urg (s : State) (d) (x : Drop) (h : x.tapUrgent = (s.drop d).tapUrgent) : UrgentKept s (s.setDrop d x) := by
  intro e; rw [State.drop_setDrop]; split
  next g => rw [h, g]
  · rfl

theorem noteNofit_urg (s : State) (d b) : UrgentKept s (s.noteNofit d b) := by
  unfold State.noteNofit; dsimp only
  have : UrgentKept s (s.setDrop d { s.drop d with blockNofit := b }) := setDrop_urg _ _ _ rfl
  split
  · exact this.trans (.of_roster (by rw [writeLog_roster]; rfl))
  · exact this

theorem noteAhead_urg (s : State) (d b) : UrgentKept s (s.noteAhead d b) := setDrop_urg _ _ _ rfl

theorem planKind_urg (s : State) (d k) : UrgentKept s (s.planKind d k) := by
  cases k
  · show UrgentKept s (s.planFare d); unfold State.planFare; split
    · exact (noteAhead_urg _ _ _).trans (.of_roster (removeJob_roster _ _ _))
    · exact (noteAhead_urg _ _ _).trans (.of_roster (removeJob_roster _ _ _))
    · exact (noteAhead_urg _ _ _).trans (.of_roster (takePlan_roster _ _ _ _ _))
  · show UrgentKept s (s.planBlock d); unfold State.planBlock; split
    · exact (noteNofit_urg _ _ _).trans (.of_roster (removeJob_roster _ _ _))
    · exact (noteNofit_urg _ _ _).trans (.of_roster (removeJob_roster _ _ _))
    · exact (noteNofit_urg _ _ _).trans (.of_roster (takePlan_roster _ _ _ _ _))
    · exact (noteNofit_urg _ _ _).trans (.of_roster (takePlan_roster _ _ _ _ _))

theorem planPair_urg (s : State) (d k) : UrgentKept s (s.planPair d k) := by
  unfold State.planPair; split
  · split
    · exact planKind_urg _ _ _
    · split
      · exact .refl s
      · split
        · exact .of_roster rfl
        · exact planKind_urg _ _ _
  · exact .refl s

theorem planBoth_urg (s : State) (d) : UrgentKept s (s.planBoth d) := (planPair_urg _ _ _).trans (planPair_urg _ _ _)

theorem goodEvent_urg (s : State) (d) : UrgentKept s (s.goodEvent d) := by
  unfold State.goodEvent; split
  · exact .refl s
  · unfold State.presenceGood; split
    · exact .refl s
    · exact setDrop_urg _ _ _ rfl
    · unfold State.joinDrop; dsimp only
      refine UrgentKept.trans (t := (s.setPresence d .present 0).countDrop d (fun c => { c with joins := bump c.joins 1 })) ?_ ?_
      · exact UrgentKept.trans (t := s.setPresence d .present 0) (setDrop_urg _ _ _ rfl) (setDrop_urg _ _ _ rfl)
      · exact UrgentKept.trans (t := ((s.setPresence d .present 0).countDrop d (fun c => { c with joins := bump c.joins 1 })).raiseDrop .dropJoined d) (.of_roster rfl) (planBoth_urg _ _)
    · exact setDrop_urg _ _ _ rfl
    · exact setDrop_urg _ _ _ rfl

theorem judgeReady_roster (s : State) : s.judgeReady.roster = s.roster := by
  have f : ∀ p b, (s.foundReady p b).roster = s.roster := by
    intro p b; unfold State.foundReady; dsimp only; split <;> rfl
  unfold State.judgeReady; split
  · split
    · exact f _ _
    · split
      · exact f _ _
      · rfl
  · rfl

theorem conclude_busy_roster (s : State) (h : s.trunk.ex.isSome = true) : s.conclude.roster = s.roster := by
  unfold State.conclude State.arbitrate; rw [if_pos h, (uplink_port _).1]; rfl

/-- With an exchange in flight the end of an event decides nothing: the job queue is as the event left it. -/
theorem conclude_busy_planner (s : State) (h : s.trunk.ex.isSome = true) : s.conclude.planner = s.planner := by
  unfold State.conclude State.arbitrate; rw [if_pos h, (uplink_port _).1]; rfl

theorem conclude_busy_job? (s : State) (h : s.trunk.ex.isSome = true) (d : DropId) (k : Kind) : s.conclude.job? d k = s.job? d k := by
  unfold State.job?; rw [conclude_busy_planner s h]

end Sys2Proof.Machine
end

