-- ==== Sys2Proof/Laws/Stages.lean ====
section
/-! SUPPORT. The exchange in flight by its stage. -/

namespace Sys2Proof.Machine

theorem inStage_of {s : State} {x : Exchange} {g : Stage} (h : s.trunk.ex = some x) (hg : x.stage = g) :
    s.inStage g = some x := by
  unfold State.inStage; rw [h]; simp [hg]

theorem inStageWith_of {s : State} {x : Exchange} {g : Stage} {d : DropId} (h : s.trunk.ex = some x) (hg : x.stage = g) (hd : x.drop = some d) :
    s.inStageWith g = some (x, d) := by
  unfold State.inStageWith; rw [inStage_of h hg]; simp [hd]

theorem inStage_none {s : State} {g : Stage} (h : ∀ x, s.trunk.ex = some x → x.stage ≠ g) : s.inStage g = none := by
  unfold State.inStage; split
  next x hx => simp [h x hx]
  · rfl

theorem inStageWith_none {s : State} {g : Stage} (h : ∀ x, s.trunk.ex = some x → x.stage ≠ g) : s.inStageWith g = none := by
  unfold State.inStageWith; rw [inStage_none h]

/-- A character on the line changes nothing but the line time. -/
theorem ended_touch (d : DropId) (s : State) : ExchangeEnded d s s.touchLine := ExchangeEnded.setTrunk _ _

/-- A good answer that is complete is taken. -/
theorem answerComplete_eq {s : State} {x : Exchange} {d : DropId} {bytes r} (h : s.trunk.ex = some x) (hs : x.stage = .receiving) (hd : x.drop = some d)
   (hj : judgeAnswer x.drop x.frame bytes = some r) : exec (.answerComplete bytes) s = .next (s.touchLine.takeReply x d r) := by
  show execAnswerComplete bytes s = _; unfold execAnswerComplete; rw [inStageWith_of h hs hd]; dsimp only; rw [hj]

end Sys2Proof.Machine
end

