-- ==== Sys2Proof/Laws/Answers.lean ====
section
/-! SUPPORT. Good answers, misses and taps: the drop's record and the tap queue after them. -/

namespace Sys2Proof.Machine

theorem afterGood_eq (r : Drop) :
    afterGood r = goodRecord { r with counters := { r.counters with good := bump r.counters.good 1 } } := by
  unfold afterGood goodRecord bump
  cases r.stopping <;> rfl

theorem afterMiss_eq (g : Bool) (r : Drop) :
    afterMiss g r = missRecord { r with counters := { r.counters with miss := bump r.counters.miss 1, garbled := if g then bump r.counters.garbled 1 else r.counters.garbled } } := by
  unfold afterMiss missRecord bump
  cases r.stopping <;> rfl

/-- What a miss does (R79, R82, R87, R88). -/
theorem endMiss_spec (s : State) (x : Exchange) (d : DropId) (o : PushOutcome) (g : Bool) (k : Trunk) :
    let t := ((s.setTrunk k).countMiss d g).endExchange x d o (fun s => s.missEvent d)
    ExchangeEnded d s t ∧ (t.drop d).bare = (afterMiss g (s.drop d)).bare ∧ t.timebase = s.timebase ∧
      t.taps.bare = s.taps.bare ∧ t.roster.lastTap = s.roster.lastTap ∧ t.trunk.bare = k.bare := by
  dsimp only
  obtain ⟨E, D⟩ := endMiss_ended ((s.setTrunk k).countMiss d g) x d o
  have C : Ended d (s.setTrunk k) ((s.setTrunk k).countMiss d g) := countDrop_ended _ _ _
  have CE := C.trans E
  refine ⟨(ExchangeEnded.setTrunk s k).trans CE.exchangeEnded, ?_, CE.timebase, CE.taps, CE.lastTap, CE.trunk⟩
  rw [D, afterMiss_eq]
  unfold State.countMiss; rw [countDrop_drop]; rfl

theorem countGood_drop (s : State) (d) :
    (s.countGood d).drop d = { s.drop d with counters := { (s.drop d).counters with good := bump (s.drop d).counters.good 1 } } := by
  unfold State.countGood; rw [countDrop_drop]

theorem countGood_ended (s : State) (d) : Ended d s (s.countGood d) := countDrop_ended _ _ _

/-- The end of an exchange by a good answer that has been counted. -/
theorem endGood_spec (s : State) (x : Exchange) (d : DropId) (o : PushOutcome) (k : Trunk) (r : Drop)
   (u : State) (hu : Ended d ((s.setTrunk k)) u) (hr : (u.drop d).bare = { r with counters := { r.counters with good := bump r.counters.good 1 } }.bare) :
    let t := u.endGood x d o
    ExchangeEnded d s t ∧ (t.drop d).bare = (afterGood r).bare ∧ t.timebase = s.timebase ∧
        t.taps.bare = s.taps.bare ∧ t.roster.lastTap = s.roster.lastTap ∧ t.trunk.bare = k.bare := by
  dsimp only
  obtain ⟨E, D⟩ := endGood_ended u x d o
  have CE := hu.trans E
  refine ⟨(ExchangeEnded.setTrunk s k).trans CE.exchangeEnded, ?_, CE.timebase, CE.taps, CE.lastTap, CE.trunk⟩
  rw [D, afterGood_eq]
  exact goodRecord_bare hr

/-- A good answer that keeps the exchange: the presence event, readiness, the conclusion. -/
theorem keptExchange_spec (s u : State) (d : DropId) (k : Trunk) (r : Drop) (y : Exchange)
   (hu : Ended d (s.setTrunk k) u) (hr : (u.drop d).bare = { r with counters := { r.counters with good := bump r.counters.good 1 } }.bare)
   (hn : r.stopping = false) (hy : u.trunk.ex = some y) :
    let t := (u.goodEvent d).judgeReady.conclude
    ExchangeEnded d s t ∧ (t.drop d).bare = (afterGood r).bare ∧ t.timebase = s.timebase ∧
        t.taps.bare = s.taps.bare ∧ t.roster.lastTap = s.roster.lastTap ∧ t.trunk.bare = k.bare ∧ t.trunk.ex = some y := by
  dsimp only
  have M := (judgeReady_moved (u.goodEvent d)).trans (conclude_decided _).moved
  have G := goodEvent_ended u d
  have CE := (hu.trans G).trans (M.ended d)
  refine ⟨(ExchangeEnded.setTrunk s k).trans CE.exchangeEnded, ?_, CE.timebase, CE.taps, CE.lastTap, CE.trunk, ?_⟩
  · rw [M.drops d, afterGood_eq]
    have hst : (u.drop d).stopping = false := by have := congrArg (fun x : Drop => x.stopping) hr; exact this.trans hn
    have := goodSettled_drop u d
    have e : (u.goodEvent d).settleStopping d = u.goodEvent d := by
      unfold State.settleStopping
      rw [if_neg]
      unfold State.goodEvent
      rw [if_neg (by rw [hst]; simp), stopping_of_bare (presenceGood_drop u d hst)]
      simp [goodRecord, hst]
    rw [e] at this
    rw [this]; exact goodRecord_bare hr
  · -- the exchange
    have hg : (u.goodEvent d).trunk.ex = some y := by
      unfold State.goodEvent; split
      · exact hy
      · unfold State.presenceGood; split
        · exact hy
        · exact hy
        · unfold State.joinDrop; dsimp only
          exact (planBoth_decided _ _).flying y hy
        · exact hy
        · exact hy
    exact M.flying _ hg

theorem takeHolding_drop (s : State) (d) (f) :
    (s.takeHolding d f).drop d = { s.drop d with holdings := f (s.drop d).holdings, known := true } := by
  unfold State.takeHolding; rw [State.drop_setDrop, if_pos rfl]

theorem takeHolding_ended (s : State) (d) (f) : Ended d s (s.takeHolding d f) := ended_setDrop _ _ _

theorem lookup_eq {s t : State} (ht : t.table = s.table) (hc : t.cat = s.cat) (hs : t.settings = s.settings) (hk : t.clock = s.clock) (c m) :
    t.lookup c m = s.lookup c m := by
  unfold State.lookup State.expiryMatches; rw [ht, hc, hs, hk]

theorem lookup_bare {s t : State} (ht : t.table.bare = s.table.bare) (hc : t.cat.h = s.cat.h) (hs : t.settings = s.settings) (hk : t.clock = s.clock) (c m) :
    t.lookup c m = s.lookup c m := by
  have h1 : t.table.state = s.table.state := by have := congrArg CardTable.state ht; exact this
  have h2 : t.table.entries = s.table.entries := by have := congrArg CardTable.entries ht; exact this
  unfold State.lookup State.expiryMatches; rw [h1, h2, hc, hs, hk]

theorem screened_bare {s t : State} (ht : t.table.bare = s.table.bare) (hc : { t.cat.bare with hold := none } = { s.cat.bare with hold := none }) (hs : t.settings = s.settings) (hk : t.clock = s.clock) (d x) :
    t.screened d x = s.screened d x := by
  have h1 : t.cat.h = s.cat.h := by have := congrArg Catalogue.h hc; exact this
  have h2 : t.cat.active = s.cat.active := by have := congrArg Catalogue.active hc; exact this
  have h3 : t.cat.a = s.cat.a := by unfold Catalogue.a; rw [h2]
  unfold State.screened State.stamp; rw [lookup_bare ht h1 hs hk, h1, h3, hk]

/-- What the screening of taps may change. -/
structure Tapped (s t : State) : Prop where
  d : ∀ d, Ended d (s.setTaps t.taps) t
  drops : ∀ d, (t.drop d).bare = (s.drop d).bare

theorem lastTap_drop (u : State) (r) (d) : (u.setRoster { u.roster with lastTap := r }).drop d = u.drop d := rfl

theorem screenTap_spec (s : State) (d r) : let t := s.screenTap d r
   Decided (s.setTaps ({ s.taps with queue := s.taps.queue ++ [s.screened d r] }.count (s.screened d r).verdict)) t := by
  dsimp only; unfold State.screenTap; dsimp only; split
  · exact lateListed_decided _ _
  · exact .refl _

theorem count_bare (q : Taps) (v) : (q.count v).bare = q.bare.count v := by cases v <;> rfl

theorem count_queue (q : Taps) (v) : (q.count v).queue = q.queue := by cases v <;> rfl

/-- What the screening of a STATUS does (R160, R164 to R166). -/
theorem screenTaps_spec (d) (ts : List Tap) : ∀ s : State,
   (∃ q : Taps, Decided (s.setTaps q) (s.screenTaps d ts) ∧ q.bare = (ts.foldl (fun q r => ({ q with queue := q.queue ++ [s.screened d r] } : Taps).count (s.screened d r).verdict) s.taps).bare) := by
  induction ts with
  | nil => intro s; exact ⟨s.taps, Decided.refl _, rfl⟩
  | cons r ts ih =>
    intro s
    have D1 := screenTap_spec s d r
    dsimp only at D1
    obtain ⟨q, D2, hq⟩ := ih (s.screenTap d r)
    have hsc : ∀ x, (s.screenTap d r).screened d x = s.screened d x := fun x =>
      screened_bare D1.table D1.moved.cat D1.settings D1.clock d x
    have e : s.screenTaps d (r :: ts) = (s.screenTap d r).screenTaps d ts := rfl
    rw [e]
    refine ⟨q, ?_, ?_⟩
    · refine Decided.trans (t := (s.screenTap d r).setTaps q) ?_ D2
      constructor
      · exact D1.pending
      · exact D1.timebase
      · exact D1.clock
      · exact D1.settings
      · exact D1.intakes
      · exact D1.change
      · exact D1.port
      · exact D1.cat
      · exact D1.table
      · rfl
      · exact D1.trunk
      · exact D1.lastTap
      · exact D1.drops
      · exact D1.flying
      · exact D1.sweeping
      · exact D1.quiet
    · rw [hq]
      simp only [hsc, List.foldl_cons]
      have hb : ∀ (l : List Tap) (a b : Taps), a.bare = b.bare → (l.foldl (fun q r => ({ q with queue := q.queue ++ [s.screened d r] } : Taps).count (s.screened d r).verdict) a).bare = (l.foldl (fun q r => ({ q with queue := q.queue ++ [s.screened d r] } : Taps).count (s.screened d r).verdict) b).bare := by
        intro l
        induction l with
        | nil => intro a b h; exact h
        | cons y l ih2 =>
          intro a b h
          apply ih2
          rw [count_bare, count_bare]
          have h1 : ({ a with queue := a.queue ++ [s.screened d y] } : Taps).bare = ({ b with queue := b.queue ++ [s.screened d y] } : Taps).bare := by
            have := congrArg (fun q : Taps => ({ q with queue := q.queue ++ [s.screened d y] } : Taps)) h; exact this
          rw [h1]
      apply hb
      exact D1.taps

theorem foldl_queue (s : State) (d) (ts : List Tap) :
    ∀ q : Taps, (ts.foldl (fun q r => ({ q with queue := q.queue ++ [s.screened d r] } : Taps).count (s.screened d r).verdict) q).queue = q.queue ++ ts.map (s.screened d) := by
  induction ts with
  | nil => intro q; simp
  | cons r ts ih => intro q; rw [List.foldl_cons, ih, count_queue]; simp

/-- What a STATUS writes into its drop record (R83). -/
theorem takeStatus_spec (s : State) (d h held n) : let t := s.takeStatus d h held n
   ExchangeEnded d s t ∧ t.timebase = s.timebase ∧ t.trunk = s.trunk ∧ t.taps = s.taps ∧ t.roster.lastTap = (if n = 0 then s.roster.lastTap else some d)
   ∧ t.drop d = { s.drop d with
            holdings := h, known := true, tapsHeld := held
            counters := if n = 0 then (s.drop d).counters else { (s.drop d).counters with tapsIn := bump (s.drop d).counters.tapsIn n } } := by
  dsimp only; unfold State.takeStatus; dsimp only
  split
  · refine ⟨(ended_setDrop _ _ _).exchangeEnded, rfl, rfl, rfl, rfl, ?_⟩
    rw [State.drop_setDrop, if_pos rfl]
  · refine ⟨?_, rfl, rfl, rfl, rfl, ?_⟩
    · have := ((ended_setDrop s d { s.drop d with holdings := h, known := true, tapsHeld := held }).trans (countDrop_ended _ d (fun c => { c with tapsIn := bump c.tapsIn n }))).exchangeEnded
      exact ⟨this.pending, this.clock, this.settings, this.intakes, this.port, this.cat, this.table, this.drops⟩
    · rw [lastTap_drop, countDrop_drop, State.drop_setDrop, if_pos rfl]

theorem field_one_eight (l : List Byte) (h : 9 ≤ l.length) : field 1 8 l = (l.getD 8 0).toNat := by
  unfold field
  have : (l.drop 8).take 1 = [l.getD 8 0] := by
    rcases l with _ | ⟨a0, _ | ⟨a1, _ | ⟨a2, _ | ⟨a3, _ | ⟨a4, _ | ⟨a5, _ | ⟨a6, _ | ⟨a7, _ | ⟨a8, l⟩⟩⟩⟩⟩⟩⟩⟩⟩ <;> simp at h ⊢
  rw [this]; simp [leNat]

end Sys2Proof.Machine
end

