-- ==== Sys2Proof/Laws/Changeover.lean ====
section
/-! SUPPORT. The Changeover Controller: what it may change, the due test, the hold, readiness. -/

namespace Sys2Proof.Machine

theorem foundReady_state (s : State) (p b) (h : s.change.state = .due) :
    (s.foundReady p b).change.state = .due ∨ (s.foundReady p b).change.state = .doorWait := by
  unfold State.foundReady; dsimp only; split
  · exact .inl rfl
  · exact .inr rfl

theorem judgeReady_state (s : State) (h : s.change.state = .due) :
    s.judgeReady.change.state = .due ∨ s.judgeReady.change.state = .doorWait := by
  unfold State.judgeReady; split
  · split
    · exact foundReady_state _ _ _ h
    · split
      · exact foundReady_state _ _ _ h
      · exact .inl h
  · exact .inl h

theorem passHold_state (s : State) (p) (h : s.change.state = .due) :
    (s.passHold p).change.state = .due ∨ (s.passHold p).change.state = .doorWait := by
  unfold State.passHold; dsimp only
  apply judgeReady_state
  split <;> exact h

theorem enterDue_state (s : State) (p) : (s.enterDue p).change.state = .due ∨ (s.enterDue p).change.state = .doorWait := by
  unfold State.enterDue; dsimp only
  split
  · exact passHold_state _ _ rfl
  · split
    · exact judgeReady_state _ rfl
    · exact judgeReady_state _ rfl

/-- What the due test makes of a P (R145). -/
theorem dueTest_spec (s : State) (r : Fare) (h : s.cat.pendingFare = some r) :
    if r.minute = 0 ∨ (s.clock.valid = true ∧ r.minute ≤ s.clock.minute) then s.dueTest.change.state = .due ∨ s.dueTest.change.state = .doorWait
    else s.dueTest.change = { state := .staging, hold := .absent, door := none, requested := none, forced := false } := by
  unfold State.dueTest; rw [h]; dsimp only
  have : s.isDue r.minute = true ↔ (r.minute = 0 ∨ (s.clock.valid = true ∧ r.minute ≤ s.clock.minute)) := by
    unfold State.isDue; simp
  by_cases g : s.isDue r.minute = true
  · rw [if_pos (this.mp g)]; simp only [g, if_true]; exact enterDue_state _ _
  · rw [if_neg (fun x => g (this.mpr x))]; simp only [g]; rfl

theorem promote_frame (c : Catalogue) (jobs p) :
    (c.promote jobs p).h = c.h ∧ (c.promote jobs p).b = c.b ∧ (c.promote jobs p).chain = c.chain := by
  unfold Catalogue.promote; split
  · exact ⟨rfl, rfl, rfl⟩
  · split <;> exact ⟨rfl, rfl, rfl⟩

theorem dueTest_none (s : State) (h : s.cat.pendingFare = none) :
    s.dueTest = s.setChange { state := .idle, hold := .absent, door := none, requested := none, forced := false } := by
  unfold State.dueTest; rw [h]

theorem moved_pending {s t : State} (h : Moved s t) :
    t.cat.pendingFare = s.cat.pendingFare := by have := congrArg Catalogue.pendingFare h.cat; exact this

theorem moved_active {s t : State} (h : Moved s t) :
    t.cat.active = s.cat.active := by have := congrArg Catalogue.active h.cat; exact this

theorem moved_h {s t : State} (h : Moved s t) : t.cat.h = s.cat.h := by have := congrArg Catalogue.h h.cat; exact this

theorem moved_b {s t : State} (h : Moved s t) : t.cat.b = s.cat.b := by have := congrArg Catalogue.b h.cat; exact this

theorem moved_chain {s t : State} (h : Moved s t) :
    t.cat.chain = s.cat.chain := by have := congrArg Catalogue.chain h.cat; exact this

theorem decided_hold {s t : State} (h : Decided s t) :
    t.cat.hold = s.cat.hold := by have := congrArg Catalogue.hold h.cat; exact this

theorem allArmed_congr {s t : State} (h : ∀ d, (t.drop d).bare = (s.drop d).bare) (p) : t.allArmed p = s.allArmed p := by
  have e : ∀ d, t.counted d = s.counted d ∧ t.armed p d = s.armed p d := by
    intro d
    have h1 := congrArg (fun x : Drop => x.presence) (h d)
    have h2 := congrArg (fun x : Drop => x.stopping) (h d)
    have h3 := congrArg (fun x : Drop => x.known) (h d)
    have h4 := congrArg (fun x : Drop => x.holdings) (h d)
    have h1 : (t.drop d).presence = (s.drop d).presence := h1
    have h2 : (t.drop d).stopping = (s.drop d).stopping := h2
    have h3 : (t.drop d).known = (s.drop d).known := h3
    have h4 : (t.drop d).holdings = (s.drop d).holdings := h4
    unfold State.armed State.counted
    rw [h1, h2, h3, h4]; exact ⟨rfl, rfl⟩
  unfold State.allArmed
  simp only [e]

/-- Readiness judged in DUE with no request. -/
theorem judgeReady_due (s : State) (p : Nat) (h1 : s.change.state = .due) (h2 : s.change.requested = none) (h3 : s.cat.p? = some p) :
   s.judgeReady = if s.allArmed p then s.foundReady p false else if s.change.hold = .passed then s.foundReady p true else s := by
  unfold State.judgeReady; rw [h1, h2, h3]

/-- What the passing of the hold does (R148). -/
theorem passHold_eq (s : State) (p : Nat) (h1 : s.change.state = .due) (h2 : s.change.requested = none) (h3 : s.cat.p? = some p) :
   s.passHold p = (if s.allArmed p then s.setChange { s.change with hold := .passed } else (s.setChange { s.change with hold := .passed }).raiseEdition .changeoverHeld p).foundReady p (!s.allArmed p) := by
  unfold State.passHold
  dsimp only
  have e : ∀ u : State, (u = s.setChange { s.change with hold := .passed } ∨ u = (s.setChange { s.change with hold := .passed }).raiseEdition .changeoverHeld p) → u.allArmed p = s.allArmed p ∧ u.judgeReady = u.foundReady p (!s.allArmed p) := by
    intro u hu
    have ha : u.allArmed p = s.allArmed p := by rcases hu with rfl | rfl <;> rfl
    refine ⟨ha, ?_⟩
    rw [judgeReady_due u p (by rcases hu with rfl | rfl <;> exact h1) (by rcases hu with rfl | rfl <;> exact h2) (by rcases hu with rfl | rfl <;> exact h3)]
    rw [ha, if_pos (show u.change.hold = .passed by rcases hu with rfl | rfl <;> rfl)]
    cases s.allArmed p <;> rfl
  have ha : (s.setChange { s.change with hold := .passed }).allArmed p = s.allArmed p := rfl
  split
  next g => exact (e _ (.inl rfl)).2
  next g => exact (e _ (.inr rfl)).2

/-- The changeover record after the bus has been found ready (R149). -/
theorem foundReady_change (s : State) (p b) :
    (s.foundReady p b).change.hold = .absent ∧ (s.foundReady p b).change.forced = b ∧
   (if s.port.door = .closed ∨ s.settings.doorLimit = 0 then (s.foundReady p b).change.state = .due ∧ (s.foundReady p b).change.requested = some p ∧ (s.foundReady p b).change.door = none ∧ (s.foundReady p b).cat.hold = s.cat.pendingFare.map Fare.ref else (s.foundReady p b).change.state = .doorWait ∧ (s.foundReady p b).change.requested = s.change.requested ∧ (s.foundReady p b).change.door.isSome = true) := by
  unfold State.foundReady; dsimp only
  split
  · exact ⟨rfl, rfl, rfl, rfl, rfl, rfl⟩
  · exact ⟨rfl, rfl, rfl, rfl, rfl⟩

/-- What the passing of the hold leaves (R148, R149). -/
theorem passHold_all (s : State) (p : Nat) (h1 : s.change.state = .due) (h2 : s.change.requested = none) (h3 : s.cat.p? = some p) :
   let t := s.passHold p
   t.change.hold = .absent ∧ t.change.forced = !s.allArmed p ∧
      (if s.port.door = .closed ∨ s.settings.doorLimit = 0 then
        t.change.state = .due ∧ t.change.requested = some p ∧ t.change.door = none ∧ t.cat.hold = s.cat.pendingFare.map Fare.ref
      else t.change.state = .doorWait ∧ t.change.requested = none ∧ t.change.door.isSome = true) ∧
      (s.allArmed p = true → t.port.flags.changeoverHeld = s.port.flags.changeoverHeld) ∧
      (s.allArmed p = false → s.port.flags.changeoverHeld = none →
        t.port.flags.changeoverHeld = some { edition := p, code := none, drop := none, minute := s.stamp }) := by
  dsimp only
  have e2 := passHold_eq s p h1 h2 h3
  generalize hz : (if s.allArmed p then s.setChange { s.change with hold := .passed } else (s.setChange { s.change with hold := .passed }).raiseEdition .changeoverHeld p) = z at e2
  obtain ⟨c1, c2, c3⟩ := foundReady_change z p (!s.allArmed p)
  have hzp : z.port.door = s.port.door ∧ z.settings = s.settings ∧ z.change.requested = none ∧ z.cat = s.cat := by
    rw [← hz]; split
    · exact ⟨rfl, rfl, h2, rfl⟩
    · refine ⟨?_, rfl, h2, rfl⟩
      have := Port.raise_core s.port s.settings.enables .changeoverHeld { edition := p, code := none, drop := none, minute := s.stamp }
      have := congrArg Port.door this; exact this
  rw [hzp.1, hzp.2.1, hzp.2.2.1, hzp.2.2.2] at c3
  have hfl : ∀ b, (z.foundReady p b).port = z.port := by
    intro b; unfold State.foundReady; dsimp only; split <;> rfl
  rw [e2]
  refine ⟨c1, c2, c3, fun ha => ?_, fun ha hn => ?_⟩
  · rw [hfl, ← hz, if_pos ha]; rfl
  · rw [hfl, ← hz, if_neg (by rw [ha]; simp)]
    have := raise_sets s.port s.settings.enables .changeoverHeld { edition := p, code := none, drop := none, minute := s.stamp }
    have hn' : s.port.flags.get .changeoverHeld = none := hn
    rw [hn'] at this; exact this

theorem allArmed_iff (s : State) (p : Nat) : s.allArmed p = true ↔ s.busArmed p := by
  have mem : ∀ d : DropId, d ∈ allDrops := by decide
  unfold State.allArmed State.busArmed
  rw [List.all_eq_true]
  have one : ∀ d, (!s.counted d || s.armed p d) = true ↔ ((s.drop d).presence = .present → (s.drop d).stopping = false →
      (s.drop d).known = true ∧ (s.drop d).holdings.staged = p) := by
    intro d
    unfold State.armed State.counted
    cases (s.drop d).stopping <;> cases (s.drop d).known <;> by_cases h : (s.drop d).presence = .present <;> simp [h]
  exact ⟨fun h d => (one d).mp (h d (mem d)), fun h d _ => (one d).mpr (h d)⟩

theorem busArmed_congr {s t : State} (h : ∀ d, (t.drop d).bare = (s.drop d).bare) (p : Nat) : t.busArmed p ↔ s.busArmed p := by
  rw [← allArmed_iff, ← allArmed_iff, allArmed_congr h]

theorem p?_of {s : State} {r : Fare} (h : s.cat.pendingFare = some r) : s.cat.p? = some r.edition := by
  unfold Catalogue.p?; rw [h]; rfl

/-- What finding the bus ready leaves at the end of the event (R149, R151). -/
theorem foundReady_spec (u t : State) (r : Fare) (b : Bool) (hr : u.cat.pendingFare = some r) (hq : u.change.requested = none)
    (hc : t.change = (u.foundReady r.edition b).change) (hh : t.cat.hold = (u.foundReady r.edition b).cat.hold)
    (hd : t.port.door = u.port.door) (hs : t.settings = u.settings) (ht : t.timebase = u.timebase) : FoundReady r b t := by
  by_cases g : u.port.door = .closed ∨ u.settings.doorLimit = 0
  · have e : u.foundReady r.edition b = (u.setChange { u.change with forced := b }).activate r.edition := by
      unfold State.foundReady; dsimp only; exact if_pos g
    rw [e] at hc hh
    refine ⟨by rw [hc]; rfl, by rw [hc]; rfl, fun _ => ⟨by rw [hc]; rfl, by rw [hc]; rfl, by rw [hc]; rfl, ?_⟩, fun h1 h2 => ?_⟩
    · rw [hh]; show u.cat.pendingFare.map Fare.ref = _; rw [hr]; rfl
    · rw [hd] at h1; rw [hs] at h2; exact absurd g (by simp [h1, h2])
  · have e : u.foundReady r.edition b = (u.setChange { u.change with forced := b }).setChange
        { (u.setChange { u.change with forced := b }).change with
          state := .doorWait, hold := .absent, door := some (u.timebase + u.settings.doorLimit * 1000000) } := by
      unfold State.foundReady; dsimp only; exact if_neg g
    rw [e] at hc
    refine ⟨by rw [hc]; rfl, by rw [hc]; rfl, fun h => ?_, fun _ _ => ⟨by rw [hc]; rfl, by rw [hc]; exact hq, by rw [hc, ht, hs]; rfl⟩⟩
    rw [hd, hs] at h; exact absurd h g

/-- `t` has the changeover, its hold and flag, and all that the changeover reads, as `u` has them. -/
structure Carried (u t : State) : Prop where
  change : t.change = u.change
  hold : t.cat.hold = u.cat.hold
  held : t.port.flags.changeoverHeld = u.port.flags.changeoverHeld
  door : t.port.door = u.port.door
  settings : t.settings = u.settings
  timebase : t.timebase = u.timebase
  clock : t.clock = u.clock
  armed : ∀ p, t.busArmed p ↔ u.busArmed p

theorem Carried.refl (s : State) : Carried s s := ⟨rfl, rfl, rfl, rfl, rfl, rfl, rfl, fun _ => .rfl⟩

theorem Carried.trans {s t u : State} (h : Carried s t) (g : Carried t u) : Carried s u :=
  ⟨g.change.trans h.change, g.hold.trans h.hold, g.held.trans h.held, g.door.trans h.door, g.settings.trans h.settings,
    g.timebase.trans h.timebase, g.clock.trans h.clock, fun p => (g.armed p).trans (h.armed p)⟩

theorem Carried.of_decided {u t : State} (h : Decided u t) : Carried u t where
  change := h.change
  hold := decided_hold h
  held := Port.flags_of_bare h.port .changeoverHeld (by simp) (by simp)
  door := by have := congrArg Port.door h.port; exact this
  settings := h.settings
  timebase := h.timebase
  clock := h.clock
  armed := busArmed_congr h.drops

theorem FoundReady.carried {r : Fare} {b : Bool} {u t : State} (h : FoundReady r b u) (g : Carried u t) : FoundReady r b t :=
  ⟨by rw [g.change]; exact h.forced, by rw [g.change]; exact h.hold,
    fun x => by rw [g.door, g.settings] at x; rw [g.change, g.hold]; exact h.decided x,
    fun x y => by rw [g.door] at x; rw [g.settings] at y; rw [g.change, g.timebase, g.settings]; exact h.waits x y⟩

theorem HoldPassed.carried {r : Fare} {c : Option Ctx} {u t : State} (h : HoldPassed r c u) (g : Carried u t) : HoldPassed r c t :=
  ⟨fun x => by rw [g.armed] at x; exact ⟨(h.armed x).1.carried g, g.held.trans (h.armed x).2⟩,
    fun x => by
      rw [g.armed] at x
      have e : t.stamp = u.stamp := by unfold State.stamp; rw [g.clock]
      rw [e]
      exact ⟨(h.unarmed x).1.carried g, g.held.trans (h.unarmed x).2⟩⟩

theorem DueEntered.carried {r : Fare} {c : Option Ctx} {u t : State} (h : DueEntered r c u) (g : Carried u t) : DueEntered r c t :=
  ⟨fun x => by rw [g.settings] at x; exact (h.passed x).carried g,
    fun x y => by rw [g.settings] at x; rw [g.armed] at y; exact (h.armed x y).carried g,
    fun x y => by rw [g.settings] at x ⊢; rw [g.armed] at y; rw [g.change, g.clock]; exact h.waits x y,
    fun x => by rw [g.settings] at x; exact g.held.trans (h.flag x)⟩

theorem foundReady_port (s : State) (p : Nat) (b : Bool) : (s.foundReady p b).port = s.port := by
  unfold State.foundReady; dsimp only; split <;> rfl

/-- The bus found ready leaves what R149 and R151 say. -/
theorem foundReady_ready (u : State) (r : Fare) (b : Bool) (hr : u.cat.pendingFare = some r) (hq : u.change.requested = none) :
    FoundReady r b (u.foundReady r.edition b) :=
  foundReady_spec u _ r b hr hq rfl rfl (by rw [foundReady_port]) (foundReady_moved u r.edition b).settings
    (foundReady_moved u r.edition b).timebase

/-- The hold passes (R148, R149). -/
theorem passHold_spec (u : State) (r : Fare) (h1 : u.change.state = .due) (h2 : u.change.requested = none)
    (hr : u.cat.pendingFare = some r) : HoldPassed r u.port.flags.changeoverHeld (u.passHold r.edition) := by
  have hb := busArmed_congr (passHold_moved u r.edition).drops r.edition
  have ht : (u.passHold r.edition).stamp = u.stamp := by unfold State.stamp; rw [(passHold_moved u r.edition).clock]
  have e := passHold_eq u r.edition h1 h2 (p?_of hr)
  constructor
  · intro x
    rw [hb, ← allArmed_iff] at x
    rw [x] at e
    rw [e]
    exact ⟨foundReady_ready _ r false hr h2, by rw [foundReady_port]; rfl⟩
  · intro x
    rw [hb, ← allArmed_iff, Bool.not_eq_true] at x
    rw [ht]
    rw [x] at e
    rw [e]
    refine ⟨foundReady_ready _ r true hr h2, ?_⟩
    rw [foundReady_port]
    exact raise_sets u.port u.settings.enables .changeoverHeld { edition := r.edition, code := none, drop := none, minute := u.stamp }

/-- DUE entered (R146). -/
theorem enterDue_spec (u : State) (r : Fare) (hr : u.cat.pendingFare = some r) :
    DueEntered r u.port.flags.changeoverHeld (u.enterDue r.edition) := by
  have M := enterDue_moved u r.edition
  have hb := busArmed_congr M.drops r.edition
  by_cases z : u.settings.holdLimit = 0
  · refine ⟨fun _ => ?_, fun x => absurd (by rw [M.settings]; exact z) x, fun x => absurd (by rw [M.settings]; exact z) x,
      fun x => absurd (by rw [M.settings]; exact z) x⟩
    have e : u.enterDue r.edition =
        (u.setChange { state := .due, hold := .absent, door := none, requested := none, forced := false }).passHold r.edition := by
      unfold State.enterDue; exact if_pos z
    rw [e]
    exact passHold_spec (u.setChange { state := .due, hold := .absent, door := none, requested := none, forced := false }) r rfl rfl hr
  · obtain ⟨h, hh, e⟩ : ∃ h, (h = if u.clock.valid then .minute (u.clock.minute + u.settings.holdLimit) else .unset u.settings.holdLimit) ∧
        u.enterDue r.edition =
          (u.setChange { state := .due, hold := h, door := none, requested := none, forced := false }).judgeReady := by
      refine ⟨_, rfl, ?_⟩
      unfold State.enterDue
      dsimp only
      rw [if_neg z]
      cases u.clock.valid <;> rfl
    have ej := judgeReady_due (u.setChange { state := .due, hold := h, door := none, requested := none, forced := false }) r.edition rfl rfl
      (p?_of hr)
    have ea : (u.setChange { state := .due, hold := h, door := none, requested := none, forced := false }).allArmed r.edition =
        u.allArmed r.edition := rfl
    rw [ea] at ej
    refine ⟨fun x => absurd (by rw [M.settings] at x; exact x) z, fun _ x => ?_, fun _ x => ?_, fun _ => ?_⟩
    · rw [hb, ← allArmed_iff] at x
      rw [e, ej, if_pos x]
      exact foundReady_ready _ r false hr rfl
    · rw [hb, ← allArmed_iff] at x
      have hn : h ≠ .passed := by rw [hh]; split <;> simp
      rw [M.clock, M.settings, e, ej, if_neg x, ← hh]
      exact congrArg State.change (if_neg hn)
    · rw [e, ej]
      split
      · rw [foundReady_port]; rfl
      · split
        · rw [foundReady_port]; rfl
        · rfl

/-- The due test for a P (R145). -/
theorem dueTest_due (u : State) (r : Fare) (hr : u.cat.pendingFare = some r) :
    if r.minute = 0 ∨ (u.clock.valid = true ∧ r.minute ≤ u.clock.minute) then
      DueEntered r u.port.flags.changeoverHeld u.dueTest
    else
      u.dueTest.change = { state := .staging, hold := .absent, door := none, requested := none, forced := false } ∧
        u.dueTest.port = u.port := by
  have : u.isDue r.minute = true ↔ (r.minute = 0 ∨ (u.clock.valid = true ∧ r.minute ≤ u.clock.minute)) := by
    unfold State.isDue; simp
  unfold State.dueTest
  rw [hr]
  dsimp only
  by_cases g : u.isDue r.minute = true
  · rw [if_pos (this.mp g), if_pos g]; exact enterDue_spec u r hr
  · rw [if_neg (fun x => g (this.mpr x)), if_neg g]; exact ⟨rfl, rfl⟩

/-- What the Changeover Controller may change besides its own record: the activation hold, the request, flags and notices. -/
structure ChangeFrame (s t : State) : Prop where
  pending : t.pending = s.pending
  timebase : t.timebase = s.timebase
  clock : t.clock = s.clock
  settings : t.settings = s.settings
  intakes : t.intakes = s.intakes
  port : t.port.core = s.port.core
  cat : t.cat = { s.cat with hold := t.cat.hold }
  table : t.table = s.table
  roster : t.roster = s.roster
  planner : t.planner = s.planner
  taps : t.taps = s.taps
  trunk : t.trunk = { s.trunk with request := t.trunk.request }

theorem ChangeFrame.refl (s : State) : ChangeFrame s s := ⟨rfl, rfl, rfl, rfl, rfl, rfl, rfl, rfl, rfl, rfl, rfl, rfl⟩

theorem ChangeFrame.trans {s t u} (a : ChangeFrame s t) (b : ChangeFrame t u) : ChangeFrame s u where
  pending := b.pending.trans a.pending
  timebase := b.timebase.trans a.timebase
  clock := b.clock.trans a.clock
  settings := b.settings.trans a.settings
  intakes := b.intakes.trans a.intakes
  port := b.port.trans a.port
  cat := by rw [b.cat, a.cat]
  table := b.table.trans a.table
  roster := b.roster.trans a.roster
  planner := b.planner.trans a.planner
  taps := b.taps.trans a.taps
  trunk := by rw [b.trunk, a.trunk]

theorem change_setChange (s : State) (c) :
    ChangeFrame s (s.setChange c) := ⟨rfl, rfl, rfl, rfl, rfl, rfl, rfl, rfl, rfl, rfl, rfl, rfl⟩

theorem change_raise (s : State) (f) (p) :
    ChangeFrame s (s.raiseEdition f p) := ⟨rfl, rfl, rfl, rfl, rfl, Port.raise_core _ _ _ _, rfl, rfl, rfl, rfl, rfl, rfl⟩

theorem change_activate (s : State) (p) :
    ChangeFrame s (s.activate p) := ⟨rfl, rfl, rfl, rfl, rfl, rfl, rfl, rfl, rfl, rfl, rfl, rfl⟩

theorem change_foundReady (s : State) (p b) : ChangeFrame s (s.foundReady p b) := by
  unfold State.foundReady; dsimp only; split
  · exact (change_setChange _ _).trans (change_activate _ _)
  · exact (change_setChange _ _).trans (change_setChange _ _)

theorem change_judgeReady (s : State) : ChangeFrame s s.judgeReady := by
  unfold State.judgeReady; split
  · split
    · exact change_foundReady _ _ _
    · split
      · exact change_foundReady _ _ _
      · exact .refl s
  · exact .refl s

theorem change_passHold (s : State) (p) : ChangeFrame s (s.passHold p) := by
  unfold State.passHold; dsimp only; split
  · exact (change_setChange _ _).trans (change_judgeReady _)
  · exact ((change_setChange _ _).trans (change_raise _ _ _)).trans (change_judgeReady _)

theorem change_enterDue (s : State) (p) : ChangeFrame s (s.enterDue p) := by
  unfold State.enterDue; dsimp only; split
  · exact (change_setChange _ _).trans (change_passHold _ _)
  · split
    · exact ((change_setChange _ _).trans (change_setChange _ _)).trans (change_judgeReady _)
    · exact (change_setChange _ _).trans (change_judgeReady _)

theorem change_dueTest (s : State) : ChangeFrame s s.dueTest := by
  unfold State.dueTest; split
  · exact change_setChange _ _
  · split
    · exact change_enterDue _ _
    · exact change_setChange _ _

theorem change_changeoverRestart (s : State) : ChangeFrame s s.changeoverRestart := by
  unfold State.changeoverRestart; split
  · exact .refl s
  all_goals exact change_dueTest s

/-- The trunk request follows the requested edition, and the activation hold then names P's record. -/
structure RequestFollows (s t : State) : Prop where
  req : t.trunk.request = if t.change.requested.isSome then t.change.requested else s.trunk.request
  hold : t.cat.hold = if t.change.requested.isSome then s.cat.pendingFare.map Fare.ref else s.cat.hold

theorem request_foundReady (s : State) (p b) (h : s.change.requested = none) : RequestFollows s (s.foundReady p b) := by
  unfold State.foundReady; dsimp only; split
  · exact ⟨rfl, rfl⟩
  · constructor
    · show s.trunk.request = if s.change.requested.isSome then _ else _; rw [h]; rfl
    · show s.cat.hold = if s.change.requested.isSome then _ else _; rw [h]; rfl

theorem request_judgeReady (s : State) (h : s.change.requested = none) : RequestFollows s s.judgeReady := by
  unfold State.judgeReady; split
  · split
    · exact request_foundReady _ _ _ h
    · split
      · exact request_foundReady _ _ _ h
      · exact ⟨by rw [h]; rfl, by rw [h]; rfl⟩
  · exact ⟨by rw [h]; rfl, by rw [h]; rfl⟩

theorem RequestFollows.of {s s' t : State} (a : RequestFollows s' t) (h1 : s'.trunk.request = s.trunk.request) (h2 : s'.cat.hold = s.cat.hold)
    (h3 : s'.cat.pendingFare = s.cat.pendingFare) :
    RequestFollows s t := ⟨by rw [a.req, h1], by rw [a.hold, h2, h3]⟩

theorem request_enterDue (s : State) (p) : RequestFollows s (s.enterDue p) := by
  unfold State.enterDue; dsimp only; split
  · unfold State.passHold; dsimp only; split
    · exact (request_judgeReady _ rfl).of rfl rfl rfl
    · exact (request_judgeReady _ rfl).of rfl rfl rfl
  · split
    · exact (request_judgeReady _ rfl).of rfl rfl rfl
    · exact (request_judgeReady _ rfl).of rfl rfl rfl

theorem request_dueTest (s : State) : RequestFollows s s.dueTest := by
  unfold State.dueTest; split
  · exact ⟨rfl, rfl⟩
  · split
    · exact request_enterDue _ _
    · exact ⟨rfl, rfl⟩

end Sys2Proof.Machine
end

