-- ==== Sys2Proof/Laws/Checks.lean ====
section
/-! SUPPORT. Stage 2 of the intake check, slot by slot (R2, R4, R5, R26, R191). -/

namespace Sys2Proof.Machine

theorem productLegal_iff (prev : Nat) (b : List Byte) : productLegal prev b = true ↔ ProductLegal prev b := by
  have e : ∀ off w, numberAt b off w = field w off b := fun _ _ => rfl
  have p : productLegal prev b =
      (decide (prev < field 2 0 b) && decide (1 ≤ field 1 2 b ∧ field 1 2 b ≤ 5) && decide (1 ≤ field 1 3 b ∧ field 1 3 b ≤ 4) &&
        decide (field 2 6 b ≠ 0) && decide (field 2 8 b ≤ 10080) && decide (field 2 10 b ≤ field 2 8 b) &&
        decide (field 1 12 b < 8) && !(field 1 12 b % 2 == 1 && field 1 12 b / 2 % 2 == 1) && decide (field 1 13 b = 0) &&
        allZero (b.drop 16)) := rfl
  rw [p]
  simp only [Bool.and_eq_true, decide_eq_true_eq, allZero, List.all_eq_true, beq_iff_eq, Bool.not_eq_true',
    Bool.and_eq_false_iff, beq_eq_false_iff_ne]
  constructor
  · rintro ⟨⟨⟨⟨⟨⟨⟨⟨⟨h1, h2⟩, h3⟩, h4⟩, h5⟩, h6⟩, h7⟩, h8⟩, h9⟩, h10⟩
    exact ⟨h1, h2, h3, h4, h5, h6, ⟨h7, by rw [e]; omega⟩, h9, h10⟩
  · rintro ⟨h1, h2, h3, h4, h5, h6, ⟨h7, h8⟩, h9, h10⟩
    rw [e] at h7 h8
    exact ⟨⟨⟨⟨⟨⟨⟨⟨⟨h1, h2⟩, h3⟩, h4⟩, h5⟩, h6⟩, h7⟩, by omega⟩, h9⟩, h10⟩

theorem field_byte_lt (off : Nat) (b : List Byte) : field 1 off b < 256 := by
  unfold field
  cases h : (b.drop off).take 1 with
  | nil => simp [leNat]
  | cons x xs =>
    have : xs = [] := by
      have := congrArg List.length h
      simp at this
      exact List.eq_nil_of_length_eq_zero (by omega)
    subst this
    simpa [leNat] using x.isLt

theorem entryLegal_iff (form : Form) (prev : Nat) (b : List Byte) : entryLegal form prev b = true ↔ EntryLegal form prev b := by
  have e : ∀ off w, numberAt b off w = field w off b := fun _ _ => rfl
  have lt := field_byte_lt 8 b
  by_cases h : field 1 8 b / 128 = 1
  · simp only [entryLegal, changeOf, h, Bool.and_eq_true, decide_eq_true_eq, beq_self_eq_true, if_true, beq_iff_eq]
    exact ⟨fun ⟨⟨⟨h1, h2⟩, h3⟩, ⟨h4, h5⟩, h6⟩ => ⟨h1, ⟨h2, h3⟩, by rw [e]; omega, fun _ => ⟨h4, h5, h6⟩⟩,
      fun ⟨h1, ⟨h2, h3⟩, _, h4⟩ =>
        have q := h4 (by rw [e]; omega)
        ⟨⟨⟨h1, h2⟩, h3⟩, ⟨q.1, q.2.1⟩, q.2.2⟩⟩
  · simp only [entryLegal, changeOf, beq_eq_false_iff_ne.mpr h, Bool.and_eq_true, decide_eq_true_eq, Bool.false_eq_true, if_false]
    exact ⟨fun ⟨⟨⟨h1, h2⟩, h3⟩, h4⟩ => ⟨h1, ⟨h2, h3⟩, fun _ => h4, by rw [e]; omega⟩,
      fun ⟨h1, ⟨h2, h3⟩, h4, _⟩ => ⟨⟨⟨h1, h2⟩, h3⟩, h4 (by rw [e]; omega)⟩⟩

/-! ### The slots of an edition -/

theorem cutSlots_length (size n : Nat) (bytes : List Byte) : (cutSlots size n bytes).length = n := by
  induction n generalizing bytes with
  | zero => rfl
  | succ n ih => simp [cutSlots, ih]

theorem cutSlots_getElem? (size n : Nat) (bytes : List Byte) (i : Nat) (h : i < n) :
    (cutSlots size n bytes)[i]? = some ((bytes.drop (size * i)).take size) := by
  induction n generalizing bytes i with
  | zero => omega
  | succ n ih =>
    cases i with
    | zero => simp [cutSlots]
    | succ i =>
      rw [cutSlots, List.getElem?_cons_succ, ih _ _ (by omega), List.drop_drop, Nat.mul_succ, Nat.add_comm]

/-- What stands at a place of equally long lists put end to end. -/
theorem flatMap_getElem? {α β : Type} (f : α → List β) (n : Nat) (hn : 0 < n) (hf : ∀ x, (f x).length = n) (l : List α)
    (i : Nat) : (l.flatMap f)[i]? = l[i / n]?.bind (fun x => (f x)[i % n]?) := by
  induction l generalizing i with
  | nil => simp
  | cons x xs ih =>
    rw [List.flatMap_cons]
    rcases Nat.lt_or_ge i n with h | h
    · rw [List.getElem?_append_left (by rw [hf]; exact h), Nat.div_eq_of_lt h, Nat.mod_eq_of_lt h]
      simp
    · rw [List.getElem?_append_right (by rw [hf]; exact h), hf, ih]
      obtain ⟨j, rfl⟩ : ∃ j, i = j + n := ⟨i - n, by omega⟩
      rw [Nat.add_sub_cancel, Nat.add_div_right _ hn, Nat.add_mod_right, List.getElem?_cons_succ]

theorem slotsOf_length (k : Kind) (segs : List Segment) : (slotsOf k segs).length = slotCount k segs := by
  unfold slotsOf
  rw [List.length_flatMap, List.map_congr_left (fun s _ => cutSlots_length _ _ s), List.map_const', List.sum_replicate]
  cases k <;> simp [slotCount, itemsPerSegment, Nat.mul_comm]

theorem slotsOf_getElem? (k : Kind) (segs : List Segment) (i : Nat) (h : i < slotCount k segs) :
    (slotsOf k segs)[i]? = some (slotAt k segs i) := by
  cases k with
  | fare =>
    have hi : i / 6 < segs.length := by simp only [slotCount] at h; omega
    rw [slotsOf, flatMap_getElem? _ 6 (by decide) (fun s => cutSlots_length (itemSize _) (itemsPerSegment _) s)]
    simp only [List.getElem?_eq_getElem hi, Option.bind_some, slotAt, Option.getD_some]
    exact cutSlots_getElem? _ _ _ _ (Nat.mod_lt _ (by decide))
  | block =>
    have hi : i / 20 < segs.length := by simp only [slotCount] at h; omega
    rw [slotsOf, flatMap_getElem? _ 20 (by decide) (fun s => cutSlots_length (itemSize _) (itemsPerSegment _) s)]
    simp only [List.getElem?_eq_getElem hi, Option.bind_some, slotAt, Option.getD_some]
    exact cutSlots_getElem? _ _ _ _ (Nat.mod_lt _ (by decide))

/-! ### The first bad slot -/

/-- Whether the slot at place n of a run of slots is bad, the run beginning at index i after an item of ID `prev`. -/
def badIn (legal : Nat → List Byte → Bool) (idOf : List Byte → Nat) (count i prev : Nat) (l : List (List Byte)) (n : Nat) : Bool :=
  if i + n < count then !legal (if n = 0 then prev else idOf ((l[n - 1]?).getD [])) ((l[n]?).getD []) else !allZero ((l[n]?).getD [])

theorem firstBad_spec (legal : Nat → List Byte → Bool) (idOf : List Byte → Nat) (count i prev : Nat) (l : List (List Byte)) :
    match firstBad legal idOf count i prev l with
    | some r => ∃ n, r = i + n ∧ n < l.length ∧ badIn legal idOf count i prev l n = true ∧
        ∀ m, m < n → badIn legal idOf count i prev l m = false
    | none => ∀ m, m < l.length → badIn legal idOf count i prev l m = false := by
  induction l generalizing i prev with
  | nil => simp [firstBad]
  | cons b bs ih =>
    have first : badIn legal idOf count i prev (b :: bs) 0 = if i < count then !legal prev b else !allZero b := by
      simp [badIn]
    have next : ∀ p, (i < count → p = idOf b) → ∀ m,
        badIn legal idOf count i prev (b :: bs) (m + 1) = badIn legal idOf count (i + 1) p bs m := by
      intro p hp m
      simp only [badIn, List.getElem?_cons_succ, Nat.add_sub_cancel, Nat.add_one_ne_zero, if_false]
      rw [show i + (m + 1) = i + 1 + m by omega]
      by_cases hc : i + 1 + m < count
      · rw [if_pos hc, if_pos hc]
        cases m with
        | zero => rw [if_pos rfl, hp (by omega)]; simp
        | succ m => simp
      · rw [if_neg hc, if_neg hc]
    have step : ∀ p, (i < count → p = idOf b) → badIn legal idOf count i prev (b :: bs) 0 = false →
        match firstBad legal idOf count (i + 1) p bs with
        | some r => ∃ n, r = i + n ∧ n < (b :: bs).length ∧ badIn legal idOf count i prev (b :: bs) n = true ∧
            ∀ m, m < n → badIn legal idOf count i prev (b :: bs) m = false
        | none => ∀ m, m < (b :: bs).length → badIn legal idOf count i prev (b :: bs) m = false := by
      intro p hp h0
      have := ih (i + 1) p
      split at this
      · obtain ⟨n, hr, hn, hb, hm⟩ := this
        refine ⟨n + 1, by omega, by simpa using hn, by rw [next p hp]; exact hb, fun m hmn => ?_⟩
        cases m with
        | zero => exact h0
        | succ m => rw [next p hp]; exact hm m (by omega)
      · intro m hmn
        cases m with
        | zero => exact h0
        | succ m => rw [next p hp]; exact this m (by simpa using hmn)
    unfold firstBad
    by_cases hc : i < count
    · rw [if_pos hc] at first ⊢
      cases hl : legal prev b
      · exact ⟨0, rfl, by simp, by rw [first, hl]; rfl, fun m hm => absurd hm (by omega)⟩
      · exact step (idOf b) (fun _ => rfl) (by rw [first, hl]; rfl)
    · rw [if_neg hc] at first ⊢
      cases hl : allZero b
      · exact ⟨0, rfl, by simp, by rw [first, hl]; rfl, fun m hm => absurd hm (by omega)⟩
      · exact step prev (fun h => absurd h hc) (by rw [first, hl]; rfl)

/-- The test of an item of a kind, and its ID. -/
def legalIn (k : Kind) (form : Form) : Nat → List Byte → Bool := match k with | .fare => productLegal | .block => entryLegal form
/-- The ID of an item of a kind. -/
def itemId (k : Kind) : List Byte → Nat := match k with | .fare => productId | .block => fun b => (changeOf b).card

theorem allZero_eq_false_iff (b : List Byte) : allZero b = false ↔ ∃ x ∈ b, x ≠ 0 := by
  simp [allZero]

theorem slotBad_iff (k : Kind) (form : Form) (count : Nat) (segs : List Segment) (i : Nat) (h : i < slotCount k segs) :
    SlotBad k form count segs i ↔
      badIn (legalIn k form) (itemId k) count 0 0 (slotsOf k segs) i = true := by
  have hi := slotsOf_getElem? k segs i h
  have hp : i ≠ 0 → (slotsOf k segs)[i - 1]? = some (slotAt k segs (i - 1)) := fun h0 =>
    slotsOf_getElem? k segs (i - 1) (by omega)
  unfold SlotBad badIn
  rw [Nat.zero_add, hi, Option.getD_some]
  by_cases hc : i < count
  · rw [if_pos hc, if_pos hc]
    by_cases h0 : i = 0
    · cases k
      · simp only [h0, if_true, Bool.not_eq_true', ← Bool.not_eq_true, productLegal_iff, legalIn]
      · simp only [h0, if_true, Bool.not_eq_true', ← Bool.not_eq_true, entryLegal_iff, legalIn]
    · rw [hp h0, Option.getD_some]
      cases k
      · simp only [h0, if_false, Bool.not_eq_true', ← Bool.not_eq_true, productLegal_iff, legalIn]; rfl
      · simp only [h0, if_false, Bool.not_eq_true', ← Bool.not_eq_true, entryLegal_iff, legalIn]; rfl
  · rw [if_neg hc, if_neg hc, Bool.not_eq_true', allZero_eq_false_iff]

theorem firstMalformed_eq (k : Kind) (form : Form) (count : Nat) (segs : List Segment) :
    firstMalformed k form count segs =
      firstBad (legalIn k form) (itemId k) count 0 0 (slotsOf k segs) := by
  cases k <;> rfl

/-- The slot that stage 2 finds is the first bad one. -/
theorem firstMalformed_eq_some_iff (k : Kind) (form : Form) (count : Nat) (segs : List Segment) (i : Nat) :
    firstMalformed k form count segs = some i ↔
      i < slotCount k segs ∧ SlotBad k form count segs i ∧ ∀ j, j < i → ¬SlotBad k form count segs j := by
  have spec := firstBad_spec (legalIn k form) (itemId k) count 0 0 (slotsOf k segs)
  rw [← firstMalformed_eq, slotsOf_length] at spec
  constructor
  · intro h
    rw [h] at spec
    obtain ⟨n, hr, hn, hb, hm⟩ := spec
    obtain rfl : i = n := by omega
    exact ⟨hn, (slotBad_iff _ _ _ _ _ hn).mpr hb, fun j hj => by
      rw [slotBad_iff _ _ _ _ _ (by omega)]; simp [hm j hj]⟩
  · rintro ⟨hn, hb, hm⟩
    split at spec
    · rename_i r hr
      obtain ⟨n, rfl, hn', hb', hm'⟩ := spec
      rcases Nat.lt_trichotomy n i with h | h | h
      · exact absurd ((slotBad_iff _ _ _ _ _ hn').mpr hb') (hm n h)
      · rw [hr, h]; simp
      · have := hm' i h
        rw [(slotBad_iff _ _ _ _ _ hn).mp hb] at this
        exact Bool.noConfusion this
    · have := spec i hn
      rw [(slotBad_iff _ _ _ _ _ hn).mp hb] at this
      exact Bool.noConfusion this

/-- Stage 2 passes when no slot is bad. -/
theorem firstMalformed_eq_none_iff (k : Kind) (form : Form) (count : Nat) (segs : List Segment) :
    firstMalformed k form count segs = none ↔ ∀ i, i < slotCount k segs → ¬SlotBad k form count segs i := by
  have spec := firstBad_spec (legalIn k form) (itemId k) count 0 0 (slotsOf k segs)
  rw [← firstMalformed_eq, slotsOf_length] at spec
  constructor
  · intro h
    rw [h] at spec
    exact fun i hi => by rw [slotBad_iff _ _ _ _ _ hi]; simp [spec i hi]
  · intro h
    split at spec
    · obtain ⟨n, -, hn, hb, -⟩ := spec
      exact absurd ((slotBad_iff _ _ _ _ _ hn).mpr hb) (h n hn)
    · assumption

end Sys2Proof.Machine
end

