-- ==== Sys2Proof/Laws/Clock.lean ====
section
/-! SUPPORT. A clock change: the intake deadlines and the changeover. -/

namespace Sys2Proof.Machine

/-- What the intake deadlines may change: the intakes, LOAD_REFUSED and its notice. -/
structure Intaken (s t : State) : Prop where
  eq :
    ∃ i p, t = (s.setIntakes i).setPort p ∧ p.core = s.port.core ∧
      (∀ f, f ≠ .loadRefused → p.flags.get f = s.port.flags.get f) ∧ p.tx = s.port.tx ∧
      i.segDuplicate = s.intakes.segDuplicate ∧ i.segStray = s.intakes.segStray

theorem testDeadline_intaken (s : State) (k) : Intaken s (s.testDeadline k) := by
  unfold State.testDeadline
  split
  · split
    · cases k
      · exact ⟨_, _, rfl, Port.raise_core _ _ _ _, fun f h => Port.raise_flags _ _ _ _ _ h, raise_tx _ _ _ _, rfl, rfl⟩
      · exact ⟨_, _, rfl, Port.raise_core _ _ _ _, fun f h => Port.raise_flags _ _ _ _ _ h, raise_tx _ _ _ _, rfl, rfl⟩
    · exact ⟨s.intakes, s.port, rfl, rfl, fun _ _ => rfl, rfl, rfl, rfl⟩
  · exact ⟨s.intakes, s.port, rfl, rfl, fun _ _ => rfl, rfl, rfl, rfl⟩

theorem Intaken.trans {s t u} (h : Intaken s t) (g : Intaken t u) : Intaken s u := by
  obtain ⟨i, p, rfl, a1, a2, a3, a4, a5⟩ := h
  obtain ⟨j, q, rfl, b1, b2, b3, b4, b5⟩ := g
  exact ⟨j, q, rfl, b1.trans a1, fun f hf => (b2 f hf).trans (a2 f hf), b3.trans a3, b4.trans a4, b5.trans a5⟩

theorem intakeClock_intaken (s : State) (b) : Intaken s (s.intakeClock b) := by
  unfold State.intakeClock
  dsimp only
  refine Intaken.trans ?_ (testDeadline_intaken _ _)
  refine Intaken.trans ?_ (testDeadline_intaken _ _)
  split
  · exact ⟨{ s.intakes with fare := s.intakes.fare.map s.giveDeadline, block := s.intakes.block.map s.giveDeadline }, s.port, rfl, rfl, fun _ _ => rfl, rfl, rfl, rfl⟩
  · exact ⟨s.intakes, s.port, rfl, rfl, fun _ _ => rfl, rfl, rfl, rfl⟩

theorem testDeadline_own (s : State) (k) :
    (s.testDeadline k).intake k = (s.intake k).bind (fun l => if s.deadlinePassed l then none else some l) := by
  unfold State.testDeadline
  cases h : s.intake k with
  | none => rw [h]; rfl
  | some l =>
    dsimp only [Option.bind_some]
    split
    · cases k <;> rfl
    · exact h

theorem testDeadline_other (s : State) (k k') (hk : k' ≠ k) : (s.testDeadline k).intake k' = s.intake k' := by
  unfold State.testDeadline
  cases s.intake k with
  | none => rfl
  | some l =>
    dsimp only; split
    · cases k <;> cases k' <;> first | rfl | exact absurd rfl hk
    · rfl

theorem testDeadline_clock (s : State) (k) : (s.testDeadline k).clock = s.clock := by
  obtain ⟨i, p, h, -⟩ := (testDeadline_intaken s k).eq; rw [h]; rfl

theorem giveDeadline_test (s : State) (m : Nat) (hm : s.clock.minute = m) (hv : s.clock.valid = true) (l : Load) :
   (if (s.deadlinePassed (s.giveDeadline l)) then none else some (s.giveDeadline l)) = deadlineTest s.settings.idleTimeout m true l := by
  unfold State.giveDeadline deadlineTest
  cases hs : l.stage with
  | receiving =>
    cases hd : l.deadline with
    | none =>
      dsimp only
      unfold State.deadlinePassed State.idleDeadline
      dsimp only
      rw [hv, hm]
      by_cases h0 : s.settings.idleTimeout = 0
      · simp [h0]
      · simp [h0]
    | some n =>
      dsimp only
      unfold State.deadlinePassed
      rw [hs, hd, hm]; dsimp only; simp only [decide_eq_true_eq]
  | _ => unfold State.deadlinePassed; simp [hs]

theorem keptDeadline_test (s : State) (m : Nat) (hm : s.clock.minute = m) (l : Load) :
   (if (s.deadlinePassed l) then none else some l) = deadlineTest s.settings.idleTimeout m false l := by
  unfold deadlineTest State.deadlinePassed
  cases hs : l.stage with
  | receiving =>
    cases hd : l.deadline with
    | none => simp
    | some n => simp [hm]
  | _ => simp

/-- What a clock change makes of the two intake contexts (R23, R24). -/
theorem intakeClock_intakes (s : State) (b) (m) (hm : s.clock.minute = m) (hv : s.clock.valid = true) :
   (s.intakeClock b).intakes.fare = s.intakes.fare.bind (deadlineTest s.settings.idleTimeout m b) ∧
   (s.intakeClock b).intakes.block = s.intakes.block.bind (deadlineTest s.settings.idleTimeout m b) := by
  unfold State.intakeClock
  dsimp only
  generalize hu : (if b = true then s.setIntakes { s.intakes with fare := s.intakes.fare.map s.giveDeadline, block := s.intakes.block.map s.giveDeadline } else s) = u
  have huc : u.clock = s.clock := by rw [← hu]; split <;> rfl
  have hdp : ∀ l, u.deadlinePassed l = s.deadlinePassed l := by intro l; unfold State.deadlinePassed; rw [huc]
  constructor
  · have e1 : ((u.testDeadline .fare).testDeadline .block).intake .fare = (u.testDeadline .fare).intake .fare := testDeadline_other _ _ _ (by simp)
    have e2 := testDeadline_own u .fare
    have : ((u.testDeadline .fare).testDeadline .block).intakes.fare = _ := e1.trans e2
    rw [this]
    simp only [hdp]
    cases b
    · simp only [Bool.false_eq_true, if_false] at hu; subst hu
      show Option.bind s.intakes.fare _ = _
      congr 1; funext l; exact keptDeadline_test s m hm l
    · simp only [if_true] at hu; subst hu
      show Option.bind (s.intakes.fare.map s.giveDeadline) _ = _
      cases s.intakes.fare with
      | none => rfl
      | some l => exact giveDeadline_test s m hm hv l
  · have e2 := testDeadline_own (u.testDeadline .fare) .block
    rw [testDeadline_other u .fare .block (by simp)] at e2
    have : ((u.testDeadline .fare).testDeadline .block).intakes.block = _ := e2
    rw [this]
    have hdp2 : ∀ l, (u.testDeadline .fare).deadlinePassed l = s.deadlinePassed l := by intro l; unfold State.deadlinePassed; rw [testDeadline_clock, huc]
    simp only [hdp2]
    cases b
    · simp only [Bool.false_eq_true, if_false] at hu; subst hu
      show Option.bind s.intakes.block _ = _
      congr 1; funext l; exact keptDeadline_test s m hm l
    · simp only [if_true] at hu; subst hu
      show Option.bind (s.intakes.block.map s.giveDeadline) _ = _
      cases s.intakes.block with
      | none => rfl
      | some l => exact giveDeadline_test s m hm hv l

/-- What a clock change does. -/
theorem clockChange_spec (s : State) (m b) (hm : s.clock.minute = m) (hv : s.clock.valid = true) :
    ClockChanged m b s (s.clockChange b) := by
  unfold State.clockChange
  have M := changeoverClock_moved s b
  obtain ⟨i, p, I, I1, I2, I3, I4, I5⟩ := (intakeClock_intaken (s.changeoverClock b) b).eq
  have II := intakeClock_intakes (s.changeoverClock b) b m (by rw [M.clock]; exact hm) (by rw [M.clock]; exact hv)
  have hch : ((s.changeoverClock b).intakeClock b).change = (s.changeoverClock b).change := by rw [I]; rfl
  have hca : Carried (s.changeoverClock b) ((s.changeoverClock b).intakeClock b) := by
    rw [I]
    refine ⟨rfl, rfl, I2 .changeoverHeld (by simp), ?_, rfl, rfl, rfl, fun _ => .rfl⟩
    have := congrArg Port.door I1; exact this
  have hst : ∀ r : Fare, s.isDue r.minute = true ↔ (r.minute = 0 ∨ r.minute ≤ m) := by
    intro r; unfold State.isDue; simp [hv, hm]
  constructor
  · rw [I]; exact M.pending
  · rw [I]; exact M.settings
  · rw [I]; show (s.changeoverClock b).clock.minute = m ∧ _; rw [M.clock]; exact ⟨hm, by show (s.changeoverClock b).clock.valid = true; rw [M.clock]; exact hv⟩
  · rw [II.1, M.intakes, M.settings]
  · rw [II.2, M.intakes, M.settings]
  · rw [I]; show i.segDuplicate = _ ∧ i.segStray = _; rw [I4, I5, M.intakes]; exact ⟨rfl, rfl⟩
  · intro hs r hr
    have e : s.changeoverClock b = if s.isDue r.minute then s.enterDue r.edition else s := by
      unfold State.changeoverClock; rw [hs, hr]
    split
    next g =>
      rw [if_pos ((hst r).mpr (.inr g))] at e
      exact ((e ▸ enterDue_spec s r hr : DueEntered r _ (s.changeoverClock b))).carried hca
    next g =>
      rw [if_neg (fun h => by rcases (hst r).mp h with h | h <;> omega)] at e
      rw [hca.change, hca.held, e]; exact ⟨rfl, rfl⟩
  · intro hs hr n r hn hr2
    have e : s.changeoverClock b = if n ≤ s.clock.minute then s.passHold r.edition else s := by
      unfold State.changeoverClock; rw [hs, hr, hr2]; dsimp only; rw [hn]
    rw [hm] at e
    split
    next g =>
      rw [if_pos g] at e
      exact ((e ▸ passHold_spec s r hs hr hr2 : HoldPassed r _ (s.changeoverClock b))).carried hca
    next g =>
      rw [if_neg g] at e
      rw [hca.change, hca.held, e]; exact ⟨rfl, rfl⟩
  · intro hs hr limit hh hp hl
    rw [hca.change, hca.held]
    obtain ⟨p, hp⟩ := Option.isSome_iff_exists.mp hp
    obtain ⟨r, hr2, hr3⟩ := Option.map_eq_some_iff.mp hp
    have e : s.changeoverClock b =
        if b then s.setChange { s.change with hold := .minute (s.clock.minute + limit) } else s := by
      unfold State.changeoverClock; rw [hs, hr, hr2]; dsimp only; rw [hh]; dsimp only; rw [if_neg hl]
    rw [e, hm]
    cases b
    · refine ⟨?_, rfl⟩
      show s.change = _
      simp only [Bool.false_eq_true, if_false]
      rw [← hh]
    · exact ⟨rfl, rfl⟩
  · intro hs
    rw [hca.change, hca.held]
    have : s.changeoverClock b = s := by
      unfold State.changeoverClock
      split
      next h1 _ => rw [h1] at hs; simp at hs
      next h1 h2 _ =>
        rw [h1, h2] at hs; simp at hs
        rcases hs with hs | hs <;> rw [hs]
      · rfl
    rw [this]; exact ⟨rfl, rfl⟩
  · rw [I]; exact I1.trans M.port
  · intro f h1 h2 h3 h4
    rw [I]; exact (I2 f h1).trans (M.flags f h2 h3 h4)
  · rw [I]; exact M.cat
  · rw [I]; exact M.table
  · rw [I]; exact M.taps
  · rw [I]; exact M.trunk
  · rw [I]; exact M.lastTap
  · intro d; rw [I]; exact M.drops d

theorem ClockChanged.decided {m b s u t} (h : ClockChanged m b s u) (g : Decided u t) : ClockChanged m b s t where
  pending := g.pending.trans h.pending
  settings := g.settings.trans h.settings
  clock := by rw [g.clock]; exact h.clock
  fare := by rw [g.intakes]; exact h.fare
  block := by rw [g.intakes]; exact h.block
  intakeCounters := by rw [g.intakes]; exact h.intakeCounters
  staging := fun a r hr => by
    have := h.staging a r hr
    split at this
    next q => rw [if_pos q]; exact this.carried (.of_decided g)
    next q => rw [if_neg q, g.change, (Carried.of_decided g).held]; exact this
  hold := fun a c n r hn hr => by
    have := h.hold a c n r hn hr
    split at this
    next q => rw [if_pos q]; exact this.carried (.of_decided g)
    next q => rw [if_neg q, g.change, (Carried.of_decided g).held]; exact this
  unset := by rw [g.change, (Carried.of_decided g).held]; exact h.unset
  still := by rw [g.change, (Carried.of_decided g).held]; exact h.still
  port := g.moved.port.trans h.port
  flags := fun f h1 h2 h3 h4 => (g.moved.flags f h2 h3 h4).trans (h.flags f h1 h2 h3 h4)
  cat := g.moved.cat.trans h.cat
  table := g.table.trans h.table
  taps := g.taps.trans h.taps
  trunk := g.trunk.trans h.trunk
  lastTap := g.lastTap.trans h.lastTap
  drops := fun d => (g.drops d).trans (h.drops d)

theorem ClockChanged.left {m b} {s t : State} (T c) (h : ClockChanged m b ((s.setTimebase T).setClock c) t) :
    ClockChanged m b s t :=
  ⟨h.pending, h.settings, h.clock, h.fare, h.block, h.intakeCounters, h.staging, h.hold, h.unset, h.still, h.port, h.flags, h.cat, h.table, h.taps, h.trunk, h.lastTap, h.drops⟩

theorem ClockChanged.answer {m b} {s t : State} (a : Answer) (h : ClockChanged m b s t) :
    ClockChanged m b (s.setPort { s.port with answers := s.port.answers ++ [a] }) (t.answer a) :=
  ⟨h.pending, h.settings, h.clock, h.fare, h.block, h.intakeCounters, fun x r hr => by
      have := h.staging x r hr
      split at this
      next q => rw [if_pos q]; exact this.carried ⟨rfl, rfl, rfl, rfl, rfl, rfl, rfl, fun _ => .rfl⟩
      next q => rw [if_neg q]; exact this,
    fun x c n r hn hr => by
      have := h.hold x c n r hn hr
      split at this
      next q => rw [if_pos q]; exact this.carried ⟨rfl, rfl, rfl, rfl, rfl, rfl, rfl, fun _ => .rfl⟩
      next q => rw [if_neg q]; exact this,
    h.unset, h.still, by
    have := congrArg (fun p : Port => { p with answers := p.answers ++ [a] }) h.port
    exact this, h.flags, h.cat, h.table, h.taps, h.trunk, h.lastTap, h.drops⟩

/-- What an advance of the clock by one minute does, with the decision of its event. -/
theorem nextMinute_spec (s : State) :
    ClockChanged (s.clock.minute + 1) false s s.nextMinute.conclude ∧
      s.nextMinute.conclude.timebase = max s.timebase (s.clock.phaseStart + 60000000) ∧
      s.nextMinute.conclude.clock.phaseStart = s.nextMinute.conclude.timebase := by
  have D := conclude_decided s.nextMinute
  generalize hu : (s.passTo (s.clock.phaseStart + 60000000)).setMinute (s.clock.minute + 1) = u
  have hn : s.nextMinute = u.clockChange false := by rw [← hu]; rfl
  have S := clockChange_spec u (s.clock.minute + 1) false (by rw [← hu]; rfl) (by rw [← hu]; rfl)
  have M := changeoverClock_moved u false
  obtain ⟨i, p, I, -⟩ := (intakeClock_intaken (u.changeoverClock false) false).eq
  have hT : s.nextMinute.timebase = max s.timebase (s.clock.phaseStart + 60000000) := by
    rw [hn]; show (State.intakeClock _ _).timebase = _
    rw [I]; show (u.changeoverClock false).timebase = _; rw [M.timebase, ← hu]; rfl
  have hC : s.nextMinute.clock.phaseStart = s.nextMinute.timebase := by
    rw [hT, hn]; show (State.intakeClock _ _).clock.phaseStart = _
    rw [I]; show (u.changeoverClock false).clock.phaseStart = _; rw [M.clock, ← hu]; rfl
  rw [← hn] at S
  subst hu
  exact ⟨(ClockChanged.left _ _ S).decided D, D.timebase.trans hT, by rw [D.clock, D.timebase]; exact hC⟩

/-- One minute more is one MINUTE_ADVANCE more. -/
theorem minutes_succ (s : State) (n : Nat) : s.minutes (n + 1) = (s.minutes n).nextMinute.conclude := by
  induction n generalizing s with
  | zero => rfl
  | succ n ih => exact ih s.nextMinute.conclude

theorem minuteAdvance_next (s : State) (hv : s.clock.valid = true) (hl : s.clock.minute < 4294967295) :
    exec .minuteAdvance s = .next s.nextMinute.conclude := by
  show execMinuteAdvance s = _
  unfold execMinuteAdvance
  rw [if_pos hv, if_pos (by unfold clockLimit; omega)]

/-- A minute in which the changeover stands still raises no CHANGEOVER_HELD. -/
theorem nextMinute_held (s : State)
    (h : ((s.passTo (s.clock.phaseStart + 60000000)).setMinute (s.clock.minute + 1)).changeoverClock false =
      (s.passTo (s.clock.phaseStart + 60000000)).setMinute (s.clock.minute + 1)) :
    s.nextMinute.conclude.port.flags.changeoverHeld = s.port.flags.changeoverHeld := by
  have e := Port.flags_of_bare (conclude_decided s.nextMinute).port .changeoverHeld (by simp) (by simp)
  have e' : s.nextMinute.conclude.port.flags.changeoverHeld = s.nextMinute.port.flags.changeoverHeld := e
  rw [e']
  unfold State.nextMinute State.clockChange
  rw [h]
  obtain ⟨i, p, I, -, I2, -⟩ := (intakeClock_intaken ((s.passTo (s.clock.phaseStart + 60000000)).setMinute (s.clock.minute + 1)) false).eq
  rw [I]; exact I2 .changeoverHeld (by simp)

theorem core_answers {p q : Port} (h : p.core = q.core) :
    p.answers = q.answers := by have := congrArg Port.answers h; exact this

theorem testDeadline_refused (s : State) (k) (l : Load) (h : s.intake k = some l) (hd : s.deadlinePassed l = true) :
    (s.testDeadline k).port.flags.loadRefused.isSome = true := by
  unfold State.testDeadline; rw [h]; dsimp only; rw [if_pos hd]
  have := raise_sets (s.setIntake k none).port (s.setIntake k none).settings.enables .loadRefused { edition := l.edition, code := some .timeout, drop := none, minute := (s.setIntake k none).stamp }
  have e : ((s.setIntake k none).raiseLoad .loadRefused l.edition .timeout).port.flags.loadRefused = _ := this
  rw [e]; rfl

theorem testDeadline_mono (s : State) (k) (h : s.port.flags.loadRefused.isSome = true) :
    (s.testDeadline k).port.flags.loadRefused.isSome = true := by
  unfold State.testDeadline; split
  · split
    next l _ _ =>
      have := raise_sets (s.setIntake k none).port (s.setIntake k none).settings.enables .loadRefused { edition := l.edition, code := some .timeout, drop := none, minute := (s.setIntake k none).stamp }
      have e : ((s.setIntake k none).raiseLoad .loadRefused l.edition .timeout).port.flags.loadRefused = _ := this
      rw [e]; rfl
    · exact h
  · exact h

theorem intake_of_moved {s t : State} (h : t.intakes = s.intakes) (k) :
    t.intake k = s.intake k := by cases k <;> simp [State.intake, h]

end Sys2Proof.Machine
end

