-- ==== Sys2Proof/Laws/Rounds.lean ====
section
/-! SUPPORT. The first decision after a restart, and the start of a round. -/

namespace Sys2Proof.Machine

/-- With a request waiting the conclusion forms the broadcast, or leaves the exchange in flight. -/
theorem arbitrate_request (s : State) (h : s.trunk.request = some e) :
   (s.trunk.ex.isSome = true → s.conclude.trunk.request = some e) ∧
   (s.trunk.ex = none → s.conclude.trunk.request = none ∧ ∃ x, s.conclude.trunk.ex = some x ∧ x.kind = .broadcast ∧ x.drop = none ∧ x.frame = .activate e ∧ x.stage = .quiet) := by
  have hc : s.conclude.trunk = s.arbitrate.trunk := by
    unfold State.conclude; rw [(uplink_port _).1]; rfl
  rw [hc]
  constructor
  · intro hx; unfold State.arbitrate; rw [if_pos hx]; exact h
  · intro hx; unfold State.arbitrate; rw [if_neg (by rw [hx]; simp), h]
    exact ⟨rfl, _, rfl, rfl, rfl, rfl, rfl⟩

theorem passed_listed (u : State) (d) (h : u.listed d = true) : u.passedOver d = false := by
  unfold State.listed at h; unfold State.passedOver
  cases hp : (u.drop d).presence <;> cases hs : (u.drop d).stopping <;> simp_all

theorem roundList_listed (u : State) (d) (h : d ∈ u.roundList) : u.listed d = true := by
  unfold State.roundList at h
  split at h
  · unfold turnTo at h; simp only [List.mem_append, List.mem_filter] at h; rcases h with h | h <;> exact h.1.2
  all_goals (simp only [List.mem_filter] at h; exact h.2)

theorem listed_roundList (u : State) (d) (h : u.listed d = true) : d ∈ u.roundList := by
  have hd : d ∈ allDrops := by clear h; revert d; decide
  unfold State.roundList
  split
  next f _ _ =>
    unfold turnTo
    simp only [List.mem_append, List.mem_filter]
    by_cases g : f.val ≤ d.val
    · exact .inl ⟨⟨hd, h⟩, by simpa using g⟩
    · exact .inr ⟨⟨hd, h⟩, by simpa using g⟩
  all_goals (simp only [List.mem_filter]; exact ⟨hd, h⟩)

/-- The decision after a restart starts a round. -/
theorem arbitrate_first_round (u : State) (h1 : u.trunk.ex = none) (h2 : u.trunk.request = none) (h3 : u.nextUrgent = none) (h4 : u.trunk.round = none) (h5 : u.roster.lastRound = none) (h6 : u.planner.jobs = []) :
   (u.roundList = [] ∧ u.arbitrate = u.openRound.endRound.startPause) ∨ (∃ d rest, u.roundList = d :: rest ∧ u.arbitrate = (u.openRound.setTrunk { u.openRound.trunk with round := some rest }).formPoll .roundPoll d) := by
  unfold State.arbitrate
  rw [h1, if_neg (by simp), h2]
  dsimp only
  rw [h3]
  dsimp only
  have ht : u.takeTurn = u := by unfold State.takeTurn; rw [h4]
  have hrd : u.roundDue = true := by unfold State.roundDue; rw [h5]
  have hrs : u.roundStep = u.startRound.takeTurn := by
    unfold State.roundStep; dsimp only; rw [ht, if_pos ⟨by rw [h1]; rfl, by rw [h4]; rfl, hrd⟩]
  rw [hrs]
  cases hl : u.roundList with
  | nil =>
    left
    refine ⟨rfl, ?_⟩
    have hsr : u.startRound = u.openRound.endRound.startPause := by unfold State.startRound; rw [hl]; rfl
    have hrn : u.startRound.trunk.round = none := by rw [hsr]; unfold State.startPause; split <;> rfl
    have hen : u.startRound.trunk.ex = none := by rw [hsr]; unfold State.startPause; split <;> exact h1
    have htt : u.startRound.takeTurn = u.startRound := by unfold State.takeTurn; rw [hrn]
    rw [htt, if_neg (by rw [hen]; simp)]
    have hjobs : u.startRound.planner.jobs = [] := by rw [hsr]; unfold State.startPause; split <;> exact h6
    have hpc : u.startRound.pushChoice = u.startRound := by
      unfold State.pushChoice State.candidates; rw [hjobs]; rfl
    unfold State.pushStep
    dsimp only
    rw [hpc, if_neg, hsr]
    rintro ⟨_, _, g1, g2⟩
    rw [hsr] at g1 g2
    unfold State.startPause at g1 g2
    split at g2
    · simp at g2
    next g =>
      rw [if_neg g] at g1; exact g g1
  | cons d rest =>
    right
    refine ⟨d, rest, rfl, ?_⟩
    have hsr : u.startRound = u.openRound := by unfold State.startRound; rw [hl]; rfl
    have hro : u.openRound.trunk.round = some (d :: rest) := by show some u.roundList = _; rw [hl]
    have hp : u.openRound.passedOver d = false := passed_listed u d (roundList_listed u d (by rw [hl]; exact List.mem_cons_self))
    have htt : u.openRound.takeTurn = (u.openRound.setTrunk { u.openRound.trunk with round := some rest }).formPoll .roundPoll d := by
      unfold State.takeTurn; rw [hro]; dsimp only
      rw [List.dropWhile_cons_of_neg (by rw [hp]; simp)]
    rw [hsr, htt, if_pos]
    rfl

theorem startPause_eq (s : State) :
    s.startPause = s.setTrunk { s.trunk with emptyPause := s.startPause.trunk.emptyPause } := by
  unfold State.startPause; split <;> rfl

theorem noteAllowance_eq (s : State) :
    s.noteAllowance = (s.setTaps s.noteAllowance.taps).setPort s.noteAllowance.port ∧
      s.noteAllowance.port.core = s.port.core ∧ s.noteAllowance.taps.bare = s.taps.bare := by
  unfold State.noteAllowance; split
  · exact ⟨rfl, Port.raise_core _ _ _ _, rfl⟩
  · exact ⟨rfl, rfl, rfl⟩

theorem filter_empty {α} (p : α → Bool) : ([] : List α).filter p = [] := rfl

/-- What the first decision after a restart may change. -/
structure FirstDecision (v t : State) : Prop where
  pending : t.pending = v.pending
  timebase : t.timebase = v.timebase
  clock : t.clock = v.clock
  settings : t.settings = v.settings
  intakes : t.intakes = v.intakes
  port : t.port.core = v.port.core
  cat : t.cat = v.cat
  table : t.table = v.table
  planner : t.planner = v.planner
  taps : t.taps.bare = v.taps.bare
  change : t.change = v.change
  lastTap : t.roster.lastTap = v.roster.lastTap
  drops : ∀ d, t.drop d = v.drop d

theorem FirstDecision.trans {a b c} (h : FirstDecision a b) (g : FirstDecision b c) : FirstDecision a c :=
  ⟨g.pending.trans h.pending, g.timebase.trans h.timebase, g.clock.trans h.clock, g.settings.trans h.settings, g.intakes.trans h.intakes, g.port.trans h.port, g.cat.trans h.cat, g.table.trans h.table, g.planner.trans h.planner, g.taps.trans h.taps, g.change.trans h.change, g.lastTap.trans h.lastTap, fun d => (g.drops d).trans (h.drops d)⟩

theorem formPoll_first (v : State) (kind) (d : DropId) (h : (v.drop d).tapUrgent = false) :
    FirstDecision v (v.formPoll kind d) ∧ (∃ x, (v.formPoll kind d).trunk.ex = some x ∧ x.kind = kind ∧ x.stage = .quiet) ∧
      (v.formPoll kind d).trunk.rounds = v.trunk.rounds := by
  unfold State.formPoll
  dsimp only
  obtain ⟨e, p, q⟩ := noteAllowance_eq v
  generalize v.noteAllowance.taps = t at e q
  generalize v.noteAllowance.port = pp at e p
  rw [e]
  refine ⟨⟨rfl, rfl, rfl, rfl, rfl, p, rfl, rfl, rfl, q, rfl, rfl, fun c => ?_⟩, ⟨_, rfl, rfl, rfl⟩, rfl⟩
  show (State.setDrop _ d _).drop c = _
  rw [State.drop_setDrop]
  split
  next g =>
    subst g
    show ({ v.drop c with tapUrgent := false } : Drop) = _
    rw [← h]
  · rfl

theorem openRound_first (v : State) : FirstDecision v v.openRound ∧ v.openRound.trunk.rounds = bump v.trunk.rounds 1 := by
  unfold State.openRound; exact ⟨⟨rfl, rfl, rfl, rfl, rfl, rfl, rfl, rfl, rfl, rfl, rfl, rfl, fun _ => rfl⟩, rfl⟩

theorem endRound_first (v : State) : FirstDecision v v.endRound ∧ v.endRound.trunk.rounds = v.trunk.rounds := by
  unfold State.endRound; exact ⟨⟨rfl, rfl, rfl, rfl, rfl, rfl, rfl, rfl, rfl, rfl, rfl, rfl, fun _ => rfl⟩, rfl⟩

theorem startPause_first (v : State) : FirstDecision v v.startPause ∧ v.startPause.trunk.rounds = v.trunk.rounds := by
  unfold State.startPause; split
  · exact ⟨⟨rfl, rfl, rfl, rfl, rfl, rfl, rfl, rfl, rfl, rfl, rfl, rfl, fun _ => rfl⟩, rfl⟩
  · exact ⟨⟨rfl, rfl, rfl, rfl, rfl, rfl, rfl, rfl, rfl, rfl, rfl, rfl, fun _ => rfl⟩, rfl⟩

/-- What the first decision after a restart leaves of the port, the trunk and the round. -/
structure FirstLine (v t : State) : Prop where
  line :
    ((∃ x, t.trunk.ex = some x ∧ x.kind = .roundPoll) ∧ t.port = { v.noteAllowance.port with tx := t.port.tx } ∧
        t.taps = v.noteAllowance.taps) ∨
      (¬(∃ x, t.trunk.ex = some x ∧ x.kind = .roundPoll) ∧ t.port = { v.port with tx := t.port.tx } ∧ t.taps = v.taps)
  tx : ∀ x, v.port.tx = some x → t.port.tx = some x
  trunk : t.trunk =
    { v.trunk with
      ex := t.trunk.ex, request := none, round := t.trunk.round, pushCount := t.trunk.pushCount
      emptyPause := t.trunk.emptyPause, rounds := t.trunk.rounds }
  count : v.trunk.pushCount = 0 → t.trunk.pushCount = 0
  pause : (∃ d, v.listed d = true) → t.trunk.emptyPause = v.trunk.emptyPause
  pollMode : v.roster.pollMode = v.settings.pollMode → t.roster.pollMode = v.settings.pollMode

/-- With room in the tap queue an allowance is no event; without, ZERO_ALLOWANCE and TAPQ_FULL (R167). -/
theorem noteAllowance_room (v : State) :
    (256 ≤ v.taps.queue.length →
      v.noteAllowance.port =
          v.port.raise v.settings.enables .tapqFull { edition := 0, code := none, drop := none, minute := v.stamp } ∧
        v.noteAllowance.taps = { v.taps with zeroAllowance := min 65535 (v.taps.zeroAllowance + 1) }) ∧
    (v.taps.queue.length < 256 → v.noteAllowance = v) := by
  have h : v.taps.allowance = 0 ↔ 256 ≤ v.taps.queue.length := by
    simp only [Taps.allowance, tapQueueLimit]; omega
  unfold State.noteAllowance
  exact ⟨fun g => by rw [if_pos (h.mpr g)]; exact ⟨rfl, rfl⟩, fun g => if_neg (fun x => by have := h.mp x; omega)⟩

theorem noteAllowance_tx (v : State) : v.noteAllowance.port.tx = v.port.tx := by
  unfold State.noteAllowance
  split
  · show (Port.raise _ _ _ _).tx = _
    unfold Port.raise; split <;> rfl
  · rfl

theorem formPoll_port (v : State) (kind) (d : DropId) :
    (v.formPoll kind d).port = v.noteAllowance.port ∧ (v.formPoll kind d).taps = v.noteAllowance.taps ∧ (v.formPoll kind d).roster.pollMode = v.roster.pollMode ∧
      (v.formPoll kind d).roster.probe = v.roster.probe ∧ (v.formPoll kind d).roster.lastRound = v.roster.lastRound ∧
      (v.formPoll kind d).trunk = { v.trunk with ex := (v.formPoll kind d).trunk.ex } := by
  unfold State.formPoll State.noteAllowance
  split <;> exact ⟨rfl, rfl, rfl, rfl, rfl, rfl⟩

/-- What the first decision after a restart does. -/
theorem conclude_first (v : State) (h1 : v.trunk.ex = none) (h3 : ∀ d, (v.drop d).tapUrgent = false) (h4 : v.trunk.round = none)
    (h5 : v.roster.lastRound = none) (h6 : v.planner.jobs = []) (h7 : v.cat.retired = []) (h8 : v.cat.withdrawn = []) :
    FirstDecision v v.conclude ∧ FirstLine v v.conclude ∧
    (∀ p, v.trunk.request = some p → v.conclude.trunk.rounds = v.trunk.rounds ∧ v.conclude.roster = v.roster ∧
      v.conclude.trunk.round = none ∧
      ∃ x, v.conclude.trunk.ex = some x ∧ x.kind = .broadcast ∧ x.frame = .activate p ∧ x.stage = .quiet) ∧
    (v.trunk.request = none → v.conclude.trunk.rounds = bump v.trunk.rounds 1 ∧
      v.conclude.roster.probe = (v.roster.probe + 1) % v.settings.divisor ∧
      v.conclude.roster.lastRound = some v.timebase ∧
      ((∃ d, (v.drop d).presence = .absent ∧ (v.drop d).stopping = false) → v.roster.probe = 0 →
        ∃ x, v.conclude.trunk.ex = some x ∧ x.kind = .roundPoll ∧ x.stage = .quiet)) := by
  have hc : ∀ w : State, w.cat = v.cat → w.freeRecords = w ∧ FirstDecision w w.freeRecords.uplink ∧
      w.freeRecords.uplink.trunk = w.trunk ∧ w.freeRecords.uplink.roster = w.roster ∧ w.freeRecords.uplink.taps = w.taps ∧
      w.freeRecords.uplink.port = { w.port with tx := w.freeRecords.uplink.port.tx } ∧
      ∀ x, w.port.tx = some x → w.freeRecords.uplink.port.tx = some x := by
    intro w hw
    have hfr : w.freeRecords = w := by
      unfold State.freeRecords
      rw [hw, h7, h8]
      dsimp only [List.filter]
      rw [← h7, ← h8]
      show w.setCat { v.cat with retired := v.cat.retired, withdrawn := v.cat.withdrawn } = w
      have : w.setCat v.cat = w := by rw [← hw]; rfl
      exact this
    refine ⟨hfr, ?_⟩
    rw [hfr]
    obtain ⟨e1, e2, e3⟩ := uplink_port w
    generalize w.uplink.port = p at e1 e2 e3
    rw [e1]
    exact ⟨⟨rfl, rfl, rfl, rfl, rfl, by show p.core = _; rw [e2]; rfl, rfl, rfl, rfl, rfl, rfl, rfl, fun _ => rfl⟩, rfl, rfl, rfl, e2, e3⟩
  have hcon : v.conclude = v.arbitrate.freeRecords.uplink := rfl
  rw [hcon]
  cases hr : v.trunk.request with
  | some p =>
    have ha : v.arbitrate = v.formBroadcast p := by unfold State.arbitrate; rw [h1, if_neg (by simp), hr]
    obtain ⟨Q, F, T, R, TA, PO, TX⟩ := hc v.arbitrate (by rw [ha]; rfl)
    refine ⟨?_, ⟨?_, ?_, ?_, ?_, ?_, ?_⟩, fun q hq => ?_, fun h => (nomatch h)⟩
    · refine FirstDecision.trans ?_ F
      rw [ha]; exact ⟨rfl, rfl, rfl, rfl, rfl, rfl, rfl, rfl, rfl, rfl, rfl, rfl, fun _ => rfl⟩
    · refine .inr ⟨?_, PO.trans (by rw [ha]; rfl), TA.trans (by rw [ha]; rfl)⟩
      rintro ⟨x, hx, hk⟩
      rw [T, ha] at hx
      cases hx; cases hk
    · intro x hx; exact TX x (by rw [ha]; exact hx)
    · rw [T, ha]; rfl
    · intro h; rw [T, ha]; exact h
    · intro _; rw [T, ha]; rfl
    · intro h; rw [R, ha]; exact h
    · injection hq with hq; subst hq
      rw [T, R, ha]
      exact ⟨rfl, rfl, h4, _, rfl, rfl, rfl, rfl⟩
  | none =>
    have hu : v.nextUrgent = none := by
      unfold State.nextUrgent; rw [List.find?_eq_none]; intro d _; rw [h3]; simp
    rcases arbitrate_first_round v h1 hr hu h4 h5 h6 with ⟨hl, ha⟩ | ⟨d, rest, hl, ha⟩
    · have hFp : FirstDecision v v.arbitrate ∧ v.arbitrate.trunk.rounds = bump v.trunk.rounds 1 := by
        rw [ha]
        exact ⟨((openRound_first v).1.trans (endRound_first _).1).trans (startPause_first _).1, ((startPause_first _).2.trans (endRound_first _).2).trans (openRound_first v).2⟩
      obtain ⟨Q, F, T, R, TA, PO, TX⟩ := hc v.arbitrate hFp.1.cat
      have hz : ∀ w : State, w.startPause.port = w.port ∧ w.startPause.roster = w.roster := by
        intro w; unfold State.startPause; split <;> exact ⟨rfl, rfl⟩
      have hport : v.arbitrate.port = v.port := by rw [ha, (hz _).1]; rfl
      have hros : v.arbitrate.roster = v.openRound.endRound.roster := by rw [ha, (hz _).2]
      have hnl : ¬∃ d, v.listed d = true := by
        rintro ⟨d, hd⟩; have := listed_roundList v d hd; rw [hl] at this; exact absurd this (by simp)
      refine ⟨hFp.1.trans F, ⟨?_, ?_, ?_, ?_, fun h => absurd h hnl, ?_⟩, fun p h => (nomatch h), fun _ => ⟨by rw [T]; exact hFp.2, ?_, ?_, fun ⟨d, hd, hst⟩ hp => ?_⟩⟩
      · refine .inr ⟨?_, PO.trans (by rw [hport]), TA.trans (by rw [ha]; unfold State.startPause; split <;> rfl)⟩
        rintro ⟨x, hx, -⟩
        rw [T, ha, startPause_ex] at hx
        exact absurd (h1.symm.trans hx) (by simp)
      · intro x hx; exact TX x (by rw [hport]; exact hx)
      · rw [T, ha, startPause_eq]; rw [← hr]; rfl
      · intro h; rw [T, ha, startPause_eq]; rfl
      · intro h; rw [R, hros]; rfl
      · rw [R, hros]; rfl
      · rw [R, hros]; rfl
      · exact absurd ⟨d, by unfold State.listed; rw [hd, hst, hp]; rfl⟩ hnl
    · have hdr : FirstDecision v (v.openRound.setTrunk { v.openRound.trunk with round := some rest }) := ⟨rfl, rfl, rfl, rfl, rfl, rfl, rfl, rfl, rfl, rfl, rfl, rfl, fun _ => rfl⟩
      obtain ⟨P, X, R⟩ := formPoll_first (v.openRound.setTrunk { v.openRound.trunk with round := some rest }) .roundPoll d (h3 d)
      obtain ⟨f1, f0, f2, f3, f4, f5⟩ := formPoll_port (v.openRound.setTrunk { v.openRound.trunk with round := some rest }) .roundPoll d
      have n0 : (v.openRound.setTrunk { v.openRound.trunk with round := some rest }).noteAllowance.port = v.noteAllowance.port ∧
          (v.openRound.setTrunk { v.openRound.trunk with round := some rest }).noteAllowance.taps = v.noteAllowance.taps := by
        unfold State.noteAllowance
        show (if v.taps.allowance = 0 then _ else _ : State).port = _ ∧ (if v.taps.allowance = 0 then _ else _ : State).taps = _
        split <;> exact ⟨rfl, rfl⟩
      rw [n0.1] at f1
      rw [n0.2] at f0
      rw [← ha] at P X R f1 f0 f2 f3 f4 f5
      obtain ⟨Q, F, T, RR, TA, PO, TX⟩ := hc v.arbitrate ((hdr.trans P).cat)
      refine ⟨(hdr.trans P).trans F, ⟨?_, ?_, ?_, ?_, ?_, ?_⟩, fun p h => (nomatch h), fun _ => ⟨by rw [T, R]; rfl, ?_, ?_, fun _ _ => ?_⟩⟩
      · refine .inl ⟨?_, PO.trans (by rw [f1]), TA.trans f0⟩
        obtain ⟨x, hx, hk, -⟩ := X
        exact ⟨x, by rw [T]; exact hx, hk⟩
      · intro x hx; exact TX x (by rw [f1, noteAllowance_tx]; exact hx)
      · rw [T, f5]; rw [← hr]; rfl
      · intro _; rw [T, f5]; rfl
      · intro _; rw [T, f5]; rfl
      · intro h; rw [RR, f2]; exact h
      · rw [RR, f3]; rfl
      · rw [RR, f4]; rfl
      · rw [T]; exact X

end Sys2Proof.Machine
end

