-- ==== Sys2Proof/Laws/Configure.lean ====
section
/-! SUPPORT. An applied configuration record: the enable values, and what the rest of the event leaves of a drop. -/

namespace Sys2Proof.Machine

/-- What the enable value of one drop may change. -/
structure EnableFrame (d : DropId) (s t : State) : Prop where
  pending : t.pending = s.pending
  timebase : t.timebase = s.timebase
  clock : t.clock = s.clock
  settings : t.settings = s.settings
  intakes : t.intakes = s.intakes
  change : t.change = s.change
  port : t.port = s.port
  cat : t.cat = s.cat
  table : t.table.bare = s.table.bare
  taps : t.taps = s.taps
  trunk : t.trunk = s.trunk
  rost : t.roster = { s.roster with drops := t.roster.drops }
  other : ∀ e, e ≠ d → t.drop e = s.drop e

theorem EnableFrame.refl (d s) :
    EnableFrame d s s := ⟨rfl, rfl, rfl, rfl, rfl, rfl, rfl, rfl, rfl, rfl, rfl, rfl, fun _ _ => rfl⟩

theorem EnableFrame.trans {d s t u} (a : EnableFrame d s t) (b : EnableFrame d t u) : EnableFrame d s u :=
  ⟨b.pending.trans a.pending, b.timebase.trans a.timebase, b.clock.trans a.clock, b.settings.trans a.settings, b.intakes.trans a.intakes, b.change.trans a.change, b.port.trans a.port, b.cat.trans a.cat, b.table.trans a.table, b.taps.trans a.taps, b.trunk.trans a.trunk, by rw [b.rost, a.rost], fun e h => (b.other e h).trans (a.other e h)⟩

theorem enable_setDrop (s : State) (d x) :
    EnableFrame d s (s.setDrop d x) := ⟨rfl, rfl, rfl, rfl, rfl, rfl, rfl, rfl, rfl, rfl, rfl, rfl, fun e h => by rw [State.drop_setDrop, if_neg h]⟩

theorem enable_releaseMark (s : State) (d e) : EnableFrame d s (s.releaseMark e) ∧ (s.releaseMark e).roster = s.roster := by
  unfold State.releaseMark State.requestSweep
  split
  · exact ⟨.refl _ _, rfl⟩
  · split <;> exact ⟨⟨rfl, rfl, rfl, rfl, rfl, rfl, rfl, rfl, rfl, rfl, rfl, rfl, fun _ _ => rfl⟩, rfl⟩

theorem enable_setJobs (s : State) (d js) :
    EnableFrame d s (s.setJobs js) := ⟨rfl, rfl, rfl, rfl, rfl, rfl, rfl, rfl, rfl, rfl, rfl, rfl, fun _ _ => rfl⟩

theorem enable_removeJob (s : State) (d k) : EnableFrame d s (s.removeJob d k) ∧ (s.removeJob d k).roster = s.roster := by
  unfold State.removeJob State.leaveMark
  cases k
  · exact ⟨enable_setJobs _ _ _, rfl⟩
  · exact ⟨(enable_setJobs _ _ _).trans (enable_releaseMark _ _ _).1, (enable_releaseMark _ d _).2⟩

theorem enable_forgetDrop (s : State) (d) :
    EnableFrame d s (s.forgetDrop d) ∧
      (s.forgetDrop d).drop d = { s.drop d with tapUrgent := false, fareAhead := false, blockNofit := false } := by
  unfold State.forgetDrop
  dsimp only
  have a := (enable_removeJob s d .fare); have b := enable_removeJob (s.removeJob d .fare) d .block; have c := enable_releaseMark ((s.removeJob d .fare).removeJob d .block) d d
  refine ⟨((a.1.trans b.1).trans c.1).trans (enable_setDrop _ _ _), ?_⟩
  rw [State.drop_setDrop, if_pos rfl]
  have : (((s.removeJob d .fare).removeJob d .block).releaseMark d).drop d = s.drop d := by
    unfold State.drop; rw [c.2, b.2, a.2]
  rw [this]

theorem enable_disableDrop (s : State) (d) :
    EnableFrame d s (s.disableDrop d) ∧
      (s.disableDrop d).drop d = { s.drop d with tapUrgent := false, fareAhead := false, blockNofit := false, stopping := false, presence := .disabled, run := 0 } := by
  unfold State.disableDrop
  dsimp only
  obtain ⟨a, b⟩ := enable_forgetDrop s d
  refine ⟨a.trans (enable_setDrop _ _ _), ?_⟩
  rw [State.drop_setDrop, if_pos rfl, b]

/-- A drop's record after its enable value has acted (R88). -/
def enabledRecord (on with_ : Bool) (r : Drop) : Drop :=
  if on then (if r.stopping then { r with stopping := false } else if r.presence = .disabled then { r with presence := .absent, run := 0, known := false, holdings := ⟨0, 0, 0⟩ } else r)
  else if r.presence = .disabled ∨ r.stopping then r
  else if with_ then { r with stopping := true }
  else { r with tapUrgent := false, fareAhead := false, blockNofit := false, stopping := false, presence := .disabled, run := 0 }

/-- What one drop's enable value does (R88). -/
theorem applyEnable_spec (s : State) (d) :
    EnableFrame d s (s.applyEnable d) ∧
      (s.applyEnable d).drop d = enabledRecord (s.settings.dropMap.get d).enabled (s.exchangeWith d) (s.drop d) := by
  unfold State.applyEnable enabledRecord
  split
  · split
    · exact ⟨enable_setDrop _ _ _, by rw [State.drop_setDrop, if_pos rfl]⟩
    · split
      · exact ⟨enable_setDrop _ _ _, by unfold State.enableDrop; rw [State.drop_setDrop, if_pos rfl]⟩
      · exact ⟨.refl _ _, rfl⟩
  · split
    · exact ⟨.refl _ _, rfl⟩
    · split
      · exact ⟨enable_setDrop _ _ _, by rw [State.drop_setDrop, if_pos rfl]⟩
      · exact enable_disableDrop s d

/-- What the enable values of a list of drops change. -/
structure EnablesFrame (l : List DropId) (s t : State) : Prop where
  pending : t.pending = s.pending
  timebase : t.timebase = s.timebase
  clock : t.clock = s.clock
  settings : t.settings = s.settings
  intakes : t.intakes = s.intakes
  change : t.change = s.change
  port : t.port = s.port
  cat : t.cat = s.cat
  table : t.table.bare = s.table.bare
  taps : t.taps = s.taps
  trunk : t.trunk = s.trunk
  rost : t.roster = { s.roster with drops := t.roster.drops }
  drops :
    ∀ d, t.drop d = if d ∈ l then enabledRecord (s.settings.dropMap.get d).enabled (s.exchangeWith d) (s.drop d) else s.drop d

/-- What the enable values of a list of drops do. -/
theorem applyEnables_spec (l : List DropId) (hl : l.Nodup) (s : State) : EnablesFrame l s (l.foldl State.applyEnable s) := by
  induction l generalizing s with
  | nil => exact ⟨rfl, rfl, rfl, rfl, rfl, rfl, rfl, rfl, rfl, rfl, rfl, rfl, fun _ => rfl⟩
  | cons d l ih =>
    obtain ⟨a, ad⟩ := applyEnable_spec s d
    have b := ih hl.of_cons (s.applyEnable d)
    rw [List.foldl_cons]
    refine ⟨b.pending.trans a.pending, b.timebase.trans a.timebase, b.clock.trans a.clock, b.settings.trans a.settings, b.intakes.trans a.intakes, b.change.trans a.change, b.port.trans a.port, b.cat.trans a.cat, b.table.trans a.table, b.taps.trans a.taps, b.trunk.trans a.trunk, by rw [b.rost, a.rost], fun e => ?_⟩
    rw [b.drops]
    have hx : (s.applyEnable d).exchangeWith e = s.exchangeWith e := by unfold State.exchangeWith; rw [a.trunk]
    rw [hx, a.settings]
    by_cases h : e = d
    · subst h
      have : e ∉ l := by simpa using (List.nodup_cons.mp hl).1
      rw [if_neg this, if_pos (by simp), ad]
    · rw [a.other e h]
      simp [h]

/-- The record of a drop that is DISABLED or ABSENT is as it was. -/
def OffStill (d : DropId) (s t : State) : Prop :=
  (s.drop d).presence = .disabled ∨ (s.drop d).presence = .absent → (s.drop d).tapUrgent = false → t.drop d = s.drop d

theorem OffStill.refl (d s) : OffStill d s s := fun _ _ => rfl

theorem OffStill.trans {d s t u} (a : OffStill d s t) (b : OffStill d t u) :
    OffStill d s u := fun h g => by
  have e := a h g
  exact (b (by rw [e]; exact h) (by rw [e]; exact g)).trans e

theorem OffStill.of (d) {s t : State} (h : t.roster.drops = s.roster.drops) :
    OffStill d s t := fun _ _ => by unfold State.drop; rw [h]

theorem still_foldl {α} (d) (f : State → α → State) (h : ∀ s a, OffStill d s (f s a)) (l : List α) (s) :
    OffStill d s (l.foldl f s) := by
  induction l generalizing s with
  | nil => exact .refl _ _
  | cons a l ih => exact (h s a).trans (ih _)

theorem noteNofit_other (s : State) (e d b) (h : d ≠ e) : (s.noteNofit e b).drop d = s.drop d := by
  unfold State.noteNofit State.writeLog
  dsimp only
  have : (s.setDrop e { s.drop e with blockNofit := b }).drop d = s.drop d := by rw [State.drop_setDrop, if_neg h]
  repeat' split
  all_goals exact this

theorem noteAhead_other (s : State) (e d b) (h : d ≠ e) : (s.noteAhead e b).drop d = s.drop d := by
  unfold State.noteAhead; rw [State.drop_setDrop, if_neg h]

theorem drop_of_roster {s t : State} (h : t.roster = s.roster) (d) : t.drop d = s.drop d := by unfold State.drop; rw [h]

theorem planKind_other (s : State) (e d k) (h : d ≠ e) : (s.planKind e k).drop d = s.drop d := by
  cases k
  · show (s.planFare e).drop d = _
    unfold State.planFare; split
    · rw [drop_of_roster (enable_removeJob _ e _).2, noteAhead_other _ _ _ _ h]
    · rw [drop_of_roster (enable_removeJob _ e _).2, noteAhead_other _ _ _ _ h]
    · rw [drop_of_roster (takePlan_roster _ _ _ _ _), noteAhead_other _ _ _ _ h]
  · show (s.planBlock e).drop d = _
    unfold State.planBlock; split
    · rw [drop_of_roster (enable_removeJob _ e _).2, noteNofit_other _ _ _ _ h]
    · rw [drop_of_roster (enable_removeJob _ e _).2, noteNofit_other _ _ _ _ h]
    · rw [drop_of_roster (takePlan_roster _ _ _ _ _), noteNofit_other _ _ _ _ h]
    · rw [drop_of_roster (takePlan_roster _ _ _ _ _), noteNofit_other _ _ _ _ h]

theorem still_planPair (s : State) (e d k) : OffStill d s (s.planPair e k) := by
  intro h1 h2
  unfold State.planPair
  split
  next hp =>
    have hne : d ≠ e := by
      intro g; subst g
      unfold State.planned at hp
      rcases h1 with h1 | h1 <;> rw [h1] at hp <;> simp at hp
    split
    · exact planKind_other _ _ _ _ hne
    · split
      · rfl
      · split
        · rfl
        · exact planKind_other _ _ _ _ hne
  · rfl

theorem still_planEvery (s : State) (d) :
    OffStill d s s.planEvery := still_foldl d _ (fun s e => (still_planPair s e d .block).trans (still_planPair _ e d .fare)) _ _

/-- A POLL of any drop leaves such a record as it is. -/
theorem still_formPoll (s : State) (k e d) : OffStill d s (s.formPoll k e) := by
  intro h1 h2
  unfold State.formPoll
  dsimp only
  have hn : s.noteAllowance.roster = s.roster := by rw [(noteAllowance_eq s).1]; rfl
  show (s.noteAllowance.setDrop e _).drop d = _
  rw [State.drop_setDrop]
  split
  next g =>
    subst g
    rw [drop_of_roster hn]
    rw [← h2]
  · exact drop_of_roster hn d

theorem formPush_roster (s : State) (j f a b) : (s.formPush j f a b).roster = s.roster := by
  unfold State.formPush State.displace; dsimp only; split <;> rfl

theorem still_openFull (s : State) (j d) : OffStill d s (s.openFull j) := by
  unfold State.openFull; split
  · exact .refl _ _
  · dsimp only
    have hp : (s.placeMark j.drop).roster = s.roster := (enable_releaseMark s j.drop _).2
    split
    · exact .of d (by rw [formPush_roster, hp])
    · exact (OffStill.of d (t := ((s.placeMark j.drop).releaseMark j.drop).putJob { j with underWay := false }) (by show ((s.placeMark j.drop).releaseMark j.drop).roster.drops = _; rw [(enable_releaseMark _ j.drop _).2, hp])).trans (still_planPair _ _ _ _)

theorem still_openStep (s : State) (j d) : OffStill d s (s.openStep j) := by
  unfold State.openStep; split
  · split
    · exact .of d (by rw [formPush_roster])
    · exact .refl _ _
  · exact still_openFull _ _ _
  · split
    · exact .of d (by rw [formPush_roster])
    · exact .refl _ _
  · exact .refl _ _
  · exact .refl _ _

theorem moveCursor_roster (s : State) (j f) : (s.moveCursor j f).roster = s.roster := by
  unfold State.moveCursor; split <;> rfl

theorem still_pushJob (s : State) (j d) : OffStill d s (s.pushJob j) := by
  unfold State.pushJob
  dsimp only
  have hw : (s.wake j).1.roster = s.roster := by
    unfold State.wake; split
    · split <;> rfl
    · rfl
  refine (OffStill.of d (t := (s.wake j).1) (by rw [hw])).trans ?_
  split
  · exact still_openStep _ _ _
  · unfold State.sendBurst; dsimp only; split
    · exact .of d (by rw [formPush_roster, moveCursor_roster])
    · exact .refl _ _
  · split
    · exact .of d (by rw [formPush_roster])
    · exact .refl _ _
  · exact .of d (by rw [formPush_roster])

theorem still_pushChoice (s : State) (d) : OffStill d s s.pushChoice := by
  apply still_foldl
  intro s j
  unfold State.tryJob; split
  · exact .refl _ _
  · split
    · split
      · exact still_pushJob _ _ _
      · exact .refl _ _
    · exact .refl _ _

theorem still_takeTurn (s : State) (d) : OffStill d s s.takeTurn := by
  unfold State.takeTurn; split
  · exact .refl _ _
  · split
    · exact .of d rfl
    next a rest _ => exact (OffStill.of d (t := s.setTrunk { s.trunk with round := some rest }) rfl).trans (still_formPoll _ _ _ _)

theorem still_startRound (s : State) (d) : OffStill d s s.startRound := by
  apply OffStill.of
  unfold State.startRound State.startPause
  repeat' split
  all_goals rfl

theorem still_arbitrate (s : State) (d) : OffStill d s s.arbitrate := by
  unfold State.arbitrate; split
  · exact .refl _ _
  · split
    · exact .of d rfl
    · split
      next a _ => exact (OffStill.of d (t := s.setTrunk { s.trunk with lastUrgent := some a }) rfl).trans (still_formPoll _ _ _ _)
      · dsimp only
        have hr : OffStill d s s.roundStep := by
          unfold State.roundStep; dsimp only; split
          · exact ((still_takeTurn _ _).trans (still_startRound _ _)).trans (still_takeTurn _ _)
          · exact still_takeTurn _ _
        split
        · exact hr
        · refine hr.trans ?_
          unfold State.pushStep; dsimp only; split
          · exact ((still_pushChoice _ _).trans (still_startRound _ _)).trans (still_takeTurn _ _)
          · exact still_pushChoice _ _

theorem uplink_roster (s : State) : s.uplink.roster = s.roster := by unfold State.uplink; split <;> rfl

theorem still_conclude (s : State) (d) : OffStill d s s.conclude := by
  refine (still_arbitrate s d).trans (.of d ?_)
  show (s.arbitrate.freeRecords.uplink).roster.drops = _
  rw [uplink_roster]; rfl

/-- A re-plan that waited leaves such a record as it is. -/
theorem still_takeReplan (s : State) (e d k) : OffStill d s (s.takeReplan e k) := by
  unfold State.takeReplan; split
  · split
    · exact (OffStill.of d (t := s.putJob _) rfl).trans (still_planPair _ _ _ _)
    · exact .refl _ _
  · exact .refl _ _

theorem still_endExchange (s : State) (x : Exchange) (e d) (h : d ≠ e) :
    OffStill d s (s.endExchange x e .unacknowledged id) := by
  unfold State.endExchange
  dsimp only
  have h1 : OffStill d s (s.clearExchange x) := by
    apply OffStill.of; unfold State.clearExchange; dsimp only; split <;> rfl
  have h2 : ∀ u : State, OffStill d u (match x.kind with | .push k => u.pushEnded e k x.detached .unacknowledged | .roundPoll | .urgentPoll | .broadcast => u) := by
    intro u
    split
    next k _ =>
      unfold State.pushEnded
      refine (OffStill.trans (t := u.handOutcome e k x.detached .unacknowledged) ?_ (still_takeReplan _ e d k)).trans (u := ((u.handOutcome e k x.detached .unacknowledged).takeReplan e k).rejudge e k) ?_
      · apply OffStill.of; unfold State.handOutcome; split
        · split <;> rfl
        · rfl
      · apply OffStill.of; unfold State.rejudge; split <;> rfl
    all_goals exact .refl _ _
  have h3 : ∀ u : State, OffStill d u (u.settleStopping e) := by
    intro u; unfold State.settleStopping; split
    · intro _ _; exact (enable_disableDrop u e).1.other d h
    · exact .refl _ _
  have h4 : ∀ u : State, OffStill d u u.judgeReady := fun u => .of d (by rw [(change_judgeReady u).roster])
  exact (((h1.trans (h2 _)).trans (h3 _)).trans (h4 _)).trans (still_conclude _ _)

/-- What applying a configuration record and answering it gives. -/
structure Configured (s t : State) (new : Settings) (a : Answer) : Prop where
  pending : t.pending = s.pending
  timebase : t.timebase = s.timebase
  clock : t.clock = s.clock
  settings : t.settings = new
  intakes :
    t.intakes = { s.intakes with fare := s.intakes.fare.map (s.setSettings new).renewDeadline, block := s.intakes.block.map (s.setSettings new).renewDeadline }
  port : t.port.core = { s.port with answers := s.port.answers ++ [a] }.core
  cat : t.cat.bare = s.cat.bare
  table : t.table.bare = s.table.bare
  taps : t.taps.bare = s.taps.bare
  trunk : t.trunk.bare = s.trunk.bare
  ex : ∀ x, s.trunk.ex = some x → t.trunk.ex = some x
  exn : s.trunk.ex = none → t.trunk.ex = none
  lastTap : t.roster.lastTap = s.roster.lastTap
  drops : ∀ d, (t.drop d).bare = (enabledRecord (new.dropMap.get d).enabled (s.exchangeWith d) (s.drop d)).bare
  exact_ :
    ∀ d, enabledRecord (new.dropMap.get d).enabled (s.exchangeWith d) (s.drop d) = { s.drop d with tapUrgent := false, fareAhead := false, blockNofit := false, stopping := false, presence := .disabled, run := 0 } →
     t.drop d = { s.drop d with tapUrgent := false, fareAhead := false, blockNofit := false, stopping := false, presence := .disabled, run := 0 }

theorem planPair_ex_none (s : State) (d k) (h : s.trunk.ex = none) : (s.planPair d k).trunk.ex = none := by
  have : ∀ u : State, ∀ c, (u.failJob c .nofit).trunk = u.trunk := by
    intro u c
    unfold State.failJob State.writeLog State.leaveMark State.releaseMark State.requestSweep
    dsimp only
    repeat' split
    all_goals rfl
  have hset : ∀ u : State, ∀ j, (u.settleJob j).trunk = u.trunk := by
    intro u j; unfold State.settleJob; split
    · exact this _ _
    · rfl
  have hlm : ∀ u : State, ∀ e k, (u.leaveMark e k).trunk = u.trunk := by
    intro u e k; cases k
    · rfl
    · exact releaseMark_trunk _ _
  have hrm : ∀ u : State, ∀ e k, (u.removeJob e k).trunk = u.trunk := by
    intro u e k; unfold State.removeJob; rw [hlm]; rfl
  have hnn : ∀ u : State, ∀ e b, (u.noteNofit e b).trunk = u.trunk := by
    intro u e b; unfold State.noteNofit State.writeLog; dsimp only; repeat' split
    all_goals rfl
  have htp : ∀ u : State, ∀ e k p t, (u.takePlan e k p t).trunk = u.trunk := by
    intro u e k p t; unfold State.takePlan; split
    · dsimp only; rw [hset]; rfl
    · split
      · rfl
      · dsimp only; rw [hset, hlm]; rfl
  have hpk : ∀ u : State, ∀ e k, (u.planKind e k).trunk = u.trunk := by
    intro u e k; cases k
    · show (u.planFare e).trunk = _
      unfold State.planFare; split
      · rw [hrm]; rfl
      · rw [hrm]; rfl
      · rw [htp]; rfl
    · show (u.planBlock e).trunk = _
      unfold State.planBlock; split
      · rw [hrm, hnn]
      · rw [hrm, hnn]
      · rw [htp, hnn]
      · rw [htp, hnn]
  unfold State.planPair
  split
  · split
    · rw [hpk]; exact h
    · split
      · exact h
      · split
        · exact h
        · rw [hpk]; exact h
  · exact h

theorem planBoths_ex_none (l : List DropId) (s : State) (h : s.trunk.ex = none) :
    (l.foldl State.planBoth s).trunk.ex = none := by
  induction l generalizing s with
  | nil => exact h
  | cons d l ih => exact ih _ (planPair_ex_none _ _ _ (planPair_ex_none _ _ _ h))

theorem mem_allDrops (d : DropId) : d ∈ allDrops := by fin_cases d <;> simp [allDrops]

/-- What applying a record and answering it does (R180). -/
theorem configure_spec (s : State) (new : Settings) (a : Answer) : Configured s ((s.configure new).answer a) new a := by
  unfold State.configure
  dsimp only
  generalize h1 : (s.setSettings new).renewDeadlines = s1
  have E := applyEnables_spec allDrops (by decide) s1
  generalize allDrops.foldl State.applyEnable s1 = u at E
  have hd1 : ∀ d, s1.drop d = s.drop d := by intro d; rw [← h1]; rfl
  have hx1 : ∀ d, s1.exchangeWith d = s.exchangeWith d := by intro d; rw [← h1]; rfl
  have hm1 : s1.settings = new := by rw [← h1]; rfl
  have hud : ∀ d, u.drop d = enabledRecord (new.dropMap.get d).enabled (s.exchangeWith d) (s.drop d) := by
    intro d; rw [E.drops, if_pos (mem_allDrops d), hm1, hx1, hd1]
  -- polling, relevel
  generalize h2 : (u.applyPolling s.settings).relevelJobs = v
  have hv : v = (u.setRoster { u.roster with probe := v.roster.probe, pollMode := v.roster.pollMode }).setPlanner { u.planner with jobs := v.planner.jobs } := by rw [← h2]; rfl
  have hvd : ∀ d, v.drop d = u.drop d := by intro d; rw [hv]; rfl
  generalize h3 : (if s.settings.replans new = true then v.planEvery else v) = w
  have D : Decided v w ∧ (∀ d, OffStill d v w) ∧ (v.trunk.ex = none → w.trunk.ex = none) := by
    rw [← h3]; split
    · exact ⟨planEvery_decided _, still_planEvery v, fun h => by unfold State.planEvery; exact planBoths_ex_none _ _ h⟩
    · exact ⟨.refl _, fun d => .refl d _, fun h => h⟩
  obtain ⟨D, S, X⟩ := D
  -- withdraw and answer
  have hfin : ∃ ns, (w.withdrawNotices.answer a) = w.setPort { w.port with notices := ns, answers := w.port.answers ++ [a] } := ⟨_, rfl⟩
  obtain ⟨ns, hfin⟩ := hfin
  rw [hfin]
  have hvu : v.port = u.port ∧ v.intakes = u.intakes ∧ v.settings = u.settings ∧ v.cat = u.cat ∧ v.table = u.table ∧ v.taps = u.taps ∧ v.trunk = u.trunk ∧ v.clock = u.clock ∧ v.pending = u.pending ∧ v.timebase = u.timebase ∧ v.roster.lastTap = u.roster.lastTap := by
    rw [hv]; exact ⟨rfl, rfl, rfl, rfl, rfl, rfl, rfl, rfl, rfl, rfl, rfl⟩
  obtain ⟨v1, v2, v3, v4, v5, v6, v7, v8, v9, v10, v11⟩ := hvu
  have htr : v.trunk = s.trunk := by rw [v7, E.trunk, ← h1]; rfl
  constructor
  · show w.pending = _; rw [D.pending, v9, E.pending, ← h1]; rfl
  · show w.timebase = _; rw [D.timebase, v10, E.timebase, ← h1]; rfl
  · show w.clock = _; rw [D.clock, v8, E.clock, ← h1]; rfl
  · show w.settings = _; rw [D.settings, v3, E.settings, ← h1]; rfl
  · show w.intakes = _; rw [D.intakes, v2, E.intakes, ← h1]; rfl
  · show ({ w.port with notices := ns, answers := w.port.answers ++ [a] } : Port).core = _
    have hc : w.port.core = s.port.core := by rw [D.moved.port, v1, E.port, ← h1]; rfl
    have := congrArg (fun p : Port => { p with answers := p.answers ++ [a] }) hc
    exact this
  · show w.cat.bare = _; rw [D.cat, v4, E.cat, ← h1]; rfl
  · show w.table.bare = _; rw [D.table, v5, E.table, ← h1]; rfl
  · show w.taps.bare = _; rw [D.taps, v6, E.taps, ← h1]; rfl
  · show w.trunk.bare = _; rw [D.trunk, htr]
  · intro x hx; exact D.flying x (by rw [htr]; exact hx)
  · intro hx; exact X (by rw [htr]; exact hx)
  · show w.roster.lastTap = _; rw [D.lastTap, v11, E.rost, ← h1]; rfl
  · intro d; show (w.drop d).bare = _; rw [D.drops, hvd, hud]
  · intro d he
    show w.drop d = _
    have := S d (.inl (by rw [hvd, hud, he])) (by rw [hvd, hud, he])
    rw [this, hvd, hud, he]

theorem settleConfigure_ended (s before : State) : ∃ d, Ended d s (s.settleConfigure before) := by
  unfold State.settleConfigure
  split
  next x d _ => exact ⟨d, (endQuiet_ended s x d .unacknowledged).1⟩
  · exact ⟨0, ((judgeReady_moved _).trans (conclude_decided _).moved).ended 0⟩

/-- The end of a CONFIGURE leaves every drop but the one whose exchange it ends. -/
theorem settleConfigure_other (s before : State) (d : DropId) (h : ∀ x, s.stopsAtOnce before ≠ some (x, d)) :
    ((s.settleConfigure before).drop d).bare = (s.drop d).bare ∧ OffStill d s (s.settleConfigure before) := by
  unfold State.settleConfigure
  split
  next x e he =>
    have hne : d ≠ e := by rintro rfl; exact h x he
    exact ⟨(endQuiet_ended s x e .unacknowledged).1.drops d hne, still_endExchange s x e d hne⟩
  · exact ⟨((judgeReady_moved _).trans (conclude_decided _).moved).drops d, (OffStill.of d (t := s.judgeReady) (by rw [(change_judgeReady s).roster])).trans (still_conclude _ _)⟩

/-- When an exchange of a stopping drop ends at once. -/
theorem stopsAtOnce_some (s before : State) (x d) (h : s.stopsAtOnce before = some (x, d)) :
    s.trunk.ex = some x ∧ x.drop = some d ∧ (before.drop d).stopping = false ∧ (s.drop d).stopping = true ∧
      (x.stage = .pause ∨ (x.stage = .quiet ∧ 0 < x.waits)) := by
  unfold State.stopsAtOnce at h
  split at h
  · exact (nomatch h)
  next y hy =>
    split at h
    · exact (nomatch h)
    next e he =>
      split at h
      next g => injection h with h; injection h with h1 h2; subst h1; subst h2; exact ⟨hy, he, g.1, g.2.1, g.2.2⟩
      · exact (nomatch h)

theorem stopping_bare {r q : Drop} (h : r.bare = q.bare) :
    r.stopping = q.stopping := by have := congrArg Drop.stopping h; exact this

end Sys2Proof.Machine
end

