-- ==== Sys2Proof/Laws/Planning.lean ====
section
/-! SUPPORT. What planning a pair does to the job queue, and what it reads: the job that results is the same in two states that agree
in what planning reads (R98 to R108). -/

namespace Sys2Proof.Machine

/-! ### What planning reads of the hub, the pair itself apart -/

/-- Two states agree in the exchange in flight, the Catalogue, the settings, N and the vehicle's condition. -/
structure SameHub (s t : State) : Prop where
  ex : t.trunk.ex = s.trunk.ex
  cat : t.cat = s.cat
  settings : t.settings = s.settings
  live : t.table.live = s.table.live
  mode : t.port.mode = s.port.mode
  door : t.port.door = s.port.door

theorem SameHub.refl (s : State) : SameHub s s := ⟨rfl, rfl, rfl, rfl, rfl, rfl⟩

theorem SameHub.trans {s t u : State} (h : SameHub s t) (g : SameHub t u) : SameHub s u :=
  ⟨g.ex.trans h.ex, g.cat.trans h.cat, g.settings.trans h.settings, g.live.trans h.live, g.mode.trans h.mode,
    g.door.trans h.door⟩

theorem SameHub.symm {s t : State} (h : SameHub s t) : SameHub t s :=
  ⟨h.ex.symm, h.cat.symm, h.settings.symm, h.live.symm, h.mode.symm, h.door.symm⟩

theorem SameHub.of_decided {s t : State} (h : Decided s t) (ht : t.trunk = s.trunk) (hc : t.cat = s.cat) : SameHub s t where
  ex := by rw [ht]
  cat := hc
  settings := h.settings
  live := by have := congrArg CardTable.live h.table; exact this
  mode := by have := congrArg Port.mode h.port; exact this
  door := by have := congrArg Port.door h.port; exact this

namespace SameHub
variable {s t : State} (h : SameHub s t)
include h

theorem floor : t.floor = s.floor := by unfold State.floor; rw [h.settings, h.mode, h.door]

theorem inFlight (d : DropId) (k : Kind) : t.inFlight d k = s.inFlight d k := by unfold State.inFlight; rw [h.ex]

theorem classOf (d : DropId) : t.classOf d = s.classOf d := by unfold State.classOf; rw [h.settings]

theorem marked (j : Job) : t.marked j = s.marked j := by unfold State.marked; rw [h.cat, h.settings]

theorem judgeJob (j : Job) : t.judgeJob j = s.judgeJob j := by unfold State.judgeJob; rw [h.inFlight, h.floor]

theorem stageNofit (d : DropId) (plan : List Step) : t.stageNofit d plan = s.stageNofit d plan := by
  unfold State.stageNofit; rw [h.cat, h.classOf]

theorem settled (j : Job) : t.settled j = s.settled j := by
  unfold State.settled; rw [h.stageNofit, h.judgeJob]

theorem blockPlan (d : DropId) (v : Nat) : t.blockPlan d v = s.blockPlan d v := by
  unfold State.blockPlan; rw [h.cat, h.classOf, h.settings, h.live]

theorem keptPlan (j : Job) (plan : List Step) (hm : t.mark j.drop = s.mark j.drop) :
    t.keptPlan j plan = s.keptPlan j plan := by
  unfold State.keptPlan; simp only [h.cat, h.classOf, h.blockPlan, hm]

end SameHub

theorem marked_eq (s : State) (j : Job) : s.markLevel (s.markUrgent j) = s.marked j := by
  have l : s.cat.stepUrgent = fun x => match x with | .delta e => (s.cat.delta? e).any Delta.urgent | _ => false := by
    funext x; cases x <;> rfl
  obtain ⟨d, k, target, plan, w, b, r, ph, n, bs, re, lc, u, pr, lv, st, rp⟩ := j
  unfold State.marked State.markLevel State.markUrgent Catalogue.planUrgent
  rw [l]
  all_goals rcases plan with _ | ⟨_ | _ | _ | _, _⟩ <;> rfl

theorem marked_pair (s : State) (j : Job) : (s.marked j).drop = j.drop ∧ (s.marked j).kind = j.kind := ⟨rfl, rfl⟩

/-! ### The queue -/

/-- The queue with every job of a pair replaced. -/
def replaceJob (js : List Job) (j : Job) : List Job := js.map (fun x => if Job.serves j.drop j.kind x then j else x)

/-- The jobs of every other pair. -/
def otherJobs (d : DropId) (k : Kind) (js : List Job) : List Job := js.filter (fun x => !Job.serves d k x)

theorem serves_own (j : Job) : Job.serves j.drop j.kind j = true := by simp [Job.serves]

theorem serves_iff (d : DropId) (k : Kind) (j : Job) : Job.serves d k j = true ↔ j.drop = d ∧ j.kind = k := by
  simp [Job.serves]

theorem serves_pair {d : DropId} {k : Kind} {j : Job} (h : Job.serves d k j = true) (x : Job) :
    Job.serves j.drop j.kind x = Job.serves d k x := by
  obtain ⟨rfl, rfl⟩ := (serves_iff d k j).mp h; rfl

theorem replaceJob_replace (js : List Job) (i j : Job) (h : Job.serves j.drop j.kind i = true) :
    replaceJob (replaceJob js i) j = replaceJob js j := by
  unfold replaceJob
  rw [List.map_map]
  apply List.map_congr_left
  intro x _
  simp only [Function.comp, serves_pair h]
  by_cases g : Job.serves j.drop j.kind x = true
  · rw [if_pos g, if_pos h, if_pos g]
  · rw [if_neg g, if_neg g]

theorem otherJobs_replace (js : List Job) (j : Job) :
    otherJobs j.drop j.kind (replaceJob js j) = otherJobs j.drop j.kind js := by
  unfold otherJobs replaceJob
  induction js with
  | nil => rfl
  | cons x xs ih =>
    rw [List.map_cons, List.filter_cons, List.filter_cons, ih]
    by_cases g : Job.serves j.drop j.kind x = true
    · simp [g, serves_own]
    · simp [g]

theorem find_replace (js : List Job) (j : Job) (h : js.find? (Job.serves j.drop j.kind) ≠ none) :
    (replaceJob js j).find? (Job.serves j.drop j.kind) = some j := by
  unfold replaceJob
  induction js with
  | nil => exact absurd rfl h
  | cons x xs ih =>
    by_cases g : Job.serves j.drop j.kind x = true
    · simp [g, serves_own]
    · have g' : Job.serves j.drop j.kind x = false := by simpa using g
      rw [List.find?_cons, g'] at h
      simp only [List.map_cons, g', Bool.false_eq_true, if_false, List.find?_cons]
      exact ih h

/-- The job of another pair is found among the others. -/
theorem find_other (js : List Job) (d e : DropId) (k c : Kind) (h : ¬(e = d ∧ c = k)) :
    js.find? (Job.serves e c) = (otherJobs d k js).find? (Job.serves e c) := by
  unfold otherJobs
  induction js with
  | nil => rfl
  | cons x xs ih =>
    rw [List.find?_cons, List.filter_cons]
    by_cases g : Job.serves d k x = true
    · have : Job.serves e c x = false := by
        obtain ⟨g1, g2⟩ := (serves_iff d k x).mp g
        rw [Bool.eq_false_iff]; intro g3
        obtain ⟨g4, g5⟩ := (serves_iff e c x).mp g3
        exact h ⟨g4.symm.trans g1, g5.symm.trans g2⟩
      rw [this, g]; simpa using ih
    · have g' : Job.serves d k x = false := by simpa using g
      rw [g']
      simp only [Bool.not_false, if_true, List.find?_cons]
      rw [ih]

theorem find_otherJobs (js : List Job) (d : DropId) (k : Kind) : (otherJobs d k js).find? (Job.serves d k) = none := by
  rw [List.find?_eq_none]
  intro x hx
  have := (List.mem_filter.mp hx).2
  simpa using this

theorem putJob_jobs (s : State) (j : Job) : (s.putJob j).planner.jobs = replaceJob s.planner.jobs j := rfl

theorem job?_of_jobs {s t : State} (h : t.planner.jobs = s.planner.jobs) (d : DropId) (k : Kind) : t.job? d k = s.job? d k := by
  unfold State.job?; rw [h]

theorem job?_putJob {s : State} {d : DropId} {k : Kind} {i j : Job} (h : s.job? d k = some i) (hd : j.drop = d) (hk : j.kind = k) :
    (s.putJob j).job? d k = some j := by
  subst hd hk
  unfold State.job?
  rw [putJob_jobs]
  apply find_replace
  unfold State.job? at h
  rw [h]; simp

/-! ### What only the pair's own planning changes -/

/-- `t` is `s` but for the job of one pair, the Planner's counters and log, the pair's read mark and the drop's marks, and the
flags. -/
structure PairPlanned (d : DropId) (k : Kind) (s t : State) : Prop where
  decided : Decided s t
  trunk : t.trunk = s.trunk
  cat : t.cat = s.cat
  served : t.planner.lastServed = s.planner.lastServed
  others : otherJobs d k t.planner.jobs = otherJobs d k s.planner.jobs
  marks : ∀ e, ¬(e = d ∧ k = .block) → t.mark e = s.mark e

namespace PairPlanned
variable {d : DropId} {k : Kind} {s t u : State}

theorem refl (s : State) : PairPlanned d k s s := ⟨.refl s, rfl, rfl, rfl, rfl, fun _ _ => rfl⟩

theorem trans (h : PairPlanned d k s t) (g : PairPlanned d k t u) : PairPlanned d k s u :=
  ⟨h.decided.trans g.decided, g.trunk.trans h.trunk, g.cat.trans h.cat, g.served.trans h.served, g.others.trans h.others,
    fun e he => (g.marks e he).trans (h.marks e he)⟩

theorem hub (h : PairPlanned d k s t) : SameHub s t := .of_decided h.decided h.trunk h.cat

/-- The job of every other pair is as before. -/
theorem job? (h : PairPlanned d k s t) (e : DropId) (c : Kind) (hn : ¬(e = d ∧ c = k)) : t.job? e c = s.job? e c := by
  unfold State.job?; rw [find_other _ d e k c hn, h.others, ← find_other _ d e k c hn]

end PairPlanned

/-- A change of the queue that keeps every other pair's jobs. -/
theorem pair_setJobs (s : State) (d : DropId) (k : Kind) (js : List Job) (h : otherJobs d k js = otherJobs d k s.planner.jobs) :
    PairPlanned d k s (s.setJobs js) :=
  ⟨setJobs_decided _ _, rfl, rfl, rfl, h, fun _ _ => rfl⟩

theorem pair_putJob {s : State} {d : DropId} {k : Kind} (j : Job) (hd : j.drop = d) (hk : j.kind = k) :
    PairPlanned d k s (s.putJob j) := by
  subst hd hk; exact pair_setJobs _ _ _ _ (otherJobs_replace _ _)

theorem pair_addJob {s : State} {d : DropId} {k : Kind} (j : Job) (hd : j.drop = d) (hk : j.kind = k) :
    PairPlanned d k s (s.addJob j) := by
  subst hd hk
  refine pair_setJobs _ _ _ _ ?_
  unfold otherJobs; rw [List.filter_append]; simp [serves_own]

theorem releaseMark_eq (s : State) (d : DropId) : s.releaseMark d = s.setTable (s.releaseMark d).table := by
  unfold State.releaseMark State.requestSweep
  split
  · rfl
  · split <;> rfl

theorem leaveMark_eq (s : State) (d : DropId) (k : Kind) : s.leaveMark d k = s.setTable (s.leaveMark d k).table := by
  cases k
  · rfl
  · exact releaseMark_eq s d

theorem releaseMark_mark (s : State) (d e : DropId) : (s.releaseMark d).mark e = if e = d then none else s.mark e := by
  have hset : (s.setMark d none).mark e = if e = d then none else s.mark e := by
    unfold State.mark State.setMark; exact Per8.get_set _ _ _ _
  unfold State.releaseMark
  split
  next h =>
    by_cases g : e = d
    · rw [if_pos g, g]; exact h
    · rw [if_neg g]
  next h =>
    rw [← hset]
    unfold State.requestSweep State.mark
    split <;> rfl

theorem pair_leaveMark (s : State) (d : DropId) (k : Kind) : PairPlanned d k s (s.leaveMark d k) := by
  refine ⟨leaveMark_decided _ _ _, ?_, ?_, ?_, ?_, ?_⟩
  · rw [leaveMark_eq]; rfl
  · rw [leaveMark_eq]; rfl
  · rw [leaveMark_jobs]
  · rw [leaveMark_jobs]
  · intro e he
    cases k
    · rfl
    · show (s.releaseMark d).mark e = _
      rw [releaseMark_mark, if_neg (fun h => he ⟨h, rfl⟩)]

/-- The mark of a BLOCK pair is gone once it has been left. -/
theorem leaveMark_none (s : State) (d : DropId) : (s.leaveMark d .block).mark d = none := by
  show (s.releaseMark d).mark d = none
  rw [releaseMark_mark, if_pos rfl]

theorem pair_removeJob (s : State) (d : DropId) (k : Kind) : PairPlanned d k s (s.removeJob d k) := by
  refine (pair_setJobs s d k _ ?_).trans (pair_leaveMark _ _ _)
  unfold otherJobs; rw [List.filter_filter]; simp

theorem removeJob_jobs (s : State) (d : DropId) (k : Kind) :
    (s.removeJob d k).planner.jobs = otherJobs d k s.planner.jobs := by
  unfold State.removeJob; rw [leaveMark_jobs]; rfl

theorem writeLog_eq (s : State) (e : LogEntry) :
    s.writeLog e = s.setPlanner { s.planner with log := some (s.planner.log.getD e) } := by
  unfold State.writeLog
  split
  next x h => rw [h]; show s = s.setPlanner { s.planner with log := some x }; rw [← h]; rfl
  next h => rw [h]; rfl

theorem pair_writeLog (s : State) (d : DropId) (k : Kind) (e : LogEntry) : PairPlanned d k s (s.writeLog e) := by
  rw [writeLog_eq]; exact ⟨decided_setPlanner _ _, rfl, rfl, rfl, rfl, fun _ _ => rfl⟩

theorem pair_raise (s : State) (d : DropId) (k : Kind) : PairPlanned d k s (s.raiseDrop .jobFailed d) :=
  ⟨raiseFailed_decided _ _, rfl, rfl, rfl, rfl, fun _ _ => rfl⟩

theorem pair_setPlanner (s : State) (d : DropId) (k : Kind) (x : Planner) (h : x.jobs = s.planner.jobs)
    (g : x.lastServed = s.planner.lastServed) : PairPlanned d k s (s.setPlanner x) :=
  ⟨decided_setPlanner _ _, rfl, rfl, g, by show otherJobs d k x.jobs = _; rw [h], fun _ _ => rfl⟩

/-- The end of a failure: its flag, its counter, its log entry. -/
theorem pair_failTail (s : State) (d : DropId) (k : Kind) (e : LogEntry) :
    PairPlanned d k s
      (((s.raiseDrop .jobFailed d).setPlanner
        { (s.raiseDrop .jobFailed d).planner with jobFail := bump (s.raiseDrop .jobFailed d).planner.jobFail 1 }).writeLog e) :=
  ((pair_raise s d k).trans
    (pair_setPlanner (s.raiseDrop .jobFailed d) d k
      { (s.raiseDrop .jobFailed d).planner with jobFail := bump (s.raiseDrop .jobFailed d).planner.jobFail 1 } rfl rfl)).trans
    (pair_writeLog _ d k e)

theorem pair_failJob {s : State} {d : DropId} {k : Kind} (j : Job) (c : Cause) (hd : j.drop = d) (hk : j.kind = k) :
    PairPlanned d k s (s.failJob j c) := by
  subst hd hk
  exact ((pair_putJob { j with state := .failed, underWay := false } rfl rfl).trans (pair_leaveMark _ _ _)).trans
    (pair_failTail _ _ _ _)

theorem failJob_jobs (s : State) (j : Job) (c : Cause) :
    (s.failJob j c).planner.jobs = replaceJob s.planner.jobs { j with state := .failed, underWay := false } := by
  unfold State.failJob
  dsimp only
  rw [writeLog_jobs]
  show (State.leaveMark _ _ _).planner.jobs = _
  rw [leaveMark_jobs]; rfl

theorem failJob_mark (s : State) (j : Job) (c : Cause) (h : j.kind = .block) : (s.failJob j c).mark j.drop = none := by
  unfold State.failJob
  dsimp only
  rw [writeLog_eq]
  have e : ∀ k, k = .block →
      ((s.putJob { j with state := .failed, underWay := false }).leaveMark j.drop k).mark j.drop = none := by
    rintro _ rfl; exact leaveMark_none _ _
  exact e _ h

/-- What a failure reports (R115, R116): JOB_FAILED with the drop, JOB_FAIL, and the error log when it is empty. -/
structure FailReported (s : State) (d : DropId) (k : Kind) (edition : Nat) (form : LogForm) (index : Nat) (reason : Cause)
    (t : State) : Prop where
  port : t.port = s.port.raise s.settings.enables .jobFailed { edition := 0, code := none, drop := some d, minute := s.stamp }
  log : t.planner.log = some (s.planner.log.getD { drop := d, kind := k, edition, form, index, reason, minute := s.stamp })
  jobFail : t.planner.jobFail = min 65535 (s.planner.jobFail + 1)
  retries : t.planner.retries = s.planner.retries

theorem failJob_reported (s : State) (j : Job) (c : Cause) :
    FailReported s j.drop j.kind (s.stepEdition j) j.logForm j.next c (s.failJob j c) := by
  unfold State.failJob
  dsimp only
  rw [leaveMark_eq, writeLog_eq]
  exact ⟨rfl, rfl, rfl, rfl⟩

/-- Port, error log, JOB_FAIL and RETRIES as before. -/
structure NothingReported (s t : State) : Prop where
  port : t.port = s.port
  log : t.planner.log = s.planner.log
  jobFail : t.planner.jobFail = s.planner.jobFail
  retries : t.planner.retries = s.planner.retries

theorem NothingReported.trans {s t u : State} (h : NothingReported s t) (g : NothingReported t u) : NothingReported s u :=
  ⟨g.port.trans h.port, g.log.trans h.log, g.jobFail.trans h.jobFail, g.retries.trans h.retries⟩

theorem leaveMark_calm (s : State) (d : DropId) (k : Kind) : NothingReported s (s.leaveMark d k) := by
  rw [leaveMark_eq]; exact ⟨rfl, rfl, rfl, rfl⟩

theorem removeJob_calm (s : State) (d : DropId) (k : Kind) : NothingReported s (s.removeJob d k) :=
  have g := leaveMark_calm (s.setJobs (s.planner.jobs.filter (fun j => !Job.serves d k j))) d k
  ⟨g.port, g.log, g.jobFail, g.retries⟩

/-- A job that takes a plan whole: a STAGE that does not fit the window fails it with NOFIT (R102). -/
theorem settleJob_reported (s : State) (j : Job) :
    if s.stageNofit j.drop j.plan = true then
      FailReported s j.drop j.kind (s.stepEdition j) j.logForm j.next .nofit (s.settleJob j)
    else NothingReported s (s.settleJob j) := by
  unfold State.settleJob
  split
  · exact failJob_reported s j .nofit
  · exact ⟨rfl, rfl, rfl, rfl⟩

theorem stageNofit_iff (s : State) (d : DropId) (plan : List Step) :
    s.stageNofit d plan = true ↔
      ∃ x q r, plan = .stage x :: q ∧ s.cat.fare? x = some r ∧ (s.classOf d).fareSize < r.segments.length := by
  unfold State.stageNofit
  rcases plan with _ | ⟨_ | _ | x | _, q⟩ <;> simp
  cases s.cat.fare? x <;> simp

theorem settled_pair (s : State) (j : Job) : (s.settled j).drop = j.drop ∧ (s.settled j).kind = j.kind := by
  unfold State.settled; split
  · exact ⟨rfl, rfl⟩
  · exact judgeJob_drop s j

theorem settleJob_jobs (s : State) (j : Job) : (s.settleJob j).planner.jobs = replaceJob s.planner.jobs (s.settled j) := by
  unfold State.settleJob State.settled
  split
  · exact failJob_jobs _ _ _
  · rfl

theorem pair_settleJob {s : State} {d : DropId} {k : Kind} (j : Job) (hd : j.drop = d) (hk : j.kind = k) :
    PairPlanned d k s (s.settleJob j) := by
  unfold State.settleJob
  split
  · exact pair_failJob j _ hd hk
  · exact pair_putJob _ (by rw [(judgeJob_drop s j).1]; exact hd) (by rw [(judgeJob_drop s j).2]; exact hk)

theorem settleJob_mark (s : State) (j : Job) (h : s.mark j.drop = none) (hk : j.kind = .block) :
    (s.settleJob j).mark j.drop = none := by
  unfold State.settleJob
  split
  · exact failJob_mark s j _ hk
  · exact h

/-! ### Taking a plan (R103, R105) -/

theorem job?_serves {s : State} {d : DropId} {k : Kind} {j : Job} (h : s.job? d k = some j) : Job.serves d k j = true := by
  obtain ⟨h1, h2, -⟩ := job?_drop h; exact (serves_iff d k j).mpr ⟨h1, h2⟩

/-- No job of the pair: the new job joins the end of the queue. -/
theorem takePlan_new (s : State) (d : DropId) (k : Kind) (plan : List Step) (target : Nat) (h : s.job? d k = none) :
    (s.takePlan d k plan target).planner.jobs =
      s.planner.jobs ++ [s.settled (s.marked (newJob d k plan target))] := by
  unfold State.takePlan
  rw [h]
  dsimp only
  rw [settleJob_jobs, marked_eq]
  have hh : SameHub s (s.addJob (s.marked (newJob d k plan target))) := .of_decided (addJob_decided _ _) rfl rfl
  rw [hh.settled]
  generalize hj : s.settled (s.marked (newJob d k plan target)) = j
  have hp : j.drop = d ∧ j.kind = k := by
    rw [← hj]
    have := settled_pair s (s.marked (newJob d k plan target))
    exact ⟨this.1, this.2⟩
  show replaceJob (s.planner.jobs ++ [s.marked (newJob d k plan target)]) j = _
  unfold replaceJob
  rw [List.map_append]
  congr 1
  · have : ∀ x ∈ s.planner.jobs, Job.serves d k x = false := by
      intro x hx
      have := List.find?_eq_none.mp h x hx
      simpa using this
    rw [hp.1, hp.2]
    exact (List.map_congr_left (fun x hx => by rw [this x hx]; rfl)).trans (List.map_id _)
  · have : Job.serves j.drop j.kind (s.marked (newJob d k plan target)) = true := by
      rw [hp.1, hp.2, serves_iff]; exact ⟨rfl, rfl⟩
    simp [this]

/-- The current step is kept (R105). -/
theorem takePlan_kept (s : State) (d : DropId) (k : Kind) (plan kept : List Step) (target : Nat) (j : Job)
    (h : s.job? d k = some j) (hk : s.keptPlan j plan = some kept) :
    s.takePlan d k plan target = s.putJob (s.judgeJob (s.marked { j with plan := kept, target })) := by
  unfold State.takePlan
  rw [h]
  dsimp only
  rw [hk, ← marked_eq]

/-- The plan is taken whole (R105). -/
theorem takePlan_whole (s : State) (d : DropId) (k : Kind) (plan : List Step) (target : Nat) (j : Job)
    (h : s.job? d k = some j) (hk : s.keptPlan j plan = none) :
    (s.takePlan d k plan target).planner.jobs =
        replaceJob s.planner.jobs (s.settled (s.marked (j.takeWhole plan target))) ∧
      (k = .block → (s.takePlan d k plan target).mark d = none) := by
  obtain ⟨hd, hkd, -⟩ := job?_drop h
  unfold State.takePlan
  rw [h]
  dsimp only
  rw [hk]
  dsimp only
  rw [marked_eq]
  generalize hj : s.marked (j.takeWhole plan target) = i
  have hi : i.drop = d ∧ i.kind = k := by rw [← hj]; exact ⟨hd, hkd⟩
  have hh : SameHub s ((s.putJob i).leaveMark d k) :=
    ((pair_putJob i hi.1 hi.2).trans (pair_leaveMark _ d k)).hub
  constructor
  · rw [settleJob_jobs, hh.settled, leaveMark_jobs, putJob_jobs]
    apply replaceJob_replace
    rw [(settled_pair s i).1, (settled_pair s i).2]
    exact serves_own i
  · rintro rfl
    rw [← hi.1]
    apply settleJob_mark _ _ _ hi.2
    exact leaveMark_none _ _

/-- What taking a plan whole reports: NOFIT for a STAGE that the window does not hold, nothing else (R102). -/
theorem takePlan_reported (s : State) (d : DropId) (k : Kind) (plan : List Step) (target : Nat)
    (h : ∀ j, s.job? d k = some j → s.keptPlan j plan = none) :
    (s.stageNofit d plan = true → ∀ x q, plan = .stage x :: q →
      FailReported s d k x .full 0 .nofit (s.takePlan d k plan target)) ∧
    (¬s.stageNofit d plan = true → NothingReported s (s.takePlan d k plan target)) := by
  have settle : ∀ (u : State) (j : Job), NothingReported s u → u.stamp = s.stamp → u.settings = s.settings → SameHub s u →
      j.drop = d → j.kind = k → j.plan = plan → j.next = 0 →
      (s.stageNofit d plan = true → ∀ x q, plan = .stage x :: q → FailReported s d k x .full 0 .nofit (u.settleJob j)) ∧
      (¬s.stageNofit d plan = true → NothingReported s (u.settleJob j)) := by
    intro u j hc ht hs hh h1 h2 h3 h4
    have R := settleJob_reported u j
    rw [h1, h2, h3, h4, hh.stageNofit] at R
    refine ⟨fun g x q hp => ?_, fun g => ?_⟩
    · rw [if_pos g] at R
      have e1 : u.stepEdition j = x := by unfold State.stepEdition; rw [h3, hp]
      have e2 : j.logForm = .full := by unfold Job.logForm; rw [h3, hp]
      rw [e1, e2] at R
      exact ⟨by rw [R.port, hc.port, hs, ht], by rw [R.log, hc.log, ht], by rw [R.jobFail, hc.jobFail], by rw [R.retries, hc.retries]⟩
    · rw [if_neg g] at R; exact hc.trans R
  cases hj : s.job? d k with
  | none =>
    have e : s.takePlan d k plan target =
        (s.addJob (s.marked (newJob d k plan target))).settleJob (s.marked (newJob d k plan target)) := by
      unfold State.takePlan; rw [hj, ← marked_eq]
    rw [e]
    exact settle _ _ ⟨rfl, rfl, rfl, rfl⟩ rfl rfl (.of_decided (addJob_decided _ _) rfl rfl) rfl rfl rfl rfl
  | some j =>
    obtain ⟨hd, hk, -⟩ := job?_drop hj
    have e : s.takePlan d k plan target =
        ((s.putJob (s.marked (j.takeWhole plan target))).leaveMark d k).settleJob (s.marked (j.takeWhole plan target)) := by
      unfold State.takePlan; rw [hj]; dsimp only; rw [h j hj, ← marked_eq]
    rw [e]
    have c : NothingReported s ((s.putJob (s.marked (j.takeWhole plan target))).leaveMark d k) :=
      (⟨rfl, rfl, rfl, rfl⟩ : NothingReported s (s.putJob _)).trans (leaveMark_calm _ _ _)
    have hh : SameHub s ((s.putJob (s.marked (j.takeWhole plan target))).leaveMark d k) :=
      ((pair_putJob (s.marked (j.takeWhole plan target)) hd hk).trans (pair_leaveMark _ d k)).hub
    exact settle _ _ c (by rw [leaveMark_eq]; rfl) hh.settings hh hd hk rfl rfl

theorem pair_takePlan (s : State) (d : DropId) (k : Kind) (plan : List Step) (target : Nat) :
    PairPlanned d k s (s.takePlan d k plan target) := by
  cases h : s.job? d k with
  | none =>
    unfold State.takePlan; rw [h]
    have e : ∀ j : Job, j.drop = d → j.kind = k → PairPlanned d k s ((s.addJob j).settleJob j) := fun j hd hk =>
      (pair_addJob j hd hk).trans (pair_settleJob j hd hk)
    exact e _ rfl rfl
  | some j =>
    obtain ⟨hd, hk, -⟩ := job?_drop h
    unfold State.takePlan
    rw [h]
    dsimp only
    split
    · exact pair_putJob _ (by rw [(judgeJob_drop s _).1]; exact hd) (by rw [(judgeJob_drop s _).2]; exact hk)
    · have e : ∀ i : Job, i.drop = d → i.kind = k → PairPlanned d k s (((s.putJob i).leaveMark d k).settleJob i) :=
        fun i hd hk => ((pair_putJob i hd hk).trans (pair_leaveMark _ _ _)).trans (pair_settleJob i hd hk)
      exact e _ hd hk

theorem pair_setDrop (s : State) (d : DropId) (k : Kind) (x : Drop) (h : x.bare = (s.drop d).bare) :
    PairPlanned d k s (s.setDrop d x) :=
  ⟨decided_setDrop _ _ _ h, rfl, rfl, rfl, rfl, fun _ _ => rfl⟩

theorem pair_noteNofit (s : State) (d : DropId) (b : Bool) : PairPlanned d .block s (s.noteNofit d b) := by
  unfold State.noteNofit
  have h : PairPlanned d .block s (s.setDrop d { s.drop d with blockNofit := b }) := pair_setDrop _ _ _ _ rfl
  split
  · exact (h.trans (pair_raise _ _ _)).trans (pair_writeLog _ _ _ _)
  · exact h

theorem pair_noteAhead (s : State) (d : DropId) (b : Bool) : PairPlanned d .fare s (s.noteAhead d b) :=
  pair_setDrop _ _ _ _ rfl

theorem noteNofit_mark (s : State) (d : DropId) (b : Bool) (e : DropId) : (s.noteNofit d b).mark e = s.mark e := by
  unfold State.noteNofit
  dsimp only
  split
  · rw [writeLog_eq]; rfl
  · rfl

/-- Planning a pair acts by the plan computed for it (R99 to R103): its job goes, or it takes the plan, after the drop's mark of the
pair has been noted. -/
theorem planKind_eq (s : State) (d : DropId) (k : Kind) :
    ∃ n, PairPlanned d k s n ∧ n.planner.jobs = s.planner.jobs ∧ (∀ e, n.mark e = s.mark e) ∧ (k = .fare → NothingReported s n) ∧
      s.planKind d k =
        match s.pairPlan d k with
        | none => n.removeJob d k
        | some (plan, target) => n.takePlan d k plan target := by
  cases k
  · refine ⟨s.noteAhead d (s.cat.farePlan (s.classOf d).fareSize (s.drop d).holdings = .ahead), pair_noteAhead _ _ _, rfl,
      fun _ => rfl, fun _ => ⟨rfl, rfl, rfl, rfl⟩, ?_⟩
    show s.planFare d = _
    unfold State.planFare State.pairPlan
    dsimp only
    split <;> rename_i h <;> rw [h] <;> rfl
  · refine ⟨s.noteNofit d (s.blockPlan d (s.drop d).holdings.block = .nofit), pair_noteNofit _ _ _, noteNofit_jobs _ _ _,
      noteNofit_mark _ _ _, (fun g => by cases g), ?_⟩
    show s.planBlock d = _
    unfold State.planBlock State.pairPlan
    dsimp only
    split <;> rename_i h <;> rw [h] <;> rfl

theorem pair_planKind (s : State) (d : DropId) (k : Kind) : PairPlanned d k s (s.planKind d k) := by
  obtain ⟨n, h, -, -, -, e⟩ := planKind_eq s d k
  rw [e]
  split
  · exact h.trans (pair_removeJob _ _ _)
  · exact h.trans (pair_takePlan _ _ _ _ _)

theorem pair_planPair (s : State) (d : DropId) (k : Kind) : PairPlanned d k s (s.planPair d k) := by
  unfold State.planPair
  split
  · split
    · exact pair_planKind _ _ _
    next j h =>
      obtain ⟨hd, hk, -⟩ := job?_drop h
      split
      · exact .refl s
      · split
        · exact pair_putJob _ hd hk
        · exact pair_planKind _ _ _
  · exact .refl s

/-! ### The job that planning leaves -/

/-- The pair's job after a plan has been taken, as a function of what planning reads. -/
def State.takenJob (s : State) (d : DropId) (k : Kind) (plan : List Step) (target : Nat) : Job :=
  match s.job? d k with
  | none => s.settled (s.marked (newJob d k plan target))
  | some j =>
    match s.keptPlan j plan with
    | some kept => s.judgeJob (s.marked { j with plan := kept, target })
    | none => s.settled (s.marked (j.takeWhole plan target))

theorem takePlan_job? (s : State) (d : DropId) (k : Kind) (plan : List Step) (target : Nat) :
    (s.takePlan d k plan target).job? d k = some (s.takenJob d k plan target) := by
  unfold State.takenJob
  cases h : s.job? d k with
  | none =>
    show (s.takePlan d k plan target).planner.jobs.find? _ = _
    rw [takePlan_new _ _ _ _ _ h, List.find?_append]
    have h1 : s.planner.jobs.find? (Job.serves d k) = none := h
    have h2 := settled_pair s (s.marked (newJob d k plan target))
    rw [h1, Option.none_or]
    have : Job.serves d k (s.settled (s.marked (newJob d k plan target))) = true := by
      rw [serves_iff]; exact ⟨h2.1, h2.2⟩
    simp [this]
  | some j =>
    obtain ⟨hd, hk, -⟩ := job?_drop h
    dsimp only
    cases hp : s.keptPlan j plan with
    | some kept =>
      rw [takePlan_kept _ _ _ _ _ _ _ h hp]
      dsimp only
      exact job?_putJob h (by rw [(judgeJob_drop s _).1]; exact hd) (by rw [(judgeJob_drop s _).2]; exact hk)
    | none =>
      dsimp only
      have h2 := settled_pair s (s.marked (j.takeWhole plan target))
      have e := (takePlan_whole _ _ _ _ target _ h hp).1
      show (s.takePlan d k plan target).planner.jobs.find? _ = _
      rw [e]
      have hd' : (s.settled (s.marked (j.takeWhole plan target))).drop = d := h2.1.trans hd
      have hk' : (s.settled (s.marked (j.takeWhole plan target))).kind = k := h2.2.trans hk
      have := find_replace s.planner.jobs (s.settled (s.marked (j.takeWhole plan target)))
      rw [hd', hk'] at this
      apply this
      have h1 : s.planner.jobs.find? (Job.serves d k) = some j := h
      rw [h1]; simp

theorem planKind_job? (s : State) (d : DropId) (k : Kind) :
    (s.planKind d k).job? d k = (s.pairPlan d k).map (fun p => s.takenJob d k p.1 p.2) := by
  obtain ⟨n, h, hj, hm, -, e⟩ := planKind_eq s d k
  rw [e]
  cases hp : s.pairPlan d k with
  | none =>
    show (n.removeJob d k).planner.jobs.find? _ = none
    rw [removeJob_jobs]; exact find_otherJobs _ _ _
  | some p =>
    obtain ⟨plan, target⟩ := p
    show (n.takePlan d k plan target).job? d k = some (s.takenJob d k plan target)
    rw [takePlan_job?]
    congr 1
    unfold State.takenJob
    have hh := h.hub
    have hjob : n.job? d k = s.job? d k := job?_of_jobs hj d k
    rw [hjob]
    cases s.job? d k with
    | none => dsimp only; rw [hh.settled, hh.marked]
    | some j =>
      dsimp only
      rw [hh.keptPlan j plan (hm j.drop)]
      cases s.keptPlan j plan with
      | some kept => dsimp only; rw [hh.judgeJob, hh.marked]
      | none => dsimp only; rw [hh.settled, hh.marked]

/-- A drop's record as planning reads it: presence, stopping mark, holdings, known mark. -/
def Drop.planning (r : Drop) : Drop := { r.bare with run := 0, tapsHeld := 0, counters := ⟨0, 0, 0, 0, 0, 0⟩ }

theorem planning_of_bare {r q : Drop} (h : r.bare = q.bare) : r.planning = q.planning := by
  have := congrArg Drop.planning h
  exact this

/-- What planning a pair reads is the same in two states. -/
structure SamePair (d : DropId) (k : Kind) (s t : State) : Prop where
  hub : SameHub s t
  job : t.job? d k = s.job? d k
  drop : (t.drop d).planning = (s.drop d).planning
  mark : t.mark d = s.mark d

theorem SamePair.planned {d : DropId} {k : Kind} {s t : State} (h : SamePair d k s t) : t.planned d = s.planned d := by
  have h1 := congrArg (fun x : Drop => x.presence) h.drop
  have h2 := congrArg (fun x : Drop => x.stopping) h.drop
  have h3 := congrArg (fun x : Drop => x.known) h.drop
  unfold State.planned
  rw [show (t.drop d).presence = (s.drop d).presence from h1, show (t.drop d).stopping = (s.drop d).stopping from h2,
    show (t.drop d).known = (s.drop d).known from h3]

theorem SamePair.pairPlan {d : DropId} {k : Kind} {s t : State} (h : SamePair d k s t) : t.pairPlan d k = s.pairPlan d k := by
  have h1 : (t.drop d).holdings = (s.drop d).holdings := by
    have := congrArg (fun x : Drop => x.holdings) h.drop; exact this
  unfold State.pairPlan
  rw [h1, h.hub.blockPlan, h.hub.cat, h.hub.classOf]

theorem SamePair.takenJob {d : DropId} {k : Kind} {s t : State} (h : SamePair d k s t) (plan : List Step) (target : Nat) :
    t.takenJob d k plan target = s.takenJob d k plan target := by
  unfold State.takenJob
  rw [h.job]
  cases hj : s.job? d k with
  | none => dsimp only; rw [h.hub.settled, h.hub.marked]
  | some j =>
    dsimp only
    rw [h.hub.keptPlan j plan (by rw [(job?_drop hj).1]; exact h.mark)]
    cases s.keptPlan j plan with
    | some kept => dsimp only; rw [h.hub.judgeJob, h.hub.marked]
    | none => dsimp only; rw [h.hub.settled, h.hub.marked]

/-- The pair's job after a re-plan, by what planning reads. -/
theorem planPair_job? (s : State) (d : DropId) (k : Kind) :
    (s.planPair d k).job? d k =
      if s.planned d = true ∧ ∀ j, s.job? d k = some j → j.state ≠ .failed then
        if s.inFlight d k = true ∧ (s.job? d k).isSome = true then (s.job? d k).map (fun j => { j with replan := true })
        else (s.pairPlan d k).map (fun p => s.takenJob d k p.1 p.2)
      else s.job? d k := by
  unfold State.planPair
  by_cases hp : s.planned d = true
  · rw [if_pos hp]
    cases h : s.job? d k with
    | none =>
      dsimp only
      rw [if_pos ⟨hp, fun _ h => nomatch h⟩, if_neg (by simp), planKind_job?]
    | some j =>
      dsimp only
      obtain ⟨hd, hk, -⟩ := job?_drop h
      by_cases hf : j.state = .failed
      · rw [if_pos hf, if_neg (fun g => g.2 j rfl hf), h]
      · have hc : s.planned d = true ∧ ∀ i, some j = some i → i.state ≠ .failed :=
          ⟨hp, fun i hi => by injection hi with hi; subst hi; exact hf⟩
        rw [if_neg hf, if_pos hc]
        by_cases hx : s.inFlight d k = true
        · have hi : s.inFlight d k = true ∧ (some j).isSome = true := ⟨hx, rfl⟩
          rw [if_pos hx, if_pos hi]
          exact job?_putJob h hd hk
        · have hi : ¬(s.inFlight d k = true ∧ (some j).isSome = true) := fun g => hx g.1
          rw [if_neg hx, if_neg hi, planKind_job?]
  · rw [if_neg hp, if_neg (fun g => hp g.1)]

/-- Planning a pair leaves the same job in two states that agree in what it reads. -/
theorem SamePair.planPair {d : DropId} {k : Kind} {s t : State} (h : SamePair d k s t) :
    (t.planPair d k).job? d k = (s.planPair d k).job? d k := by
  rw [planPair_job?, planPair_job?, h.planned, h.job, h.hub.inFlight, h.pairPlan]
  simp only [h.takenJob]

theorem farePlan_no_full {c : Catalogue} {size : Nat} {h : Holdings} {plan : List Step} {t : Nat}
    (e : c.farePlan size h = .steps plan t) : plan ≠ [.full] := by
  unfold Catalogue.farePlan at e
  repeat' split at e
  all_goals first | cases e; simp | cases e

/-- Planning a FARE pair reads no read mark. -/
theorem planFare_same {d : DropId} {s t : State} (hub : SameHub s t) (job : t.job? d .fare = s.job? d .fare)
    (drop : (t.drop d).planning = (s.drop d).planning) :
    (t.planPair d .fare).job? d .fare = (s.planPair d .fare).job? d .fare := by
  have h1 := congrArg (fun x : Drop => x.presence) drop
  have h2 := congrArg (fun x : Drop => x.stopping) drop
  have h3 := congrArg (fun x : Drop => x.known) drop
  have h4 : (t.drop d).holdings = (s.drop d).holdings := by have := congrArg (fun x : Drop => x.holdings) drop; exact this
  have hp : t.planned d = s.planned d := by
    unfold State.planned
    rw [show (t.drop d).presence = (s.drop d).presence from h1, show (t.drop d).stopping = (s.drop d).stopping from h2,
      show (t.drop d).known = (s.drop d).known from h3]
  have hpp : t.pairPlan d .fare = s.pairPlan d .fare := by
    unfold State.pairPlan; rw [h4, hub.cat, hub.classOf]
  rw [planPair_job?, planPair_job?, hp, job, hub.inFlight, hpp]
  have : (s.pairPlan d .fare).map (fun p => t.takenJob d .fare p.1 p.2) =
      (s.pairPlan d .fare).map (fun p => s.takenJob d .fare p.1 p.2) := by
    cases hq : s.pairPlan d .fare with
    | none => rfl
    | some p =>
      obtain ⟨plan, target⟩ := p
      have hnf : plan ≠ [.full] := by
        unfold State.pairPlan at hq; dsimp only at hq
        split at hq
        · cases hq
        · cases hq
        next e => cases hq; exact farePlan_no_full e
      show some _ = some _
      congr 1
      unfold State.takenJob
      rw [job]
      cases hj : s.job? d .fare with
      | none => dsimp only; rw [hub.settled, hub.marked]
      | some j =>
        dsimp only
        have hk : t.keptPlan j plan = s.keptPlan j plan := by
          unfold State.keptPlan; simp only [hub.cat, hub.classOf, hub.blockPlan, hnf, false_and]
        rw [hk]
        cases s.keptPlan j plan with
        | some kept => dsimp only; rw [hub.judgeJob, hub.marked]
        | none => dsimp only; rw [hub.settled, hub.marked]
  rw [this]

/-! ### Planning a pair twice -/

theorem judge_judge (floor : Nat) (j : Job) : Job.judge floor (Job.judge floor j) = Job.judge floor j := by
  rcases j with ⟨d, k, target, plan, w, b, r, ph, n, bs, re, lc, u, pr, lv, st, rp⟩
  by_cases c : lv = 0 ∨ lv < floor
  · have c' : ¬(1 ≤ lv ∧ floor ≤ lv) := by omega
    cases st <;> simp [Job.judge, c, c']
  · have c' : 1 ≤ lv ∧ floor ≤ lv := by omega
    cases st <;> cases w <;> simp [Job.judge, c, c']

theorem judgeJob_judgeJob (s : State) (j : Job) : s.judgeJob (s.judgeJob j) = s.judgeJob j := by
  unfold State.judgeJob
  by_cases h : s.inFlight j.drop j.kind = true
  · rw [if_pos h, if_pos h]
  · rw [if_neg h, (judge_drop _ _).1, (judge_drop _ _).2, if_neg h, judge_judge]

/-- Judging a job changes its state alone. -/
theorem judgeJob_state (s : State) (j : Job) : ∃ st, s.judgeJob j = { j with state := st } := by
  unfold State.judgeJob Job.judge
  split
  · exact ⟨_, rfl⟩
  · split
    · split <;> exact ⟨_, rfl⟩
    · split <;> exact ⟨_, rfl⟩
    · split <;> exact ⟨_, rfl⟩
    · split <;> exact ⟨_, rfl⟩
    · exact ⟨_, rfl⟩

/-- A job that has been marked and judged is unchanged by the same again. -/
theorem judged_marked (s : State) (j : Job) (plan : List Step) (target : Nat) :
    s.judgeJob (s.marked { s.judgeJob (s.marked { j with plan, target }) with plan, target }) =
      s.judgeJob (s.marked { j with plan, target }) := by
  obtain ⟨st, h⟩ := judgeJob_state s (s.marked { j with plan, target })
  have e : s.marked { s.judgeJob (s.marked { j with plan, target }) with plan, target } =
      s.judgeJob (s.marked { j with plan, target }) := by rw [h]; rfl
  rw [e, judgeJob_judgeJob]

theorem settled_of_fit {s : State} {j : Job} (h : s.stageNofit j.drop j.plan = false) : s.settled j = s.judgeJob j := by
  unfold State.settled; rw [if_neg (by rw [h]; simp)]

theorem settled_failed {s : State} {j : Job} (h : s.stageNofit j.drop j.plan = true) : (s.settled j).state = .failed := by
  unfold State.settled; rw [if_pos h]

/-- The step that is kept is kept again. -/
theorem keptPlan_again {s : State} {j : Job} {plan kept : List Step} (h : s.keptPlan j plan = some kept) (u : Job)
    (hd : u.drop = j.drop) (hw : u.underWay = j.underWay) (hb : u.base = j.base) (hr : u.record = j.record) (hp : u.plan = kept) :
    s.keptPlan u plan = some kept := by
  have deltaOf : ∀ e, s.cat.deltaOf u e = s.cat.deltaOf j e := by
    intro e; unfold Catalogue.deltaOf; rw [hw, hr]
  unfold State.keptPlan at h ⊢
  rw [hd, hw, hb]
  split at h
  · cases h
  next c =>
    rw [if_neg c]
    split at h
    next e q hj =>
      have head : ∃ q', kept = .delta e :: q' := by
        split at h
        · cases h
        · split at h
          · split at h
            · injection h with h; exact ⟨_, h.symm⟩
            · injection h with h; exact ⟨_, h.symm⟩
            · cases h
            · cases h
          · cases h
      obtain ⟨q', hq⟩ := head
      rw [hp, hq]
      dsimp only
      rw [deltaOf e, ← hq]
      exact h
    next q hj =>
      split at h
      next g => injection h with h; rw [hp, ← h]; dsimp only; rw [if_pos g]
      · cases h
    next x q hj =>
      split at h
      next g =>
        injection h with h
        obtain ⟨q', hq⟩ : ∃ q', plan = .stage x :: q' := by
          cases plan with
          | nil => cases g.1
          | cons y ys => have := g.1; simp only [List.head?_cons, Option.some.injEq] at this; exact ⟨ys, by rw [this]⟩
        rw [hp, ← h, hq]; dsimp only
        rw [if_pos ⟨rfl, g.2⟩]
      · cases h
    · cases h
    · cases h

/-- With no exchange of its job in flight, planning a pair twice leaves the job that planning it once leaves. -/
theorem planPair_twice (s : State) (d : DropId) (k : Kind) (hx : s.inFlight d k = false) :
    ((s.planPair d k).planPair d k).job? d k = (s.planPair d k).job? d k := by
  have P := pair_planPair s d k
  have f := planPair_job? s d k
  by_cases hc : s.planned d = true ∧ ∀ j, s.job? d k = some j → j.state ≠ .failed
  swap
  · have e : s.planPair d k = s := by
      unfold State.planPair
      split
      next hp =>
        split
        next hn => exact absurd ⟨hp, fun j hj => by rw [hn] at hj; cases hj⟩ hc
        next j hj =>
          split
          · rfl
          next hf => exact absurd ⟨hp, fun i hi => by rw [hj] at hi; cases hi; exact hf⟩ hc
      · rfl
    rw [e, e]
  rw [if_pos hc, if_neg (by rw [hx]; simp : ¬(s.inFlight d k = true ∧ _))] at f
  have ef : s.planPair d k = s.planKind d k := by
    unfold State.planPair
    rw [if_pos hc.1]
    split
    · rfl
    next j hj => rw [if_neg (hc.2 j hj), if_neg (by rw [hx]; simp)]
  obtain ⟨n, hn, hnj, hnm, -, en⟩ := planKind_eq s d k
  generalize ht : s.planPair d k = t at *
  have hub := P.hub
  have bare := P.decided.drops d
  have hpl : t.planned d = s.planned d := by
    unfold State.planned
    have h1 := congrArg (fun x : Drop => x.presence) bare
    have h2 := congrArg (fun x : Drop => x.stopping) bare
    have h3 := congrArg (fun x : Drop => x.known) bare
    rw [show (t.drop d).presence = (s.drop d).presence from h1, show (t.drop d).stopping = (s.drop d).stopping from h2,
      show (t.drop d).known = (s.drop d).known from h3]
  have hpp : t.pairPlan d k = s.pairPlan d k := by
    have h1 := congrArg (fun x : Drop => x.holdings) bare
    unfold State.pairPlan
    rw [show (t.drop d).holdings = (s.drop d).holdings from h1, hub.blockPlan, hub.cat,
      hub.classOf]
  rw [planPair_job? t]
  have hxt : t.inFlight d k = false := (hub.inFlight d k).trans hx
  by_cases c : t.planned d = true ∧ ∀ j, t.job? d k = some j → j.state ≠ .failed
  swap
  · rw [if_neg c]
  rw [if_pos c, if_neg (by rw [hxt]; simp), hpp]
  cases hp : s.pairPlan d k with
  | none => rw [f, hp]; rfl
  | some p =>
    obtain ⟨plan, target⟩ := p
    rw [hp] at f en
    rw [f]
    show some _ = some _
    congr 1
    show t.takenJob d k plan target = s.takenJob d k plan target
    have hJ : t.job? d k = some (s.takenJob d k plan target) := f
    have nf := c.2 _ hJ
    -- a plan that has been taken whole
    have whole : ∀ i : Job, s.takenJob d k plan target = s.settled (s.marked (i.takeWhole plan target)) →
        t.takenJob d k plan target = s.takenJob d k plan target := by
      intro i hs
      generalize hw : i.takeWhole plan target = w at hs
      have fit : s.stageNofit (s.marked w).drop (s.marked w).plan = false := by
        cases g : s.stageNofit (s.marked w).drop (s.marked w).plan with
        | false => rfl
        | true => rw [hs] at nf; exact absurd (settled_failed g) nf
      rw [hs, settled_of_fit fit] at hJ ⊢
      obtain ⟨st, hst⟩ := judgeJob_state s (s.marked w)
      have hk : t.keptPlan (s.judgeJob (s.marked w)) plan = none := by
        unfold State.keptPlan; rw [hst, ← hw]; rfl
      have again : (s.judgeJob (s.marked w)).takeWhole plan target = s.judgeJob (s.marked w) := by rw [hst, ← hw]; rfl
      have m2 : s.marked (s.judgeJob (s.marked w)) = s.judgeJob (s.marked w) := by rw [hst]; rfl
      have fit2 : s.stageNofit (s.judgeJob (s.marked w)).drop (s.judgeJob (s.marked w)).plan = false := by rw [hst]; exact fit
      unfold State.takenJob
      rw [hJ]
      dsimp only
      rw [hk]
      dsimp only
      rw [again, hub.settled, hub.marked, m2, settled_of_fit fit2, judgeJob_judgeJob]
    cases hj : s.job? d k with
    | none => exact whole (newJob d k plan target) (by unfold State.takenJob; rw [hj]; rfl)
    | some j =>
      cases hk : s.keptPlan j plan with
      | none => exact whole j (by unfold State.takenJob; rw [hj]; dsimp only; rw [hk])
      | some kept =>
        have hs : s.takenJob d k plan target = s.judgeJob (s.marked { j with plan := kept, target }) := by
          unfold State.takenJob; rw [hj]; dsimp only; rw [hk]
        obtain ⟨st, hst⟩ := judgeJob_state s (s.marked { j with plan := kept, target })
        have hm : t.mark d = s.mark d := by
          rw [ef, en]
          show (n.takePlan d k plan target).mark d = _
          have hk' : n.keptPlan j plan = some kept := by rw [hn.hub.keptPlan j plan (hnm j.drop), hk]
          have hj' : n.job? d k = some j := (job?_of_jobs hnj d k).trans hj
          rw [takePlan_kept n d k plan kept target j hj' hk']
          exact hnm d
        unfold State.takenJob
        rw [hJ, hj]
        dsimp only
        rw [hk, hs]
        dsimp only
        have hk2 : t.keptPlan (s.judgeJob (s.marked { j with plan := kept, target })) plan = some kept := by
          rw [hub.keptPlan _ plan (by rw [hst]; show t.mark j.drop = s.mark j.drop; rw [(job?_drop hj).1]; exact hm)]
          exact keptPlan_again hk _ (by rw [hst]; rfl) (by rw [hst]; rfl) (by rw [hst]; rfl) (by rw [hst]; rfl) (by rw [hst]; rfl)
        rw [hk2]
        dsimp only
        rw [hub.judgeJob, hub.marked]
        exact judged_marked s j kept target

/-- Planning both pairs of a drop leaves each pair's job as planning that pair alone does. -/
theorem planBoth_job? (s : State) (d : DropId) (k : Kind) : (s.planBoth d).job? d k = (s.planPair d k).job? d k := by
  unfold State.planBoth
  cases k
  · have h := pair_planPair s d .block
    exact planFare_same h.hub (h.job? _ _ (by simp)) (planning_of_bare (h.decided.drops d))
  · exact (pair_planPair (s.planPair d .block) d .fare).job? _ _ (by simp)

/-- So does planning both pairs twice, with no exchange in flight. -/
theorem planBoth_twice (s : State) (d : DropId) (k : Kind) (hx : s.trunk.ex = none) :
    ((s.planBoth d).planBoth d).job? d k = (s.planPair d k).job? d k := by
  have free : ∀ (u : State) (c : Kind), u.trunk.ex = none → u.inFlight d c = false := by
    intro u c hu; unfold State.inFlight; rw [hu]
  rw [planBoth_job?]
  unfold State.planBoth
  have hb := pair_planPair s d .block
  have hf := pair_planPair (s.planPair d .block) d .fare
  cases k
  · have e : (((s.planPair d .block).planPair d .fare).planPair d .fare).job? d .fare =
        ((s.planPair d .block).planPair d .fare).job? d .fare :=
      planPair_twice _ d .fare (free _ _ (by rw [hb.trunk]; exact hx))
    exact e.trans (planFare_same hb.hub (hb.job? _ _ (by simp)) (planning_of_bare (hb.decided.drops d)))
  · have e : (((s.planPair d .block).planPair d .fare).planPair d .block).job? d .block =
        ((s.planPair d .block).planPair d .block).job? d .block :=
      SamePair.planPair ⟨hf.hub, hf.job? _ _ (by simp), planning_of_bare (hf.decided.drops d), hf.marks d (by simp)⟩
    exact e.trans (planPair_twice s d .block (free _ _ hx))

/-- Planning one pair of every drop of a list leaves each pair's job as planning that pair alone does, and no other job changed. -/
theorem planPairs_job? (k : Kind) (l : List DropId) (hl : l.Nodup) (s : State) (d : DropId) (c : Kind) :
    (l.foldl (fun s d => s.planPair d k) s).job? d c =
      if d ∈ l ∧ c = k then (s.planPair d k).job? d k else s.job? d c := by
  induction l generalizing s with
  | nil => simp
  | cons e l ih =>
    obtain ⟨he, hl⟩ := List.nodup_cons.mp hl
    have P := pair_planPair s e k
    rw [List.foldl_cons, ih hl]
    by_cases h : d = e
    · subst h
      rw [if_neg (fun x => he x.1)]
      by_cases hc : c = k
      · subst hc; rw [if_pos ⟨List.mem_cons_self, rfl⟩]
      · rw [if_neg (fun x => hc x.2)]; exact P.job? _ _ (fun x => hc x.2)
    · by_cases hm : d ∈ l ∧ c = k
      · rw [if_pos hm, if_pos ⟨List.mem_cons_of_mem _ hm.1, hm.2⟩]
        exact SamePair.planPair ⟨P.hub, P.job? _ _ (fun x => h x.1), planning_of_bare (P.decided.drops d), P.marks d (fun x => h x.1)⟩
      · rw [if_neg hm, if_neg (fun x => hm ⟨by rcases List.mem_cons.mp x.1 with q | q; exact absurd q h; exact q, x.2⟩)]
        exact P.job? _ _ (fun x => h x.1)

/-- A head advance or a fare change (R104, R117): the kind's FAILED jobs are gone and every pair of the kind is planned; the jobs of
the other kind are as before. -/
theorem replanKind_job? (s : State) (k : Kind) (d : DropId) :
    (s.replanKind k).job? d k = ((s.dropFailed k).planPair d k).job? d k ∧ ∀ c, c ≠ k → (s.replanKind k).job? d c = s.job? d c := by
  have h := planPairs_job? k allDrops (by decide) (s.dropFailed k) d
  have hm : d ∈ allDrops := (by decide : ∀ d : DropId, d ∈ allDrops) d
  refine ⟨(h k).trans (if_pos ⟨hm, rfl⟩), fun c hc => ((h c).trans (if_neg (fun x => hc x.2))).trans ?_⟩
  show (s.planner.jobs.filter _).find? (Job.serves d c) = s.planner.jobs.find? (Job.serves d c)
  rw [List.find?_filter]
  congr 1
  funext j
  by_cases g : Job.serves d c j = true
  · have := ((serves_iff d c j).mp g).2
    have hk : (j.kind == k) = false := by rw [this]; exact beq_eq_false_iff_ne.mpr hc
    simp [g, hk]
  · simp [g]

end Sys2Proof.Machine
end

