-- ==== Sys2Proof/Laws/Served.lean ====
section
/-! SUPPORT. What planning and the arbiter leave of the Catalogue and of the read marks. -/

namespace Sys2Proof.Machine

/-- `t` is `s` but for what a decision may change; the whole Catalogue is as before, and every read mark of `t` is one of `s`, its
cursor apart, or reads at h and stands for a PRESENT drop (R109). -/
structure Served (s t : State) : Prop where
  decided : Decided s t
  cat : t.cat = s.cat
  marks : ∀ d m, t.mark d = some m →
    (m.edition = s.cat.h ∧ (s.drop d).presence = .present) ∨ ∃ m', s.mark d = some m' ∧ m.edition = m'.edition

namespace Served
variable {s t u : State}

theorem refl (s : State) : Served s s := ⟨.refl s, rfl, fun _ m h => .inr ⟨m, h, rfl⟩⟩

theorem trans (h : Served s t) (g : Served t u) : Served s u where
  decided := h.decided.trans g.decided
  cat := g.cat.trans h.cat
  marks := fun d m hm => by
    rcases g.marks d m hm with e | ⟨m', h', e⟩
    · exact .inl ⟨by rw [e.1, h.cat], (congrArg Drop.presence (h.decided.drops d)).symm.trans e.2⟩
    · rcases h.marks d m' h' with e' | ⟨m'', h'', e''⟩
      · exact .inl ⟨e.trans e'.1, e'.2⟩
      · exact .inr ⟨m'', h'', e.trans e''⟩

/-- A change that leaves the Catalogue and the marks. -/
theorem of_table (h : Decided s t) (hc : t.cat = s.cat) (ht : t.table = s.table) : Served s t :=
  ⟨h, hc, fun d m hm => .inr ⟨m, by unfold State.mark at hm ⊢; rwa [ht] at hm, rfl⟩⟩

theorem of_marks (h : Decided s t) (hc : t.cat = s.cat) (hm : ∀ d, t.mark d = s.mark d ∨ t.mark d = none) : Served s t :=
  ⟨h, hc, fun d m g => by
    rcases hm d with e | e
    · exact .inr ⟨m, e ▸ g, rfl⟩
    · rw [e] at g; cases g⟩

theorem foldl {α : Type} (f : State → α → State) (h : ∀ s a, Served s (f s a)) (l : List α) (s : State) :
    Served s (l.foldl f s) := by
  induction l generalizing s with
  | nil => exact refl s
  | cons a l ih => exact (h s a).trans (ih _)

end Served

theorem served_setPlanner (s : State) (x : Planner) : Served s (s.setPlanner x) := .of_table (decided_setPlanner _ _) rfl rfl
theorem served_putJob (s : State) (j : Job) : Served s (s.putJob j) := served_setPlanner _ _

theorem served_releaseMark (s : State) (d : DropId) : Served s (s.releaseMark d) :=
  .of_marks (releaseMark_decided _ _) (by rw [releaseMark_eq]; rfl) fun e => by
    rw [releaseMark_mark]; split
    · exact .inr rfl
    · exact .inl rfl

theorem served_leaveMark (s : State) (d : DropId) (k : Kind) : Served s (s.leaveMark d k) := by
  cases k
  · exact .refl s
  · exact served_releaseMark s d

theorem served_removeJob (s : State) (d : DropId) (k : Kind) : Served s (s.removeJob d k) :=
  (served_setPlanner _ _).trans (served_leaveMark _ _ _)

theorem served_setDrop (s : State) (d : DropId) (x : Drop) (h : x.bare = (s.drop d).bare) : Served s (s.setDrop d x) :=
  .of_table (decided_setDrop _ _ _ h) rfl rfl

theorem served_writeLog (s : State) (e : LogEntry) : Served s (s.writeLog e) := by
  rw [writeLog_eq]; exact served_setPlanner _ _

theorem served_failJob (s : State) (j : Job) (c : Cause) : Served s (s.failJob j c) := by
  unfold State.failJob
  dsimp only
  exact ((((served_putJob _ _).trans (served_leaveMark _ _ _)).trans
    (.of_table (raiseFailed_decided _ _) rfl rfl)).trans (served_setPlanner _ _)).trans (served_writeLog _ _)

theorem served_settleJob (s : State) (j : Job) : Served s (s.settleJob j) := by
  unfold State.settleJob
  split
  · exact served_failJob _ _ _
  · exact served_putJob _ _

theorem served_takePlan (s : State) (d : DropId) (k : Kind) (plan : List Step) (target : Nat) :
    Served s (s.takePlan d k plan target) := by
  unfold State.takePlan
  split
  · exact (served_setPlanner _ _).trans (served_settleJob _ _)
  · split
    · exact served_putJob _ _
    · exact ((served_putJob _ _).trans (served_leaveMark _ _ _)).trans (served_settleJob _ _)

theorem served_pair {d : DropId} {k : Kind} {s t : State} (h : PairPlanned d k s t) (hm : ∀ e, t.mark e = s.mark e) :
    Served s t := .of_marks h.decided h.cat fun e => .inl (hm e)

theorem served_noteNofit (s : State) (d : DropId) (b : Bool) : Served s (s.noteNofit d b) :=
  served_pair (pair_noteNofit s d b) (noteNofit_mark s d b)

theorem served_noteAhead (s : State) (d : DropId) (b : Bool) : Served s (s.noteAhead d b) :=
  served_pair (pair_noteAhead s d b) fun _ => rfl

theorem served_planKind (s : State) (d : DropId) (k : Kind) : Served s (s.planKind d k) := by
  cases k
  · show Served s (s.planFare d)
    unfold State.planFare
    split
    · exact (served_noteAhead _ _ _).trans (served_removeJob _ _ _)
    · exact (served_noteAhead _ _ _).trans (served_removeJob _ _ _)
    · exact (served_noteAhead _ _ _).trans (served_takePlan _ _ _ _ _)
  · show Served s (s.planBlock d)
    unfold State.planBlock
    split
    · exact (served_noteNofit _ _ _).trans (served_removeJob _ _ _)
    · exact (served_noteNofit _ _ _).trans (served_removeJob _ _ _)
    · exact (served_noteNofit _ _ _).trans (served_takePlan _ _ _ _ _)
    · exact (served_noteNofit _ _ _).trans (served_takePlan _ _ _ _ _)

theorem served_planPair (s : State) (d : DropId) (k : Kind) : Served s (s.planPair d k) := by
  unfold State.planPair
  split
  · split
    · exact served_planKind _ _ _
    · split
      · exact .refl s
      · split
        · exact served_putJob _ _
        · exact served_planKind _ _ _
  · exact .refl s

theorem served_planBoth (s : State) (d : DropId) : Served s (s.planBoth d) :=
  (served_planPair _ _ _).trans (served_planPair _ _ _)

theorem served_replanKind (s : State) (k : Kind) : Served s (s.replanKind k) :=
  (served_setPlanner _ _).trans (Served.foldl _ (fun s d => served_planPair s d k) _ _)

/-! ### The arbiter -/

theorem served_setTrunk_idle (s : State) (x : Trunk) (h : x.bare = s.trunk.bare) (g : s.trunk.ex = none) : Served s (s.setTrunk x) :=
  .of_table (decided_setTrunk_idle _ _ h g) rfl rfl

theorem displace_eq (s : State) (d : DropId) (k : Kind) : s.displace d k = s.setPlanner (s.displace d k).planner := by
  unfold State.displace; split <;> rfl

theorem served_formPush (s : State) (j : Job) (f : TrunkFrame) (bs be : Nat) (g : s.trunk.ex = none) :
    Served s (s.formPush j f bs be) :=
  .of_table (formPush_decided _ _ _ _ _ g) (by unfold State.formPush; rw [displace_eq]; rfl)
    (by unfold State.formPush; rw [displace_eq]; rfl)

theorem served_placeMark (s : State) (d : DropId) (h : s.tableClosed = false) (hp : (s.drop d).presence = .present) :
    Served s (s.placeMark d) where
  decided := placeMark_decided _ _ h
  cat := by unfold State.placeMark; rw [releaseMark_eq]; rfl
  marks := fun e m hm => by
    have : (s.placeMark d).mark e = if e = d then some s.newMark else s.mark e := by
      unfold State.placeMark State.mark State.setMark
      show ((s.releaseMark d).table.marks.set d _).get e = _
      rw [Per8.get_set]
      split
      · rfl
      · next hne =>
        have := releaseMark_mark s d e
        rw [if_neg hne] at this
        exact this
    rw [this] at hm
    split at hm
    · next he => cases hm; exact .inl ⟨rfl, he ▸ hp⟩
    · exact .inr ⟨m, hm, rfl⟩

theorem served_openFull (s : State) (j : Job) (g : s.trunk.ex = none) (p : (s.drop j.drop).presence = .present) :
    Served s (s.openFull j) := by
  unfold State.openFull
  split
  · exact .refl s
  next hc =>
    have hc' : s.tableClosed = false := by simpa using hc
    dsimp only
    have hp := served_placeMark s j.drop hc' p
    have hx : (s.placeMark j.drop).trunk.ex = none := by rw [placeMark_trunk]; exact g
    split
    · exact hp.trans (served_formPush _ _ _ _ _ hx)
    · exact ((hp.trans (served_releaseMark _ _)).trans (served_putJob _ _)).trans (served_planPair _ _ _)

theorem served_openStep (s : State) (j : Job) (g : s.trunk.ex = none) (p : (s.drop j.drop).presence = .present) :
    Served s (s.openStep j) := by
  unfold State.openStep
  split
  · split
    · exact served_formPush _ _ _ _ _ g
    · exact .refl s
  · exact served_openFull _ _ g p
  · split
    · exact served_formPush _ _ _ _ _ g
    · exact .refl s
  all_goals exact .refl s

theorem served_setMark_map (s : State) (d : DropId) (f : Mark → Mark) (hf : ∀ m, (f m).edition = m.edition) :
    Served s (s.setMark d ((s.mark d).map f)) where
  decided := onMark_decided s d f
  cat := rfl
  marks := fun e m hm => by
    have : (s.setMark d ((s.mark d).map f)).mark e = if e = d then (s.mark d).map f else s.mark e := by
      unfold State.mark State.setMark
      show (s.table.marks.set d _).get e = _
      rw [Per8.get_set]
    rw [this] at hm
    split at hm
    · next h =>
      subst h
      cases hs : s.mark e with
      | none => rw [hs] at hm; cases hm
      | some m' => rw [hs] at hm; cases hm; exact .inr ⟨m', rfl, hf m'⟩
    · exact .inr ⟨m, hm, rfl⟩

theorem served_moveCursor (s : State) (j : Job) (f : Mark → Mark) (hf : ∀ m, (f m).edition = m.edition) :
    Served s (s.moveCursor j f) := by
  unfold State.moveCursor
  split
  · exact served_setMark_map s j.drop f hf
  · exact .refl s

theorem served_wake (s : State) (j : Job) : Served s (s.wake j).1 := by
  unfold State.wake
  split
  · split
    · next m hm =>
      have := served_setMark_map s j.drop Mark.toAck (fun _ => rfl)
      rw [hm] at this
      exact this
    · exact .refl s
  · exact .refl s

theorem served_pushJob (s : State) (j : Job) (g : s.trunk.ex = none) (p : (s.drop j.drop).presence = .present) :
    Served s (s.pushJob j) := by
  unfold State.pushJob
  dsimp only
  have hw : (s.wake j).1.trunk.ex = none := by rw [wake_trunk]; exact g
  have hj : (s.wake j).2.drop = j.drop := by
    unfold State.wake; split
    · split <;> rfl
    · rfl
  refine (served_wake s j).trans ?_
  split
  · exact served_openStep _ _ hw (by
      rw [hj]; exact (congrArg Drop.presence ((served_wake s j).decided.drops j.drop)).trans p)
  · unfold State.sendBurst
    dsimp only
    split
    · exact (served_moveCursor _ _ Mark.beginBurst (fun _ => rfl)).trans
        (served_formPush _ _ _ _ _ (by rw [moveCursor_trunk]; exact hw))
    · exact .refl _
  · split
    · exact served_formPush _ _ _ _ _ hw
    · exact .refl _
  · exact served_formPush _ _ _ _ _ hw

theorem served_tryJob (s : State) (d : DropId) (k : Kind) : Served s (s.tryJob d k) := by
  unfold State.tryJob
  split
  · exact .refl s
  next hx =>
    split
    · split
      next hc =>
        refine served_pushJob _ _ (by simpa using hx) ?_
        unfold State.candidate at hc
        simp only [Bool.and_eq_true, beq_iff_eq] at hc
        exact hc.1.1.2
      · exact .refl s
    · exact .refl s

theorem served_pushChoice (s : State) : Served s s.pushChoice := Served.foldl _ (fun s _ => served_tryJob s _ _) _ _

theorem formPoll_parts (s : State) (k : ExKind) (d : DropId) : (s.formPoll k d).cat = s.cat ∧ (s.formPoll k d).table = s.table := by
  unfold State.formPoll State.noteAllowance
  dsimp only
  split <;> exact ⟨rfl, rfl⟩

theorem takeTurn_parts (s : State) : s.takeTurn.cat = s.cat ∧ s.takeTurn.table = s.table := by
  unfold State.takeTurn
  split
  · exact ⟨rfl, rfl⟩
  · split
    · exact ⟨rfl, rfl⟩
    · exact formPoll_parts _ _ _

theorem startRound_parts (s : State) : s.startRound.cat = s.cat ∧ s.startRound.table = s.table := by
  unfold State.startRound State.startPause
  split
  · split <;> exact ⟨rfl, rfl⟩
  · exact ⟨rfl, rfl⟩

theorem roundStep_parts (s : State) : s.roundStep.cat = s.cat ∧ s.roundStep.table = s.table := by
  unfold State.roundStep
  dsimp only
  split
  · rw [(takeTurn_parts _).1, (takeTurn_parts _).2, (startRound_parts _).1, (startRound_parts _).2]; exact takeTurn_parts s
  · exact takeTurn_parts s

/-- The arbiter's decision leaves the Catalogue, and places marks only at h. -/
theorem served_arbitrate (s : State) : Served s s.arbitrate := by
  by_cases hx : s.trunk.ex = none
  · refine ⟨arbitrate_decided s, ?_, ?_⟩ <;> unfold State.arbitrate <;> rw [if_neg (by rw [hx]; simp)]
    all_goals
      have hr := roundStep_parts s
      have hd : ∀ d, (s.roundStep.drop d).presence = (s.drop d).presence := fun d => by
        have := congrArg Drop.presence ((roundStep_decided s hx).drops d)
        exact this
      have key : Served s.roundStep s.roundStep.pushStep := by
        refine ⟨pushStep_decided _, ?_, ?_⟩ <;> unfold State.pushStep <;> dsimp only
        · split
          · rw [(takeTurn_parts _).1, (startRound_parts _).1]; exact (served_pushChoice _).cat
          · exact (served_pushChoice _).cat
        · intro d m hm
          refine (served_pushChoice _).marks d m ?_
          unfold State.mark at hm ⊢
          split at hm
          · rw [(takeTurn_parts _).2, (startRound_parts _).2] at hm; exact hm
          · exact hm
      split
    · rfl
    · split
      · exact (formPoll_parts _ _ _).1
      · dsimp only; split
        · exact hr.1
        · exact key.cat.trans hr.1
    · exact fun d m hm => .inr ⟨m, hm, rfl⟩
    · split
      · intro d m hm
        refine .inr ⟨m, ?_, rfl⟩
        unfold State.mark at hm ⊢
        rw [State.formUrgent, (formPoll_parts _ _ _).2] at hm; exact hm
      · dsimp only
        have old : ∀ d, s.roundStep.mark d = s.mark d := fun d => by unfold State.mark; rw [hr.2]
        split
        · exact fun d m hm => .inr ⟨m, by rw [← old]; exact hm, rfl⟩
        · intro d m hm
          have := key.marks d m hm
          rw [hr.1, hd] at this
          simpa only [old] using this
  · have : s.trunk.ex.isSome = true := by cases h : s.trunk.ex <;> simp_all
    have e : s.arbitrate = s := by unfold State.arbitrate; rw [if_pos this]
    rw [e]; exact .refl s

/-! ### The end of an event -/

theorem readersOf_eq (jobs : List Job) (k : Kind) (ref : Nat) : readersOf jobs k ref = readers jobs k ref := by
  unfold readersOf readers
  rw [List.countP_eq_length_filter]
  congr 1
  apply List.filter_congr
  intro j _
  unfold Job.reads
  cases h : j.underWay
  · simp
  · rcases j.plan with _ | ⟨_ | _ | _ | _, _⟩ <;> cases k <;> simp

/-- The retired list after chain records have left the chain (R40, R41). -/
theorem retire_eq (jobs : List Job) (rs retired : List Delta) :
    retire jobs rs retired = retired ++ rs.filter (fun r => readersOf jobs .block r.ref != 0) := by
  refine congrArg (retired ++ ·) (List.filter_congr fun r _ => ?_)
  rw [readersOf_eq, Bool.eq_iff_iff]; simp [Nat.pos_iff_ne_zero]

/-- The withdrawn list after a fare record has left its place (R45). -/
theorem withdraw_eq (jobs : List Job) (hold : Option Nat) (r : Option Fare) (w : List Fare) :
    withdraw jobs hold r w = w ++ r.toList.filter (fun q => readersOf jobs .fare q.ref != 0 || hold == some q.ref) := by
  refine congrArg (w ++ ·) (List.filter_congr fun r _ => ?_)
  rw [readersOf_eq]
  refine congrArg (· || _) ?_
  rw [Bool.eq_iff_iff]; simp [Nat.pos_iff_ne_zero]

/-- The records kept at the end of an event (R43, R45). -/
theorem conclude_freed (u : State) : RecordsFreed u.cat.retired u.cat.withdrawn u.conclude := by
  have hc := (served_arbitrate u).cat
  have hp : ∀ v : State, v.uplink.cat = v.cat ∧ v.uplink.planner = v.planner := by
    intro v; unfold State.uplink; split <;> exact ⟨rfl, rfl⟩
  constructor
  · show u.arbitrate.freeRecords.uplink.cat.retired = _
    unfold State.conclude
    rw [(hp _).1, (hp _).2]
    unfold State.freeRecords
    show u.arbitrate.cat.retired.filter _ = u.cat.retired.filter _
    rw [hc]
    apply List.filter_congr
    intro r _
    rw [readersOf_eq]
    show decide (0 < _) = (_ != 0)
    rw [Bool.eq_iff_iff]; simp [Nat.pos_iff_ne_zero]
  · show u.arbitrate.freeRecords.uplink.cat.withdrawn = _
    unfold State.conclude
    rw [(hp _).1, (hp _).2]
    unfold State.freeRecords
    show u.arbitrate.cat.withdrawn.filter _ = u.cat.withdrawn.filter _
    rw [hc]
    apply List.filter_congr
    intro r _
    rw [readersOf_eq]
    unfold keepWithdrawn
    show (decide (0 < readers u.arbitrate.planner.jobs .fare r.ref) || u.cat.hold == some r.ref) =
      (readers u.arbitrate.planner.jobs .fare r.ref != 0 || u.cat.hold == some r.ref)
    congr 1
    rw [Bool.eq_iff_iff]; simp [Nat.pos_iff_ne_zero]

/-- A read mark at the end of an event: one that the event left, its cursor apart, or one placed now at h for a PRESENT drop. -/
theorem conclude_mark (u : State) (d : DropId) (m : Mark) (h : u.conclude.mark d = some m) :
    (m.edition = u.cat.h ∧ (u.drop d).presence = .present) ∨ ∃ m', u.mark d = some m' ∧ m.edition = m'.edition := by
  refine (served_arbitrate u).marks d m ?_
  have hp : ∀ v : State, v.uplink.table = v.table := by
    intro v; unfold State.uplink; split <;> rfl
  unfold State.conclude State.mark at h
  rw [hp] at h
  exact h

end Sys2Proof.Machine
end

