-- ==== Sys2Proof/Laws/Judged.lean ====
section
/-! SUPPORT. Readiness judged at the end of an event (R147, R149), and what stands before the judgement. -/

namespace Sys2Proof.Machine

/-- `t` is `s` in all that the judgement of readiness reads besides the drops: the changeover, the Catalogue, the door. -/
structure Unjudged (s t : State) : Prop where
  cat : t.cat = s.cat
  change : t.change = s.change
  settings : t.settings = s.settings
  timebase : t.timebase = s.timebase
  port : t.port.core = s.port.core

namespace Unjudged
variable {s t u : State}

theorem refl (s : State) : Unjudged s s := ⟨rfl, rfl, rfl, rfl, rfl⟩

theorem trans (h : Unjudged s t) (g : Unjudged t u) : Unjudged s u :=
  ⟨g.cat.trans h.cat, g.change.trans h.change, g.settings.trans h.settings, g.timebase.trans h.timebase, g.port.trans h.port⟩

theorem of_served (h : Served s t) : Unjudged s t :=
  ⟨h.cat, h.decided.change, h.decided.settings, h.decided.timebase, Port.core_of_bare h.decided.port⟩

end Unjudged

theorem unjudged_raise (s : State) (f : Flag) (ed : Nat) (c : Option Code) (o : Option DropId) : Unjudged s (s.raise f ed c o) :=
  ⟨rfl, rfl, rfl, rfl, Port.raise_core _ _ _ _⟩

theorem unjudged_setDrop (s : State) (d : DropId) (x : Drop) : Unjudged s (s.setDrop d x) := ⟨rfl, rfl, rfl, rfl, rfl⟩

theorem unjudged_countDrop (s : State) (d : DropId) (f : DropCounters → DropCounters) : Unjudged s (s.countDrop d f) :=
  unjudged_setDrop _ _ _

theorem unjudged_setPresence (s : State) (d : DropId) (p : Presence) (n : Nat) : Unjudged s (s.setPresence d p n) :=
  unjudged_setDrop _ _ _

theorem unjudged_forgetDrop (s : State) (d : DropId) : Unjudged s (s.forgetDrop d) := by
  unfold State.forgetDrop
  dsimp only
  exact (Unjudged.of_served (((served_removeJob s d .fare).trans (served_removeJob _ d .block)).trans
    (served_releaseMark _ d))).trans (unjudged_setDrop _ _ _)

theorem unjudged_joinDrop (s : State) (d : DropId) : Unjudged s (s.joinDrop d) := by
  unfold State.joinDrop
  dsimp only
  exact (((unjudged_setPresence s d _ _).trans (unjudged_countDrop _ _ _)).trans (unjudged_raise _ _ _ _ _)).trans
    (.of_served (served_planBoth _ _))

theorem unjudged_loseDrop (s : State) (d : DropId) : Unjudged s (s.loseDrop d) := by
  unfold State.loseDrop
  dsimp only
  exact (((unjudged_setPresence s d _ _).trans (unjudged_forgetDrop _ d)).trans (unjudged_countDrop _ _ _)).trans
    (unjudged_raise _ _ _ _ _)

theorem unjudged_goodEvent (s : State) (d : DropId) : Unjudged s (s.goodEvent d) := by
  unfold State.goodEvent State.presenceGood
  split
  · exact .refl s
  · split
    · exact .refl s
    · exact unjudged_setPresence _ _ _ _
    · exact unjudged_joinDrop s d
    all_goals exact unjudged_setPresence _ _ _ _

theorem unjudged_missEvent (s : State) (d : DropId) : Unjudged s (s.missEvent d) := by
  unfold State.missEvent State.presenceMiss
  split
  · exact .refl s
  · split
    · exact .refl s
    · exact unjudged_setPresence _ _ _ _
    · exact unjudged_loseDrop s d
    · exact unjudged_setPresence _ _ _ _
    · split
      · exact unjudged_loseDrop s d
      · exact unjudged_setPresence _ _ _ _

theorem unjudged_disableDrop (s : State) (d : DropId) : Unjudged s (s.disableDrop d) := by
  unfold State.disableDrop
  dsimp only
  exact (unjudged_forgetDrop s d).trans (unjudged_setDrop _ _ _)

theorem unjudged_settleStopping (s : State) (d : DropId) : Unjudged s (s.settleStopping d) := by
  unfold State.settleStopping
  split
  · exact unjudged_disableDrop s d
  · exact .refl s

theorem unjudged_clearExchange (s : State) (x : Exchange) : Unjudged s (s.clearExchange x) := by
  unfold State.clearExchange
  dsimp only
  split <;> exact ⟨rfl, rfl, rfl, rfl, rfl⟩

/-! ### The judgement -/

/-- Readiness judged, and the event ended. -/
theorem judged_conclude (v u : State) (h : Unjudged v u) : ReadinessJudged v u.judgeReady.conclude := by
  have hw := conclude_decided u.judgeReady
  have hm := judgeReady_moved u
  have hb : ∀ d, (u.judgeReady.conclude.drop d).bare = (u.drop d).bare := fun d => (hw.drops d).trans (hm.drops d)
  have hcore : u.judgeReady.conclude.port.core = u.port.core := (Port.core_of_bare hw.port).trans hm.port
  have hdoor : u.judgeReady.conclude.port.door = u.port.door := by have := congrArg Port.door hcore; exact this
  have hold : u.judgeReady.conclude.cat.hold = u.judgeReady.cat.hold := by have := congrArg Catalogue.hold hw.cat; exact this
  have ready : ∀ r, v.cat.pendingFare = some r → v.change.requested = none → ∀ b, u.judgeReady = u.foundReady r.edition b →
      FoundReady r b u.judgeReady.conclude := fun r hr hq b e =>
    foundReady_spec u _ r b (by rw [h.cat]; exact hr) (by rw [h.change]; exact hq) (by rw [hw.change, e]) (by rw [hold, e]) hdoor
      (hw.settings.trans hm.settings) (hw.timebase.trans hm.timebase)
  have due : ∀ r, v.change.state = .due → v.change.requested = none → v.cat.pendingFare = some r →
      u.judgeReady =
        if u.allArmed r.edition then u.foundReady r.edition false
        else if u.change.hold = .passed then u.foundReady r.edition true else u := fun r h1 h2 h3 =>
    judgeReady_due u r.edition (by rw [h.change]; exact h1) (by rw [h.change]; exact h2) (p?_of (by rw [h.cat]; exact h3))
  refine ⟨fun h1 h2 r h3 ha => ?_, fun h1 h2 r h3 ha hp => ?_, fun h1 h2 r h3 ha hp => ?_, fun hn => ?_⟩
  · rw [busArmed_congr hb, ← allArmed_iff] at ha
    exact ready r h3 h2 false (by rw [due r h1 h2 h3, if_pos ha])
  · rw [busArmed_congr hb, ← allArmed_iff] at ha
    exact ready r h3 h2 true (by rw [due r h1 h2 h3, if_neg ha, if_pos (by rw [h.change]; exact hp)])
  · rw [busArmed_congr hb, ← allArmed_iff] at ha
    rw [hw.change, due r h1 h2 h3, if_neg ha, if_neg (by rw [h.change]; exact hp), h.change]
  · rw [hw.change]
    have : u.judgeReady = u := by
      unfold State.judgeReady
      split
      · next e1 e2 e3 =>
        rw [h.change] at e1 e2
        rcases hn with hn | hn | hn
        · exact absurd e1 hn
        · exact absurd e2 hn
        · rw [h.cat] at e3; unfold Catalogue.p? at e3; rw [hn] at e3; cases e3
      · rfl
    rw [this, h.change]

/-! ### The side lists -/

/-- `t` has the side lists of `s`. -/
def SameLists (s t : State) : Prop := t.cat.retired = s.cat.retired ∧ t.cat.withdrawn = s.cat.withdrawn

theorem foundReady_lists (s : State) (p : Nat) (b : Bool) : SameLists s (s.foundReady p b) := by
  unfold State.foundReady; dsimp only; split <;> exact ⟨rfl, rfl⟩

theorem judgeReady_lists (s : State) : SameLists s s.judgeReady := by
  unfold State.judgeReady
  split
  · split
    · exact foundReady_lists _ _ _
    · split
      · exact foundReady_lists _ _ _
      · exact ⟨rfl, rfl⟩
  · exact ⟨rfl, rfl⟩

theorem passHold_lists (s : State) (p : Nat) : SameLists s (s.passHold p) := by
  unfold State.passHold
  dsimp only
  split <;> exact judgeReady_lists _

theorem dueTest_lists (s : State) : SameLists s s.dueTest := by
  unfold State.dueTest
  split
  · exact ⟨rfl, rfl⟩
  · split
    · unfold State.enterDue
      dsimp only
      repeat' split
      · exact passHold_lists _ _
      · exact judgeReady_lists _
      · exact judgeReady_lists _
    · exact ⟨rfl, rfl⟩

/-- The side lists after readiness has been judged and the event has ended. -/
theorem judged_freed (v u : State) (h : Unjudged v u) : RecordsFreed v.cat.retired v.cat.withdrawn u.judgeReady.conclude := by
  have := conclude_freed u.judgeReady
  rw [(judgeReady_lists u).1, (judgeReady_lists u).2, h.cat] at this
  exact this

/-- A reader or nothing keeps a record that no hold names. -/
theorem keepWithdrawn_none (jobs : List Job) (l : List Fare) :
    l.filter (keepWithdrawn jobs none) = l.filter (fun a => readersOf jobs .fare a.ref != 0) := by
  apply List.filter_congr
  intro r _
  rw [readersOf_eq]
  unfold keepWithdrawn
  rw [Bool.eq_iff_iff]; simp [Nat.pos_iff_ne_zero]

end Sys2Proof.Machine
end

