-- ==== Sys2Proof/Laws/Work.lean ====
section
/-! SUPPORT. The hub's own work: the idle microsecond, the lag checks, the completion of an apply. -/

namespace Sys2Proof.Machine

/-- The table with the fields that work in flight may change blanked: entries, state, sweep. -/
def CardTable.still (t : CardTable) : CardTable := { t with entries := [], state := .empty, sweep := none }

theorem applySome_frame (s : State) (n : Nat) :
    ∃ t, s.applySome n = s.setTable t ∧ t.still = s.table.still := by
  unfold State.applySome
  split
  · dsimp only; split <;> exact ⟨_, rfl, rfl⟩
  · exact ⟨_, rfl, rfl⟩
  · exact ⟨_, rfl, rfl⟩
  all_goals exact ⟨s.table, rfl, rfl⟩

theorem rebuildSome_frame (s : State) (n : Nat) : ∃ t, s.rebuildSome n = s.setTable t ∧ t.still = s.table.still := by
  unfold State.rebuildSome
  split
  · exact ⟨_, rfl, rfl⟩
  all_goals exact ⟨s.table, rfl, rfl⟩

theorem sweepSome_frame (s : State) (n : Nat) : ∃ t, s.sweepSome n = s.setTable t ∧ t.still = s.table.still := by
  unfold State.sweepSome
  split
  · exact ⟨_, rfl, rfl⟩
  all_goals exact ⟨s.table, rfl, rfl⟩

theorem formFigures_frame (s : State) :
    ∃ t, s.formFigures = s.setIntakes t ∧ { t with block := none } = { s.intakes with block := none } := by
  unfold State.formFigures
  split
  · split
    · exact ⟨_, rfl, rfl⟩
    · exact ⟨s.intakes, rfl, rfl⟩
  · exact ⟨s.intakes, rfl, rfl⟩

/-- What the work in flight may change in one microsecond. -/
theorem workOn_frame (s : State) :
    ∃ t i, s.workOn = (s.setTable t).setIntakes i ∧ t.still = s.table.still ∧
      { i with block := none } = { s.intakes with block := none } := by
  unfold State.workOn
  dsimp only
  obtain ⟨t1, h1, l1⟩ := applySome_frame s (Config.applyItems s.timebase)
  obtain ⟨t2, h2, l2⟩ := rebuildSome_frame (s.setTable t1) (Config.rebuildItems s.timebase)
  obtain ⟨t3, h3, l3⟩ := sweepSome_frame ((s.setTable t1).setTable t2) (Config.sweepItems s.timebase)
  rw [h1, h2, h3]
  split
  · obtain ⟨i, h4, h5⟩ := formFigures_frame (((s.setTable t1).setTable t2).setTable t3)
    exact ⟨t3, i, h4, l3.trans (l2.trans l1), h5⟩
  · exact ⟨t3, s.intakes, rfl, l3.trans (l2.trans l1), rfl⟩

theorem endPush_table (s : State) (d) : (s.endPush d).table = s.table := by
  unfold State.endPush State.stopStep
  dsimp only
  repeat' split
  all_goals rfl

theorem fold_endPush (l : List DropId) (s : State) :
    Decided (s.detached (fun d => l.contains d)) (l.foldl State.endPush s) ∧ (l.foldl State.endPush s).table = s.table ∧
      (l.foldl State.endPush s).trunk = (s.detached (fun d => l.contains d)).trunk := by
  induction l generalizing s with
  | nil =>
    have e : s.detached (fun d => ([] : List DropId).contains d) = s := detached_none s _ (fun d => rfl)
    rw [e]; exact ⟨.refl s, rfl, rfl⟩
  | cons d l ih =>
    have e : s.detached (fun e => (d :: l).contains e) = (s.detached (fun e => e == d)).detached (fun e => l.contains e) := by
      rw [detached_trans]
      congr 1
    have ht : (s.endPush d).trunk = (s.detached (fun e => e == d)).trunk := by
      rw [endPush_eq]; unfold State.detached; rw [stopStep_trunk]; rfl
    obtain ⟨h1, h2, h3⟩ := ih (s.endPush d)
    refine ⟨?_, h2.trans (endPush_table s d), ?_⟩
    · rw [e]
      exact ((endPush_decided s d).detached _ (by rw [ht])).trans h1
    · rw [List.foldl_cons, h3, e]
      unfold State.detached at ht ⊢
      rw [ht]; rfl

/-- The lag check of one drop ends its mark when it lags too far, and no other. -/
theorem lagCheck_mark (s : State) (d e : DropId) :
    (s.lagCheck d).mark e = if e = d then (match s.mark d with | some m => if 64 < serialDist m.edition s.cat.h then none else some m | none => none) else s.mark e := by
  unfold State.lagCheck
  cases hm : s.mark d with
  | none =>
    dsimp only
    split
    next h => rw [h, hm]
    · rfl
  | some m =>
    dsimp only
    by_cases g : 64 < serialDist m.edition s.cat.h
    · rw [if_pos g, if_pos g]
      have ht := endPush_table s d
      generalize hu : (s.endPush d).setTable { (s.endPush d).table with markLag := bump (s.endPush d).table.markLag 1 } = u
      have hum : ∀ e, u.mark e = s.mark e := by
        intro e; rw [← hu]
        show (s.endPush d).table.marks.get e = s.table.marks.get e
        rw [ht]
      unfold State.releaseMark
      rw [hum d, hm]
      dsimp only
      rw [requestSweep_table]
      have : ∀ v : State, v.requestSweep.table.marks = v.table.marks := by
        intro v; unfold State.requestSweep; split <;> rfl
      show (State.requestSweep _).table.marks.get e = _
      rw [this]
      show (u.table.marks.set d none).get e = _
      rw [Per8.get_set]
      have := hum e
      have h2 : u.table.marks.get e = s.mark e := this
      rw [h2]
    · rw [if_neg g, if_neg g]
      split
      next h => rw [h, hm]
      · rfl

theorem lagCheck_cat (s : State) (d) : (s.lagCheck d).cat = s.cat := by
  unfold State.lagCheck State.endPush State.stopStep State.releaseMark State.requestSweep
  dsimp only
  repeat' split
  all_goals rfl

/-- The lag checks of some drops end exactly the marks that lag too far. -/
theorem lagChecks_mark (l : List DropId) (s : State) (e : DropId) :
    (l.foldl State.lagCheck s).mark e = if e ∈ l then (match s.mark e with | some m => if 64 < serialDist m.edition s.cat.h then none else some m | none => none) else s.mark e := by
  induction l generalizing s with
  | nil => rfl
  | cons d l ih =>
    rw [List.foldl_cons, ih, lagCheck_mark, lagCheck_cat]
    by_cases h1 : e = d
    · subst h1
      simp only [if_true, List.mem_cons, true_or]
      cases hm : s.mark e with
      | none => simp
      | some m =>
        by_cases g : 64 < serialDist m.edition s.cat.h <;> simp [g]
    · simp [h1]

/-- The lag check of a drop: a mark that lags is counted, its step ends, and the mark goes. -/
theorem lagCheck_eq (s : State) (d : DropId) :
    s.lagCheck d =
      if s.lags d then
        ((s.endPush d).setTable { (s.endPush d).table with markLag := bump (s.endPush d).table.markLag 1 }).releaseMark d
      else s := by
  unfold State.lagCheck State.lags
  cases s.mark d with
  | none => rfl
  | some m => dsimp only; by_cases g : 64 < serialDist m.edition s.cat.h <;> simp [g]

theorem lagCheck_lags (s : State) (d e : DropId) : (s.lagCheck d).lags e = (s.lags e && e != d) := by
  unfold State.lags
  rw [lagCheck_mark, lagCheck_cat]
  by_cases h : e = d
  · subst h
    cases hm : s.mark e with
    | none => simp
    | some m => by_cases g : 64 < serialDist m.edition s.cat.h <;> simp [g]
  · rw [if_neg h]; simp [h]

/-- The lag check changes no more than a decision, but for MARK_LAG and the exchange that it detaches. -/
theorem lagCheck_decided (s : State) (d) :
    (∃ n, Decided ((s.setTable { s.table with markLag := n }).detached (fun e => e == d && s.lags e)) (s.lagCheck d)) ∧
      (s.lagCheck d).trunk = (s.detached (fun e => e == d && s.lags e)).trunk := by
  rw [lagCheck_eq]
  by_cases hl : s.lags d = true
  · have ef : (fun e => e == d && s.lags e) = (fun e => e == d) := by
      funext e; by_cases h : e = d <;> simp [h, hl]
    rw [if_pos hl, ef]
    have E := endPush_decided s d
    have ET := endPush_table s d
    have EX : (s.endPush d).trunk = (s.detached (fun e => e == d)).trunk := by
      rw [endPush_eq]; unfold State.detached; rw [stopStep_trunk]; rfl
    refine ⟨⟨bump s.table.markLag 1, Decided.trans ?_ (releaseMark_decided _ d)⟩, by rw [releaseMark_trunk]; exact EX⟩
    rw [ET]
    exact ⟨E.pending, E.timebase, E.clock, E.settings, E.intakes, E.change, E.port, E.cat, rfl, E.taps, E.trunk, E.lastTap, E.drops,
      E.flying, fun h => h, fun _ _ => rfl⟩
  · have ef : ∀ e, (e == d && s.lags e) = false := by
      intro e; by_cases h : e = d <;> simp_all
    rw [if_neg hl]
    refine ⟨⟨s.table.markLag, ?_⟩, by rw [detached_none s _ ef]⟩
    rw [detached_none _ _ ef]
    exact .refl s

theorem decided_markLag {s t : State} (n : Nat) (h : Decided s t) :
    Decided (s.setTable { s.table with markLag := n }) (t.setTable { t.table with markLag := n }) := by
  have hb := h.table
  constructor
  · exact h.pending
  · exact h.timebase
  · exact h.clock
  · exact h.settings
  · exact h.intakes
  · exact h.change
  · exact h.port
  · exact h.cat
  · have := congrArg (fun x : CardTable => { x with markLag := n }) hb
    exact this
  · exact h.taps
  · exact h.trunk
  · exact h.lastTap
  · exact h.drops
  · exact h.flying
  · exact h.sweeping
  · intro a b
    have := h.quiet a b
    show ({ t.table with markLag := n } : CardTable) = _
    rw [this]; rfl

/-- The lag checks change no more than a decision, but for MARK_LAG and the exchange that they detach. -/
theorem lagChecks_decided (l : List DropId) (s : State) :
    (∃ n, Decided ((s.setTable { s.table with markLag := n }).detached (fun e => l.contains e && s.lags e))
        (l.foldl State.lagCheck s)) ∧
      (l.foldl State.lagCheck s).trunk = (s.detached (fun e => l.contains e && s.lags e)).trunk := by
  induction l generalizing s with
  | nil =>
    have e : ∀ u : State, u.detached (fun d => ([] : List DropId).contains d && s.lags d) = u := fun u => detached_none u _ (fun d => rfl)
    rw [e]
    exact ⟨⟨s.table.markLag, by rw [e]; exact .refl s⟩, rfl⟩
  | cons d l ih =>
    have ef : (fun e => (d :: l).contains e && s.lags e) =
        (fun e => (e == d && s.lags e) || (l.contains e && (s.lagCheck d).lags e)) := by
      funext e
      rw [List.contains_cons, lagCheck_lags]
      by_cases h : e = d
      · subst h; cases s.lags e <;> cases l.contains e <;> simp
      · have : (e == d) = false := beq_eq_false_iff_ne.mpr h
        simp [bne, this]
    obtain ⟨⟨n, hn⟩, ht⟩ := lagCheck_decided s d
    obtain ⟨⟨k, hk⟩, hu⟩ := ih (s.lagCheck d)
    refine ⟨⟨k, ?_⟩, ?_⟩
    · rw [ef, ← detached_trans]
      have a := (decided_markLag k hn).detached (fun e => l.contains e && (s.lagCheck d).lags e) (by
        show (s.lagCheck d).trunk.ex = _
        rw [ht]; rfl)
      exact Decided.trans a hk
    · rw [List.foldl_cons, hu, ef, ← detached_trans]
      unfold State.detached at ht ⊢
      rw [ht]; rfl

theorem requestSweep_open (s : State) (h : s.tableClosed = false) : Decided s s.requestSweep := by
  rw [requestSweep_table]
  exact decided_setTable s _ (requestSweep_bare s) (fun _ => requestSweep_sweep s) (fun g => absurd (h.symm.trans g) (by simp))

/-- A sweep that runs after a decision may be put into the state before it. -/
theorem decided_sweepOf {s t : State} (h : Decided s t) (ho : s.tableClosed = false) :
    Decided (s.setTable { s.table with sweep := t.table.sweep }) t := by
  constructor
  · exact h.pending
  · exact h.timebase
  · exact h.clock
  · exact h.settings
  · exact h.intakes
  · exact h.change
  · exact h.port
  · exact h.cat
  · exact h.table
  · exact h.taps
  · exact h.trunk
  · exact h.lastTap
  · exact h.drops
  · exact h.flying
  · exact fun g => g
  · intro a; exact absurd (ho.symm.trans a) (by simp)

theorem tableClosed_of_ready {s : State} (h : s.table.state = .ready) : s.tableClosed = false := by
  unfold State.tableClosed; rw [h]

/-- The port after an apply has completed. -/
def applyPort (s : State) (l : Load) : Port := { s.port with answers := s.port.answers ++ closeAnswers .block l .done 0 }.raise s.settings.enables .loadDone { edition := l.edition, code := some .done, drop := none, minute := s.stamp }

/-- The hub after an apply has completed, before lag checks. -/
def appliedState (s : State) (l : Load) (c : Catalogue) (t : CardTable) : State :=
  (((s.setIntakes { s.intakes with block := none }).setCat c).setTable t).setPort (applyPort s l)

/-- The completion of an apply, written out. -/
theorem finishApply_eq (s : State) (l : Load) (ed la w) : s.finishApply l ed la w =
   ((allDrops.foldl State.lagCheck (appliedState s l (s.cat.append s.planner.jobs (l.deltaRecord s.cat.records)) { s.table with entries := s.appliedEntries ed w, state := .ready, live := la })).requestSweep).replanKind .block := by
  unfold State.finishApply; dsimp only; rw [loadDone_eq]; rfl

theorem append_bare (c : Catalogue) (js) (r : Delta) :
    (c.append js r).bare = ({ c with h := r.edition, records := c.records + 1, b := if (c.chain ++ [r]).length ≤ 12 then c.b else ((c.chain ++ [r]).head?.map Delta.edition).getD c.b, chain := if (c.chain ++ [r]).length ≤ 12 then c.chain ++ [r] else (c.chain ++ [r]).drop 1 } : Catalogue).bare := by
  unfold Catalogue.append
  dsimp only
  by_cases g : (c.chain ++ [r]).length ≤ 12
  · simp only [if_pos g]
  · simp only [if_neg g]
    cases hc : c.chain ++ [r] with
    | nil => simp at hc
    | cons x xs => rfl

theorem decided_markLag_eq {s t : State} (h : Decided s t) : t.table.markLag = s.table.markLag := by
  have := congrArg CardTable.markLag h.table; exact this

/-- After the apply's own changes, what follows is a decision's, but for the exchange that a lag check detaches. -/
theorem afterApply_decided (b : State) (hr : b.table.state = .ready) :
   let t := (((allDrops.foldl State.lagCheck b).requestSweep).replanKind .block).conclude
   t.table.sweep.isSome = true ∧
      Decided ((b.setTable { b.table with markLag := t.table.markLag, sweep := t.table.sweep }).detached b.lags) t := by
  dsimp only
  have ha : (fun e => allDrops.contains e && b.lags e) = b.lags := by
    funext e
    have : allDrops.contains e = true := by revert e; decide
    rw [this, Bool.true_and]
  obtain ⟨⟨n, L⟩, -⟩ := lagChecks_decided allDrops b
  rw [ha] at L
  have ho : ((b.setTable { b.table with markLag := n }).detached b.lags).tableClosed = false := by
    unfold State.tableClosed
    rw [show ((b.setTable { b.table with markLag := n }).detached b.lags).table.state = .ready from hr]
  generalize hv : allDrops.foldl State.lagCheck b = v at L
  have hvs : v.table.state = .ready := by
    have := congrArg CardTable.state L.table
    have e : v.table.state = b.table.state := this
    rw [e, hr]
  have R := requestSweep_open v (tableClosed_of_ready hvs)
  have D := ((L.trans R).trans (replanKind_decided _ .block)).trans (conclude_decided _)
  have hs := ((replanKind_decided _ .block).trans (conclude_decided _)).sweeping (requestSweep_sweep v)
  generalize (v.requestSweep.replanKind .block).conclude = t at D hs
  refine ⟨hs, ?_⟩
  rw [decided_markLag_eq D]
  exact decided_sweepOf D ho

/-- The side lists of the Catalogue before a decision do not matter. -/
theorem decided_catBase {s t : State} (c : Catalogue) (h : Decided s t) (hc : c.bare = s.cat.bare) : Decided (s.setCat c) t :=
  ⟨h.pending, h.timebase, h.clock, h.settings, h.intakes, h.change, h.port, h.cat.trans hc.symm, h.table, h.taps, h.trunk, h.lastTap, h.drops, h.flying, h.sweeping, h.quiet⟩

end Sys2Proof.Machine
end

