-- ==== Sys2Proof/Laws/Lag.lean ====
section
/-! SUPPORT. The lag checks that stand at the completion of an apply (R67): what they count, and what becomes of the FULL steps. -/

namespace Sys2Proof.Machine

theorem stopStep_table (s : State) (d : DropId) : (s.stopStep d).table = s.table := by
  unfold State.stopStep
  split
  · split <;> rfl
  · rfl

theorem releaseMark_markLag (s : State) (d : DropId) : (s.releaseMark d).table.markLag = s.table.markLag := by
  unfold State.releaseMark State.requestSweep
  split
  · rfl
  · split <;> rfl

theorem releaseMark_planner (s : State) (d : DropId) : (s.releaseMark d).planner = s.planner := by
  unfold State.releaseMark State.requestSweep
  split
  · rfl
  · split <;> rfl

theorem lagCheck_markLag (s : State) (d : DropId) :
    (s.lagCheck d).table.markLag = if s.lags d then bump s.table.markLag 1 else s.table.markLag := by
  rw [lagCheck_eq]
  split
  · rw [releaseMark_markLag]
    show bump (s.endPush d).table.markLag 1 = _
    rw [endPush_table]
  · rfl

/-- The lag checks raise MARK_LAG by one for each mark that lags (R67). -/
theorem lagChecks_markLag (l : List DropId) (hl : l.Nodup) (s : State) :
    (l.foldl State.lagCheck s).table.markLag =
      if l.countP s.lags = 0 then s.table.markLag else min 65535 (s.table.markLag + l.countP s.lags) := by
  induction l generalizing s with
  | nil => rfl
  | cons d l ih =>
    obtain ⟨hd, hl⟩ := List.nodup_cons.mp hl
    have e : l.countP (s.lagCheck d).lags = l.countP s.lags := by
      apply List.countP_congr
      intro x hx
      rw [lagCheck_lags]
      simp [show x ≠ d from fun g => hd (g ▸ hx)]
    rw [List.foldl_cons, ih hl, e, lagCheck_markLag, List.countP_cons]
    unfold bump
    by_cases g : s.lags d = true <;> by_cases z : l.countP s.lags = 0 <;> simp [g, z]
    omega

/-! ### The FULL steps that end -/

theorem stopped_pair (p : DropId → Bool) (j : Job) : (j.stopped p).drop = j.drop ∧ (j.stopped p).kind = j.kind := by
  unfold Job.stopped; split <;> exact ⟨rfl, rfl⟩

theorem serves_stopped (p : DropId → Bool) (e : DropId) (k : Kind) (j : Job) :
    Job.serves e k (j.stopped p) = Job.serves e k j := by
  unfold Job.serves; rw [(stopped_pair p j).1, (stopped_pair p j).2]

theorem stopped_none {p : DropId → Bool} {j : Job} (h : p j.drop = false) : j.stopped p = j := by
  unfold Job.stopped; rw [if_neg (fun g => by rw [h] at g; exact absurd g.2.1 (by simp))]

/-- Steps ended for some drops, and then for others. -/
theorem stopped_stopped (p q : DropId → Bool) (j : Job) : (j.stopped p).stopped q = j.stopped (fun d => p d || q d) := by
  by_cases c : j.kind = .block ∧ j.underWay = true
  · by_cases hp : p j.drop = true <;> by_cases hq : q j.drop = true <;> simp [Job.stopped, c.1, c.2, hp, hq]
  · have e : ∀ r, j.stopped r = j := fun r => by unfold Job.stopped; rw [if_neg (fun g => c ⟨g.1, g.2.2⟩)]
    rw [e, e, e]

/-- The job of a pair in the queue with the steps of some drops ended. -/
theorem stopJobs_job? (s : State) (p : DropId → Bool) (e : DropId) (k : Kind) :
    (s.setJobs (s.planner.jobs.map (Job.stopped p))).job? e k = (s.job? e k).map (Job.stopped p) := by
  show (s.planner.jobs.map _).find? _ = (s.planner.jobs.find? _).map _
  rw [List.find?_map]
  congr 1
  exact congrArg (fun f => s.planner.jobs.find? f) (funext fun j => serves_stopped p e k j)

/-- Ending the step of a drop's BLOCK job leaves every other pair's job as it is (R112). -/
theorem stopStep_job? (s : State) (d e : DropId) (k : Kind) :
    (s.stopStep d).job? e k = (s.job? e k).map (Job.stopped (fun x => x == d)) := by
  have other : ∀ j, s.job? e k = some j → ¬(e = d ∧ k = .block) → j.stopped (fun x => x == d) = j := by
    intro j hj hn
    obtain ⟨rfl, rfl, -⟩ := job?_drop hj
    unfold Job.stopped
    rw [if_neg (fun g => hn ⟨by simpa using g.2.1, g.1⟩)]
  have same : s.stopStep d = s → (s.stopStep d).job? e k = s.job? e k := fun h => by rw [h]
  cases hd : s.job? d .block with
  | none =>
    rw [same (by unfold State.stopStep; rw [hd])]
    cases hj : s.job? e k with
    | none => rfl
    | some j => exact congrArg some (other j hj (fun g => by rw [g.1, g.2, hd] at hj; cases hj)).symm
  | some i =>
    obtain ⟨hi, hk, -⟩ := job?_drop hd
    by_cases hu : i.underWay = true
    · have es : s.stopStep d = s.putJob { i with underWay := false, phase := .open_, next := 0, burstStart := 0 } := by
        unfold State.stopStep; rw [hd]; dsimp only; rw [if_pos hu]
      by_cases g : e = d ∧ k = .block
      · obtain ⟨rfl, rfl⟩ := g
        rw [es, hd]
        refine (job?_putJob (j := { i with underWay := false, phase := .open_, next := 0, burstStart := 0 }) hd hi hk).trans ?_
        simp [Job.stopped, hk, hi, hu]
      · rw [es, (pair_putJob (s := s) (d := d) (k := .block)
          { i with underWay := false, phase := .open_, next := 0, burstStart := 0 } hi hk).job? e k g]
        cases hj : s.job? e k with
        | none => rfl
        | some j => exact congrArg some (other j hj g).symm
    · rw [same (by unfold State.stopStep; rw [hd]; dsimp only; rw [if_neg hu])]
      cases hj : s.job? e k with
      | none => rfl
      | some j =>
        refine congrArg some ?_
        by_cases g : e = d ∧ k = .block
        · obtain ⟨rfl, rfl⟩ := g
          rw [hd] at hj; cases hj
          unfold Job.stopped; rw [if_neg (fun x => hu x.2.2)]
        · exact (other j hj g).symm

/-- With one job for each pair, ending a step is a map over the queue. -/
theorem stopStep_jobs (s : State) (d : DropId) (h : (s.planner.jobs.map (fun j => (j.drop, j.kind))).Nodup) :
    (s.stopStep d).planner.jobs = s.planner.jobs.map (Job.stopped (fun x => x == d)) := by
  have id : (∀ x ∈ s.planner.jobs, x.stopped (fun x => x == d) = x) →
      s.planner.jobs.map (Job.stopped (fun x => x == d)) = s.planner.jobs := fun g =>
    (List.map_congr_left g).trans (List.map_id _)
  have inj := List.inj_on_of_nodup_map h
  cases hd : s.job? d .block with
  | none =>
    rw [show s.stopStep d = s by unfold State.stopStep; rw [hd], id]
    intro x hx
    unfold Job.stopped
    rw [if_neg]
    rintro ⟨g1, g2, -⟩
    have := List.find?_eq_none.mp hd x hx
    exact this ((serves_iff _ _ _).mpr ⟨by simpa using g2, g1⟩)
  | some i =>
    obtain ⟨hi, hk, hm⟩ := job?_drop hd
    by_cases hu : i.underWay = true
    · rw [show s.stopStep d = s.putJob { i with underWay := false, phase := .open_, next := 0, burstStart := 0 } by
        unfold State.stopStep; rw [hd]; dsimp only; rw [if_pos hu]]
      rw [putJob_jobs]
      unfold replaceJob
      apply List.map_congr_left
      intro x hx
      dsimp only
      by_cases g : Job.serves i.drop i.kind x = true
      · obtain ⟨g1, g2⟩ := (serves_iff _ _ _).mp g
        have : x = i := inj hx hm (by rw [g1, g2])
        subst this
        rw [if_pos g]
        unfold Job.stopped; rw [if_pos ⟨hk, by simpa using hi, hu⟩]
      · rw [if_neg g]
        unfold Job.stopped
        rw [if_neg]
        rintro ⟨g1, g2, -⟩
        exact g ((serves_iff _ _ _).mpr ⟨by rw [hi]; simpa using g2, by rw [hk]; exact g1⟩)
    · rw [show s.stopStep d = s by unfold State.stopStep; rw [hd]; dsimp only; rw [if_neg hu], id]
      intro x hx
      unfold Job.stopped
      rw [if_neg]
      rintro ⟨g1, g2, g3⟩
      have : x = i := inj hx hm (by rw [hi, hk, g1]; simpa using g2)
      exact hu (this ▸ g3)

theorem endPush_planner (s : State) (d : DropId) : (s.endPush d).planner = (s.stopStep d).planner := by
  unfold State.endPush; dsimp only; split <;> rfl

/-- The FULL pushes of some drops ended under them: their jobs, and no others. -/
theorem endPushes_job? (l : List DropId) (s : State) (e : DropId) (k : Kind) :
    (l.foldl State.endPush s).job? e k = (s.job? e k).map (Job.stopped (fun x => l.contains x)) := by
  induction l generalizing s with
  | nil =>
    have : ∀ o : Option Job, o = o.map (Job.stopped (fun x => ([] : List DropId).contains x)) := by
      intro o; cases o with
      | none => rfl
      | some j => exact congrArg some (stopped_none rfl).symm
    exact this _
  | cons d l ih =>
    rw [List.foldl_cons, ih, job?_of_jobs (congrArg Planner.jobs (endPush_planner s d)), stopStep_job?, Option.map_map]
    congr 1
    funext j
    rw [Function.comp, stopped_stopped]
    congr 1

theorem lagCheck_planner (s : State) (d : DropId) :
    (s.lagCheck d).planner = if s.lags d then (s.stopStep d).planner else s.planner := by
  rw [lagCheck_eq]
  split
  · rw [releaseMark_planner]; exact endPush_planner s d
  · rfl

theorem lags_contains (s : State) (d : DropId) (l : List DropId) :
    (fun e => (e == d && s.lags e) || (l.contains e && (s.lagCheck d).lags e)) = (fun e => (d :: l).contains e && s.lags e) := by
  funext e
  rw [List.contains_cons, lagCheck_lags]
  by_cases h : e = d
  · subst h; cases s.lags e <;> cases l.contains e <;> simp
  · have : (e == d) = false := beq_eq_false_iff_ne.mpr h
    simp [bne, this]

theorem stopped_lags (s : State) (d : DropId) (h : s.lags d = true) :
    Job.stopped (fun x => x == d) = Job.stopped (fun e => e == d && s.lags e) := by
  congr 1; funext e; by_cases g : e = d <;> simp [g, h]

theorem stopped_unlagged (s : State) (d : DropId) (h : ¬s.lags d = true) (j : Job) :
    j.stopped (fun e => e == d && s.lags e) = j := by
  apply stopped_none
  by_cases g : j.drop = d <;> simp_all

/-- The FULL step that held a mark which lags is ended; that of a mark which stands is left alone (R67, R112). -/
theorem lagChecks_job? (l : List DropId) (s : State) (e : DropId) (k : Kind) :
    (l.foldl State.lagCheck s).job? e k = (s.job? e k).map (Job.stopped (fun x => l.contains x && s.lags x)) := by
  induction l generalizing s with
  | nil =>
    have : ∀ o : Option Job, o = o.map (Job.stopped (fun x => ([] : List DropId).contains x && s.lags x)) := by
      intro o; cases o with
      | none => rfl
      | some j => exact congrArg some (stopped_none rfl).symm
    exact this _
  | cons d l ih =>
    have one : (s.lagCheck d).job? e k = (s.job? e k).map (Job.stopped (fun x => x == d && s.lags x)) := by
      have hp := lagCheck_planner s d
      by_cases h : s.lags d = true
      · rw [if_pos h] at hp
        rw [job?_of_jobs (congrArg Planner.jobs hp), stopStep_job?, stopped_lags s d h]
      · rw [if_neg h] at hp
        rw [job?_of_jobs (congrArg Planner.jobs hp), show Job.stopped (fun x => x == d && s.lags x) = id from
          funext (stopped_unlagged s d h), Option.map_id]; rfl
    rw [List.foldl_cons, ih, one, Option.map_map, ← lags_contains]
    congr 1
    funext j
    rw [Function.comp, stopped_stopped]

/-- With one job for each pair, the lag checks are a map over the queue. -/
theorem lagChecks_jobs (l : List DropId) (s : State) (h : (s.planner.jobs.map (fun j => (j.drop, j.kind))).Nodup) :
    (l.foldl State.lagCheck s).planner.jobs = s.planner.jobs.map (Job.stopped (fun x => l.contains x && s.lags x)) := by
  have id : ∀ (p : DropId → Bool) (js : List Job), (∀ j : Job, j.stopped p = j) → js = js.map (Job.stopped p) := fun p js g =>
    ((List.map_congr_left (fun j _ => g j)).trans (List.map_id _)).symm
  induction l generalizing s with
  | nil => exact id _ _ (fun j => stopped_none rfl)
  | cons d l ih =>
    have hp := lagCheck_planner s d
    have one : (s.lagCheck d).planner.jobs = s.planner.jobs.map (Job.stopped (fun x => x == d && s.lags x)) := by
      by_cases g : s.lags d = true
      · rw [hp, if_pos g, stopStep_jobs s d h, stopped_lags s d g]
      · rw [hp, if_neg g]; exact id _ _ (stopped_unlagged s d g)
    have nd : ((s.lagCheck d).planner.jobs.map (fun j => (j.drop, j.kind))).Nodup := by
      rw [one, List.map_map]
      have : ((fun j : Job => (j.drop, j.kind)) ∘ Job.stopped (fun x => x == d && s.lags x)) = fun j => (j.drop, j.kind) := by
        funext j; simp only [Function.comp]; rw [(stopped_pair _ j).1, (stopped_pair _ j).2]
      rw [this]; exact h
    rw [List.foldl_cons, ih _ nd, one, List.map_map, ← lags_contains]
    congr 1
    funext j
    rw [Function.comp, stopped_stopped]

theorem lagChecks_cat (l : List DropId) (s : State) : (l.foldl State.lagCheck s).cat = s.cat := by
  induction l generalizing s with
  | nil => rfl
  | cons d l ih => rw [List.foldl_cons, ih, lagCheck_cat]

/-- The marks that lag set to none one by one. -/
theorem unmark_mark (l : List DropId) (s : State) (e : DropId) :
    (l.foldl (fun v d => v.setMark d none) s).mark e = if e ∈ l then none else s.mark e := by
  induction l generalizing s with
  | nil => simp
  | cons d l ih =>
    rw [List.foldl_cons, ih]
    have : (s.setMark d none).mark e = if e = d then none else s.mark e := by
      unfold State.mark State.setMark; exact Per8.get_set _ _ _ _
    rw [this]
    by_cases h : e = d <;> by_cases g : e ∈ l <;> simp [h, g]

theorem unmark_table (l : List DropId) (s : State) :
    l.foldl (fun v d => v.setMark d none) s = s.setTable (l.foldl (fun v d => v.setMark d none) s).table ∧
      (l.foldl (fun v d => v.setMark d none) s).table.live = s.table.live := by
  induction l generalizing s with
  | nil => exact ⟨rfl, rfl⟩
  | cons d l ih =>
    obtain ⟨a, b⟩ := ih (s.setMark d none)
    exact ⟨a, b⟩

end Sys2Proof.Machine
end

