-- ==== Sys2Proof/Laws/Loads.lean ====
section
/-! SUPPORT. The tests of an opening, the missing segments, the outcome of a check. -/

namespace Sys2Proof.Machine

theorem countP_none (l : List (Option Segment)) :
    l.length - (l.filter Option.isSome).length = l.countP (fun x => x.isNone) := by
  rw [← List.countP_eq_length_filter]
  have := List.length_eq_countP_add_countP Option.isSome (l := l)
  have e : l.countP (fun x => x.isNone) = l.countP (fun a => ¬ a.isSome = true) := by
    apply List.countP_congr; intro x _; cases x <;> simp
  omega

theorem firstMissing_eq (l : List (Option Segment)) : firstMissing l = l.findIdx (fun x => x.isNone) := by
  induction l with
  | nil => rfl
  | cons x xs ih => cases x <;> simp [firstMissing, List.findIdx_cons, ih]

/-- The code of the first test that fails. -/
def firstFail : List (Bool × Code) → Option Code
  | [] => none
  | (ok, c) :: l => if ok then firstFail l else some c

theorem firstFail_find (l : List (Bool × Code)) : firstFail l = (l.find? (fun q => !q.1)).map Prod.snd := by
  induction l with
  | nil => rfl
  | cons x l ih => rcases x with ⟨_ | _, c⟩ <;> simp [firstFail, ih]

/-- The judgement of an opening by the nine tests (R19). -/
theorem judgeOpen_spec (c : Catalogue) (b : OpenBody) (s : State) (hc : s.cat = c) :
   s.judgeOpen b = match firstFail (openTests c b) with | some c => .error c | none => .ok (if b.kind = 1 then .fare else .block, if b.form = 1 then .full else .delta) := by
  unfold State.judgeOpen
  rw [hc]
  by_cases hk1 : b.kind = 1#8
  · have e1 : kindOf b.kind = some .fare := by rw [hk1]; rfl
    by_cases hf1 : b.form = 1#8
    · have e2 : formOf b.form = some .full := by rw [hf1]; rfl
      rw [e1, e2]
      have hT : openTests c b = [(b.edition.toNat != 0, .badForm), (decide (b.itemCount.toNat ≤ 512), .tooLarge), (!(b.itemCount.toNat == 0), .badForm), (b.segCount.toNat == segmentsFor .fare b.itemCount.toNat, .badForm), (newer b.edition.toNat c.a && (match c.p? with | some p => newer b.edition.toNat p | none => true), .stale), (true, .stale), (true, .gap), (true, .stale), (true, .gap)] := by
        unfold openTests; rw [hk1, hf1]; cases c.p? <;> simp [segmentsFor, itemsPerSegment]
      rw [hT]
      unfold openFigures Catalogue.openEdition itemLimit
      dsimp only
      rw [hk1, hf1]
      generalize newer b.edition.toNat c.a = q2
      generalize segmentsFor .fare b.itemCount.toNat = S
      generalize b.itemCount.toNat = n
      generalize b.segCount.toNat = g
      generalize b.edition.toNat = e
      by_cases h1 : e = 0
      · simp [h1, firstFail]
      by_cases h2 : n ≤ 512
      · have h2' : ¬ 512 < n := by omega
        by_cases h3 : n = 0
        · simp [h1, h3, firstFail]
        · by_cases h4 : g = S
          · cases q2 <;> rcases c.p? with _ | p <;> simp [h1, h2, h2', h3, h4, firstFail] <;> cases newer e p <;> simp
          · simp [h1, h2, h2', h3, h4, firstFail]
      · have h2' : 512 < n := by omega
        simp [h1, h2, h2', firstFail]
    · by_cases hf2 : b.form = 2#8
      · have e2 : formOf b.form = some .delta := by rw [hf2]; rfl
        rw [e1, e2]
        dsimp only
        unfold openTests
        rw [hk1, hf2]
        simp [firstFail, openFigures]
      · have e2 : formOf b.form = none := by unfold formOf; simp [hf1, hf2]
        rw [e1, e2]
        unfold openTests
        simp [firstFail, hf1, hk1]
  · by_cases hk2 : b.kind = 2#8
    · have e1 : kindOf b.kind = some .block := by rw [hk2]; rfl
      by_cases hf1 : b.form = 1#8
      · have e2 : formOf b.form = some .full := by rw [hf1]; rfl
        rw [e1, e2]
        have hT : openTests c b = [(b.edition.toNat != 0, .badForm), (decide (b.itemCount.toNat ≤ 131072), .tooLarge), (true, .badForm), (b.segCount.toNat == segmentsFor .block b.itemCount.toNat, .badForm), (true, .stale), (c.h == 0 || newer b.edition.toNat c.h, .stale), (true, .gap), (true, .stale), (true, .gap)] := by
          unfold openTests; rw [hk2, hf1]; simp [segmentsFor, itemsPerSegment]
        rw [hT]
        unfold openFigures Catalogue.openEdition itemLimit
        dsimp only
        rw [hk2, hf1]
        generalize newer b.edition.toNat c.h = q2
        generalize segmentsFor .block b.itemCount.toNat = S
        generalize b.itemCount.toNat = n
        generalize b.segCount.toNat = g
        generalize b.edition.toNat = e
        by_cases h1 : e = 0
        · simp [h1, firstFail]
        by_cases h2 : n ≤ 131072
        · have h2' : ¬ 131072 < n := by omega
          by_cases h4 : g = S
          · by_cases h5 : c.h = 0 <;> cases q2 <;> simp [h1, h2, h2', h4, h5, firstFail]
          · simp [h1, h2, h2', h4, firstFail]
        · have h2' : 131072 < n := by omega
          simp [h1, h2, h2', firstFail]
      · by_cases hf2 : b.form = 2#8
        · have e2 : formOf b.form = some .delta := by rw [hf2]; rfl
          rw [e1, e2]
          have hT : openTests c b = [(b.edition.toNat != 0, .badForm), (decide (b.itemCount.toNat ≤ 2048), .tooLarge), (!(b.itemCount.toNat == 0), .badForm), (b.segCount.toNat == segmentsFor .block b.itemCount.toNat, .badForm), (true, .stale), (true, .stale), (c.h != 0, .gap), (b.edition.toNat == succEdition c.h || newer b.edition.toNat c.h, .stale), (!newer b.edition.toNat (succEdition c.h), .gap)] := by
            unfold openTests; rw [hk2, hf2]; simp [segmentsFor, itemsPerSegment]
          rw [hT]
          unfold openFigures Catalogue.openEdition itemLimit
          dsimp only
          rw [hk2, hf2]
          generalize newer b.edition.toNat c.h = q2
          generalize newer b.edition.toNat (succEdition c.h) = q3
          generalize segmentsFor .block b.itemCount.toNat = S
          generalize b.itemCount.toNat = n
          generalize b.segCount.toNat = g
          generalize b.edition.toNat = e
          by_cases h1 : e = 0
          · simp [h1, firstFail]
          by_cases h2 : n ≤ 2048
          · have h2' : ¬ 2048 < n := by omega
            by_cases h3 : n = 0
            · simp [h1, h3, firstFail]
            by_cases h4 : g = S
            · by_cases h5 : c.h = 0
              · simp [h1, h2, h2', h3, h4, h5, firstFail]
              · by_cases h6 : e = succEdition c.h <;> cases q2 <;> cases q3 <;> simp [h1, h2, h2', h3, h4, h5, h6, firstFail] <;> simp_all
            · simp [h1, h2, h2', h3, h4, firstFail]
          · have h2' : 2048 < n := by omega
            simp [h1, h2, h2', firstFail]
        · have e2 : formOf b.form = none := by unfold formOf; simp [hf1, hf2]
          rw [e1, e2]
          unfold openTests
          simp [firstFail, hf1, hf2, hk2]
    · have e1 : kindOf b.kind = none := by unfold kindOf; simp [hk1, hk2]
      rw [e1]
      unfold openTests
      simp [firstFail, hk1, hk2]

theorem firstFail_none (l : List (Bool × Code)) (h : l.all (fun q => q.1) = true) : firstFail l = none := by
  rw [firstFail_find]
  simp only [List.all_eq_true] at h
  rw [List.find?_eq_none.mpr (by intro x hx; simp [h x hx])]; rfl

theorem figures_refuse (f : Figures) : f.refuse = true ↔ (f.available < f.adds ∨ 131072 < f.liveAfter) := by
  unfold Figures.refuse liveLimit; simp

/-- Stages 1 and 2 pass exactly so (R26). -/
theorem stageOutcome_none (l : Load) (k) : l.stageOutcome k = none ↔ CheckPasses k l := by
  unfold Load.stageOutcome CheckPasses Load.payloads
  split
  next h => exact ⟨fun g => (nomatch g), fun g => absurd g.1 h⟩
  next h => simp only [ne_eq, not_not] at h; exact ⟨fun g => ⟨h, (firstMalformed_eq_none_iff ..).mp (by simpa using g)⟩, fun g => by simpa using (firstMalformed_eq_none_iff ..).mpr g.2⟩

/-- The check of a CHECKING context completes. -/
theorem checkComplete_eq (k : Kind) (l : Load) (third) (s : State) (hi : s.intake k = some l) (hs : l.stage = .checking third) :
   exec (.checkComplete k) s = .next (s.finishCheck k l third).conclude := by
  show execCheckComplete k s = _
  unfold execCheckComplete; rw [hi]; dsimp only; rw [hs]

end Sys2Proof.Machine
end

