-- ==== Sys2Proof/Laws/Outcome.lean ====
section
/-! SUPPORT. The end of an exchange: what the outcome of a push leaves alone, what the arbiter forms after it, and both together
(R97, R104, R112, R129, R138). -/

namespace Sys2Proof.Machine

/-! ### The outcome touches its own pair alone -/

theorem pair_onMark (s : State) (d : DropId) (f : Mark → Mark) : PairPlanned d .block s (s.onMark d f) := by
  refine ⟨onMark_decided _ _ _, rfl, rfl, rfl, rfl, fun e he => ?_⟩
  unfold State.onMark State.setMark State.mark
  show ((s.table.marks.set d _).get e) = _
  rw [Per8.get_set, if_neg (fun h => he ⟨h, rfl⟩)]

/-- The cursor that an outcome moves is the drop's mark, whatever the kind of the job. -/
structure DropPlanned (d : DropId) (k : Kind) (s t : State) : Prop where
  decided : Decided s t
  trunk : t.trunk = s.trunk
  cat : t.cat = s.cat
  served : t.planner.lastServed = s.planner.lastServed
  others : otherJobs d k t.planner.jobs = otherJobs d k s.planner.jobs
  marks : ∀ e, e ≠ d → t.mark e = s.mark e

namespace DropPlanned
variable {d : DropId} {k : Kind} {s t u : State}

theorem refl (s : State) : DropPlanned d k s s := ⟨.refl s, rfl, rfl, rfl, rfl, fun _ _ => rfl⟩

theorem trans (h : DropPlanned d k s t) (g : DropPlanned d k t u) : DropPlanned d k s u :=
  ⟨h.decided.trans g.decided, g.trunk.trans h.trunk, g.cat.trans h.cat, g.served.trans h.served, g.others.trans h.others,
    fun e he => (g.marks e he).trans (h.marks e he)⟩

theorem hub (h : DropPlanned d k s t) : SameHub s t := .of_decided h.decided h.trunk h.cat

theorem job? (h : DropPlanned d k s t) (e : DropId) (c : Kind) (hn : ¬(e = d ∧ c = k)) : t.job? e c = s.job? e c := by
  unfold State.job?; rw [find_other _ d e k c hn, h.others, ← find_other _ d e k c hn]

end DropPlanned

theorem PairPlanned.ofDrop {d : DropId} {k : Kind} {s t : State} (h : PairPlanned d k s t) : DropPlanned d k s t :=
  ⟨h.decided, h.trunk, h.cat, h.served, h.others, fun e he => h.marks e (fun g => he g.1)⟩

theorem drop_moveCursor (s : State) (j : Job) (k : Kind) (f : Mark → Mark) : DropPlanned j.drop k s (s.moveCursor j f) := by
  unfold State.moveCursor
  split
  · have h := pair_onMark s j.drop f
    exact ⟨h.decided, h.trunk, h.cat, h.served, rfl, fun e he => h.marks e (fun g => he g.1)⟩
  · exact .refl s

/-- What a move of an outcome may do: it changes the pair it is handed. -/
def MovesPair (d : DropId) (k : Kind) (move : State → Job → State) : Prop :=
  ∀ s (j : Job), j.drop = d → j.kind = k → DropPlanned d k s (move s j)

theorem drop_putJob {s : State} {d : DropId} {k : Kind} (j : Job) (hd : j.drop = d) (hk : j.kind = k) :
    DropPlanned d k s (s.putJob j) := (pair_putJob j hd hk).ofDrop

theorem moves_resume (d : DropId) (k : Kind) : MovesPair d k State.resume := by
  rintro s j rfl rfl
  unfold State.resume
  split
  · exact (drop_moveCursor _ _ _ _).trans (drop_putJob _ rfl rfl)
  · exact drop_putJob _ rfl rfl

theorem moves_reopen (d : DropId) (k : Kind) : MovesPair d k State.reopen := fun _ _ hd hk => drop_putJob _ hd hk

theorem moves_resend (d : DropId) (k : Kind) : MovesPair d k State.resend := by
  rintro s j rfl rfl
  exact (drop_moveCursor _ _ _ _).trans (drop_putJob _ rfl rfl)

theorem moves_restage (d : DropId) (k : Kind) : MovesPair d k State.restage := by
  intro s j hd hk
  have e : ∀ i : Job, i.drop = d → i.kind = k → DropPlanned d k s ((s.putJob i).settleJob i) := fun i hd hk =>
    ((pair_putJob i hd hk).trans (pair_settleJob i hd hk)).ofDrop
  exact e _ hd hk

theorem moves_stepBack (d : DropId) (k : Kind) (n : Nat) : MovesPair d k (fun s j => s.stepBack j n) := by
  rintro s j rfl rfl
  dsimp only
  unfold State.stepBack
  split
  · exact (drop_moveCursor _ _ _ _).trans (drop_putJob _ rfl rfl)
  · exact drop_putJob _ rfl rfl

theorem drop_countRetry {s : State} {d : DropId} {k : Kind} (j : Job) (c : Cause) (move : State → Job → State)
    (hd : j.drop = d) (hk : j.kind = k) (h : MovesPair d k move) : DropPlanned d k s (s.countRetry j c move) := by
  unfold State.countRetry
  dsimp only
  have h0 : DropPlanned d k s (s.setPlanner { s.planner with retries := bump s.planner.retries 1 }) :=
    (pair_setPlanner s d k { s.planner with retries := bump s.planner.retries 1 } rfl rfl).ofDrop
  split
  · exact h0.trans (pair_failJob _ _ (by exact hd) (by exact hk)).ofDrop
  · exact h0.trans (h _ _ hd hk)

theorem drop_takeBadSequence {s : State} {d : DropId} {k : Kind} (j : Job) (hd : j.drop = d) (hk : j.kind = k) :
    DropPlanned d k s (s.takeBadSequence j) := by
  unfold State.takeBadSequence
  split
  · exact drop_countRetry _ _ _ hd hk (moves_resume d k)
  · exact drop_countRetry _ _ _ hd hk (moves_reopen d k)

theorem drop_takeNak {s : State} {d : DropId} {k : Kind} (j : Job) (r : NakReason) (hd : j.drop = d) (hk : j.kind = k) :
    DropPlanned d k s (s.takeNak j r) := by
  unfold State.takeNak
  split
  · exact (pair_failJob _ _ hd hk).ofDrop
  · exact drop_takeBadSequence _ hd hk
  · split
    · exact drop_countRetry _ _ _ hd hk (moves_resend d k)
    · exact drop_countRetry _ _ _ hd hk (moves_resume d k)
  · split
    · exact drop_countRetry _ _ _ hd hk (moves_restage d k)
    · exact drop_countRetry _ _ _ hd hk (moves_resume d k)
  · exact drop_countRetry _ _ _ hd hk (moves_resume d k)

theorem pair_endStep {s : State} {d : DropId} {k : Kind} (j : Job) (hd : j.drop = d) (hk : j.kind = k) :
    PairPlanned d k s (s.endStep j) := by
  unfold State.endStep
  rw [hd, hk]
  exact (pair_putJob (s := s) (s.markLevel (s.markUrgent (j.takeWhole (j.plan.drop 1) j.target))) hd hk).trans
    (pair_leaveMark _ _ _)

theorem drop_takeOutcome {s : State} {d : DropId} {k : Kind} (j : Job) (o : PushOutcome) (hd : j.drop = d) (hk : j.kind = k) :
    DropPlanned d k s (s.takeOutcome j o) := by
  unfold State.takeOutcome
  split
  · split
    · unfold State.takeOpened
      split
      · exact drop_putJob _ hd hk
      · split
        · exact drop_putJob _ hd hk
        · exact drop_takeBadSequence _ hd hk
    · subst hd hk; exact (drop_moveCursor _ _ _ _).trans (drop_putJob _ rfl rfl)
    · unfold State.takeClosed
      have e := (pair_endStep (s := s) { j with retry := 0, lastCause := none } hd hk).ofDrop
      dsimp only
      split
      · exact e
      · subst hd hk; exact e.trans (pair_planPair _ _ _).ofDrop
    · unfold State.takeActivated
      subst hd hk
      refine (pair_endStep (s := s) _ ?_ ?_).ofDrop.trans (pair_planPair _ _ _).ofDrop
      · split <;> rfl
      · split <;> rfl
  · exact drop_takeNak _ _ hd hk
  · exact drop_countRetry _ _ _ hd hk (moves_resume d k)
  · exact drop_takeBadSequence _ hd hk
  · exact drop_countRetry _ _ _ hd hk (moves_stepBack d k _)
  · exact .refl s

theorem drop_handOutcome (s : State) (d : DropId) (k : Kind) (b : Bool) (o : PushOutcome) :
    DropPlanned d k s (s.handOutcome d k b o) := by
  unfold State.handOutcome
  split
  next j h =>
    obtain ⟨hd, hk, -⟩ := job?_drop h
    split
    · exact .refl s
    · exact drop_takeOutcome j o hd hk
  · exact .refl s

theorem drop_takeReplan (s : State) (d : DropId) (k : Kind) : DropPlanned d k s (s.takeReplan d k) := by
  unfold State.takeReplan
  split
  next j h =>
    obtain ⟨hd, hk, -⟩ := job?_drop h
    split
    · exact (drop_putJob _ (by exact hd) (by exact hk)).trans (pair_planPair _ _ _).ofDrop
    · exact .refl s
  · exact .refl s

theorem drop_rejudge (s : State) (d : DropId) (k : Kind) : DropPlanned d k s (s.rejudge d k) := by
  unfold State.rejudge
  split
  next j h =>
    obtain ⟨hd, hk, -⟩ := job?_drop h
    exact drop_putJob _ ((judgeJob_drop _ _).1.trans hd) ((judgeJob_drop _ _).2.trans hk)
  · exact .refl s

theorem drop_pushEnded (s : State) (d : DropId) (k : Kind) (b : Bool) (o : PushOutcome) :
    DropPlanned d k s (s.pushEnded d k b o) :=
  ((drop_handOutcome _ _ _ _ _).trans (drop_takeReplan _ _ _)).trans (drop_rejudge _ _ _)

theorem rejudge_job? (s : State) (d : DropId) (k : Kind) : (s.rejudge d k).job? d k = (s.job? d k).map s.judgeJob := by
  unfold State.rejudge
  cases h : s.job? d k with
  | none => exact h
  | some j =>
    obtain ⟨hd, hk, -⟩ := job?_drop h
    exact job?_putJob h ((judgeJob_drop _ _).1.trans hd) ((judgeJob_drop _ _).2.trans hk)

/-- The job of a pair after its push exchange has ended (R97, R104, R112, R129). -/
theorem pushEnded_job? (v : State) (d : DropId) (k : Kind) (b : Bool) (o : PushOutcome) (j : Job) (h : v.job? d k = some j)
    (hx : v.trunk.ex = none) : (v.pushEnded d k b o).job? d k = v.jobAfter j b o := by
  obtain ⟨rfl, rfl, -⟩ := job?_drop h
  have hh : v.handOutcome j.drop j.kind b o = if b then v else v.takeOutcome j o := by
    unfold State.handOutcome; rw [h]
  unfold State.pushEnded State.jobAfter
  rw [rejudge_job?, hh]
  have hub : SameHub v (State.takeReplan (if b then v else v.takeOutcome j o) j.drop j.kind) := by
    rw [← hh]; exact ((drop_handOutcome v j.drop j.kind b o).trans (drop_takeReplan _ _ _)).hub
  generalize (if b then v else v.takeOutcome j o) = w at hub
  have hj : State.judgeJob (w.takeReplan j.drop j.kind) = Job.judge v.floor := by
    funext i
    unfold State.judgeJob State.inFlight
    rw [hub.ex, hx, hub.floor]; rfl
  rw [hj]
  congr 1
  unfold State.takeReplan
  cases hw : w.job? j.drop j.kind with
  | none => exact hw
  | some i =>
    dsimp only
    split
    · rfl
    · exact hw

/-! ### What the arbiter forms (R138) -/

theorem begin_over (s : State) (kind drop frame bs be) : ExchangeOver (s.beginExchange kind drop frame bs be) := by
  intro y hy
  obtain rfl := Option.some.inj hy
  exact ⟨rfl, rfl, rfl, rfl, rfl, rfl⟩

theorem over_of_none {s : State} (h : s.trunk.ex = none) : ExchangeOver s := fun y hy => by rw [h] at hy; cases hy

theorem over_congr {s t : State} (h : ExchangeOver s) (he : t.trunk.ex = s.trunk.ex) (ht : t.timebase = s.timebase)
    (hs : t.settings = s.settings) : ExchangeOver t := fun y hy => by
  rw [he] at hy; rw [ht, hs]; exact h y hy

theorem formPoll_over (s : State) (k d) : ExchangeOver (s.formPoll k d) := begin_over _ _ _ _ _ _
theorem formPush_over (s : State) (j f a b) : ExchangeOver (s.formPush j f a b) := begin_over _ _ _ _ _ _

theorem over_pair {d : DropId} {k : Kind} {s t : State} (h : PairPlanned d k s t) (hx : s.trunk.ex = none) : ExchangeOver t :=
  over_of_none (by rw [h.trunk]; exact hx)

theorem openFull_over (s : State) (j : Job) (hx : s.trunk.ex = none) : ExchangeOver (s.openFull j) := by
  unfold State.openFull
  split
  · exact over_of_none hx
  · dsimp only
    split
    · exact formPush_over _ _ _ _ _
    · refine over_pair (s := (State.releaseMark _ j.drop).putJob _) (pair_planPair _ _ _) ?_
      show (State.releaseMark _ j.drop).trunk.ex = none
      rw [releaseMark_eq]
      show (s.placeMark j.drop).trunk.ex = none
      unfold State.placeMark
      rw [releaseMark_eq]; exact hx

theorem openStep_over (s : State) (j : Job) (hx : s.trunk.ex = none) : ExchangeOver (s.openStep j) := by
  unfold State.openStep
  split
  · split
    · exact formPush_over _ _ _ _ _
    · exact over_of_none hx
  · exact openFull_over _ _ hx
  · split
    · exact formPush_over _ _ _ _ _
    · exact over_of_none hx
  all_goals exact over_of_none hx

theorem wake_ex (s : State) (j : Job) : (s.wake j).1.trunk = s.trunk := by
  unfold State.wake
  split
  · split <;> rfl
  · rfl

theorem pushJob_over (s : State) (j : Job) (hx : s.trunk.ex = none) : ExchangeOver (s.pushJob j) := by
  unfold State.pushJob
  dsimp only
  have hw : (s.wake j).1.trunk.ex = none := by rw [wake_ex]; exact hx
  split
  · exact openStep_over _ _ hw
  · unfold State.sendBurst
    dsimp only
    split
    · exact formPush_over _ _ _ _ _
    · exact over_of_none hw
  · split
    · exact formPush_over _ _ _ _ _
    · exact over_of_none hw
  · exact formPush_over _ _ _ _ _

theorem tryJob_over (s : State) (d : DropId) (k : Kind) (h : ExchangeOver s) : ExchangeOver (s.tryJob d k) := by
  unfold State.tryJob
  split
  · exact h
  next hx =>
    have hx' : s.trunk.ex = none := by simpa using hx
    split
    · split
      · exact pushJob_over _ _ hx'
      · exact h
    · exact h

theorem pushChoice_over (s : State) (h : ExchangeOver s) : ExchangeOver s.pushChoice := by
  unfold State.pushChoice
  generalize s.candidates = l
  induction l generalizing s with
  | nil => exact h
  | cons j l ih => exact ih _ (tryJob_over _ _ _ h)

theorem takeTurn_over (s : State) (h : ExchangeOver s) : ExchangeOver s.takeTurn := by
  unfold State.takeTurn
  split
  · exact h
  · split
    · exact over_congr h rfl rfl rfl
    · exact formPoll_over _ _ _

theorem startRound_over (s : State) (h : ExchangeOver s) : ExchangeOver s.startRound := by
  unfold State.startRound State.startPause
  split
  · split <;> exact over_congr h rfl rfl rfl
  · exact over_congr h rfl rfl rfl

/-- With no exchange in flight the arbiter's decision leaves none, or a new one. -/
theorem arbitrate_over (s : State) (hx : s.trunk.ex = none) : ExchangeOver s.arbitrate := by
  have h := over_of_none hx
  unfold State.arbitrate
  rw [if_neg (by rw [hx]; simp)]
  split
  · exact begin_over _ _ _ _ _ _
  · split
    · exact formPoll_over _ _ _
    · have hr : ExchangeOver s.roundStep := by
        unfold State.roundStep
        dsimp only
        split
        · exact takeTurn_over _ (startRound_over _ (takeTurn_over _ h))
        · exact takeTurn_over _ h
      dsimp only
      split
      · exact hr
      · unfold State.pushStep
        dsimp only
        split
        · exact takeTurn_over _ (startRound_over _ (pushChoice_over _ hr))
        · exact pushChoice_over _ hr

theorem conclude_over (s : State) (hx : s.trunk.ex = none) : ExchangeOver s.conclude := by
  unfold State.conclude
  rw [(uplink_port _).1]
  exact over_congr (arbitrate_over s hx) rfl rfl rfl

/-! ### The end of an exchange (R129) -/

theorem loseDrop_trunk (s : State) (d : DropId) : (s.loseDrop d).trunk = s.trunk := by
  unfold State.loseDrop State.forgetDrop
  show (State.releaseMark _ d).trunk = _
  rw [releaseMark_eq]
  show (State.removeJob _ d .block).trunk = _
  rw [(pair_removeJob _ _ _).trunk, (pair_removeJob _ _ _).trunk]; rfl

theorem joinDrop_trunk (s : State) (d : DropId) : (s.joinDrop d).trunk = s.trunk := by
  unfold State.joinDrop State.planBoth
  dsimp only
  rw [(pair_planPair _ _ _).trunk, (pair_planPair _ _ _).trunk]; rfl

theorem goodEvent_trunk (s : State) (d : DropId) : (s.goodEvent d).trunk = s.trunk := by
  unfold State.goodEvent State.presenceGood
  split
  · rfl
  · split <;> first | rfl | exact joinDrop_trunk _ _

theorem missEvent_trunk (s : State) (d : DropId) : (s.missEvent d).trunk = s.trunk := by
  unfold State.missEvent State.presenceMiss
  split
  · rfl
  · split <;> try split
    all_goals first | rfl | exact loseDrop_trunk _ _

theorem forgetDrop_trunk (s : State) (d : DropId) : (s.forgetDrop d).trunk = s.trunk := by
  unfold State.forgetDrop
  show (State.releaseMark _ d).trunk = _
  rw [releaseMark_eq]
  show (State.removeJob _ d .block).trunk = _
  rw [(pair_removeJob _ _ _).trunk, (pair_removeJob _ _ _).trunk]

theorem settleStopping_trunk (s : State) (d : DropId) : (s.settleStopping d).trunk = s.trunk := by
  unfold State.settleStopping State.disableDrop
  split
  · exact forgetDrop_trunk s d
  · rfl

theorem judgeReady_ex (s : State) : s.judgeReady.trunk.ex = s.trunk.ex := by
  have f : ∀ p b, (s.foundReady p b).trunk.ex = s.trunk.ex := by
    intro p b; unfold State.foundReady; dsimp only; split <;> rfl
  unfold State.judgeReady; split
  · split
    · exact f _ _
    · split
      · exact f _ _
      · rfl
  · rfl

/-- A presence event that may end an exchange: it leaves the trunk and, where the drop stays PRESENT or FADING, the queue as it is.
-/
structure PresenceEvent (d : DropId) (event : State → State) : Prop where
  trunk : ∀ s, (event s).trunk = s.trunk
  stopping : ∀ s, ((event s).drop d).stopping = (s.drop d).stopping
  planner : ∀ s, ((s.drop d).presence = .present ∨ ((s.drop d).presence = .fading ∧ (s.drop d).run < 3)) →
    (event s).planner = s.planner ∧ (event s).table = s.table
  joined : ∀ s, (s.drop d).presence = .joining → ((event s).drop d).presence = .present → event s = s.joinDrop d
  unjudged : ∀ s, Unjudged s (event s)

theorem good_event (d : DropId) : PresenceEvent d (fun s => s.goodEvent d) where
  trunk := fun s => goodEvent_trunk s d
  stopping := fun s => by
    show ((s.goodEvent d).drop d).stopping = _
    by_cases h : (s.drop d).stopping = true
    · unfold State.goodEvent; rw [if_pos h]
    · have h' : (s.drop d).stopping = false := by simpa using h
      have e : s.goodEvent d = s.presenceGood d := by unfold State.goodEvent; rw [if_neg h]
      rw [e, stopping_of_bare (presenceGood_drop s d h'), h']
      simp [goodRecord, h']
  planner := fun s h => by
    show (s.goodEvent d).planner = _ ∧ (s.goodEvent d).table = _
    unfold State.goodEvent State.presenceGood
    split
    · exact ⟨rfl, rfl⟩
    · rcases h with h | ⟨h, -⟩ <;> rw [h] <;> exact ⟨rfl, rfl⟩
  joined := fun s h g => by
    show s.goodEvent d = _
    replace g : ((s.goodEvent d).drop d).presence = .present := g
    unfold State.goodEvent State.presenceGood at g ⊢
    split
    next hs => rw [if_pos hs, h] at g; exact absurd g (by simp)
    · rw [h]
  unjudged := fun s => unjudged_goodEvent s d

theorem miss_event (d : DropId) : PresenceEvent d (fun s => s.missEvent d) where
  trunk := fun s => missEvent_trunk s d
  stopping := fun s => by
    show ((s.missEvent d).drop d).stopping = _
    by_cases h : (s.drop d).stopping = true
    · unfold State.missEvent; rw [if_pos h]
    · have h' : (s.drop d).stopping = false := by simpa using h
      have e : s.missEvent d = s.presenceMiss d := by unfold State.missEvent; rw [if_neg h]
      rw [e, stopping_of_bare (presenceMiss_drop s d h'), h']
      simp [missRecord, h']
  planner := fun s h => by
    show (s.missEvent d).planner = _ ∧ (s.missEvent d).table = _
    unfold State.missEvent State.presenceMiss
    split
    · exact ⟨rfl, rfl⟩
    · rcases h with h | ⟨h, hr⟩
      · rw [h]; exact ⟨rfl, rfl⟩
      · rw [h]; dsimp only; rw [if_neg (by omega)]; exact ⟨rfl, rfl⟩
  joined := fun s h g => by
    by_cases hs : (s.drop d).stopping = true
    · have e : s.missEvent d = s := by unfold State.missEvent; rw [if_pos hs]
      replace g : ((s.missEvent d).drop d).presence = .present := g
      rw [e, h] at g; exact absurd g (by simp)
    · have hs' : (s.drop d).stopping = false := by simpa using hs
      have e : s.missEvent d = s.presenceMiss d := by unfold State.missEvent; rw [if_neg hs]
      replace g : ((s.missEvent d).drop d).presence = .present := g
      have p := congrArg (fun y : Drop => y.presence) (presenceMiss_drop s d hs')
      rw [e, show ((s.presenceMiss d).drop d).presence = (missRecord (s.drop d)).presence from p] at g
      simp [missRecord, hs', h, missMove] at g
  unjudged := fun s => unjudged_missEvent s d

theorem no_event (d : DropId) : PresenceEvent d id := ⟨fun _ => rfl, fun _ => rfl, fun _ _ => ⟨rfl, rfl⟩, fun s h g => by
  replace g : (s.drop d).presence = .present := g
  rw [h] at g; exact absurd g (by simp), .refl⟩

theorem clearExchange_ex (s : State) (x : Exchange) : (s.clearExchange x).trunk.ex = none := by
  unfold State.clearExchange; dsimp only; split <;> rfl

theorem handed_ex (s : State) (x : Exchange) (d : DropId) (o : PushOutcome) : (s.handed x d o).trunk = s.trunk := by
  unfold State.handed
  split
  · exact (drop_pushEnded _ _ _ _ _).trunk
  all_goals rfl

theorem rejudge_table (s : State) (d : DropId) (k : Kind) : (s.rejudge d k).table = s.table := by
  unfold State.rejudge; split <;> rfl

/-- The read mark after a push exchange is the one that its outcome leaves, when no re-plan waits. -/
theorem pushEnded_mark (v : State) (d : DropId) (k : Kind) (b : Bool) (o : PushOutcome) (j : Job) (h : v.job? d k = some j)
    (hr : ∀ i, (if b then v else v.takeOutcome j o).job? d k = some i → i.replan = false) :
    (v.pushEnded d k b o).mark d = (if b then v else v.takeOutcome j o).mark d := by
  unfold State.pushEnded
  show (State.rejudge _ d k).table.marks.get d = _
  rw [rejudge_table]
  have e : v.handOutcome d k b o = if b then v else v.takeOutcome j o := by unfold State.handOutcome; rw [h]
  rw [e]
  unfold State.takeReplan
  split
  · next i hi => rw [hr i hi]; rfl
  · rfl

theorem unjudged_handed (s : State) (x : Exchange) (d : DropId) (o : PushOutcome) : Unjudged s (s.handed x d o) := by
  unfold State.handed
  split
  · have h := drop_pushEnded s d ‹Kind› x.detached o
    exact ⟨h.cat, h.decided.change, h.decided.settings, h.decided.timebase, Port.core_of_bare h.decided.port⟩
  all_goals exact .refl s

theorem judgeReady_table (s : State) : s.judgeReady.table = s.table := by
  have : ∀ (w : State) p b, (w.foundReady p b).table = w.table := by
    intro w p b; unfold State.foundReady; dsimp only; split <;> rfl
  unfold State.judgeReady
  split
  · split
    · exact this _ _ _
    · split
      · exact this _ _ _
      · rfl
  · rfl

/-- A drop that joins: its flag, and both its pairs planned (R80). -/
theorem joinDrop_spec (s : State) (d : DropId) :
    (s.joinDrop d).port.flags.dropJoined =
        some (s.port.flags.dropJoined.getD { edition := 0, code := none, drop := some d, minute := s.stamp }) ∧
      ∀ k, (s.joinDrop d).job? d k =
        ((s.setDrop d { s.drop d with presence := .present, run := 0 }).planPair d k).job? d k := by
  unfold State.joinDrop
  dsimp only
  generalize hw : ((s.setPresence d .present 0).countDrop d (fun c => { c with joins := bump c.joins 1 })) = w
  constructor
  · have e := Port.flags_of_bare (planBoth_decided (w.raiseDrop .dropJoined d) d).port .dropJoined (by simp) (by simp)
    have r := raise_sets s.port s.settings.enables .dropJoined { edition := 0, code := none, drop := some d, minute := s.stamp }
    refine Eq.trans (show _ = (w.raiseDrop .dropJoined d).port.flags.dropJoined from e) ?_
    rw [← hw]
    exact r
  · intro k
    rw [planBoth_job?]
    apply SamePair.planPair
    refine ⟨⟨?_, ?_, ?_, ?_, ?_, ?_⟩, ?_, ?_, ?_⟩
    all_goals rw [← hw]
    all_goals try rfl
    · have := congrArg Port.mode (Port.raise_core s.port s.settings.enables .dropJoined { edition := 0, code := none, drop := some d, minute := s.stamp })
      exact this
    · have := congrArg Port.door (Port.raise_core s.port s.settings.enables .dropJoined { edition := 0, code := none, drop := some d, minute := s.stamp })
      exact this
    · have hd : ∀ w : State, (w.raiseDrop .dropJoined d).drop d = w.drop d := fun _ => rfl
      rw [hd]
      unfold State.countDrop State.setPresence
      rw [State.drop_setDrop, if_pos rfl, State.drop_setDrop, if_pos rfl]
      rfl

/-- An exchange with a drop ends. -/
theorem endExchange_ends (s : State) (x : Exchange) (d : DropId) (o : PushOutcome) (event : State → State)
    (he : PresenceEvent d event) :
    ExchangeEnds x d o (s.setTrunk { s.trunk with ex := none }) (s.endExchange x d o event) := by
  rw [endExchange_eq]
  have hbare : (((s.clearExchange x).handed x d o).drop d).bare = (s.drop d).bare := (beforeEvent s x d o).2
  have hst : (((s.clearExchange x).handed x d o).drop d).stopping = (s.drop d).stopping := stopping_of_bare hbare
  have hex : ((s.clearExchange x).handed x d o).trunk.ex = none := by rw [handed_ex]; exact clearExchange_ex s x
  have hu : (((event ((s.clearExchange x).handed x d o)).settleStopping d).judgeReady).trunk.ex = none := by
    rw [judgeReady_ex, settleStopping_trunk, he.trunk]; exact hex
  have hun : Unjudged (s.setTrunk { s.trunk with ex := none })
      ((event ((s.clearExchange x).handed x d o)).settleStopping d) := by
    have h := (((unjudged_clearExchange s x).trans (unjudged_handed _ x d o)).trans (he.unjudged _)).trans
      (unjudged_settleStopping _ d)
    exact ⟨h.cat, h.change, h.settings, h.timebase, h.port⟩
  refine ⟨conclude_over _ hu, ⟨_, hu, rfl, ?_⟩, ?_, judged_conclude _ _ hun, judged_freed _ _ hun, ?_⟩
  · intro k j hk hj hs hp
    have hv : s.clearExchange x = s.setTrunk { s.trunk with ex := none } := by
      unfold State.clearExchange; rw [hk]; rfl
    have hp' : ((((s.clearExchange x).handed x d o).drop d).presence = .present ∨
        ((((s.clearExchange x).handed x d o).drop d).presence = .fading ∧
          (((s.clearExchange x).handed x d o).drop d).run < 3)) := by
      have h1 := congrArg (fun y : Drop => y.presence) hbare
      have h2 := congrArg (fun y : Drop => y.run) hbare
      rw [show (((s.clearExchange x).handed x d o).drop d).presence = (s.drop d).presence from h1,
        show (((s.clearExchange x).handed x d o).drop d).run = (s.drop d).run from h2]
      exact hp
    have hplan : (((event ((s.clearExchange x).handed x d o)).settleStopping d).judgeReady).planner =
        ((s.clearExchange x).handed x d o).planner := by
      rw [judgeReady_jobs]
      unfold State.settleStopping
      rw [he.stopping, hst]
      have hs' : (s.drop d).stopping = false := hs
      rw [hs', if_neg (by simp)]
      exact (he.planner _ hp').1
    have htable : (((event ((s.clearExchange x).handed x d o)).settleStopping d).judgeReady).table =
        ((s.clearExchange x).handed x d o).table := by
      rw [judgeReady_table]
      unfold State.settleStopping
      rw [he.stopping, hst]
      have hs' : (s.drop d).stopping = false := hs
      rw [hs', if_neg (by simp)]
      exact (he.planner _ hp').2
    rw [job?_of_jobs (congrArg Planner.jobs hplan), hv]
    have hh : (s.setTrunk { s.trunk with ex := none }).handed x d o =
        (s.setTrunk { s.trunk with ex := none }).pushEnded d k x.detached o := by
      unfold State.handed; rw [hk]
    rw [hh]
    refine ⟨pushEnded_job? _ d k _ o j hj rfl, fun hr => ?_⟩
    rw [hv, hh] at htable
    refine Eq.trans ?_ (pushEnded_mark _ d k _ o j hj hr)
    unfold State.mark
    rw [htable]
  · intro hj hp
    generalize hb : (s.clearExchange x).handed x d o = b at *
    have hbj : (b.drop d).presence = .joining := by
      have := congrArg (fun y : Drop => y.presence) hbare
      exact Eq.trans (show (b.drop d).presence = (s.drop d).presence from this) hj
    have D := ((judgeReady_moved ((event b).settleStopping d)).trans (conclude_decided _).moved)
    have hp' : (((event b).settleStopping d).drop d).presence = .present := by
      have := congrArg (fun y : Drop => y.presence) (D.drops d)
      exact (show (((event b).settleStopping d).judgeReady.conclude.drop d).presence = _ from this).symm.trans hp
    have hns : ((event b).drop d).stopping = false := by
      by_contra g
      rw [Bool.not_eq_false] at g
      have e := settleStopping_drop (event b) d
      rw [if_pos g] at e
      have e := congrArg (fun y : Drop => y.presence) e
      exact absurd (hp'.symm.trans (show (((event b).settleStopping d).drop d).presence = .disabled from e)) (by simp)
    have hset : (event b).settleStopping d = event b := by
      unfold State.settleStopping; rw [if_neg (by rw [hns]; simp)]
    rw [hset] at hp' D
    have hje := he.joined b hbj hp'
    obtain ⟨J1, J2⟩ := joinDrop_spec b d
    have Db : Decided (s.clearExchange x) b := hb ▸ handed_decided _ _ _ _
    have Dc : (s.clearExchange x).port = s.port ∧ (s.clearExchange x).clock = s.clock := by
      unfold State.clearExchange; dsimp only; split <;> exact ⟨rfl, rfl⟩
    refine ⟨?_, _, hu, rfl, fun k => ?_⟩
    · rw [hset, hje]
      rw [hje] at D
      have e := (D.flags .dropJoined (by simp) (by simp) (by simp)).trans J1
      have f := Port.flags_of_bare Db.port .dropJoined (by simp) (by simp)
      have f' : b.port.flags.dropJoined = s.port.flags.dropJoined := by rw [← Dc.1]; exact f
      have g : b.stamp = s.stamp := by unfold State.stamp; rw [Db.clock, Dc.2]
      rw [f', g] at e
      exact e
    · rw [job?_of_jobs (congrArg Planner.jobs (judgeReady_jobs ((event b).settleStopping d))), hset, hje, J2]
      cases hk : x.kind with
      | push k' =>
        have hv : s.clearExchange x = s.setTrunk { s.trunk with ex := none } := by
          unfold State.clearExchange; rw [hk]; rfl
        have : b = (s.setTrunk { s.trunk with ex := none }).pushEnded d k' x.detached o := by
          rw [← hb, hv]; unfold State.handed; rw [hk]
        rw [this]
      | _ =>
        have hbc : b = s.clearExchange x := by rw [← hb]; unfold State.handed; rw [hk]
        rw [hbc]
        have hce : ∃ tr ro, s.clearExchange x = (s.setTrunk tr).setRoster ro ∧ tr.ex = none ∧ ro.drops = s.roster.drops := by
          unfold State.clearExchange; dsimp only
          split
          · exact ⟨_, _, rfl, rfl, rfl⟩
          · exact ⟨{ s.trunk with ex := none }, s.roster, rfl, rfl, rfl⟩
        obtain ⟨tr, ro, e, e1, e2⟩ := hce
        rw [e]
        refine SamePair.planPair ⟨⟨e1, rfl, rfl, rfl, rfl, rfl⟩, rfl, ?_, rfl⟩
        rw [State.drop_setDrop, if_pos rfl, State.drop_setDrop, if_pos rfl]
        show Drop.planning { ro.drops.get d with presence := _, run := _ } = Drop.planning { s.roster.drops.get d with presence := _, run := _ }
        rw [e2]
  · intro hs
    apply conclude_from
    rw [judgeReady_jobs]
    have : ((event ((s.clearExchange x).handed x d o)).drop d).stopping = true := by rw [he.stopping, hst]; exact hs
    unfold State.settleStopping
    rw [if_pos this]
    exact forgetDrop_clears _ d

/-- The same with the hub from which it ends named by an equation. -/
theorem endExchange_ends_of {s v t : State} {x : Exchange} {d : DropId} {o : PushOutcome} {event : State → State}
    (ht : t = s.endExchange x d o event) (he : PresenceEvent d event) (hv : s.setTrunk { s.trunk with ex := none } = v) :
    ExchangeEnds x d o v t := by
  subst ht hv; exact endExchange_ends s x d o event he

theorem endGood_ends {s v : State} {x : Exchange} {d : DropId} {o : PushOutcome}
    (hv : s.setTrunk { s.trunk with ex := none } = v) : ExchangeEnds x d o v (s.endGood x d o) :=
  endExchange_ends_of rfl (good_event d) hv

end Sys2Proof.Machine
end

