-- ==== Sys2Proof/Laws/Lost.lean ====
section
/-! SUPPORT. A drop that a miss takes to ABSENT (R82): what of it is left at the end of the event. -/

namespace Sys2Proof.Machine

/-- The loss of a drop: its flag, its three marks, its read mark and its jobs. -/
theorem loseDrop_spec (s : State) (d : DropId) :
    (s.loseDrop d).port.flags.dropLost =
        some (s.port.flags.dropLost.getD { edition := 0, code := none, drop := some d, minute := s.stamp }) ∧
      ((s.loseDrop d).drop d).presence = .absent ∧ ((s.loseDrop d).drop d).stopping = (s.drop d).stopping ∧
      ((s.loseDrop d).drop d).fareAhead = false ∧ ((s.loseDrop d).drop d).blockNofit = false ∧
      ((s.loseDrop d).drop d).tapUrgent = false ∧ (s.loseDrop d).mark d = none ∧
      ∀ j ∈ (s.loseDrop d).planner.jobs, j.drop ≠ d := by
  obtain ⟨E, D⟩ := enable_forgetDrop (s.setPresence d .absent 0) d
  have hd : (s.loseDrop d).drop d =
      { (((s.setPresence d .absent 0).forgetDrop d).drop d) with
        counters := { (((s.setPresence d .absent 0).forgetDrop d).drop d).counters with losses := bump (((s.setPresence d .absent 0).forgetDrop d).drop d).counters.losses 1 } } := by
    show (((s.setPresence d .absent 0).forgetDrop d).countDrop d (fun c => { c with losses := bump c.losses 1 })).drop d = _
    rw [countDrop_drop]
  have hs : ((s.setPresence d .absent 0).drop d) = { s.drop d with presence := .absent, run := 0 } := by
    unfold State.setPresence; rw [State.drop_setDrop, if_pos rfl]
  rw [D, hs] at hd
  refine ⟨?_, by rw [hd], by rw [hd], by rw [hd], by rw [hd], by rw [hd], ?_, (loseDrop_more s d).2⟩
  · have hp : ((s.setPresence d .absent 0).forgetDrop d).port = s.port := E.port
    have hc : ((s.setPresence d .absent 0).forgetDrop d).stamp = s.stamp := by unfold State.stamp; rw [E.clock]; rfl
    have hm : ((s.setPresence d .absent 0).forgetDrop d).settings = s.settings := E.settings
    show (Port.raise ((s.setPresence d .absent 0).forgetDrop d).port ((s.setPresence d .absent 0).forgetDrop d).settings.enables
      .dropLost _).flags.get .dropLost = _
    rw [raise_sets, hp]
    show some (s.port.flags.dropLost.getD { edition := 0, code := none, drop := some d, minute := State.stamp ((s.setPresence d .absent 0).forgetDrop d) }) = _
    rw [hc]
  · show ((((s.setPresence d .absent 0).removeJob d .fare).removeJob d .block).releaseMark d).mark d = none
    rw [releaseMark_mark, if_pos rfl]

/-- The end of an exchange by which its drop is lost. -/
theorem endMiss_lost (s : State) (x : Exchange) (d : DropId) (o : PushOutcome) (g : Bool) (k : Trunk)
    (hs : (s.drop d).stopping = false)
    (hp : (s.drop d).presence = .joining ∨ ((s.drop d).presence = .fading ∧ 3 ≤ (s.drop d).run)) :
    let t := ((s.setTrunk k).countMiss d g).endExchange x d o (fun s => s.missEvent d)
    t.port.flags.dropLost = some (s.port.flags.dropLost.getD { edition := 0, code := none, drop := some d, minute := s.stamp }) ∧
      (∀ j ∈ t.planner.jobs, j.drop ≠ d) ∧ t.mark d = none ∧ (t.drop d).fareAhead = false ∧ (t.drop d).blockNofit = false ∧
      (t.drop d).tapUrgent = false := by
  dsimp only
  rw [endExchange_eq]
  have hb := beforeEvent ((s.setTrunk k).countMiss d g) x d o
  have Db := handed_decided (State.clearExchange ((s.setTrunk k).countMiss d g) x) x d o
  generalize State.handed (State.clearExchange ((s.setTrunk k).countMiss d g) x) x d o = u at hb Db ⊢
  have Dc : (((s.setTrunk k).countMiss d g).clearExchange x).port = s.port ∧
      (((s.setTrunk k).countMiss d g).clearExchange x).clock = s.clock := by
    unfold State.clearExchange; dsimp only; split <;> exact ⟨rfl, rfl⟩
  have hd : (u.drop d).bare = { s.drop d with counters := { (s.drop d).counters with miss := bump (s.drop d).counters.miss 1, garbled := if g then bump (s.drop d).counters.garbled 1 else (s.drop d).counters.garbled } }.bare := by
    rw [hb.2]; unfold State.countMiss; rw [countDrop_drop]; rfl
  have hst : (u.drop d).stopping = (s.drop d).stopping := by have := congrArg (fun x : Drop => x.stopping) hd; exact this
  have hpr : (u.drop d).presence = (s.drop d).presence := by have := congrArg (fun x : Drop => x.presence) hd; exact this
  have hru : (u.drop d).run = (s.drop d).run := by have := congrArg (fun x : Drop => x.run) hd; exact this
  have hlose : u.missEvent d = u.loseDrop d := by
    unfold State.missEvent
    rw [hst, hs]; simp only [Bool.false_eq_true, if_false]
    unfold State.presenceMiss
    rw [hpr, hru]
    rcases hp with h | ⟨h, h3⟩ <;> simp [*]
  obtain ⟨L1, L2, L3, L4, L5, L6, L7, L8⟩ := loseDrop_spec u d
  have hse : (u.loseDrop d).settleStopping d = u.loseDrop d := by
    unfold State.settleStopping; rw [L3, hst, hs]; simp
  rw [hlose, hse]
  have M := (judgeReady_moved (u.loseDrop d)).trans (conclude_decided _).moved
  have hj : (u.loseDrop d).judgeReady.drop d = (u.loseDrop d).drop d := by unfold State.drop; rw [(change_judgeReady _).roster]
  have hr := still_conclude (u.loseDrop d).judgeReady d (.inr (by rw [hj]; exact L2)) (by rw [hj]; exact L6)
  rw [hj] at hr
  refine ⟨?_, conclude_from d _ (JobsFrom.of_eq (s := u.loseDrop d) (by rw [judgeReady_jobs]) L8), ?_, by rw [hr]; exact L4,
    by rw [hr]; exact L5, by rw [hr]; exact L6⟩
  · have e := (M.flags .dropLost (by simp) (by simp) (by simp)).trans L1
    have f := Port.flags_of_bare Db.port .dropLost (by simp) (by simp)
    have f' : u.port.flags.dropLost = s.port.flags.dropLost := by rw [← Dc.1]; exact f
    have g : u.stamp = s.stamp := by unfold State.stamp; rw [Db.clock, Dc.2]
    rw [f', g] at e
    exact e
  · cases hm : ((u.loseDrop d).judgeReady.conclude).mark d with
    | none => rfl
    | some m =>
      exfalso
      rcases conclude_mark _ d m hm with ⟨-, h⟩ | ⟨m', h, -⟩
      · rw [hj, L2] at h; cases h
      · unfold State.mark at h L7; rw [judgeReady_table] at h; rw [L7] at h; cases h

end Sys2Proof.Machine
end

