-- ==== Sys2Proof/Laws/Messages.lean ====
section
/-! SUPPORT. The small lemmas of the message codec: reading a field back from the bytes written for it, and how many bytes each
part takes. -/

namespace Sys2Proof

@[simp] theorem leBytes_length (w n : Nat) : (leBytes w n).length = w := by
  induction w generalizing n with
  | zero => rfl
  | succ w ih => simp [leBytes, ih]

@[simp] theorem le_length {v : Nat} (w : Nat) (x : BitVec v) : (le w x).length = w := leBytes_length w x.toNat

/-- The bytes of a number give the number back, as far as they reach. -/
theorem leNat_leBytes (w n : Nat) : leNat (leBytes w n) = n % 256 ^ w := by
  induction w generalizing n with
  | zero => simp [leBytes, leNat, Nat.mod_one]
  | succ w ih => simp [leBytes, leNat, ih, Nat.pow_succ', Nat.mod_mul]

@[simp] theorem readLe_append (w n : Nat) (r : List Byte) : readLe w (leBytes w n ++ r) = (n % 256 ^ w, r) := by
  simp [readLe, leNat_leBytes]

@[simp] theorem read8_le (x : Byte) (r : List Byte) : read8 (le 1 x ++ r) = (x, r) := by
  simp [read8, le, Nat.mod_eq_of_lt x.isLt]

@[simp] theorem read16_le (x : BitVec 16) (r : List Byte) : read16 (le 2 x ++ r) = (x, r) := by
  simp [read16, le, Nat.mod_eq_of_lt x.isLt]

@[simp] theorem read32_le (x : BitVec 32) (r : List Byte) : read32 (le 4 x ++ r) = (x, r) := by
  simp [read32, le, Nat.mod_eq_of_lt x.isLt]

@[simp] theorem read8_cons (x : Byte) (r : List Byte) : read8 (x :: r) = (x, r) := by
  simpa [le, leBytes] using read8_le x r

@[simp] theorem readClass_write (c : RawClass) (r : List Byte) : readClass (writeClass c r) = (c, r) := by
  simp [readClass, writeClass]

@[simp] theorem readMapEntry_write (e : RawMapEntry) (r : List Byte) : readMapEntry (writeMapEntry e r) = (e, r) := by
  simp [readMapEntry, writeMapEntry]

@[simp] theorem readClasses_write (p : Per4 RawClass) (r : List Byte) : readClasses (writeClasses p r) = (p, r) := by
  simp [readClasses, writeClasses]

@[simp] theorem readMap_write (p : Per8 RawMapEntry) (r : List Byte) : readMap (writeMap p r) = (p, r) := by
  simp [readMap, writeMap]

/-- The configuration record read back from the bytes written for it (11, section 11.1.3). -/
theorem readConfig_write (c : RawConfig) : readConfig (writeConfig c) = c := by
  simp [readConfig, writeConfig, writeConfigTail]

@[simp] theorem writeClass_length (c : RawClass) (r : List Byte) : (writeClass c r).length = 20 + r.length := by
  simp [writeClass]
  omega

@[simp] theorem writeMapEntry_length (e : RawMapEntry) (r : List Byte) : (writeMapEntry e r).length = 2 + r.length := by
  simp [writeMapEntry]
  omega

@[simp] theorem writeConfig_length (c : RawConfig) : (writeConfig c).length = 136 := by
  simp [writeConfig, writeConfigTail, writeClasses, writeMap]

/-- The body of LOAD_OPEN read back from the bytes written for it (11, section 11.1.1). -/
theorem readOpen_write (b : OpenBody) : readOpen (writeOpen b) = b := by
  have h := read32_le b.minute []
  simp only [List.append_nil] at h
  simp [readOpen, writeOpen, h]

@[simp] theorem writeOpen_length (b : OpenBody) : (writeOpen b).length = 20 := by simp [writeOpen]

/-- A whole message of a kind whose body has the kind's length decodes to that body, whatever padding follows (R175). -/
theorem decodeMessage_write (src : MacAddr) (kind : Byte) (tag : Tag) (body padding : List Byte) (n : Nat)
    (h : bodyLength kind = some n) (g : body.length = n) (small : n < 65536) :
    decodeMessage src (writeMessage kind tag body ++ padding) = .ok (readBody { src, tag } kind body) := by
  subst g
  have e : read16 (leBytes 2 body.length ++ (body ++ padding)) = (BitVec.ofNat 16 body.length, body ++ padding) := by
    simp [read16, Nat.mod_eq_of_lt small]
  have len : ¬(writeMessage kind tag body ++ padding).length < 5 := by
    simp [writeMessage]
    omega
  simp only [decodeMessage, if_neg len]
  simp [writeMessage, List.append_assoc, e, h, Nat.mod_eq_of_lt small]

end Sys2Proof
end

