-- ==== Sys2Proof/Laws/Reports.lean ====
section
/-! SUPPORT. The six reports as their layouts give them (R181; 11, section 11.1.5). -/

namespace Sys2Proof.Machine

theorem leBytes_one (n : Nat) : leBytes 1 n = [byteOf n] := rfl

theorem byteOf_toNat (b : Byte) : byteOf b.toNat = b := by simp [byteOf]

theorem mark8_eq (b : Bool) : mark8 b = byteOf (bitOf b) := by cases b <;> rfl

/-- The bytes of layouts put end to end. -/
theorem Layout.bytes_append (a b : Layout) : Layout.bytes (a ++ b) = a.bytes ++ b.bytes := List.flatMap_append ..

theorem Layout.bytes_cons (o : Nat) (x : List Byte) (l : Layout) : Layout.bytes ((o, x) :: l) = x ++ l.bytes := rfl

theorem Layout.bytes_nil : Layout.bytes [] = [] := rfl

/-- The end of a layout that begins at an offset. -/
theorem Layout.gapless_append (off : Nat) (a b : Layout) :
    Layout.Gapless off (a ++ b) ↔ a.Gapless off ∧ b.Gapless (off + a.bytes.length) := by
  induction a generalizing off with
  | nil => simp [Layout.Gapless, Layout.bytes]
  | cons f fs ih =>
    rw [List.cons_append]
    show (f.1 = off ∧ Layout.Gapless _ (fs ++ b)) ↔ (f.1 = off ∧ Layout.Gapless _ fs) ∧ _
    rw [ih, and_assoc, Layout.bytes_cons f.1 f.2 fs, List.length_append, Nat.add_assoc]

theorem bytes_contextAt (off : Nat) (c : Option Ctx) : (contextAt off c).bytes = ctxBytes c := by
  cases c with
  | none => rfl
  | some c =>
    simp only [contextAt, Option.getD_some, Layout.bytes_cons, Layout.bytes_nil, ctxBytes, leBytes_one, List.append_nil,
      List.cons_append, List.nil_append, List.append_assoc]
    rcases c with ⟨e, code, drop, m⟩
    cases code <;> cases drop <;> simp [dropNumber, addrOf, byteOf]

theorem bytes_intakeAt (off : Nat) (l : Option Load) : (intakeAt off l).bytes = loadBytes l := by
  cases l with
  | none => rfl
  | some l =>
    have hr : l.received = l.segments.countP (fun x => x.isSome) := by rw [List.countP_eq_length_filter]; rfl
    simp only [intakeAt, Layout.bytes_cons, Layout.bytes_nil, loadBytes, leBytes_one, List.append_nil, List.cons_append,
      List.nil_append, hr, List.append_assoc]
    cases l.stage <;> cases l.form <;> rfl

/-- The low bytes of a number are those of its rest at that width. -/
theorem leBytes_mod (w n : Nat) : leBytes w (n % 2 ^ (8 * w)) = leBytes w n := by
  induction w generalizing n with
  | zero => rfl
  | succ w ih =>
    have h1 : BitVec.ofNat 8 (n % 2 ^ (8 * (w + 1))) = BitVec.ofNat 8 n := by
      apply BitVec.eq_of_toNat_eq
      rw [BitVec.toNat_ofNat, BitVec.toNat_ofNat]
      exact Nat.mod_mod_of_dvd _ (Nat.pow_dvd_pow 2 (by omega))
    have h2 : n % 2 ^ (8 * (w + 1)) / 256 = n / 256 % 2 ^ (8 * w) := by
      have : (2 : Nat) ^ (8 * (w + 1)) = 256 * 2 ^ (8 * w) := by rw [Nat.mul_add, Nat.pow_add]; omega
      rw [this, Nat.mod_mul_right_div_self]
    show BitVec.ofNat 8 _ :: leBytes w _ = BitVec.ofNat 8 n :: leBytes w (n / 256)
    rw [h1, h2, ih]

theorem leBytes_ofNat (w n : Nat) : leBytes w (BitVec.ofNat (8 * w) n).toNat = leBytes w n := by
  rw [BitVec.toNat_ofNat, leBytes_mod]

theorem bytes_classAt (off : Nat) (c : ClassSettings) (r : List Byte) :
    writeClass c.record r = (classAt off c).bytes ++ r := by
  have four : ∀ n : Nat, leBytes 4 (BitVec.ofNat 32 n).toNat = leBytes 4 n := leBytes_ofNat 4
  simp only [writeClass, le, ClassSettings.record, classAt, Layout.bytes_cons, Layout.bytes_nil, four, mark8_eq,
    List.append_assoc, List.append_nil, byteOf_toNat, leBytes_one]

theorem bytes_mapEntryAt (off : Nat) (e : MapEntry) (r : List Byte) :
    writeMapEntry ⟨mark8 e.enabled, byteOf e.cls.val⟩ r = (mapEntryAt off e).bytes ++ r := by
  simp only [writeMapEntry, le, mapEntryAt, Layout.bytes_cons, Layout.bytes_nil, mark8_eq, List.append_assoc, List.append_nil,
    byteOf_toNat, leBytes_one]

/-- The configuration record in force is written as its layout gives it. -/
theorem bytes_settingsAt (off : Nat) (c : Settings) : writeConfig c.record = (settingsAt off c).bytes := by
  have two : ∀ n : Nat, leBytes 2 (BitVec.ofNat 16 n).toNat = leBytes 2 n := leBytes_ofNat 2
  have zero : ([0] : List Byte) = leBytes 1 (0 : Byte).toNat := rfl
  unfold settingsAt
  simp only [Layout.bytes_append, List.append_assoc]
  unfold writeConfig writeClasses writeMap
  simp only [Settings.record, Per4.map, Per8.map]
  rw [bytes_classAt (off + 12), bytes_classAt (off + 32), bytes_classAt (off + 52), bytes_classAt (off + 72),
    bytes_mapEntryAt (off + 92), bytes_mapEntryAt (off + 94), bytes_mapEntryAt (off + 96), bytes_mapEntryAt (off + 98),
    bytes_mapEntryAt (off + 100), bytes_mapEntryAt (off + 102), bytes_mapEntryAt (off + 104), bytes_mapEntryAt (off + 106)]
  simp only [writeConfigTail, le, Layout.bytes_cons, Layout.bytes_nil, two, mark8_eq, zero,
    List.append_assoc, List.append_nil, byteOf, leBytes_ofNat 1]
  cases c.pollMode <;> cases c.parking <;> rfl

/-! ### The six contents -/

theorem flagBits_eq (f : FlagSet) :
    f.bits =
      bitOf f.loadDone.isSome + 2 * bitOf f.loadRefused.isSome + 4 * bitOf f.dropJoined.isSome + 8 * bitOf f.dropLost.isSome +
        16 * bitOf f.jobFailed.isSome + 32 * bitOf f.changeoverDone.isSome + 64 * bitOf f.changeoverHeld.isSome +
        128 * bitOf f.changeoverForced.isSome + 256 * bitOf f.tableFull.isSome + 512 * bitOf f.tapqFull.isSome := by
  have h : ∀ (b : Bool) (n : Nat), (if b = true then n else 0) = n * bitOf b := by
    intro b n; cases b <;> simp [bitOf]
  show [if f.loadDone.isSome = true then 1 else 0, if f.loadRefused.isSome = true then 2 else 0,
    if f.dropJoined.isSome = true then 4 else 0, if f.dropLost.isSome = true then 8 else 0,
    if f.jobFailed.isSome = true then 16 else 0, if f.changeoverDone.isSome = true then 32 else 0,
    if f.changeoverHeld.isSome = true then 64 else 0, if f.changeoverForced.isSome = true then 128 else 0,
    if f.tableFull.isSome = true then 256 else 0, if f.tapqFull.isSome = true then 512 else 0].sum = _
  simp only [h, List.sum_cons, List.sum_nil]
  omega

theorem enableBits_eq (e : Enables) :
    e.bits = bitOf e.load + 2 * bitOf e.drop + 4 * bitOf e.job + 8 * bitOf e.changeover + 16 * bitOf e.table +
      32 * bitOf e.tapq := by
  rcases e with ⟨a, b, c, d, e, f⟩
  cases a <;> cases b <;> cases c <;> cases d <;> cases e <;> cases f <;> rfl

theorem summaryHead_bytes (s : State) :
    summaryIdentity ++ s.summaryPort ++ s.summaryClock ++ s.summaryFlags = (summaryHead s).bytes := by
  simp only [summaryHead, Layout.bytes_append, Layout.bytes_cons, summaryIdentity, State.summaryPort,
    State.summaryClock, State.summaryFlags, State.stamp, allFlags, List.flatMap_cons, List.flatMap_nil, FlagSet.get, flagBits_eq, enableBits_eq,
    bytes_contextAt, macBytes, le, leBytes_one, mark8_eq, List.append_assoc, List.append_nil, List.cons_append, List.nil_append]
  cases s.port.gateway <;> cases s.port.mode <;> cases s.port.door <;> rfl

theorem occupancy_eq (s : State) :
    s.occupancy =
      ((s.cat.chain ++ s.cat.retired).map (fun d => d.segments.length)).sum +
        ((s.cat.active.toList ++ s.cat.pendingFare.toList ++ s.cat.withdrawn).map (fun d => d.segments.length)).sum +
          ((s.intakes.fare.toList ++ s.intakes.block.toList).map (fun l => l.segments.length)).sum := by
  have h : ∀ l : Option Load, reservation l = (l.toList.map (fun l => l.segments.length)).sum := by
    intro l; cases l <;> simp [reservation]
  simp only [State.occupancy, deltaSegments, fareSegments, h, List.map_append, List.sum_append]
  omega

theorem presenceByte_eq (r : Drop) : r.presenceByte = byteOf (presenceNumber r) := by
  unfold Drop.presenceByte presenceNumber
  cases r.presence <;> cases r.stopping <;> rfl

theorem summaryStores_bytes (s : State) :
    s.summaryCatalogue ++ s.summaryTable ++ s.roster.drops.toList.map Drop.presenceByte = (summaryStores s).bytes := by
  simp only [summaryStores, Layout.bytes_append, Layout.bytes_cons, Layout.bytes_nil, State.summaryCatalogue, State.summaryTable,
    State.markedDrops, Per8.toList, List.map_cons, List.map_nil, presenceByte_eq, bytes_intakeAt, occupancy_eq, leBytes_one, mark8_eq,
    List.countP_eq_length_filter, Catalogue.length, Catalogue.a, Catalogue.p?, List.append_assoc, List.append_nil,
    List.cons_append, List.nil_append]
  cases s.table.state <;> cases s.cat.pendingFare <;> rfl

theorem exBytes_eq (s : State) :
    s.summaryTrunk =
      leBytes 2 s.settings.trunk.rate ++
        byteOf
          (match s.trunk.ex with
          | some x => (match x.kind with | .roundPoll => 1 | .urgentPoll => 2 | .push _ => 3 | .broadcast => 4)
          | none => 0) ::
        byteOf (match s.trunk.ex with | some x => dropNumber x.drop | none => 0) ::
        byteOf
          (match s.trunk.ex with
          | some x => (match x.stage with | .quiet => 0 | .sending => 1 | .awaiting => 2 | .receiving => 3 | .pause => 4)
          | none => 0) ::
        mark8 s.trunk.round.isSome :: byteOf s.trunk.pushCount :: mark8 s.trunk.request.isSome ::
          (leBytes 2 (match s.trunk.request with | some p => p | none => 0) ++ [0, 0]) := by
  unfold State.summaryTrunk
  cases s.trunk.request <;> rcases s.trunk.ex with _ | ⟨kind, drop, frame, stage, _⟩
  · simp only [List.append_assoc]; rfl
  · simp only [List.append_assoc]; cases kind <;> cases drop <;> cases stage <;> rfl
  · simp only [List.append_assoc]; rfl
  · simp only [List.append_assoc]; cases kind <;> cases drop <;> cases stage <;> rfl

theorem armed_eq (s : State) (p : Nat) :
    s.armed p = fun d => (s.drop d).presence == .present && !(s.drop d).stopping && (s.drop d).known &&
      decide (p = (s.drop d).holdings.staged) := by
  funext d
  show (_ && (_ == p)) = _
  unfold State.counted
  congr 1
  rw [Bool.eq_iff_iff]
  simp only [beq_iff_eq, decide_eq_true_eq]
  exact eq_comm

theorem summaryChange_eq (s : State) :
    s.summaryChange =
      byteOf (match s.change.state with | .idle => 0 | .staging => 1 | .due => 2 | .doorWait => 3) :: mark8 s.change.forced ::
        byteOf (match s.change.hold with | .absent | .unset _ => 0 | .minute _ => 1 | .passed => 2) :: 0 ::
        (leBytes 4 (match s.change.hold with | .minute m => min 4294967295 m | .absent | .unset _ | .passed => 0) ++
          byteOf s.doorSeconds :: byteOf (allDrops.filter s.counted).length ::
          byteOf (allDrops.filter (fun d => (s.drop d).presence == .present && !(s.drop d).stopping && (s.drop d).known &&
            decide (Option.map Fare.edition s.cat.pendingFare = some (s.drop d).holdings.staged))).length :: 0 ::
          (leBytes 2 (match s.change.requested with | some p => p | none => 0) ++ [0, 0])) := by
  unfold State.summaryChange Catalogue.p?
  cases s.cat.pendingFare
  · simp only [Option.map_none, reduceCtorEq, decide_false, Bool.and_false]
    cases s.change.state <;> cases s.change.hold <;> cases s.change.requested <;> rfl
  · simp only [Option.map_some, Option.some.injEq, ← armed_eq]
    cases s.change.state <;> cases s.change.hold <;> cases s.change.requested <;> rfl

theorem summaryLines_bytes (s : State) : s.summaryTrunk ++ s.summaryChange ++ s.summaryTaps = (summaryLines s).bytes := by
  have counted : (fun d => (s.drop d).presence == Presence.present && !(s.drop d).stopping) = s.counted := rfl
  rw [exBytes_eq, summaryChange_eq]
  simp only [summaryLines, counted, Layout.bytes_cons, Layout.bytes_nil, State.summaryTaps, leBytes_one,
    mark8_eq, State.doorSeconds, Port.tapsSending, List.countP_eq_length_filter, List.append_assoc, List.append_nil,
    List.cons_append, List.nil_append]
  all_goals rfl

/-- The SUMMARY is its layout (R181). -/
theorem summaryReport_eq (s : State) : s.summaryReport = (summaryLayout s).bytes := by
  rw [summaryLayout, Layout.bytes_append, Layout.bytes_append, Layout.bytes_append, ← summaryHead_bytes, ← summaryStores_bytes,
    ← summaryLines_bytes, ← bytes_settingsAt]
  simp only [State.summaryReport, List.append_assoc]

theorem chainBytes_eq (jobs : List Job) (r : Delta) :
    chainBytes jobs r =
      leBytes 2 r.edition ++ leBytes 2 r.segments.length ++ leBytes 2 r.changes ++ [byteOf (bitOf r.urgent)] ++
        [byteOf (readers jobs .block r.ref)] ++ leBytes 4 r.digest.toNat := by
  simp only [chainBytes, mark8_eq, le, List.append_assoc, List.cons_append, List.nil_append]

theorem retiredBytes_eq (jobs : List Job) (r : Delta) :
    retiredBytes jobs r =
      leBytes 2 r.edition ++ leBytes 2 r.segments.length ++ [byteOf (readers jobs .block r.ref)] ++ [0] := by
  simp only [retiredBytes, List.append_assoc, List.cons_append, List.nil_append]

theorem fareBytes_eq (jobs : List Job) (t : Nat) (r : Fare) :
    fareBytes jobs t r =
      leBytes 2 r.edition ++ leBytes 2 r.segments.length ++ leBytes 2 r.products ++ [byteOf (readers jobs .fare r.ref)] ++ [0] ++
        leBytes 4 r.digest.toNat ++ leBytes 4 t := by
  simp only [fareBytes, le, List.append_assoc, List.cons_append, List.nil_append]

theorem withdrawnBytes_eq (jobs : List Job) (hold : Option Nat) (r : Fare) :
    withdrawnBytes jobs hold r =
      leBytes 2 r.edition ++ leBytes 2 r.segments.length ++ [byteOf (readers jobs .fare r.ref)] ++
        [byteOf (bitOf (hold == some r.ref))] := by
  simp only [withdrawnBytes, mark8_eq, List.append_assoc, List.cons_append, List.nil_append]

/-- The CHAIN content (R50). -/
theorem chainReport_eq (s : State) : s.chainReport = chainContent s := by
  have marks : ∀ a b : Bool, ((if a = true then 1 else 0) + (if b = true then 2 else 0) : Nat) = bitOf a + 2 * bitOf b := by
    intro a b; cases a <;> cases b <;> rfl
  simp only [State.chainReport, chainContent, readersOf_eq, leBytes_one, marks, Catalogue.length]
  simp only [funext (chainBytes_eq _), funext (retiredBytes_eq _), funext (fareBytes_eq _ _), funext (withdrawnBytes_eq _ _),
    fareBytes_eq, List.append_assoc]
  rfl

/-- A job of a report is its layout (R118). -/
theorem jobBytes_eq (s : State) (j : Job) : s.jobBytes j = (jobLayout s j).bytes := by
  rcases j with ⟨drop, kind, target, plan, underWay, base, record, phase, next, burstStart, retry, lastCause, urgent, promoted,
    level, state, replan⟩
  simp only [State.jobBytes, jobLayout, Layout.bytes_cons, Layout.bytes_nil, leBytes_one, mark8_eq, List.append_assoc,
    List.append_nil, List.cons_append, List.nil_append, State.reportedEdition, State.stepEdition, State.resumeKey, Job.stepByte,
    Job.logForm, Job.isFull]
  have h1 : state.byte = byteOf (match state with | .ready => 0 | .active => 1 | .paused => 2 | .held => 3 | .failed => 4) := by
    cases state <;> rfl
  have h2 : phase.byte = byteOf (match phase with | .open_ => 0 | .segments => 1 | .close => 2 | .activate => 3) := by
    cases phase <;> rfl
  have h3 : kindCode kind = byteOf (match kind with | .fare => 1 | .block => 2) := by cases kind <;> rfl
  rw [h1, h2, h3]
  rcases lastCause with _ | c
  · rcases plan with _ | ⟨_ | _ | _ | _, _⟩ <;> cases underWay <;> simp [LogForm.byte, addrOf, byteOf] <;>
      exact ⟨rfl, rfl, rfl⟩
  · rcases plan with _ | ⟨_ | _ | _ | _, _⟩ <;> cases underWay <;> simp [LogForm.byte, addrOf, byteOf] <;>
      exact ⟨rfl, rfl, rfl⟩

/-- Jobs in a report (R118). -/
theorem jobsBytes_eq (s : State) (js : List Job) :
    s.jobsBytes js = leBytes 1 js.length ++ js.flatMap (fun j => (jobLayout s j).bytes) := by
  rw [State.jobsBytes, leBytes_one, funext (jobBytes_eq s)]
  rfl

/-- The DROP content (R75, R94, R118). -/
theorem dropReport_eq (s : State) (d : DropId) :
    s.dropReport d =
      (dropLayout s d).bytes ++
        (leBytes 1 (s.planner.jobs.filter (fun j => j.drop == d)).length ++
          (s.planner.jobs.filter (fun j => j.drop == d)).flatMap (fun j => (jobLayout s j).bytes)) := by
  rw [State.dropReport, jobsBytes_eq, ← List.append_assoc, ← List.append_assoc]
  have hm : ∀ m : Option Mark,
      (match m with
      | none => leBytes 2 0
      | some m => leBytes 2 m.edition ++ leBytes 2 m.segs ++ leBytes 2 m.cur.index ++ leBytes 2 m.ack.index) =
        Layout.bytes
          (match m with
          | none => [(47, leBytes 2 0)]
          | some m =>
            [(47, leBytes 2 m.edition), (49, leBytes 2 m.segs), (51, leBytes 2 m.cur.index), (53, leBytes 2 m.ack.index)]) := by
    intro m
    cases m <;> simp only [Layout.bytes_cons, Layout.bytes_nil, List.append_assoc, List.append_nil]
  have hr : mark8 ((s.drop d).presence != Presence.disabled) = byteOf (bitOf (decide ((s.drop d).presence ≠ Presence.disabled))) := by
    cases (s.drop d).presence <;> rfl
  have hp : ∀ p : Presence, p.byte =
      byteOf ((match p with | .disabled => 0 | .absent => 1 | .joining => 2 | .present => 3 | .fading => 4) + 0) := by
    intro p; cases p <;> rfl
  have hm' : s.markPart d = _ := hm (s.mark d)
  rw [hm']
  congr 2
  simp only [dropLayout, State.rosterPart, Layout.bytes_cons, hr, hp, presenceNumber,
    leBytes_one, mark8_eq, counterBytes, DropCounters.list, List.flatMap_cons, List.flatMap_nil, List.append_assoc, List.append_nil,
    List.cons_append, List.nil_append]
  rfl

/-- The ERRORLOG content (R116). -/
theorem errorlogReport_eq (s : State) : s.errorlogReport = (errorlogLayout s.planner.log).bytes := by
  unfold State.errorlogReport errorlogLayout
  cases s.planner.log with
  | none => rfl
  | some e =>
    rcases e with ⟨drop, kind, edition, form, index, reason, minute⟩
    cases kind <;> cases form <;> cases reason <;> rfl

/-- The COUNTERS content (R187). -/
theorem countersReport_eq (s : State) : s.countersReport = (countersInOrder s).flatMap (leBytes 2) := by
  have h : s.ownedCounters.map Prod.snd = s.counters := List.map_snd_zip (by rfl)
  rw [State.countersReport, h]
  rfl

/-! ### Offsets -/

theorem settings_gapless (off : Nat) (c : Settings) :
    (settingsAt off c).Gapless off ∧ (settingsAt off c).bytes.length = 136 := by
  unfold settingsAt classAt mapEntryAt
  simp [Layout.Gapless, Layout.bytes_cons, Layout.bytes_nil]

theorem summaryHead_gapless (s : State) : (summaryHead s).Gapless 0 ∧ (summaryHead s).bytes.length = 122 := by
  unfold summaryHead contextAt
  simp [Layout.Gapless, Layout.bytes_cons, Layout.bytes_nil]

theorem summaryStores_gapless (s : State) : (summaryStores s).Gapless 122 ∧ (summaryStores s).bytes.length = 56 := by
  unfold summaryStores intakeAt
  simp [Layout.Gapless, Layout.bytes_cons, Layout.bytes_nil]

theorem summaryLines_gapless (s : State) : (summaryLines s).Gapless 178 ∧ (summaryLines s).bytes.length = 32 := by
  unfold summaryLines
  simp [Layout.Gapless, Layout.bytes_cons, Layout.bytes_nil]

/-- The SUMMARY has no gap and 346 bytes (11, section 11.1.5). -/
theorem summaryLayout_gapless (s : State) : (summaryLayout s).Gapless 0 ∧ (summaryLayout s).bytes.length = 346 := by
  obtain ⟨h1, n1⟩ := summaryHead_gapless s
  obtain ⟨h2, n2⟩ := summaryStores_gapless s
  obtain ⟨h3, n3⟩ := summaryLines_gapless s
  obtain ⟨h4, n4⟩ := settings_gapless 210 s.settings
  unfold summaryLayout
  simp only [Layout.gapless_append, Layout.bytes_append, List.length_append, n1, n2, n3, n4]
  exact ⟨⟨⟨⟨h1, h2⟩, h3⟩, h4⟩, trivial⟩

theorem jobLayout_gapless (s : State) (j : Job) : (jobLayout s j).Gapless 0 ∧ (jobLayout s j).bytes.length = 30 := by
  unfold jobLayout
  simp [Layout.Gapless, Layout.bytes_cons, Layout.bytes_nil]

theorem dropLayout_gapless (s : State) (d : DropId) : (dropLayout s d).Gapless 0 := by
  unfold dropLayout
  cases s.mark d <;> simp [Layout.Gapless]

theorem errorlogLayout_gapless (log : Option LogEntry) :
    (errorlogLayout log).Gapless 0 ∧ (errorlogLayout log).bytes.length = 13 := by
  unfold errorlogLayout
  cases log <;> simp [Layout.Gapless, Layout.bytes_cons, Layout.bytes_nil]

end Sys2Proof.Machine
end

