-- ==== Sys2Proof/Laws/Restart.lean ====
section
/-! SUPPORT. The warm restart, block by block. -/

namespace Sys2Proof.Machine

/-- The warm restart up to the changeover and the arbiter. -/
def preRestart (s : State) : State :=
  ((((((s.restartIntake .fare).restartIntake .block).restartTrunk).restartPlanner).restartCatalogue).restartTable).restartRoster

/-- The warm restart is its blocks, then the changeover, then the conclusion. -/
theorem warm_eq (s : State) : s.warmRestart = ((preRestart s).changeoverRestart).conclude := rfl

/-- The hub after every block but the changeover has restarted. -/
structure RestartedBlocks (s u : State) : Prop where
  pending : u.pending = s.pending
  timebase : u.timebase = s.timebase
  clock : u.clock = s.clock
  settings : u.settings = s.settings
  fare : u.intakes.fare = s.intakes.fare.bind restartLoad
  block : u.intakes.block = s.intakes.block.bind restartLoad
  cnt : u.intakes.segDuplicate = s.intakes.segDuplicate ∧ u.intakes.segStray = s.intakes.segStray
  answers : u.port.answers = s.port.answers ++ restartAnswers .fare s.intakes.fare ++ restartAnswers .block s.intakes.block
  port : u.port = restartedPort s .block (restartedPort s .fare s.port)
  cat : u.cat = { s.cat with retired := [], withdrawn := [], hold := none }
  table :
    u.table = { s.table with state := u.table.state, marks := Per8.all none, sweepRequest := false, sweep := some { lowest := s.cat.h, horizon := if s.cat.h = 0 then 0 else s.cat.b, after := none } }
  apply : ∀ l, s.intakes.block = some l → l.stage = .applying → u.table.state = s.startUndo.table.state
  work : (∀ k l, s.intake k = some l → l.stage ≠ .applying) → u.table.state = s.table.state
  planner : u.planner = { s.planner with jobs := [], lastServed := none }
  roster :
    u.roster = { drops := s.roster.drops.map Drop.restart, pollMode := s.settings.pollMode, probe := 0, lastTap := s.roster.lastTap, lastRound := none }
  taps : u.taps = s.taps
  change : u.change = s.change
  trunk :
    u.trunk = { s.trunk with ex := none, request := none, round := none, pushCount := 0, emptyPause := none, lastUrgent := none, lineFrom := if s.trunk.ex.any (fun x => x.stage == .sending || x.stage == .receiving) then s.timebase else s.trunk.lineFrom }

/-- What the warm restart of one context does. -/
structure RestartedIntake (k : Kind) (s u : State) : Prop where
  eq : ∃ p st, u = ((s.setIntake k ((s.intake k).bind restartLoad)).setPort p).setTable { s.table with state := st } ∧
     p.answers = s.port.answers ++ restartAnswers k (s.intake k) ∧ p = restartedPort s k s.port ∧
     (∀ l, s.intake k = some l → l.stage = .applying → st = s.startUndo.table.state) ∧
     ((∀ l, s.intake k = some l → l.stage ≠ .applying) → st = s.table.state)

/-- The warm restart of one context (R35). -/
theorem restartIntake_spec (s : State) (k) : RestartedIntake k s (s.restartIntake k) := by
  constructor
  unfold State.restartIntake
  cases hi : s.intake k with
  | none =>
    refine ⟨s.port, s.table.state, ?_, ?_, by unfold restartedPort; rw [hi], fun l h => (nomatch h), fun _ => rfl⟩
    · have := setIntake_self s k; rw [hi] at this
      dsimp only [Option.bind]; rw [this]; rfl
    · unfold restartAnswers; rw [List.append_nil]
  | some l =>
    dsimp only
    have hrp : restartedPort s k s.port = match l.stage with
        | .checking _ =>
          ({ s.port with answers := s.port.answers ++ closeAnswers k l .aborted 0 } : Port).raise s.settings.enables .loadRefused
            { edition := l.edition, code := some .aborted, drop := none, minute := s.stamp }
        | .receiving | .applying | .rebuilding => s.port := by unfold restartedPort; rw [hi] <;> rfl
    cases hs : l.stage with
    | receiving =>
      refine ⟨s.port, s.table.state, ?_, ?_, by rw [hrp, hs], fun l' h g => ?_, fun _ => rfl⟩
      · dsimp only [Option.bind]; unfold restartLoad; rw [hs]; cases k <;> rfl
      · unfold restartAnswers; dsimp only; rw [hs]; dsimp only; rw [List.append_nil]
      · injection h with h; subst h; rw [hs] at g; exact (nomatch g)
    | checking th =>
      refine ⟨({ s.port with answers := s.port.answers ++ closeAnswers k l .aborted 0 } : Port).raise s.settings.enables .loadRefused { edition := l.edition, code := some .aborted, drop := none, minute := s.stamp }, s.table.state, ?_, ?_, by rw [hrp, hs], fun l' h g => ?_, fun _ => rfl⟩
      · dsimp only [Option.bind]; unfold restartLoad; rw [hs, answerClose_eq]; cases k <;> rfl
      · rw [raise_answers]; unfold restartAnswers; dsimp only; rw [hs]
      · injection h with h; subst h; rw [hs] at g; exact (nomatch g)
    | applying =>
      refine ⟨s.port, s.startUndo.table.state, ?_, ?_, by rw [hrp, hs], fun l' h g => rfl, fun h => absurd hs (h l rfl)⟩
      · dsimp only [Option.bind]; unfold restartLoad; rw [hs]
        have := setIntake_self s k; rw [hi] at this; rw [this]
        unfold State.startUndo; split <;> rfl
      · unfold restartAnswers; dsimp only; rw [hs]; dsimp only; rw [List.append_nil]
    | rebuilding =>
      refine ⟨s.port, s.table.state, ?_, ?_, by rw [hrp, hs], fun l' h g => ?_, fun _ => rfl⟩
      · dsimp only [Option.bind]; unfold restartLoad; rw [hs]
        have := setIntake_self s k; rw [hi] at this; rw [this]; rfl
      · unfold restartAnswers; dsimp only; rw [hs]; dsimp only; rw [List.append_nil]
      · injection h with h; subst h; rw [hs] at g; exact (nomatch g)

theorem startUndo_state (s t : State) (h : t.table.state = s.table.state) :
    t.startUndo.table.state = s.startUndo.table.state := by
  unfold State.startUndo; rw [h]; split <;> (try rfl) <;> assumption

theorem startUndo_twice (s : State) : s.startUndo.startUndo.table.state = s.startUndo.table.state := by
  cases h : s.table.state with
  | applying e l w => cases w <;> simp [State.startUndo, h]
  | _ => simp [State.startUndo, h]

theorem restartTable_eq (z : State) :
    z.restartTable = z.setTable { z.table with marks := Per8.all none, sweepRequest := false, sweep := some { lowest := z.cat.h, horizon := if z.cat.h = 0 then 0 else z.cat.b, after := none } } := by
  unfold State.restartTable
  generalize hu : z.setTable { z.table with marks := Per8.all none, sweep := none, sweepRequest := false } = u
  have h1 : u.table = { z.table with marks := Per8.all none, sweep := none, sweepRequest := false } := by rw [← hu]; rfl
  have hc : u.cat = z.cat := by rw [← hu]; rfl
  have hm : u.markedEditions = [] := by unfold State.markedEditions; rw [h1]; rfl
  have hn : u.newPass = { lowest := z.cat.h, horizon := if z.cat.h = 0 then 0 else z.cat.b, after := none } := by
    unfold State.newPass State.lowestRead State.horizon; rw [hm, hc]
    unfold serialLowest; simp only [List.foldl]
    by_cases g : z.cat.h = 0
    · simp [g]
    · simp [g]
  unfold State.requestSweep
  rw [h1]; dsimp only; rw [hn, ← hu]; rfl

/-- What the warm restart of the trunk, the Planner, the Catalogue, the table and the Roster does. -/
structure RestartedRest (y u : State) : Prop where
  pending : u.pending = y.pending
  timebase : u.timebase = y.timebase
  clock : u.clock = y.clock
  settings : u.settings = y.settings
  intakes : u.intakes = y.intakes
  port : u.port = y.port
  cat : u.cat = { y.cat with retired := [], withdrawn := [], hold := none }
  table :
    u.table = { y.table with marks := Per8.all none, sweepRequest := false, sweep := some { lowest := y.cat.h, horizon := if y.cat.h = 0 then 0 else y.cat.b, after := none } }
  planner : u.planner = { y.planner with jobs := [], lastServed := none }
  roster :
    u.roster = { drops := y.roster.drops.map Drop.restart, pollMode := y.settings.pollMode, probe := 0, lastTap := y.roster.lastTap, lastRound := none }
  taps : u.taps = y.taps
  change : u.change = y.change
  trunk :
    u.trunk = { y.trunk with ex := none, request := none, round := none, pushCount := 0, emptyPause := none, lastUrgent := none, lineFrom := if y.trunk.ex.any (fun x => x.stage == .sending || x.stage == .receiving) then y.timebase else y.trunk.lineFrom }

/-- The warm restart of the trunk, the Planner, the Catalogue, the table and the Roster. -/
theorem restartRest_spec (y : State) :
    RestartedRest y (((((y.restartTrunk).restartPlanner).restartCatalogue).restartTable).restartRoster) := by
  have h : y.restartTrunk = (y.setTrunk { y.trunk with ex := none, request := none, round := none, pushCount := 0, emptyPause := none, lastUrgent := none, lineFrom := if y.trunk.ex.any (fun x => x.stage == .sending || x.stage == .receiving) then y.timebase else y.trunk.lineFrom }).setRoster { y.roster with pollMode := y.settings.pollMode } := by
    unfold State.restartTrunk; cases y.trunk.ex <;> rfl
  rw [h, restartTable_eq]
  constructor <;> simp [State.restartRoster, State.restartCatalogue, State.restartPlanner]
  rfl

/-- The warm restart of every block but the changeover. -/
theorem preRestart_spec (s : State) : RestartedBlocks s (preRestart s) := by
  obtain ⟨p1, st1, e1, a1, c1, ap1, w1⟩ := (restartIntake_spec s .fare).eq
  obtain ⟨p2, st2, e2, a2, c2, ap2, w2⟩ := (restartIntake_spec (s.restartIntake .fare) .block).eq
  have hu1 : s.restartIntake .fare = _ := e1
  generalize hx : s.restartIntake .fare = x at *
  have hxi : x.intakes = { s.intakes with fare := s.intakes.fare.bind restartLoad } := by rw [e1]; rfl
  have hxp : x.port = p1 := by rw [e1]; rfl
  have hxs : x.settings = s.settings := by rw [e1]; rfl
  have hxb : x.intake .block = s.intakes.block := by show x.intakes.block = _; rw [hxi]
  have hxt : x.table = { s.table with state := st1 } := by rw [e1]; rfl
  rw [hxb] at e2 a2
  generalize hy : x.restartIntake .block = y at *
  have hyy : y = (((s.setIntakes { s.intakes with fare := s.intakes.fare.bind restartLoad, block := s.intakes.block.bind restartLoad }).setPort p2).setTable { s.table with state := st2 }) := by
    rw [e2, e1]; rfl
  have hpre : preRestart s = (((((y.restartTrunk).restartPlanner).restartCatalogue).restartTable).restartRoster) := by
    unfold preRestart; rw [hx, hy]
  rw [hpre]
  have T := restartRest_spec y
  generalize (((((y.restartTrunk).restartPlanner).restartCatalogue).restartTable).restartRoster) = u at T
  have hyt : y.table.state = st2 := by rw [hyy]; rfl
  constructor
  · rw [T.pending, hyy]; rfl
  · rw [T.timebase, hyy]; rfl
  · rw [T.clock, hyy]; rfl
  · rw [T.settings, hyy]; rfl
  · rw [T.intakes, hyy]; rfl
  · rw [T.intakes, hyy]; rfl
  · rw [T.intakes, hyy]; exact ⟨rfl, rfl⟩
  · rw [T.port, hyy]
    show p2.answers = _
    rw [a2, hxp, a1]; rfl
  · rw [T.port, hyy]
    show p2 = _
    have hst : x.stamp = s.stamp := by rw [e1]; rfl
    rw [c2, hxp, c1]
    unfold restartedPort
    rw [hxb, hxs, hst]
    rfl
  · rw [T.cat, hyy]; rfl
  · rw [T.table, hyy]; rfl
  · intro l hl hs
    rw [T.table]
    show y.table.state = _
    rw [hyt, ap2 l (by rw [hxb]; exact hl) hs]
    by_cases g : ∃ l', s.intake .fare = some l' ∧ l'.stage = .applying
    · obtain ⟨l', g1, g2⟩ := g
      rw [← startUndo_twice s]
      apply startUndo_state
      rw [hxt]; exact ap1 l' g1 g2
    · apply startUndo_state
      rw [hxt]; exact w1 (fun l' h1 h2 => g ⟨l', h1, h2⟩)
  · intro hno
    rw [T.table]
    show y.table.state = _
    rw [hyt, w2 (fun l h => by rw [hxb] at h; exact hno .block l h), hxt]
    exact w1 (fun l h => hno .fare l h)
  · rw [T.planner, hyy]; rfl
  · rw [T.roster, hyy]; rfl
  · rw [T.taps, hyy]; rfl
  · rw [T.change, hyy]; rfl
  · rw [T.trunk, hyy]; rfl

/-- With every counted drop armed a judgement of readiness, a hold that passes and an entry to DUE raise no flag. -/
theorem judgeReady_port (s : State) : s.judgeReady.port = s.port := by
  unfold State.judgeReady State.foundReady
  split
  · split
    · dsimp only; split <;> rfl
    · split
      · dsimp only; split <;> rfl
      · rfl
  · rfl

theorem passHold_port (s : State) (p) (h : s.allArmed p = true) : (s.passHold p).port = s.port := by
  unfold State.passHold; dsimp only; rw [judgeReady_port, if_pos h]; rfl

theorem dueTest_port (s : State) (h : ∀ p, s.allArmed p = true) : s.dueTest.port = s.port := by
  unfold State.dueTest State.enterDue
  split
  · rfl
  · split
    · dsimp only; split
      · exact passHold_port _ _ (h _)
      · split <;> rw [judgeReady_port] <;> rfl
    · rfl

theorem changeoverRestart_port (s : State) (h : ∀ p, s.allArmed p = true) : s.changeoverRestart.port = s.port := by
  unfold State.changeoverRestart
  split
  · rfl
  all_goals exact dueTest_port s h

/-- The warm restart of the changeover (R158), with every counted drop armed: the due test, which finds the bus ready. -/
theorem changeoverRestart_spec (s : State) (r : Fare) (hr : s.cat.pendingFare = some r) (hn : s.change.state ≠ .idle)
    (hall : ∀ p, s.allArmed p = true) :
    if r.minute = 0 ∨ (s.clock.valid = true ∧ r.minute ≤ s.clock.minute) then FoundReady r false s.changeoverRestart
    else s.changeoverRestart.change = { state := .staging, hold := .absent, door := none, requested := none, forced := false } := by
  have h1 : s.changeoverRestart = s.dueTest := by
    unfold State.changeoverRestart
    cases hs : s.change.state <;> first | exact absurd hs hn | rfl
  have hb : s.dueTest.busArmed r.edition := by
    rw [busArmed_congr (dueTest_moved s).drops, ← allArmed_iff]; exact hall _
  have h := dueTest_due s r hr
  rw [h1]
  split at h
  next g =>
    rw [if_pos g]
    by_cases z : s.dueTest.settings.holdLimit = 0
    · exact ((h.passed z).armed hb).1
    · exact h.armed z hb
  next g => rw [if_neg g]; exact h.1

/-- What the warm restart does. -/
theorem warmRestart_spec (s : State) : WarmRestarted s s.warmRestart := by
  rw [warm_eq]
  have P := preRestart_spec s
  generalize preRestart s = u at P
  have C := change_changeoverRestart u
  have hdu : ∀ d, u.drop d = (s.drop d).restart := by
    intro d; show u.roster.drops.get d = _; rw [P.roster]; exact Per8.get_map _ _ _
  have hall : ∀ p, u.allArmed p = true := by
    intro p; unfold State.allArmed; rw [List.all_eq_true]; intro d _
    have : u.counted d = false := by
      unfold State.counted; rw [hdu d]; unfold Drop.restart
      cases (s.drop d).stopping <;> cases (s.drop d).presence <;> rfl
    rw [this]; rfl
  have hreq : u.change.state ≠ .idle → RequestFollows u u.changeoverRestart := by
    intro h
    have : u.changeoverRestart = u.dueTest := by
      unfold State.changeoverRestart
      cases hs : u.change.state <;> first | exact absurd hs h | rfl
    rw [this]; exact request_dueTest u
  have hidle : u.change.state = .idle → u.changeoverRestart = u := by
    intro h; unfold State.changeoverRestart; rw [h]
  have hchg : ∀ r, u.cat.pendingFare = some r → u.change.state ≠ .idle → _ := fun r hr hn => changeoverRestart_spec u r hr hn hall
  have hport : u.changeoverRestart.port = u.port := changeoverRestart_port u hall
  generalize u.changeoverRestart = v at C hreq hidle hchg hport
  have hvt : v.trunk = { u.trunk with request := v.trunk.request } := C.trunk
  have hx : v.trunk.ex = none := by rw [hvt, P.trunk]
  have hvr : v.roster = u.roster := C.roster
  have hvd : ∀ d, v.drop d = (s.drop d).restart := by intro d; rw [← hdu d]; unfold State.drop; rw [C.roster]
  have hro : v.trunk.round = none := by rw [hvt, P.trunk]
  obtain ⟨F, L, B, N⟩ := conclude_first v hx (by intro d; rw [hvd]; rfl) hro (by rw [C.roster, P.roster])
    (by rw [C.planner, P.planner]) (by rw [C.cat, P.cat]) (by rw [C.cat, P.cat])
  generalize v.conclude = t at F L B N
  have hq : v.taps.queue = s.taps.queue := by rw [C.taps, P.taps]
  have hstamp : v.stamp = s.stamp := by unfold State.stamp; rw [C.clock, P.clock]
  have hset : v.settings = s.settings := by rw [C.settings, P.settings]
  have hpt : v.port = restartedPort s .block (restartedPort s .fare s.port) := by rw [hport, P.port]
  have hports : t.port.core = u.port.core := F.port.trans C.port
  have hans : t.port.answers = u.port.answers := by have := congrArg Port.answers hports; exact this
  have hdoor : t.port.door = v.port.door := by have := congrArg Port.door F.port; exact this
  have hheld : t.port.flags.changeoverHeld = v.port.flags.changeoverHeld := by
    rcases L.line with ⟨-, a, -⟩ | ⟨-, a, -⟩
    · have e : t.port.flags.changeoverHeld = v.noteAllowance.port.flags.changeoverHeld := by rw [a]
      exact e.trans (Port.flags_of_bare (noteAllowance_decided v).port .changeoverHeld (by simp) (by simp))
    · rw [a]
  constructor
  · rw [F.pending, C.pending, P.pending]
  · rw [F.timebase, C.timebase, P.timebase]
  · rw [F.clock, C.clock, P.clock]
  · rw [F.settings, C.settings, P.settings]
  · rw [F.intakes, C.intakes, P.fare]
  · rw [F.intakes, C.intakes, P.block]
  · rw [F.intakes, C.intakes]; exact P.cnt
  · rw [hans, P.answers]
  · intro hp hl
    obtain ⟨n1, n2⟩ := (noteAllowance_room v).1 (by rw [hq]; exact hl)
    rw [hpt, hset, hstamp] at n1
    rw [C.taps, P.taps] at n2
    rcases L.line with ⟨-, a, b⟩ | ⟨a, -⟩
    · rw [n1] at a; rw [n2] at b; exact ⟨a, b⟩
    · exact absurd hp a
  · intro hn
    rcases L.line with ⟨a, b, c⟩ | ⟨-, b, c⟩
    · have hl : v.taps.queue.length < 256 := by
        rw [hq]; by_contra g; exact hn ⟨a, by omega⟩
      rw [(noteAllowance_room v).2 hl, hpt] at b
      rw [(noteAllowance_room v).2 hl, C.taps, P.taps] at c
      exact ⟨b, c⟩
    · rw [hpt] at b; rw [C.taps, P.taps] at c; exact ⟨b, c⟩
  · intro x hx
    apply L.tx
    rw [hpt]
    have hr : ∀ k p, (restartedPort s k p).tx = p.tx := by
      intro k p; unfold restartedPort
      split
      · split
        · unfold Port.raise; split
          · rfl
          · rfl
        all_goals rfl
      · rfl
    rw [hr, hr]; exact hx
  · rw [F.cat, C.cat, P.cat]
  · rw [F.table, C.table]; exact P.table
  · rw [F.table, C.table]; exact P.apply
  · rw [F.table, C.table]; exact P.work
  · rw [F.planner, C.planner, P.planner]
  · intro d; rw [F.drops, hvd]; unfold Drop.restart
    cases (s.drop d).stopping <;> cases (s.drop d).presence <;> rfl
  · rw [F.lastTap, C.roster, P.roster]
  · have := L.pollMode (by rw [hvr, hset, P.roster]); rw [this, hset]
  · have h0 : t.trunk.pushCount = 0 := L.count (by rw [hvt, P.trunk])
    have := L.trunk
    rw [h0, hvt, P.trunk] at this
    exact this
  · rintro ⟨d, hd⟩
    rw [L.pause ⟨d, ?_⟩, hvt, P.trunk]
    rw [F.drops] at hd
    unfold State.listed
    rw [hd, hvd, hvr, P.roster]
    rfl
  · intro hs
    rw [F.change, hidle (by rw [P.change]; exact hs), P.change]
  · intro r hr hn
    have h := hchg r (by rw [P.cat]; exact hr) (by rw [P.change]; exact hn)
    rw [P.clock] at h
    split
    next g =>
      rw [if_pos g] at h
      exact h.carried ⟨F.change, by rw [F.cat], hheld, hdoor, F.settings, F.timebase, F.clock, busArmed_congr (fun d => by rw [F.drops])⟩
    next g => rw [if_neg g] at h; rw [F.change]; exact h
  · intro p hp hn
    rw [F.change] at hp
    have R := hreq (by rw [P.change]; exact hn)
    have hq : v.trunk.request = some p := by rw [R.req, hp]; rfl
    obtain ⟨b1, b2, b3, b4⟩ := B p hq
    refine ⟨?_, ?_, ?_, ?_, b3, b4⟩
    · rw [F.cat, R.hold, hp, P.cat]; rfl
    · rw [b1, hvt, P.trunk]
    · rw [b2, hvr, P.roster]
    · rw [b2, hvr, P.roster]
  · intro hp
    rw [F.change] at hp
    have hq : v.trunk.request = none ∧ v.cat.hold = none := by
      by_cases g : u.change.state = .idle
      · rw [hidle g, P.trunk, P.cat]; exact ⟨rfl, rfl⟩
      · have R := hreq g
        rw [R.req, R.hold, hp, P.trunk, P.cat]; exact ⟨rfl, rfl⟩
    obtain ⟨n1, n2, n3, n4⟩ := N hq.1
    refine ⟨by rw [F.cat]; exact hq.2, by rw [n1, hvt, P.trunk], by rw [n2, hvr, hset, P.roster],
      by rw [n3, C.timebase, P.timebase], fun ⟨d, hd⟩ => n4 ⟨d, ?_, ?_⟩ (by rw [C.roster, P.roster])⟩
    · rw [← F.drops]; exact hd
    · rw [hvd]; rfl

theorem WarmRestarted.uplink {s t : State} (h : WarmRestarted s t) : WarmRestarted s t.uplink := by
  obtain ⟨e1, e2, e3⟩ := uplink_port t
  generalize t.uplink.port = p at e1 e2 e3
  rw [e1]
  have ha : p.answers = t.port.answers := by rw [e2]
  have car : Carried t (t.setPort p) := ⟨rfl, rfl, by rw [e2]; rfl, by rw [e2]; rfl, rfl, rfl, rfl, fun _ => .rfl⟩
  exact
    { pending := h.pending, timebase := h.timebase, clock := h.clock, settings := h.settings, fare := h.fare, block := h.block
      intakeCounters := h.intakeCounters, answers := ha.trans h.answers
      polled := fun a b => ⟨by show p = _; rw [e2, (h.polled a b).1]; rfl, (h.polled a b).2⟩
      unpolled := fun a => ⟨by show p = _; rw [e2, (h.unpolled a).1]; rfl, (h.unpolled a).2⟩
      tx := fun x hx => e3 x (h.tx x hx)
      cat := h.cat, table := h.table, apply := h.apply, work := h.work, planner := h.planner, drops := h.drops
      lastTap := h.lastTap, pollMode := h.pollMode, trunk := h.trunk, pause := h.pause, idle := h.idle
      change := fun r hr hn => by
        have := h.change r hr hn
        split at this
        next g => rw [if_pos g]; exact this.carried car
        next g => rw [if_neg g]; exact this
      broadcast := h.broadcast, round := h.round }

end Sys2Proof.Machine
end

