-- ==== Sys2Proof/Laws/Snapshot.lean ====
section
/-! SUPPORT. The snapshot serializer in the form claims use (R72, R73, R74). -/

namespace Sys2Proof.Machine

theorem nextEntries_eq (m : Mark) (es : List Entry) : m.nextEntries es = packedAt es m.edition m.cur := rfl

theorem nextSegment_eq (m : Mark) (es : List Entry) : m.nextSegment es = packedPayload (packedAt es m.edition m.cur) := by
  have h : entryBytes = fun e : Entry => leBytes 8 e.card ++ leBytes 1 (e.reason % 16) ++ [0] ++ leBytes 2 e.expiry := by
    funext e
    show leBytes 8 e.card ++ ([_] ++ [0]) ++ leBytes 2 e.expiry = _
    rw [← List.append_assoc]; rfl
  unfold Mark.nextSegment packSegment packedPayload
  rw [nextEntries_eq, h]

/-- Producing one segment moves the cursor on (R73). -/
theorem produce_eq (m : Mark) (es : List Entry) : m.produce es = { m with cur := m.cur.onward es m.edition } := by
  unfold Mark.produce Point.onward
  rw [nextSegment_eq, nextEntries_eq]
  cases (packedAt es m.edition m.cur).getLast? <;> rfl

/-- Producing `n` segments moves it `n` times. -/
theorem produceMany_eq (m : Mark) (es : List Entry) (n : Nat) :
    m.produceMany es n = { m with cur := Nat.iterate (Point.onward es m.edition) n m.cur } := by
  induction n generalizing m with
  | zero => rfl
  | succ n ih => show (m.produce es).produceMany es n = _; rw [ih, produce_eq]; rfl

end Sys2Proof.Machine
end

