-- ==== Sys2Proof/Laws/Visit.lean ====
section
/-! SUPPORT. The Card Table's entries: a visit in the visiting order, the purge of an apply, the place of a new entry, and the lowest
read edition. -/

namespace Sys2Proof.Machine

/-- A visit leaves the entries up to its place alone, and handles every later one when each lies after the place the one before
leaves (R61, R69, R70). -/
theorem visit_all (f : Entry → Option Entry) (p : Place) (n : Nat) (done todo : List Entry)
    (h1 : ∀ e ∈ done, afterPlace p e = false) (h2 : ∀ e ∈ todo, afterPlace p e = true) (hn : todo.length ≤ n)
    (ho : todo.Pairwise (fun a b => afterPlace (some (a.card, a.since)) b = true ∧
      ∀ a', f a = some a' → afterPlace (some (a.card, a'.since)) b = true)) :
    (visit f p n (done ++ todo)).1 = done ++ todo.filterMap f := by
  induction done with
  | cons e es ih =>
    have he : afterPlace p e = false := h1 e List.mem_cons_self
    by_cases h0 : n = 0
    · have ht : todo = [] := List.length_eq_zero_iff.mp (by omega)
      subst ht h0
      simp [visit]
    · rw [List.cons_append, visit, if_neg h0, he, if_neg (by simp)]
      rw [ih (fun x hx => h1 x (List.mem_cons_of_mem _ hx))]; rfl
  | nil =>
    rw [List.nil_append, List.nil_append]
    clear h1
    induction todo generalizing p n with
    | nil => rfl
    | cons e es ih =>
      have hn0 : n ≠ 0 := by intro h; rw [h] at hn; simp at hn
      have hl : es.length ≤ n - 1 := by simp only [List.length_cons] at hn; omega
      obtain ⟨hp, ho'⟩ := List.pairwise_cons.mp ho
      rw [visit, if_neg hn0, h2 e List.mem_cons_self, if_pos rfl, List.filterMap_cons]
      cases hf : f e with
      | none => exact ih _ _ (fun x hx => (hp x hx).1) hl ho'
      | some e' =>
        dsimp only
        rw [ih _ _ (fun x hx => (hp x hx).2 e' hf) hl ho']

theorem afterPlace_iff (card since : Nat) (b : Entry) :
    afterPlace (some (card, since)) b = true ↔ card < b.card ∨ (card = b.card ∧ newer b.since since = true) := by
  unfold afterPlace
  simp only [Bool.or_eq_true, Bool.and_eq_true, decide_eq_true_eq, beq_iff_eq]
  constructor <;> rintro (h | ⟨h, g⟩)
  · exact .inl h
  · exact .inr ⟨h.symm, g⟩
  · exact .inl h
  · exact .inr ⟨h.symm, g⟩

/-- A purge takes away purgeable entries alone (R59). -/
theorem purgeSome_kept (lowest : Nat) (p : Place) (need n : Nat) (es : List Entry) :
    (purgeSome lowest p need n es).1.Sublist es ∧
      (es.filter (fun e => !purgeable lowest e)).Sublist (purgeSome lowest p need n es).1 := by
  induction es generalizing p need n with
  | nil => exact ⟨.refl _, .refl _⟩
  | cons e es ih =>
    rw [purgeSome]
    split
    · exact ⟨.refl _, List.filter_sublist⟩
    · split
      · split
        next g =>
          obtain ⟨a, b⟩ := ih (some (e.card, e.since)) (need - 1) (n - 1)
          rw [List.filter_cons, g]
          exact ⟨a.cons _, b⟩
        next g =>
          obtain ⟨a, b⟩ := ih (some (e.card, e.since)) need (n - 1)
          rw [List.filter_cons, if_pos (by simpa using g)]
          exact ⟨a.cons_cons _, b.cons_cons _⟩
      · obtain ⟨a, b⟩ := ih p need n
        refine ⟨a.cons_cons _, ?_⟩
        rw [List.filter_cons]
        split
        · exact b.cons_cons _
        · exact b.cons _

/-- A new entry stands after the entries of its card and of those below it (R52). -/
theorem insertEntry_place (x : Entry) (low high : List Entry) (h1 : ∀ e ∈ low, e.card ≤ x.card)
    (h2 : ∀ e ∈ high, x.card < e.card) : insertEntry x (low ++ high) = low ++ x :: high := by
  induction low with
  | cons e es ih =>
    rw [List.cons_append, insertEntry, if_neg (by have := h1 e List.mem_cons_self; omega),
      ih (fun y hy => h1 y (List.mem_cons_of_mem _ hy))]
    rfl
  | nil =>
    cases high with
    | nil => rfl
    | cons e es => rw [List.nil_append, insertEntry, if_pos (h2 e List.mem_cons_self)]; rfl

/-! ### The lowest read edition and the horizon -/

/-- The serially lowest is one of its candidates, and none lies farther behind h (R11). -/
theorem serialLowest_spec (h : Nat) (l : List Nat) : ∀ x,
    (serialLowest h x l = x ∨ serialLowest h x l ∈ l) ∧ serialDist x h ≤ serialDist (serialLowest h x l) h ∧
      ∀ m ∈ l, serialDist m h ≤ serialDist (serialLowest h x l) h := by
  induction l with
  | nil => exact fun x => ⟨.inl rfl, Nat.le_refl _, nofun⟩
  | cons a l ih =>
    intro x
    obtain ⟨h1, h2, h3⟩ := ih (if serialDist x h < serialDist a h then a else x)
    have e : serialLowest h x (a :: l) = serialLowest h (if serialDist x h < serialDist a h then a else x) l := rfl
    rw [e]
    split at h1 <;> rename_i g <;> simp only [g, if_true, if_false] at h2 h3 ⊢
    · exact ⟨.inr (List.mem_cons.mpr (h1.imp id id)), by omega, List.forall_mem_cons.mpr ⟨h2, h3⟩⟩
    · exact ⟨h1.imp id (List.mem_cons_of_mem a), h2, List.forall_mem_cons.mpr ⟨by omega, h3⟩⟩

/-- The marked editions are those of the read marks. -/
theorem mem_markedEditions (s : State) (n : Nat) : n ∈ s.markedEditions ↔ ∃ d m, s.mark d = some m ∧ m.edition = n := by
  have e : s.markedEditions = (allDrops.map s.mark).filterMap (fun m => m.map Mark.edition) := rfl
  rw [e, List.mem_filterMap]
  constructor
  · rintro ⟨o, ho, h⟩
    obtain ⟨d, -, rfl⟩ := List.mem_map.mp ho
    obtain ⟨m, hm, h⟩ := Option.map_eq_some_iff.mp h
    exact ⟨d, m, hm, h⟩
  · rintro ⟨d, m, hm, h⟩
    have hd : d ∈ allDrops := by clear hm; revert d; decide
    exact ⟨s.mark d, List.mem_map.mpr ⟨d, hd, rfl⟩, by rw [hm, Option.map_some, h]⟩
end Sys2Proof.Machine
end

