-- ==== Sys2Proof/Tests/Slice0.lean ====
section
/-! SUPPORT. Small tests against the manual's own examples, and for each obligation with hypotheses a state and operands that meet
all of them together, clause by clause. -/

namespace Sys2Proof.Tests

-- Each test is checked before the next one: many at a time would each wait in a thread of its own.
set_option Elab.async false

open Sys2Proof.Machine

/-! ### The states the tests are built from -/

/-- A message's head. -/
def from_ : Head := ⟨0x112233445566, 7⟩
/-- The state after reset. -/
abbrev r : State := State.reset
/-- The state that a command leaves. -/
def after (o : Host.Outcome State Fault Refusal) : State := match o with | .next t => t | .fault _ | .refused _ => r
/-- The code of the last answer formed. -/
def lastAnswer (o : Host.Outcome State Fault Refusal) : Option Answer := (after o).port.answers.getLast?
/-- An exchange with drop 3. -/
def ex (k : ExKind) (f : TrunkFrame) (g : Stage) : Exchange :=
  { kind := k, drop := some 2, frame := f, stage := g, waits := 0, burstStart := 6, burstEnd := 10, lastResend := none
    set := Settings.defaults.trunk, detached := false, since := 0 }
/-- A state with an exchange in flight. -/
def flying (x : Exchange) (s : State := r) : State := s.setTrunk { s.trunk with ex := some x }
/-- A state with a clock. -/
def at_ (c : Nat) (s : State := r) : State := s.setClock { minute := c, valid := true, phaseStart := 0 }
/-- An intake of an edition. -/
def load (g : LoadStage) (f : Form) (ed items : Nat) (segs : List (Option Segment)) : Load :=
  { stage := g, edition := ed, form := f, itemCount := items, digest := digestOf (segs.filterMap id).flatten, urgent := false
    minute := 0, segments := segs, deadline := none, close := some 9, abort := none }
/-- A state with a BLOCK intake. -/
def inBlock (l : Load) (s : State := r) : State := s.setIntakes { s.intakes with block := some l }
/-- A state with a FARE intake. -/
def inFare (l : Load) (s : State := r) : State := s.setIntakes { s.intakes with fare := some l }
/-- A FARE edition of some segments; its record's number is its edition. -/
def fareOf (ed t : Nat) : Fare := { ref := ed, edition := ed, products := 1, digest := 0, segments := [[]], minute := t }
/-- A delta of some segments; its record's number is its edition. -/
def deltaOf (ed n : Nat) : Delta :=
  { ref := ed, edition := ed, changes := 1, urgent := false, digest := 0, segments := List.replicate n [] }
/-- A state with a P, its changeover in some state. -/
def withP (t : Nat) (c : Changeover) (s : State := r) : State :=
  (s.setCat { s.cat with pendingFare := some (fareOf 318 t) }).setChange c
/-- DUE without a request. -/
def due (h : Hold) : Changeover := { state := .due, hold := h, door := none, requested := none, forced := false }
/-- DOOR_WAIT. -/
def doorWait : Changeover := { state := .doorWait, hold := .absent, door := some 60000000, requested := none, forced := true }
/-- STAGING. -/
def staging : Changeover := { state := .staging, hold := .absent, door := none, requested := none, forced := false }
/-- A state with the head at 1204 and a chain of ten deltas from 1194 (06, section 6.2.1). -/
def chain : Catalogue :=
  { r.cat with
    h := 1204, b := 1194
    chain := [(1195, 5), (1196, 8), (1197, 2), (1198, 11), (1199, 7), (1200, 14), (1201, 9), (1202, 103), (1203, 22),
      (1204, 3)].map (fun p => deltaOf p.1 p.2) }
/-- That state, its table READY. -/
def loaded : State := (r.setCat chain).setTable { r.table with state := .ready }
/-- The record that a test's job reads. -/
def recordOf : List Step → Nat
  | .delta e :: _ => e
  | .stage x :: _ => x
  | _ => 0
/-- A BLOCK job of drop 3. -/
def job (plan : List Step) (ph : Phase) : Job :=
  { newJob 2 .block plan 1204 with underWay := true, phase := ph, burstStart := 6, record := recordOf plan }
/-- A state with that job. -/
def working (plan : List Step) (ph : Phase) (s : State := loaded) : State := s.setPlanner { s.planner with jobs := [job plan ph] }
/-- A drop record changed. -/
def with3 (f : Drop → Drop) (s : State := r) : State := s.setDrop 2 (f (s.drop 2))
/-- A state with sixteen answers. -/
def full : State := r.setPort { r.port with answers := List.replicate 16 (.result 1 .ok 0 0 0 0) }
/-- A read mark. -/
def mark (ed : Nat) : Mark :=
  { edition := ed, count := 0, segs := 1, cur := Point.start, burst := Point.start, ack := Point.start }
/-- An answer of drop 3 on the line, with its check. -/
def line (kind : Byte) (payload : List Byte) : List Byte :=
  let c : List Byte := [3, kind, BitVec.ofNat 8 payload.length] ++ payload
  c ++ checkBytes (trunkCheck c)
/-- A segment of one blocklist entry: card 5, ADD, reason 1 (11, section 11.2). -/
def oneEntry : Segment := [5, 0, 0, 0, 0, 0, 0, 0, 1, 0, 0, 0] ++ List.replicate 228 0

/-! ### Well-formedness: each check refuses an ill-formed term -/

theorem test_short_segment_refused : WellFormed (.loadSegment from_ 2 1 0 []) = false := by decide
theorem test_topic_of_the_six_refused : WellFormed (.queryBadTopic from_ 3) = false := by decide
theorem test_cut_answer_refused : WellFormed (.answerComplete [3, 0x22, 1, 0, 0]) = false := by decide
theorem test_whole_answer_well_formed : WellFormed (.answerComplete [3, 0x22, 0, 0, 0]) = true := by decide
theorem test_other_topic_well_formed : WellFormed (.queryBadTopic from_ 7) = true := by decide

/-! ### Messages written out byte by byte from 11, section 11.1; source 0x112233445566, tag 7 -/

theorem test_no_row_gives_bits : decodeTableWord 8 0 = none := rfl

theorem test_decode_load_open :
    decodeMessage 0x112233445566
      [0x01, 7, 0, 20, 0, 2, 2, 1, 0, 0xB5, 0x04, 3, 0, 57, 0, 0, 0, 0x26, 0x39, 0xF4, 0xCB, 0, 0, 0, 0] =
    .ok (.loadOpen from_
      { kind := 2, form := 2, urgent := 1, edition := 1205, segCount := 3, itemCount := 57, digest := 0xCBF43926, minute := 0 })
    := rfl

theorem test_decode_load_close :
    decodeMessage 0x112233445566 [0x03, 7, 0, 4, 0, 2, 0, 0xB5, 0x04, 0, 0] = .ok (.loadClose from_ 2 1205) := rfl
theorem test_decode_load_abort :
    decodeMessage 0x112233445566 [0x04, 7, 0, 4, 0, 1, 0, 0x3E, 0x01] = .ok (.loadAbort from_ 1 318) := rfl
theorem test_decode_query_drop : decodeMessage 0x112233445566 [0x06, 7, 0, 2, 0, 2, 5] = .ok (.queryDrop from_ 5) := rfl
theorem test_decode_query_summary : decodeMessage 0x112233445566 [0x06, 7, 0, 2, 0, 1, 5] = .ok (.querySummary from_) := rfl
theorem test_decode_clear :
    decodeMessage 0x112233445566 [0x07, 7, 0, 7, 0, 0x08, 0x02, 1, 1, 3, 2, 0] =
      .ok (.clear from_ { flags := 0x0208, log := 1, selector := 1, drop := 3, kind := 2, counters := 0 }) := rfl
theorem test_decode_restart : decodeMessage 0x112233445566 [0x08, 7, 0, 0, 0] = .ok (.restart from_) := rfl
theorem test_decode_time :
    decodeMessage 0x112233445566 [0x09, 7, 0, 4, 0, 0x28, 0x70, 0xB1, 0x01] = .ok (.time from_ 28405800) := rfl
theorem test_decode_vehicle : decodeMessage 0x112233445566 [0x0A, 7, 0, 2, 0, 2, 1] = .ok (.vehicle from_ 2 1) := rfl
theorem test_decode_discards :
    decodeMessage 1 [0x08, 7, 0, 0] = .error .shortHeader ∧ decodeMessage 1 [0x0B, 7, 0, 0, 0] = .error .unknownKind ∧
      decodeMessage 1 [0x09, 7, 0, 2, 0, 1, 1] = .error .wrongLength ∧
      decodeMessage 1 [0x09, 7, 0, 4, 0, 1, 1] = .error .shortPayload := ⟨rfl, rfl, rfl, rfl⟩

/-! ### Worked figures of the manual -/

/-- R6, R121: the checks of the nine bytes "123456789". -/
theorem test_digest_check : digestOf [0x31, 0x32, 0x33, 0x34, 0x35, 0x36, 0x37, 0x38, 0x39] = 0xCBF43926 := by decide +kernel
theorem test_trunk_check : checkBytes (trunkCheck [0x31, 0x32, 0x33, 0x34, 0x35, 0x36, 0x37, 0x38, 0x39]) = [0x29, 0xB1] := by
  decide +kernel

/-- 01, section 1.7. -/
theorem test_serial_comparison :
    [(1204, 1199), (1204, 1205), (2, 65534), (1, 65535), (40000, 7233), (40000, 7232), (7232, 40000), (300, 300)].map
      (fun p => serialDist p.2 p.1) = [5, 65534, 3, 1, 32767, 32768, 32767, 0] := by decide
theorem test_newer_wraps : newer 2 65534 = true ∧ newer 7232 40000 = true ∧ newer 40000 7232 = false := by decide

/-- 01, section 1.10. -/
theorem test_service_day :
    [28405800, 28405619, 28405620, 28407059, 179].map (serviceDay 180) = [19726, 19725, 19726, 19726, 0] := by decide
theorem test_expiry :
    ((at_ 1).expiryMatches 19725 28405800, (at_ 1).expiryMatches 19726 28405800, (at_ 1).expiryMatches 0 28405800) =
      (false, true, true) := by decide

/-- 01, section 1.3: the highest segment counts. -/
theorem test_segment_counts : segmentsFor .fare 512 = 86 ∧ segmentsFor .block 131072 = 6554 ∧ segmentsFor .block 2048 = 103 := by
  decide

/-- 06, section 6.2.1, with N = 118,407, then 150, then 150 and bias 200, then the wrap at 65535. -/
theorem test_block_plan :
    [1199, 1190, 1205, 1194, 1204].map (chain.blockForm (Settings.defaults.classes.get 0) 0 118407) =
      [.delta, .full, .full, .delta, .equal] := by decide
theorem test_block_plan_young_list :
    (chain.blockForm (Settings.defaults.classes.get 0) 0 150 1194, chain.blockForm (Settings.defaults.classes.get 0) 200 150 1194) =
      (.full, .delta) := by decide
theorem test_editions_wrap : editionsAfter 65534 3 = [65535, 1, 2] := by decide

/-- 06, section 6.3.1. -/
theorem test_fare_plan :
    [(317, 318), (317, 317), (0, 0), (320, 318)].map
      (fun h => Catalogue.farePlan { chain with active := some (fareOf 317 0), pendingFare := some (fareOf 318 0) } 128
        ⟨h.1, h.2, 0⟩) = [.nothing, .steps [.stage 318] 318, .steps [.stage 318] 318, .ahead] := by decide
theorem test_fare_plan_after_promotion :
    [(318, 318), (317, 318), (0, 0), (320, 318)].map
      (fun h => Catalogue.farePlan { chain with active := some (fareOf 318 0) } 128 ⟨h.1, h.2, 0⟩) =
      [.nothing, .steps [.activate 318] 318, .steps [.stage 318, .activate 318] 318, .ahead] := by decide

/-- 04, section 4.13: four cards before and after the forward apply, and the undo. -/
theorem test_apply_changes :
    [⟨700501, true, 0, 0⟩, ⟨700502, false, 7, 0⟩, ⟨700600, false, 1, 0⟩, ⟨700777, true, 0, 0⟩].foldl (writeChange 1204 1205)
        [⟨700501, 3, 0, 1190, none⟩, ⟨700502, 2, 0, 1201, none⟩] =
      [⟨700501, 3, 0, 1190, some 1205⟩, ⟨700502, 2, 0, 1201, some 1205⟩, ⟨700502, 7, 0, 1205, none⟩, ⟨700600, 1, 0, 1205, none⟩] :=
  by decide
theorem test_undo_takes_back :
    undoneEntries 1205 none
        [⟨700501, 3, 0, 1190, some 1205⟩, ⟨700502, 2, 0, 1201, some 1205⟩, ⟨700502, 7, 0, 1205, none⟩, ⟨700600, 1, 0, 1205, none⟩] =
      [⟨700501, 3, 0, 1190, none⟩, ⟨700502, 2, 0, 1201, none⟩] := by decide

/-- 04, section 4.14: the pass with lowest read edition 1205 and horizon 1198. -/
theorem test_sweep_pass :
    sweptEntries none ⟨1205, 1198, none⟩
        [⟨810001, 1, 0, 1190, none⟩, ⟨810002, 1, 0, 1190, some 1196⟩, ⟨810003, 1, 0, 1199, some 1207⟩,
          ⟨810004, 1, 0, 1190, some 1203⟩, ⟨810004, 1, 0, 1206, none⟩, ⟨810005, 1, 0, 1208, none⟩] =
      [⟨810001, 1, 0, 1198, none⟩, ⟨810003, 1, 0, 1199, some 1207⟩, ⟨810004, 1, 0, 1206, none⟩, ⟨810005, 1, 0, 1208, none⟩] := by
  decide

/-- R71: an entry that the apply of 1205 has closed or made is neither removed nor restamped by a pass (log 35). -/
theorem test_sweep_leaves_the_apply_alone :
    sweptEntries (some 1205) ⟨1205, 1198, none⟩ [⟨810004, 1, 0, 1190, some 1205⟩, ⟨810004, 1, 0, 1205, none⟩] =
      [⟨810004, 1, 0, 1190, some 1205⟩, ⟨810004, 1, 0, 1205, none⟩] := by decide

/-- R181, R187: every counter has its owner's place. -/
theorem test_counters_and_owners : counterOwners.length = 74 ∧ r.counters.length = 74 ∧ r.countersReport.length = 148 := by
  decide +kernel

/-- 09, section 9.8: the five records' verdicts. -/
theorem test_verdicts :
    let s := ((at_ 28405800).setCat { r.cat with h := 1205, b := 1194, active := some (fareOf 318 0) }).setTable
      { r.table with
        state := .ready
        entries := [⟨700600, 1, 0, 1205, none⟩, ⟨912340, 4, 19725, 1199, none⟩, ⟨912377, 2, 0, 1196, none⟩] }
    [⟨4101, 700600, 0, 0, 318, 1204, 1, 0, 28405798⟩, ⟨4102, 912340, 0, 0, 318, 1204, 1, 0, 0⟩,
      ⟨4103, 912377, 0, 0, 318, 1204, 1, 0, 28405799⟩, ⟨4104, 912400, 0, 0, 317, 1204, 1, 0, 28405799⟩,
      ⟨4105, 700600, 0, 0, 318, 1204, 3, 0, 28405800⟩].map (fun t => (s.screened 2 t).verdict) =
      [.lateListed, .clear, .listedIgnored, .staleTariff, .clear] := by decide

/-- 05, section 5.12: the three round lists. -/
theorem test_round_lists :
    let s := ((r.setRoster
      { r.roster with
        drops := (((Per8.all { Drop.reset with presence := .present }).set 1 Drop.reset).set 5 { Drop.reset with presence := .disabled })
        probe := 3, lastTap := some 5 }).setSettings { Settings.defaults with parking := .mru })
    (s.roundList, (s.setRoster { s.roster with probe := 0 }).roundList, (s.setSettings Settings.defaults).roundList) =
      ([6, 7, 0, 2, 3, 4], [6, 7, 0, 1, 2, 3, 4], [0, 2, 3, 4, 6, 7]) := by decide

/-! ### Commands -/

/-- 02, section 2.9. -/
def open1205 : OpenBody :=
  { kind := 2, form := 2, urgent := 1, edition := 1205, segCount := 3, itemCount := 57, digest := 1, minute := 0 }
theorem test_load_open_accepted :
    lastAnswer (execLoadOpen from_ open1205 loaded) = some (.result 7 .accepted 2 1205 3 0) := by decide
theorem test_load_open_gap_and_busy :
    lastAnswer (execLoadOpen from_ { open1205 with edition := 1206 } loaded) = some (.result 7 .gap 2 1206 0 0) ∧
      lastAnswer (execLoadOpen from_ { open1205 with form := 1, edition := 1206 }
        (inBlock (load (.checking .notBegun) .delta 1205 57 []) loaded)) = some (.result 7 .busy 2 1206 0 0) := by decide
theorem test_load_close_incomplete :
    lastAnswer (execLoadClose from_ 2 1205 (inBlock (load .receiving .delta 1205 57 [some [], none, some []]) loaded)) =
      some (.result 7 .incomplete 2 1205 1 1) := by decide
theorem test_load_segment_renews_deadline :
    ((after (execLoadSegment from_ 2 1205 1 oneEntry
      (inBlock (load .receiving .delta 1205 57 [none, none, none]) (at_ 28405801 loaded)))).intakes.block.map Load.deadline) =
      some (some 28405811) := by decide +kernel
theorem test_load_abort_not_open : lastAnswer (execLoadAbort from_ 2 1205 loaded) = some (.result 7 .notOpen 2 1205 0 0) := by
  decide
theorem test_time_of_zero_refused : lastAnswer (execTime from_ 0 r) = some (.result 7 .badValue 0 0 0 0) := by decide
theorem test_query_of_drop_nine_refused : lastAnswer (execQueryDrop from_ 9 r) = some (.result 7 .badValue 0 0 0 0) := by decide
theorem test_minute_advances : (after (execMinuteAdvance (at_ 28405858))).clock = ⟨28405859, true, 60000000⟩ := by decide
theorem test_link_down_counted : (after (execLinkDown (after (execLinkUp r)))).port.linkLoss = 1 := by decide
theorem test_hard_reset_polls_drop_one :
    (after (execHardReset full)).trunk.ex.map (fun x => (x.drop, x.frame)) = some (some 0, .poll 8) := by decide
/-- 08, section 8.9: C reaches the effective minute with hold limit 5 while drop 3 is counted and not armed. -/
theorem test_due_sets_the_hold :
    (after (execMinuteAdvance (with3 (fun d => { d with presence := .present })
      (at_ 28405859 (withP 28405860 staging))))).change = due (.minute 28405865) := by decide
/-- 08, section 8.10: the hold passes with drop 3 unarmed and the doors open; the change waits at the doors as forced. -/
theorem test_hold_passes_at_the_doors :
    (after (execHoldDeadlinePass (with3 (fun d => { d with presence := .present })
      (at_ 28405866 ((withP 28405860 (due (.minute 28405866))).setPort { r.port with door := .open_ }))))).change =
      { doorWait with door := some 60000000 } := by decide
/-- R144: a hold limit that changes in DUE acts from the next entry on; TIME from an invalid clock gives the deadline of the entry.
-/
theorem test_hold_limit_of_the_entry :
    (after (execTime from_ 28405900 (with3 (fun d => { d with presence := .present })
      ((withP 0 (due (.unset 5))).setSettings { Settings.defaults with holdLimit := 9 })))).change = due (.minute 28405905) := by
  decide +kernel
/-- 07, section 7.11: frame 8 of the burst 6 to 9 read back wrong. -/
theorem test_collision_sends_again :
    (after (execCollision (flying (ex (.push .block) (.segment 8 false (some [])) .sending)))).trunk.ex =
      some (ex (.push .block) (.segment 8 false (some [])) .quiet) := by decide
/-- 07, section 7.11: ACK n = 8 to the burst 6 to 9 sends frame 8 again. -/
theorem test_go_back :
    ((after (execAnswerComplete (line 0x21 [8, 0, 2, 0])
      (flying (ex (.push .block) (.segment 9 true (some [])) .receiving) (working [.delta 1200] .segments)))).trunk.ex.map
      (fun x => (x.frame, x.lastResend, x.stage))) = some (.segment 8 false none, some 8, .quiet) := by decide +kernel
/-- 05, section 5.11: the fourth miss in a row loses the drop. -/
theorem test_fourth_miss_loses_the_drop :
    let t := after (execReplyTimeout (flying (ex .roundPoll (.poll 8) .awaiting)
      (with3 (fun d => { d with presence := .fading, run := 3 }))))
    ((t.drop 2).presence, (t.drop 2).counters.losses, t.port.flags.dropLost.map Ctx.drop) = (.absent, 1, some (some 2)) := by decide

/-- R42, R47: with a newer record of the same edition in the chain, a job reads, and is served from, the record that it was opened
from. -/
theorem test_record_of_the_same_edition :
    let j := job [.delta 1204] .segments
    let c := { chain with chain := [{ deltaOf 1204 9 with ref := 1 }], retired := [deltaOf 1204 3] }
    c.deltaOf j 1204 = some (deltaOf 1204 3) ∧ readers [j] .block 1204 = 1 ∧ readers [j] .block 1 = 0 := by decide +kernel
/-- R124: a character restarts the quiet time also in an answer, and an answer cut short ends the quiet time after its last
character; 24 bit times at 1000 kbit/s are 24 microseconds. -/
theorem test_incomplete_answer_keeps_its_quiet_time :
    let x := ex .roundPoll (.poll 8) .receiving
    let s := (flying x).setTimebase 100
    (after (execCharacterReceived s)).trunk.lineFrom = 100 ∧
      (after (execAnswerIncomplete (after (execCharacterReceived s)))).timebase = 124 ∧
      (after (execAnswerIncomplete (after (execCharacterReceived s)))).trunk.lineFrom = 100 := by decide +kernel

/-! ### Witnesses: for each obligation with hypotheses, states and operands that meet them, clause by clause -/

/-- A state whose answer queue has one place left, and that place owed to a pending close: no answer room (R176). -/
def owed : State := (inBlock (load (.checking .notBegun) .delta 1205 57 [])).setPort
  { r.port with answers := List.replicate 15 (.result 1 .ok 0 0 0 0) }
/-- A state with one place left in the answer queue. -/
def nearlyFull : State := r.setPort { r.port with answers := List.replicate 15 (.result 1 .ok 0 0 0 0) }
/-- A frame in transmission. -/
def sending (b : TxBody) : State := r.setPort { r.port with tx := some { dest := 1, etherType := 0x88B5, body := b } }
/-- A context of a flag. -/
def ctx : Ctx := { edition := 0, code := none, drop := some 2, minute := 0 }
/-- A port on which DROP_LOST is set and its NOTICE waits. -/
def lost : Port := r.port.raise r.settings.enables .dropLost ctx
/-- That port after the flag has been cleared. -/
def cleared : Port := { lost with flags := r.port.flags }
/-- A configuration record that passes its checks: one class, a FULL-size window at 0. -/
def raw : RawConfig :=
  { protocolType := 0x88B5, enLoad := 1, enDrop := 1, enJob := 1, enChangeover := 1, enTable := 1, enTapq := 1, dayStart := 180
    idleTimeout := 10, classes := ⟨⟨0, 65536, 0, 0, 1⟩, ⟨0, 0, 0, 0, 0⟩, ⟨0, 0, 0, 0, 0⟩, ⟨0, 0, 0, 0, 0⟩⟩
    dropMap := ⟨⟨1, 0⟩, ⟨1, 3⟩, ⟨0, 0⟩, ⟨1, 0⟩, ⟨1, 0⟩, ⟨1, 0⟩, ⟨1, 0⟩, ⟨1, 0⟩⟩, pollMode := 1, period := 4, divisor := 4
    parking := 1, bias := 0, levelUrgent := 3, levelRoutine := 2, levelFare := 2, floorDepot := 1, floorClosed := 1
    floorOpen := 3, retryLimit := 8, rate := 1000, quiet := 24, replyTimeout := 500, waitInterval := 5, waitLimit := 20
    burst := 4, paceService := 4, paceDepot := 32, holdLimit := 5, doorLimit := 60 }
/-- A state whose one job has FAILED. -/
def failing (s : State := loaded) : State := s.setPlanner { s.planner with jobs := [{ job [.delta 1204] .open_ with state := .failed }] }
/-- Drop 3 PRESENT with its holdings known, on a hub that has just had its round. -/
def ready3 (h : Holdings) (s : State := loaded) : State :=
  with3 (fun d => { d with presence := .present, known := true, holdings := h })
    (s.setRoster { s.roster with lastRound := some 0 })
/-- A CLEAR. -/
def clearOf (selector drop kind : Byte) : ClearBody := { flags := 0, log := 1, selector, drop, kind, counters := 1 }

theorem test_witness_StepWithEmptyQueuePassesTime : r.pending = [] := by decide

theorem test_witness_RestartActsOnEveryBlock :
    (∀ l, loaded.intakes.block = some l → l.stage ≠ .rebuilding) ∧ loaded.answerRoom = true ∧
      (let s := inBlock (load .rebuilding .full 1300 0 [])
       (∃ l, s.intakes.block = some l ∧ l.stage = .rebuilding) ∧ s.answerRoom = true) :=
  ⟨nofun, by decide, ⟨_, rfl, rfl⟩, by decide⟩

/-- The inner cases of a warm restart: an apply under way; a P that is due, with and without a request, and one that is not. -/
theorem test_witness_RestartActsOnEveryBlock_inner :
    (after (execWarmRestart (withP 0 (due .absent)))).change.requested = some 318 ∧
      (withP 0 (due .absent)).change.state ≠ .idle ∧ (at_ 5 (withP 6 staging)).change.state ≠ .idle ∧
      (inBlock (load .applying .delta 1205 57 [])).intakes.block.map Load.stage = some .applying ∧
      (after (execWarmRestart r)).change.requested = none ∧ ((after (execWarmRestart r)).drop 7).presence = .absent := by
  decide +kernel

theorem test_witness_NoAnswerRoomDiscardsTheMessage :
    Instr.head? (.restart from_) = some from_ ∧ full.answerRoom = false ∧ owed.answerRoom = false ∧
      nearlyFull.answerRoom = true := by decide

theorem test_witness_LinkStateGovernsTheUplink :
    r.port.tx = none ∧ (sending (.taps 1)).port.tx.isSome = true ∧ (r.setPort { r.port with linkUp := true }).port.linkUp = true ∧
      r.port.linkUp = false := by decide

theorem test_witness_CompletedFrameLeavesItsQueue :
    (sending (.answer (.result 1 .ok 0 0 0 0))).port.tx.map Tx.body = some (.answer (.result 1 .ok 0 0 0 0)) ∧
      (sending (.notice ⟨.dropLost, ctx⟩)).port.tx.map Tx.body = some (.notice ⟨.dropLost, ctx⟩) ∧
      (sending (.taps 8)).port.tx.map Tx.body = some (.taps 8) := by decide

theorem test_witness_RaisingAFlagQueuesOneNotice :
    (lost.flags.get .dropLost).isSome = true ∧ cleared.flags.get .dropLost = none ∧ (⟨.dropLost, ctx⟩ : Notice) ∈ cleared.notices ∧
      r.port.flags.get .loadDone = none ∧ r.port.notices = [] ∧ r.settings.enables.has .dropLost = true ∧
      Enables.has ⟨true, false, true, true, true, true⟩ .dropLost = false := by decide

theorem test_witness_QueryIsAnsweredWithItsReport :
    nearlyFull.answerRoom = true ∧ (1 : Byte).toNat = (0 : DropId).val + 1 ∧ (8 : Byte).toNat = (7 : DropId).val + 1 := by decide

theorem test_witness_RefusedMessagesChangeNothing :
    nearlyFull.answerRoom = true ∧ (0 : Byte).toNat = 0 ∧ 8 < (9 : Byte).toNat ∧ 2 < (clearOf 3 1 1).selector.toNat ∧
      ((clearOf 1 0 1).selector.toNat = 1 ∧ (clearOf 1 0 1).drop.toNat = 0) ∧ 8 < (clearOf 1 9 1).drop.toNat ∧
      ((clearOf 1 1 0).kind.toNat ≠ 1 ∧ (clearOf 1 1 0).kind.toNat ≠ 2) ∧
      RawClass.ok ((Per4.get { raw.classes with c3 := ⟨1, 2, 0, 0, 0⟩ }) 3) = false ∧
      (∀ i, RawClass.ok (raw.classes.get i) = true) ∧ 1 < (RawMapEntry.enable ⟨2, 0⟩).toNat ∧
      3 < (RawMapEntry.cls ⟨1, 4⟩).toNat := by decide +kernel

theorem test_witness_ClearTakesItsSelectors :
    r.answerRoom = true ∧ (clearOf 0 0 0).selector.toNat = 0 ∧ (clearOf 2 0 0).selector.toNat = 2 ∧
      (let c := clearOf 1 8 2; c.selector.toNat = 1 ∧ 1 ≤ c.drop.toNat ∧ c.drop.toNat ≤ 8 ∧ c.kind.toNat = 2) ∧
      (flying (ex .roundPoll (.poll 8) .quiet)).trunk.ex.isSome = true ∧ (clearOf 0 0 0).counters ≠ 0 ∧
      (flying (ex .roundPoll (.poll 8) .quiet)).answerRoom = true := by decide

/-- A FAILED job named by selector 1 and by selector 2, and a job that is not FAILED, with an exchange in flight. -/
theorem test_witness_ClearTakesItsSelectors_named :
    let s := failing (flying (ex .roundPoll (.poll 8) .quiet) loaded)
    s.answerRoom = true ∧ s.trunk.ex.isSome = true ∧ (s.planner.jobs.map (fun j => (j.drop, j.kind))).Nodup ∧
      (s.job? 2 .block).map Job.state = some .failed ∧ (clearOf 1 3 2).selector.toNat = 1 ∧
      (clearOf 1 3 2).drop.toNat = (2 : DropId).val + 1 ∧ kindOf (clearOf 1 3 2).kind = some .block ∧
      (job [.delta 1204] .open_).state ≠ .failed := by decide

theorem test_witness_ConfigureAppliesTheRecord :
    r.answerRoom = true ∧ (∀ i, RawClass.ok (raw.classes.get i) = true) ∧
      (∀ d, (raw.dropMap.get d).enable.toNat ≤ 1 ∧ (raw.dropMap.get d).cls.toNat ≤ 3) ∧ (raw.dropMap.get 0).enable = 1 ∧ (r.drop 0).stopping = false ∧
      (r.drop 0).presence ≠ .disabled ∧ ((with3 (fun d => { d with stopping := true })).drop 2).stopping = true ∧
      ((with3 (fun d => { d with presence := .disabled })).drop 2).presence = .disabled ∧ (raw.dropMap.get 2).enable = 0 ∧
      (r.drop 2).presence ≠ .disabled ∧ r.trunk.ex = none := by decide +kernel

/-- The judgement of readiness at a CONFIGURE (R147): a DUE P whose last unarmed counted drop the record disables, with its hold
deadline ahead; that drop armed; the hold passed with the drop unarmed. -/
theorem test_witness_ConfigureAppliesTheRecord_judged :
    let s := with3 (fun d => { d with presence := .present }) (withP 0 (due (.minute 6)))
    s.answerRoom = true ∧ s.change.state = .due ∧ s.change.requested = none ∧ s.cat.pendingFare = some (fareOf 318 0) ∧
      s.change.hold ≠ .passed ∧ s.allArmed 318 = false ∧ (after (execConfigure from_ raw s)).change.requested = some 318 ∧
      (after (execConfigure from_ { raw with dropMap := { raw.dropMap with d3 := ⟨1, 0⟩ } } s)).change = s.change ∧
      (withP 0 (due .passed)).change.hold = .passed ∧ r.change.state ≠ .due := by decide +kernel

/-- A drop that the record disables while its POLL is on the line, and while another drop's is. -/
theorem test_witness_ConfigureAppliesTheRecord_inFlight :
    let x := ex .roundPoll (.poll 8) .awaiting
    (flying x).trunk.ex = some x ∧ x.drop = some 2 ∧ x.stage ≠ .pause ∧ x.stage ≠ .quiet ∧ (flying x).answerRoom = true ∧
      (flying { x with drop := some 0 }).trunk.ex.bind Exchange.drop ≠ some 2 := by decide

/-- A drop that the record disables while its exchange pauses, or waits to be sent again after a WAIT; an exchange that goes on; a
drop whose enable value does not change, on and off; a record that calls for a re-plan and one that does not. -/
theorem test_witness_ConfigureAppliesTheRecord_pausing :
    (ex .roundPoll (.poll 8) .pause).stage = .pause ∧ ({ ex .roundPoll (.poll 8) .quiet with waits := 1 } : Exchange).waits = 1 ∧
      ¬((ex .roundPoll (.poll 8) .awaiting).stage = .pause ∨ (ex .roundPoll (.poll 8) .awaiting).stage = .quiet) ∧
      (∀ d, ({ ex .broadcast (.activate 318) .quiet with drop := none } : Exchange).drop ≠ some d) ∧
      ((raw.dropMap.get 0).enable = 1 ∧ (r.drop 0).presence ≠ .disabled ∧ (r.drop 0).stopping = false) ∧
      (let s := with3 (fun d => { d with presence := .disabled })
       (raw.dropMap.get 2).enable ≠ 1 ∧ (s.drop 2).presence = .disabled ∧ (s.drop 2).stopping = false) ∧
      r.settings.replans (RawConfig.applied raw 0x88B5) = true ∧
      (RawConfig.applied raw 0x88B5).replans (RawConfig.applied raw 0x88B5) = false := by decide +kernel

theorem test_witness_VehicleSetsModeAndDoors :
    r.answerRoom = true ∧ (withP 0 doorWait).answerRoom = true ∧ (withP 0 doorWait).change.state = .doorWait ∧
      (withP 0 doorWait).cat.p? = some 318 ∧ (withP 0 doorWait).trunk.ex = none ∧
      (flying (ex .roundPoll (.poll 8) .quiet) (withP 0 doorWait)).trunk.ex.isSome = true ∧
      ¬(r.change.state = .doorWait ∧ (2 : Byte) = 2) := by decide

theorem test_witness_TimeSetsTheClock :
    r.answerRoom = true ∧ (1 : BitVec 32) ≠ 0 ∧ r.clock.valid = false ∧ (at_ 1).clock.valid = true ∧
      (at_ 1).clock.minute = (1 : BitVec 32).toNat ∧ (at_ 2).clock.minute ≠ (1 : BitVec 32).toNat ∧
      (at_ 1).answerRoom = true := by decide

theorem test_witness_MinuteAdvanceIsOneClockChange :
    (at_ 4294967294).clock.minute < 4294967295 ∧ 4294967295 ≤ (at_ 4294967295).clock.minute ∧ (at_ 1).clock.valid = true ∧
      r.clock.valid = false := by decide

/-- The inner cases of a clock change: STAGING with P due and not due, a hold minute that passes and one that does not, no hold,
and a standing request. -/
theorem test_witness_ClockChanged_inner :
    (withP 6 staging).change.state = .staging ∧ (withP 6 staging).cat.pendingFare = some (fareOf 318 6) ∧
      (fareOf 318 6).minute ≤ 6 ∧ ¬(fareOf 318 6).minute ≤ 5 ∧ (withP 0 (due (.minute 6))).change.state = .due ∧
      (withP 0 (due (.minute 6))).change.requested = none ∧ (withP 0 (due (.minute 6))).cat.p? = some 318 ∧
      (withP 0 (due (.unset 5))).change.hold = .unset 5 ∧ (withP 0 (due .absent)).change.hold = .absent ∧ r.change.state = .idle ∧
      (withP 0 { due .absent with requested := some 318 }).change.requested.isSome = true := by decide

theorem test_witness_IdleDeadlineDiscardsTheIntake :
    let l : Load := { load .receiving .delta 1205 57 [none] with deadline := some 7 }
    let s := at_ 5 (inBlock l)
    s.intake .block = some l ∧ l.stage = .receiving ∧ l.deadline = some 7 ∧ s.clock.valid = true ∧ 7 ≤ 4294967295 ∧
      s.clock.minute < 7 ∧ (at_ 7 (inBlock l)).intake .block = some l ∧ 7 ≤ (at_ 7 (inBlock l)).clock.minute := by decide

theorem test_witness_HoldDeadlineMakesTheBusReady :
    let s := at_ 5 (withP 0 (due (.minute 6)))
    s.change.state = .due ∧ s.change.requested = none ∧ s.change.hold = .minute 6 ∧ s.cat.p? = some 318 ∧ s.clock.valid = true ∧
      s.clock.minute < 6 ∧ s.allArmed 318 = true ∧ s.port.door = .closed ∧
      (with3 (fun d => { d with presence := .present }) s).allArmed 318 = false ∧ s.port.flags.changeoverHeld = none ∧
      6 ≤ (at_ 6 s).clock.minute := by decide

theorem test_witness_DoorDeadlineDecidesActivation :
    let s := withP 0 doorWait
    s.change.state = .doorWait ∧ s.change.door = some 60000000 ∧ s.cat.p? = some 318 ∧ s.trunk.ex = none ∧
      (flying (ex .roundPoll (.poll 8) .quiet) s).trunk.ex.isSome = true := by decide

/-- One opening for each of the nine tests. -/
theorem test_witness_LoadOpenRefusedByFirstFailingTest :
    loaded.answerRoom = true ∧
      ([{ open1205 with kind := 3 }, { open1205 with itemCount := 2049 }, { open1205 with itemCount := 0 },
          { open1205 with segCount := 2 },
          { open1205 with kind := 1, form := 1, edition := 317, segCount := 1, itemCount := 1 },
          { open1205 with form := 1, edition := 1204 }, { open1205 with edition := 1203 },
          { open1205 with edition := 1206 }].map
        (fun b => ((openTests (loaded.setCat { chain with active := some (fareOf 317 0) }).cat b).find? (fun q => !q.1)).map
          Prod.snd)) =
        [some .badForm, some .tooLarge, some .badForm, some .badForm, some .stale, some .stale, some .stale, some .gap] ∧
      ((openTests r.cat open1205).find? (fun q => !q.1)).map Prod.snd = some .gap := by decide +kernel

theorem test_witness_LoadOpenTakenAgainstItsContext :
    (openTests loaded.cat open1205).all (fun q => q.1) = true ∧ loaded.answerRoom = true ∧ loaded.intake .block = none ∧
      (let l := load .receiving .delta 1205 57 [none, none, none]
       (inBlock l loaded).intake .block = some l ∧ l.stage = .receiving) ∧
      (let l := load .applying .delta 1205 57 [none, none, none]
       (inBlock l loaded).intake .block = some l ∧ l.stage ≠ .receiving) ∧
      (openTests r.cat { open1205 with kind := 1, form := 1, edition := 1, segCount := 1, itemCount := 6 }).all (fun q => q.1) =
        true := by decide +kernel

theorem test_witness_LoadSegmentStoredDuplicateOrStray :
    oneEntry.length = 240 ∧ kindOf 2 = some .block ∧
      (let l := load .receiving .delta 1205 57 [none, some [], none]
       (inBlock l).intake .block = some l ∧ l.stage = .receiving ∧ l.edition = (1205 : BitVec 16).toNat ∧
         l.segments[(2 : BitVec 16).toNat]? = some none ∧ l.segments[(1 : BitVec 16).toNat]? = some (some []) ∧
         l.segments.length ≤ (3 : BitVec 16).toNat ∧ l.edition ≠ (1206 : BitVec 16).toNat) ∧ kindOf 3 = none := by decide +kernel

theorem test_witness_LoadCloseStartsTheCheck :
    (let l := load .receiving .delta 1205 57 [none, some []]
     (inBlock l).intake .block = some l ∧ (inBlock l).answerRoom = true ∧ l.edition = (1205 : BitVec 16).toNat ∧
       l.stage = .receiving ∧ none ∈ l.segments ∧ none ∉ (load .receiving .delta 1205 57 [some []]).segments) ∧
      (load .applying .delta 1205 57 []).stage ≠ .receiving ∧ (r.intake .block = none ∧ r.answerRoom = true) := by decide

theorem test_witness_LoadAbortByState :
    kindOf 2 = some .block ∧ (load .applying .delta 1205 57 []).abort = none ∧
      ({ load .applying .delta 1205 57 [] with abort := some 3 } : Load).abort.isSome = true ∧
      (let s := (inBlock (load .applying .delta 1205 57 []) loaded).setTable
        { loaded.table with state := .applying 1205 5 (.write 0) }
       s.intake .block = some (load .applying .delta 1205 57 []) ∧ s.answerRoom = true ∧
         s.table.state = .applying 1205 5 (.write 0)) ∧
      (inBlock (load .rebuilding .full 1300 0 [])).intake .block = some (load .rebuilding .full 1300 0 []) ∧
      (inBlock (load (.checking .begun) .delta 1205 57 [])).answerRoom = true := by decide

theorem failsDigest (s : State) (k : Kind) (l : Load) (third : Stage3) (h : digestOf (l.segments.filterMap id).flatten ≠ l.digest) :
    CheckFails s k l third .digestBad 0 := by
  simp only [CheckFails, ne_eq, h, not_false_eq_true, if_true, and_self]

theorem failsForm (s : State) (k : Kind) (l : Load) (third : Stage3) (i : Nat)
    (h : digestOf (l.segments.filterMap id).flatten = l.digest)
    (g : firstMalformed k l.form l.itemCount (l.segments.filterMap id) = some i) : CheckFails s k l third .malformed i := by
  simp only [CheckFails, h, ne_eq, not_true_eq_false, if_false]
  exact .inl ⟨trivial, (firstMalformed_eq_some_iff _ _ _ _ _).mp g⟩

theorem passes (k : Kind) (l : Load) (h : digestOf (l.segments.filterMap id).flatten = l.digest)
    (g : firstMalformed k l.form l.itemCount (l.segments.filterMap id) = none) : CheckPasses k l :=
  ⟨h, (firstMalformed_eq_none_iff _ _ _ _).mp g⟩

theorem failsRoom (s : State) (l : Load) (f : Figures) (h : CheckPasses .block l) (hf : l.form = .delta)
    (g : f.available < f.adds ∨ 131072 < f.liveAfter) : CheckFails s .block l (.formed f) .tableFull 0 := by
  simp only [CheckFails, h.1, ne_eq, not_true_eq_false, if_false]
  exact .inr ⟨h.2, trivial, hf, trivial, trivial, f, .inl rfl, g⟩

/-- The three refusals of a check: a digest that differs, a slot that fails, figures that exceed the table's. -/
theorem test_witness_CheckRefusesTheEdition_digest (s : State) :
    CheckFails s .block { load (.checking .notBegun) .delta 1205 1 [some [5]] with digest := 0 } .notBegun .digestBad 0 :=
  failsDigest _ _ _ _ (show digestOf (([some [5]] : List (Option Segment)).filterMap id).flatten ≠ 0 by decide +kernel)
theorem test_witness_CheckRefusesTheEdition_form (s : State) :
    CheckFails s .block (load (.checking .notBegun) .delta 1205 2 [some oneEntry]) .notBegun .malformed 1 := by
  have h : firstMalformed .block .delta 2 ([some oneEntry].filterMap id) = some 1 := by decide +kernel
  generalize oneEntry = e at h ⊢
  exact failsForm s .block (load (.checking .notBegun) .delta 1205 2 [some e]) .notBegun 1 rfl h
theorem test_witness_CheckRefusesTheEdition_room (s : State) :
    CheckFails s .block (load (.checking (.formed ⟨1, 131073, 0, 1, 0⟩)) .delta 1205 1 [some oneEntry])
      (.formed ⟨1, 131073, 0, 1, 0⟩) .tableFull 0 := by
  have h : firstMalformed .block .delta 1 ([some oneEntry].filterMap id) = none := by decide +kernel
  generalize oneEntry = e at h ⊢
  exact failsRoom s _ ⟨1, 131073, 0, 1, 0⟩ (passes _ _ rfl h) rfl (.inr (by decide))

/-- A FARE edition of one product that passes its check (11, section 11.2). -/
def oneProduct : Segment := [5, 0, 1, 1, 0, 0, 1, 0, 60, 0, 0, 0, 0, 0] ++ List.replicate 226 0
theorem test_witness_CheckPassesTheFareEdition :
    CheckPasses .fare (load (.checking .notBegun) .full 318 1 [some oneProduct]) ∧ r.change.requested = none ∧
      (withP 0 { due .absent with requested := some 318 }).change.requested.isSome = true := by
  refine ⟨passes _ _ rfl ?_, by decide⟩
  show firstMalformed .fare .full 1 [oneProduct] = none
  decide +kernel

theorem test_witness_DeltaCheckWaits_and_CheckStartsTheRebuild :
    CheckPasses .block (load (.checking .notBegun) .delta 1205 1 [some oneEntry]) ∧
      CheckPasses .block (load (.checking .notBegun) .full 1205 1 [some oneEntry]) ∧ loaded.table.sweep = none ∧
      loaded.table.sweepRequest = false := by
  have h : firstMalformed .block .delta 1 [oneEntry] = none := by decide +kernel
  have g : firstMalformed .block .full 1 [oneEntry] = none := by decide +kernel
  exact ⟨passes _ _ rfl h, passes _ _ rfl g, rfl, rfl⟩

/-- Figures at their limits: as many slots as ADDs, and 131,072 entries live after. -/
theorem test_witness_DeltaCheckWaitsThenStartsTheApply_figures :
    let f : Figures := ⟨1, 131072, 0, 1, 0⟩
    (load (.checking (.formed f)) .delta 1205 1 [some oneEntry]).stage = .checking (.formed f) ∧ f.adds ≤ f.available ∧
      f.liveAfter ≤ 131072 := by decide

theorem test_witness_ApplyComplete_UndoComplete_RebuildComplete :
    let s := inBlock (load .applying .delta 1205 1 [some oneEntry]) loaded
    s.intakes.block = some (load .applying .delta 1205 1 [some oneEntry]) ∧
      (s.setTable { s.table with state := .applying 1205 1 (.purge none) }).table.state = .applying 1205 1 (.purge none) ∧
      (∀ p, ApplyWork.purge none ≠ .undo p) ∧
      (s.setTable { s.table with state := .applying 1205 1 (.undo none) }).table.state = .applying 1205 1 (.undo none) ∧
      (s.setTable { s.table with state := .rebuilding 1205 0 }).table.state = .rebuilding 1205 0 ∧
      s.port.restartHeld = false ∧ (s.setPort { s.port with restartHeld := true }).port.restartHeld = true := by
  refine ⟨rfl, rfl, nofun, rfl, rfl, rfl, rfl⟩

theorem test_witness_SweepPassCompletesAndMayRestart :
    (r.setTable { r.table with sweep := some ⟨1205, 1198, none⟩ }).table.sweep = some ⟨1205, 1198, none⟩ ∧
      newer 1205 1205 = false ∧ newer 1206 1205 = true ∧ (⟨1, 1, 0, 1190, some 1205⟩ : Entry).until_ = some 1205 := by decide

/-- Entries in the visiting order, the first of them before the place and the others after it: for a pass, and for an undo. -/
theorem test_witness_Sweep_and_Undo_order :
    let a : Entry := ⟨5, 1, 0, 1190, some 1203⟩
    let b : Entry := ⟨5, 1, 0, 1204, none⟩
    let c : Entry := ⟨6, 1, 0, 1190, none⟩
    afterPlace (some (5, 1190)) a = false ∧ afterPlace (some (5, 1190)) b = true ∧ afterPlace none a = true ∧
      (a.card = b.card ∧ newer b.since a.since = true) ∧ b.card < c.card ∧
      (sweepEntry none 1205 1198 a = none) ∧ sweepEntry none 1205 1198 c = some { c with since := 1198 } ∧
      (Machine.TableState.applying 1205 1 (.purge none)).writing = some 1205 ∧ Machine.TableState.ready.writing = none := by
  decide

/-- No head, and a head with a read mark behind it. -/
theorem test_witness_FrontierHolds :
    r.cat.h = 0 ∧ loaded.cat.h ≠ 0 ∧ (loaded.setMark 2 (some (mark 1190))).mark 2 = some (mark 1190) ∧
      (loaded.setMark 2 (some (mark 1190))).lowestRead = 1190 ∧ loaded.lowestRead = 1204 ∧ loaded.horizon = 1194 := by decide

/-- A lagging mark that a FULL step under way holds. -/
theorem test_witness_NoMarkLagsMoreThan64Editions_step :
    let s := (working [.full] .segments).setMark 2 (some (mark 1139))
    s.mark 2 = some (mark 1139) ∧ 64 < serialDist 1139 s.cat.h ∧ s.job? 2 .block = some (job [.full] .segments) ∧
      (job [.full] .segments).underWay = true := by decide

/-- A mark 64 editions behind h stands, one 65 behind is ended. -/
theorem test_witness_NoMarkLagsMoreThan64Editions :
    let s := loaded.setMark 2 (some (mark 1140))
    s.mark 2 = some (mark 1140) ∧ serialDist 1140 s.cat.h = 64 ∧ (allDrops.foldl State.lagCheck s).mark 2 = some (mark 1140) ∧
      (allDrops.foldl State.lagCheck (loaded.setMark 2 (some (mark 1139)))).mark 2 = none := by decide +kernel

theorem test_witness_QuietTimeMetSendsTheFrame :
    (let x := ex .roundPoll (.poll 8) .quiet
     (flying x).trunk.ex = some x ∧ x.stage = .quiet) ∧
      (let x := ex (.push .block) (.segment 8 false none) .quiet
       let s := flying x (working [.delta 1202] .segments)
       s.trunk.ex = some x ∧ x.drop = some 2 ∧ (s.drop 2).stopping = false ∧ x.detached = false ∧
         s.job? 2 .block = some (job [.delta 1202] .segments) ∧ s.cat.deltaOf (job [.delta 1202] .segments) 1202 = some (deltaOf 1202 103)) ∧
      ({ ex (.push .block) (.segment 8 false none) .quiet with detached := true } : Exchange).detached = true ∧
      (job [.delta 1202] .segments).underWay = true ∧ (newJob 2 .block [.delta 1202] 1204).underWay = false ∧
      ((loaded.setMark 2 (some (mark 1204))).mark 2 = some (mark 1204)) ∧
      ((withP 0 staging).cat.fareOf (job [.stage 318] .segments) 318 = some (fareOf 318 0)) := by decide +kernel

theorem test_witness_LineEventsMoveTheStage :
    (flying (ex .roundPoll (.poll 8) .sending)).trunk.ex = some (ex .roundPoll (.poll 8) .sending) ∧
      (ex .roundPoll (.poll 8) .pause).stage = .pause ∧ (ex .roundPoll (.poll 8) .awaiting).stage = .awaiting ∧
      r.trunk.ex = none := by decide

theorem test_witness_SentFrameAwaitsOrContinues :
    (let x := ex (.push .block) (.segment 8 false (some [])) .sending
     (flying x).trunk.ex = some x ∧ x.stage = .sending ∧ x.drop = some 2 ∧ ((flying x).drop 2).stopping = false ∧
       x.detached = false) ∧
      (∀ i p, TrunkFrame.segment 9 true (some []) ≠ .segment i false p) ∧
      ((with3 (fun d => { d with stopping := true })).drop 2).stopping = true := by
  refine ⟨by decide, ?_, by decide⟩
  intro i p h; injection h; contradiction

/-- The broadcast of P, and that of a p which a newer P has withdrawn, that newer P due and not due. -/
theorem test_witness_BroadcastSentPromotes :
    let x : Exchange := { ex .broadcast (.activate 318) .sending with drop := none }
    (flying x (withP 0 (due .absent))).trunk.ex = some x ∧ x.stage = .sending ∧ x.drop = none ∧ x.frame = .activate 318 ∧
      (withP 0 (due .absent)).cat.pendingFare = some (fareOf 318 0) ∧ (withP 0 (due .absent)).cat.hold = none ∧
      (let s := r.setCat { r.cat with pendingFare := some (fareOf 319 0), withdrawn := [fareOf 318 0], hold := some 318 }
       s.cat.hold = some 318 ∧ (fareOf 319 0).ref ≠ 318 ∧
         s.cat.withdrawn.find? (fun r => r.edition == 318 && r.ref == 318) = some (fareOf 318 0)) ∧
      (fareOf 319 0).minute = 0 ∧ (fareOf 319 1).minute ≠ 0 := by decide

theorem test_witness_MissEndsTheExchange :
    (flying (ex .roundPoll (.poll 8) .awaiting)).trunk.ex = some (ex .roundPoll (.poll 8) .awaiting) ∧
      (ex .roundPoll (.poll 8) .receiving).stage = .receiving ∧ (ex .roundPoll (.poll 8) .receiving).drop = some 2 ∧
      judgeAnswer (some 2) (.poll 8) [3, 0x22, 0, 0, 0] = none := by decide +kernel

/-- The lengths at which the clauses meet: a STATUS of one record against an allowance of 1 and of 0. -/
theorem test_witness_AnswerIsGarbledByTheListedTests :
    (line 0x22 [0]).length = 6 ∧ judgeAnswer (some 2) (.poll 8) (line 0x22 []) = some .wait ∧
      judgeAnswer (some 2) (.poll 8) (line 0x22 [0]) = none ∧ judgeAnswer (some 1) (.poll 8) (line 0x22 []) = none ∧
      (judgeAnswer (some 2) (.poll 1) (line 0x20 ([0, 0, 0, 0, 0, 0, 0, 0, 1] ++ List.replicate 24 0))).isSome = true ∧
      judgeAnswer (some 2) (.poll 0) (line 0x20 ([0, 0, 0, 0, 0, 0, 0, 0, 1] ++ List.replicate 24 0)) = none := by
  decide +kernel

theorem test_witness_WaitPausesOrEndsTheExchange :
    let x := { ex .roundPoll (.poll 8) .receiving with waits := 19 }
    (flying x).trunk.ex = some x ∧ x.stage = .receiving ∧ x.drop = some 2 ∧
      judgeAnswer x.drop x.frame (line 0x22 []) = some .wait ∧ x.waits + 1 ≤ x.set.waitLimit ∧
      x.set.waitLimit < { x with waits := 20 }.waits + 1 ∧ ((flying x).drop 2).stopping = false ∧
      ((flying x (with3 (fun d => { d with stopping := true }))).drop 2).stopping = true := by decide +kernel

/-- The end of an exchange: a drop that stays PRESENT, one that stays FADING, one that was stopping, and the pair's job. -/
theorem test_witness_ExchangeEnds_inner :
    (working [.delta 1204] .segments).job? 2 .block = some (job [.delta 1204] .segments) ∧
      (ex (.push .block) (.close 0) .receiving).kind = .push .block ∧
      ((with3 (fun d => { d with presence := .present })).drop 2).presence = .present ∧
      (let d := (with3 (fun d => { d with presence := .fading, run := 2 })).drop 2; d.presence = .fading ∧ d.run < 3) ∧
      (r.drop 2).stopping = false ∧ ((with3 (fun d => { d with stopping := true })).drop 2).stopping = true := by decide

theorem test_witness_StatusGivesHoldingsAndTaps :
    let x := ex .roundPoll (.poll 8) .receiving
    (flying x).trunk.ex = some x ∧ x.stage = .receiving ∧ x.drop = some 2 ∧
      judgeAnswer x.drop x.frame (line 0x20 [1, 0, 2, 0, 3, 0, 4, 0, 0]) = some (.status ⟨1, 2, 3⟩ 4 []) := by decide +kernel

/-- Holdings that are new and holdings that are not; a round poll, an urgent poll and a push; a tap that is LATE_LISTED; a stopping
drop. -/
theorem test_witness_StatusGivesHoldingsAndTaps_planned :
    let s := flying (ex .roundPoll (.poll 8) .receiving) (ready3 ⟨1, 2, 3⟩)
    (s.drop 2).stopping = false ∧ ¬((s.drop 2).known = false ∨ (s.drop 2).holdings ≠ ⟨1, 2, 3⟩ ∨ (s.drop 2).presence = .joining) ∧
      (s.drop 2).holdings ≠ ⟨1, 2, 4⟩ ∧ (ex .urgentPoll (.poll 8) .receiving).kind = .urgentPoll ∧
      ((with3 (fun d => { d with stopping := true })).drop 2).stopping = true ∧
      ((loaded.setTable { loaded.table with entries := [⟨5, 1, 0, 1204, none⟩] }).screened 2
        ⟨1, 5, 0, 0, 0, 1203, 1, 0, 0⟩).verdict = .lateListed := by decide +kernel

theorem test_witness_AckWritesTheReportedHolding :
    (let x := ex (.push .block) (.close 0) .receiving
     (flying x).trunk.ex = some x ∧ x.stage = .receiving ∧ x.drop = some 2 ∧ x.kind = .push .block ∧
       judgeAnswer x.drop x.frame (line 0x21 [5, 0]) = some (.ack 5 none)) ∧
      judgeAnswer (some 2) (.activate 318) (line 0x21 [0x3E, 1]) = some (.ack 318 none) ∧
      judgeAnswer (some 2) (.openF .block 5 .delta 1 0 false false) (line 0x21 [0, 0]) = some (.ack 0 none) ∧
      judgeAnswer (some 2) (.close 0) (line 0x23 [3]) = some (.nak .digest) := by decide +kernel

/-- The burst 6 to 9: n at its start goes back, n at its end and n at the last resend do not; four taps waiting. -/
theorem test_witness_BurstAckGoesBackOrEnds :
    let x := ex (.push .block) (.segment 9 true (some [])) .receiving
    let s := flying x (working [.delta 1202] .segments)
    s.trunk.ex = some x ∧ x.stage = .receiving ∧ x.drop = some 2 ∧ x.kind = .push .block ∧
      judgeAnswer x.drop x.frame (line 0x21 [6, 0, 4, 0]) = some (.ack 6 (some 4)) ∧
      judgeAnswer x.drop x.frame (line 0x21 [10, 0, 4, 0]) = some (.ack 10 (some 4)) ∧ x.burstStart ≤ 6 ∧ 6 < x.burstEnd ∧
      ¬10 < x.burstEnd ∧ x.lastResend = none ∧ (s.drop 2).stopping = false ∧ x.detached = false := by decide +kernel

/-- The burst of a FULL step, whose read mark the drop holds, at a go-back. -/
theorem test_witness_BurstAckGoesBackOrEnds_cursor :
    let x := ex (.push .block) (.segment 9 true (some [])) .receiving
    let s := flying x ((working [.full] .segments).setMark 2 (some (mark 1204)))
    s.trunk.ex = some x ∧ judgeAnswer x.drop x.frame (line 0x21 [8, 0, 4, 0]) = some (.ack 8 (some 4)) ∧
      s.job? 2 .block = some (job [.full] .segments) ∧ s.mark 2 = some (mark 1204) ∧ (job [.full] .segments).isFull = true ∧
      (job [.delta 1204] .segments).isFull = false := by decide +kernel

theorem test_witness_RoundTimersWakeTheArbiter :
    let s := r.setTrunk { r.trunk with emptyPause := some 500 }
    let p := r.setRoster { r.roster with pollMode := .periodic, lastRound := some 0 }
    s.trunk.emptyPause = some 500 ∧ s.trunk.ex = none ∧ s.trunk.request = none ∧ s.nextUrgent = none ∧ s.trunk.round = none ∧
      s.roster.pollMode = .continuous ∧ s.candidates = [] ∧ p.roster.pollMode = .periodic ∧ p.roster.lastRound = some 0 ∧
      p.nextUrgent = none ∧ p.trunk.ex = none ∧ p.trunk.round = none := by decide +kernel

theorem test_witness_ArbiterDecidesInOrder :
    (r.setTrunk { r.trunk with request := some 318 }).trunk.request = some 318 ∧ r.trunk.ex = none ∧
      (with3 (fun d => { d with tapUrgent := true })).nextUrgent = some 2 ∧ r.nextUrgent = none ∧ r.trunk.request = none ∧
      [2, 3].dropWhile (r.setTrunk { r.trunk with round := some [2, 3] }).passedOver = [2, 3] ∧ r.roundDue = true ∧
      r.roundList = [0, 1, 2, 3, 4, 5, 6, 7] := by decide +kernel

/-- A round whose last turn is passed over, one that is due with an empty list, and, with none due, an empty list and one that is
not. -/
theorem test_witness_ArbiterDecidesInOrder_rounds :
    (let s := with3 (fun d => { d with presence := .disabled }) (r.setTrunk { r.trunk with round := some [2] })
     s.trunk.ex = none ∧ s.trunk.request = none ∧ s.nextUrgent = none ∧ s.trunk.round = some [2] ∧
       [2].dropWhile s.passedOver = []) ∧
      (let s := r.setRoster { r.roster with probe := 1 }
       s.trunk.ex = none ∧ s.nextUrgent = none ∧ s.trunk.round = none ∧ s.roundDue = true ∧ s.roundList = []) ∧
      ∀ p ∈ [0, 1],
        let s := r.setRoster { r.roster with probe := p, lastRound := some 0 }
        s.trunk.request = none ∧ s.roundDue = false ∧ s.candidates = [] ∧ s.roster.pollMode = .continuous ∧
          s.trunk.emptyPause = none ∧ (s.roundList = [] ↔ p = 1) := by decide +kernel

/-- A FULL step whose S has outgrown the window, alone and before the FARE job of its drop. -/
theorem test_witness_ArbiterDecidesInOrder_outgrown :
    let j : Job := { newJob 2 .block [.full] 1204 with level := 3 }
    let i : Job := newJob 2 .fare [.activate 318] 318
    let u := (loaded.setTable { loaded.table with live := 118407 }).setSettings
      { loaded.settings with classes := { loaded.settings.classes with c0 := ⟨0, 128, 0, 0, true⟩ } }
    let s := fun js : List Job => ready3 ⟨0, 0, 0⟩ (u.setPlanner { u.planner with jobs := js })
    (s [j]).trunk.ex = none ∧ (s [j]).roundDue = false ∧ (s [j]).nextUrgent = none ∧ (s [j]).candidates = [j] ∧
      (s [j, i]).candidates = [j, i] ∧ (s [j, i]).job? 2 .block = some j ∧ (s [j, i]).job? 2 .fare = some i ∧ i.kind ≠ j.kind ∧
      j.phase = .open_ ∧ j.plan = [.full] ∧ ((s [j]).classOf 2).blockSize < max 1 (((s [j]).table.live + 19) / 20) := by
  decide +kernel

/-- A candidate at each phase and form of its step: what the forming of its exchange asks for. -/
theorem test_witness_ArbiterDecidesInOrder_push :
    let s := fun plan ph => ready3 ⟨0, 0, 1203⟩ (working plan ph)
    (∀ x ∈ [([Step.delta 1204], Phase.open_), ([.full], .open_), ([.delta 1204], .segments), ([.delta 1204], .close)],
      (s x.1 x.2).candidates = [job x.1 x.2] ∧ (s x.1 x.2).job? 2 .block = some (job x.1 x.2)) ∧
      (let u := s [.delta 1204] .open_
       u.trunk.request = none ∧ u.nextUrgent = none ∧ u.trunk.round = none ∧ u.roundDue = false ∧ u.trunk.ex = none ∧
         u.cat.deltaOf (job [.delta 1204] .open_) 1204 = some (deltaOf 1204 3) ∧ u.tableClosed = false ∧ 1 ≤ (u.classOf 2).blockSize ∧
         (job [.delta 1204] .segments).next < min (0 + u.settings.trunk.burst) (u.stepSegments (job [.delta 1204] .segments))) ∧
      (let m := mark 1204
       ((s [.full] .segments).setMark 2 (some m)).mark 2 = some m ∧ m.toAck = m ∧
         ((s [.full] .segments).setMark 2 (some m)).candidates = [job [.full] .segments] ∧
         0 < min (0 + Settings.defaults.trunk.burst) m.segs) := by decide +kernel
theorem test_witness_ArbiterDecidesInOrder_idle :
    let s := ready3 ⟨0, 0, 1203⟩
    let f := { newJob 2 .fare [.stage 318, .activate 318] 318 with underWay := true, record := 318 }
    let u := ready3 ⟨0, 0, 1203⟩ ((withP 0 staging).setPlanner { r.planner with jobs := [f] })
    s.candidates = [] ∧ (s.setRoster { s.roster with pollMode := .periodic }).roster.pollMode = .periodic ∧
      (s.setTrunk { s.trunk with emptyPause := some 1 }).trunk.emptyPause.isSome = true ∧ u.cat.fareOf f 318 = some (fareOf 318 0) ∧
      u.candidates = [f] ∧ u.job? 2 .fare = some f ∧ (newJob 2 .fare [.activate 318] 318).phase = .activate := by decide +kernel

theorem test_witness_ChoiceFollowsLevelThenActiveThenKind :
    let s := with3 (fun d => { d with presence := .present }) (working [.delta 1204] .open_)
    s.candidates = [job [.delta 1204] .open_] ∧ ∀ i ∈ s.planner.jobs, i.level ≤ 3 := by decide +kernel

/-- A pair without a job, with one to be kept, with one that is FAILED, and with one whose exchange is in flight; a plan and none. -/
theorem test_witness_PlansFollowTheirTables :
    let on := fun (n : Nat) (h : Nat) (u : State) => ready3 ⟨0, 0, h⟩ ((u.setTable { u.table with live := 118407 }).setSettings
      { u.settings with classes := { u.settings.classes with c0 := ⟨0, n, 0, 0, true⟩ } })
    let s := on 65536 1203 loaded
    let w := on 65536 1203 (working [.delta 1204] .open_)
    s.planned 2 = true ∧ r.planned 2 = false ∧ s.job? 2 .block = none ∧ s.pairPlan 2 .block = some ([.delta 1204], 1204) ∧
      (on 65536 1204 loaded).pairPlan 2 .block = none ∧ (on 65536 0 loaded).pairPlan 2 .block = some ([.full], 1204) ∧
      (on 128 0 loaded).blockPlan 2 0 = .nofit ∧ (s.drop 2).blockNofit = false ∧
      (failing s).job? 2 .block = some { job [.delta 1204] .open_ with state := .failed } ∧
      w.job? 2 .block = some (job [.delta 1204] .open_) ∧ w.inFlight 2 .block = false ∧ w.planned 2 = true ∧
      (flying (ex (.push .block) (.close 0) .quiet) w).inFlight 2 .block = true ∧
      (w.cat.deltaOf (job [.delta 1204] .open_) 1204 = some (deltaOf 1204 3) ∧ (w.classOf 2).delta = true ∧ (w.classOf 2).blockBase = (job [] .open_).base ∧
        3 ≤ (w.classOf 2).blockSize ∧ w.blockPlan 2 1204 = .nothing) := by decide +kernel

/-- One job for each phase and form that the outcomes tell apart, the retry count one below the limit and at it. -/
theorem test_witness_PushOutcomeMovesTheJob :
    (∀ ph, (working [.delta 1204] ph).job? 2 .block = some (job [.delta 1204] ph)) ∧ (job [.full] .open_).isFull = true ∧
      (job [.delta 1204] .open_).isFull = false ∧ loaded.stepSegments (job [.delta 1204] .open_) = 3 ∧
      min 255 (6 + 1) < r.settings.retryLimit ∧ r.settings.retryLimit ≤ min 255 (7 + 1) ∧
      (job [.activate 318] .activate).phase = .activate ∧ (job [.delta 1204] .close).phase ≠ .activate ∧
      (job [.delta 1204] .close).kind = .block ∧ loaded.stepEdition (job [.delta 1204] .close) = 1204 ∧
      (job [.delta 1203, .delta 1204] .close).plan.drop 1 ≠ [] ∧ (job [.delta 1204] .close).plan.drop 1 = [] := by
  refine ⟨?_, by decide +kernel⟩
  intro ph; rfl

theorem test_witness_LateListedPromotesTheJob :
    (working [.delta 1204] .open_).job? 2 .block = some (job [.delta 1204] .open_) ∧
      (job [.delta 1204] .open_).state ≠ .failed ∧ ({ job [.delta 1204] .open_ with state := .failed } : Job).state = .failed ∧
      r.job? 2 .block = none ∧ r.planned 2 = false ∧ (ready3 ⟨0, 0, 1203⟩).job? 2 .block = none ∧
      (ready3 ⟨0, 0, 1203⟩).planned 2 = true := by decide

theorem test_witness_EditionsDaysAndLookups_editions :
    newer 1 65535 = true ∧ serialDist 65535 1 = 1 ∧ succEdition 65535 = 1 ∧ newer 65535 1 = false := by decide
/-- A card held, and one that is not, on a READY table; the table EMPTY and REBUILDING. -/
theorem test_witness_EditionsDaysAndLookups_lookup :
    let e : Entry := ⟨5, 1, 0, 1204, none⟩
    let z : Entry := ⟨5, 2, 0, 1190, some 1204⟩
    let s := loaded.setTable { loaded.table with entries := [z, e] }
    s.table.state = .ready ∧ s.table.entries = [z] ++ e :: [] ∧ liveAt s.cat.h e = true ∧ liveAt s.cat.h z = false ∧
      s.lookup 5 0 = .listed 1204 1 ∧ s.lookup 6 0 = .notListed ∧ r.table.state = .empty ∧ r.lookup 5 0 = .unusable := by decide

/-- A drop that is lost: FADING with a run of 3, with a job, a read mark and a mark of its own; and one that is JOINING. -/
theorem test_witness_MissEndsTheExchange_lost :
    let s := flying (ex .roundPoll (.poll 8) .awaiting)
      (with3 (fun d => { d with presence := .fading, run := 3, blockNofit := true })
        ((working [.full] .segments).setMark 2 (some (mark 1204))))
    let t := after (execReplyTimeout s)
    s.trunk.ex = some (ex .roundPoll (.poll 8) .awaiting) ∧ (s.drop 2).stopping = false ∧ (s.drop 2).presence = .fading ∧
      3 ≤ (s.drop 2).run ∧ s.mark 2 = some (mark 1204) ∧ (s.job? 2 .block).isSome = true ∧ t.mark 2 = none ∧
      t.job? 2 .block = none ∧ (t.drop 2).blockNofit = false ∧
      ((with3 (fun d => { d with presence := .joining })).drop 2).presence = .joining := by decide +kernel

/-- A WAIT from a drop that is JOINING: it is PRESENT, DROP_JOINED is raised, and the frame pauses. -/
theorem test_witness_WaitPausesOrEndsTheExchange_joining :
    let s := flying (ex .roundPoll (.poll 8) .receiving) (with3 (fun d => { d with presence := .joining }))
    let t := after (execAnswerComplete (line 0x22 []) s)
    (s.drop 2).presence = .joining ∧ (s.drop 2).stopping = false ∧ (t.drop 2).presence = .present ∧
      t.port.flags.dropJoined.isSome = true ∧ t.trunk.ex.map Exchange.stage = some .pause := by decide +kernel

/-- R88: a drop disabled while its frame waits to be sent again after a WAIT loses its exchange at once; the same record repeated
over a drop that is stopping already leaves its exchange as it is. -/
theorem test_configure_repeated_over_a_stopping_drop :
    let x : Exchange := { ex .roundPoll (.poll 8) .quiet with waits := 1 }
    let s := flying x (with3 (fun d => { d with presence := .present, stopping := true }))
    let u := flying x (with3 (fun d => { d with presence := .present }))
    (raw.dropMap.get 2).enable = 0 ∧ (after (execConfigure from_ raw s)).trunk.ex = some x ∧
      ((after (execConfigure from_ raw s)).drop 2).stopping = true ∧
      ((after (execConfigure from_ raw u)).trunk.ex.map Exchange.drop) ≠ some (some 2) ∧
      ((after (execConfigure from_ raw u)).drop 2).presence = .disabled := by decide +kernel

/-- The exact jobs of a head advance: one job for each pair and an exchange in flight; a FULL step that lags loses its mark, and the
exchange that pushes it is detached. -/
theorem test_witness_HeadAdvance_inFlight :
    let x := ex (.push .block) (.segment 8 false none) .quiet
    let s := flying x ((working [.full] .segments).setMark 2 (some (mark 1139)))
    s.trunk.ex.isSome = true ∧ (s.planner.jobs.map (fun j => (j.drop, j.kind))).Nodup ∧ s.lags 2 = true ∧ s.lags 3 = false ∧
      (allDrops.foldl State.lagCheck s).trunk.ex = some { x with detached := true } ∧
      unfailed .block (failing).planner.jobs = [] ∧ unfailed .fare (failing).planner.jobs = (failing).planner.jobs := by
  decide +kernel

/-- A P that is due, entered while a counted drop is not armed, with a hold limit of 0 and with no clock. -/
theorem test_witness_DueEntered :
    let s := with3 (fun d => { d with presence := .present }) (at_ 28405859 (withP 28405860 staging))
    let t := after (execMinuteAdvance (s.setSettings { s.settings with holdLimit := 0 }))
    (withP 0 staging).clock.valid = false ∧ s.settings.holdLimit ≠ 0 ∧ s.allArmed 318 = false ∧
      t.change = { due .absent with requested := some 318, forced := true } ∧ t.port.flags.changeoverHeld.isSome = true := by
  decide +kernel

/-- A POLL formed with no room for a tap record. -/
theorem test_witness_ArbiterDecidesInOrder_allowance :
    let e : Screened :=
      { tap := ⟨1, 5, 0, 0, 0, 1203, 1, 0, 0⟩, drop := 2, verdict := .clear, head := 0, active := 0, arrival := 0 }
    let s := r.setTaps { r.taps with queue := List.replicate 256 e }
    s.trunk.ex = none ∧ min 8 (256 - s.taps.queue.length) = 0 ∧ s.arbitrate.taps.zeroAllowance = 1 ∧
      s.arbitrate.port.flags.tapqFull.isSome = true ∧ s.arbitrate.trunk.ex.map Exchange.frame = some (.poll 0) := by
  decide +kernel

/-- A FARE edition of two segments before a window of one: the STAGE does not fit, taken whole or after a NOT_STAGED. -/
theorem test_witness_StageThatDoesNotFit :
    let f : Fare := { fareOf 318 0 with segments := [[], []] }
    let s := (r.setCat { r.cat with active := some f }).setSettings
      { r.settings with classes := { r.settings.classes with c0 := ⟨0, 128, 128, 1, true⟩ } }
    let j := newJob 2 .fare [.activate 318] 318
    let u := s.setPlanner { s.planner with jobs := [j] }
    s.stageNofit 2 [.stage 318, .activate 318] = true ∧ r.stageNofit 2 [.stage 318] = false ∧ u.job? 2 .fare = some j ∧
      j.phase = .activate ∧ ((u.takeOutcome j (.nak .notStaged)).planner.log.map LogEntry.reason) = some .nofit ∧
      (u.takeOutcome j (.nak .notStaged)).planner.jobFail = 1 := by decide +kernel

/-- R174 to R176: what an arriving frame is. -/
theorem test_frames_are_told_apart :
    classifyFrame r false 5 0x88B5 [8, 7, 0, 0, 0] = .fcsBad ∧ classifyFrame r true 5 0x0800 [8, 7, 0, 0, 0] = .otherType ∧
      classifyFrame r true 5 0x88B5 [8, 7, 0, 0] = .msgDiscard 5 .shortHeader ∧
      classifyFrame r true 5 0x88B5 [8, 7, 0, 0, 0] = .restart ⟨5, 7⟩ ∧
      classifyFrame full true 5 0x88B5 [8, 7, 0, 0, 0] = .answerDrop 5 := by decide +kernel

/-- 11, section 11.3: a STATUS of one tap record; the bytes of an ACTIVATE to drop 3. -/
theorem test_status_record_read :
    judgeAnswer (some 2) (.poll 8)
        (line 0x20 ([1, 0, 2, 0, 3, 0, 4, 0, 1] ++ [7, 0] ++ [5, 0, 0, 0, 0, 0, 0, 1] ++ [9, 0, 0x3E, 1, 0x3D, 1, 0xB4, 4, 1, 0] ++
          [0x28, 0x70, 0xB1, 1])) =
      some (.status ⟨1, 2, 3⟩ 4 [⟨7, 0x0100000000000005, 9, 318, 317, 1204, 1, 0, 28405800⟩]) ∧
      (trunkBytes (some 2) (.activate 318)).take 6 = [0xA5, 3, 0x14, 2, 0x3E, 1] := by decide +kernel

/-- Reset meets the condition of every event that does not arise. -/
theorem test_witness_EventsThatCannotAriseChangeNothing :
    r.trunk.ex = none ∧ r.trunk.emptyPause = none ∧ r.roster.pollMode = .continuous ∧ r.intake .fare = none ∧
      r.intake .block = none ∧ r.table.state = .empty ∧ r.table.sweep = none ∧ r.change.state = .idle ∧ r.port.tx = none ∧
      r.answerRoom = true := by
  decide

theorem test_witness_MessagesReadBackAsWritten :
    WellFormed (.loadSegment from_ 2 1205 1 oneEntry) = true ∧ (encodeMessage (.loadSegment from_ 2 1205 1 oneEntry)).isSome = true ∧
      (encodeMessage (.configure from_ raw)).isSome = true := by decide +kernel

/-- A state other than reset: an edition loading, a P staging, drop 3 PRESENT and polled, a job of its own, an answer, a command
that waits. -/
def busy : State :=
  ((((flying (ex .roundPoll (.poll 8) .awaiting) (with3 (fun d => { d with presence := .fading, run := 3 })
    (at_ 4294967295 (withP 6 staging (inBlock (load .receiving .delta 1205 57 [none]) loaded))))).setPlanner
      { r.planner with jobs := [job [.delta 1204] .open_], jobFail := 65535 }).setPort
        { lost with answers := [.result 1 .ok 0 0 0 0] }).setPending [.replyTimeout])

/-- It meets all that every step keeps, and takes a step. -/
theorem test_witness_EveryStepKeeps :
    ClockInRange busy ∧ AnswersFit busy ∧ NoticesOnce busy ∧ TapsFit busy ∧ EnableAgrees busy ∧ RunsFit busy ∧ CountersFit busy ∧
      JobsOnce busy ∧ WorkFollows busy ∧ ChainFollows busy ∧ ChangeFollows busy ∧
      ((after (step busy)).drop 2).presence = .absent := by
  refine ⟨⟨by decide, by decide⟩, ?_, ?_, ?_, ?_, ?_, ?_, ⟨?_, ?_⟩, ?_, ⟨by decide, by decide, by decide, by decide, by decide +kernel, ?_⟩,
    ⟨by decide, by decide, by decide, by decide⟩, by decide +kernel⟩
  · unfold AnswersFit; decide
  · unfold NoticesOnce; decide +kernel
  · unfold TapsFit; decide
  · unfold EnableAgrees; decide +kernel
  · intro d; fin_cases d <;> simp [runFits, busy, State.drop, State.setPending, State.setPort, State.setPlanner, flying, State.setTrunk, with3, State.setDrop, State.setRoster, at_, State.setClock, withP, State.setChange, State.setCat, inBlock, State.setIntakes, loaded, r, State.reset, Per8.set, Per8.all, Per8.get, Drop.reset, State.setTable]
  · unfold CountersFit; decide +kernel
  · decide +kernel
  · decide +kernel
  · rintro l ⟨⟩; decide
  · rintro l ⟨⟩; decide
/-- The settings after reset are in their ranges, as the clause of an empty round that is due asks. -/
theorem test_witness_ArbiterDecidesInOrder_settings : SettingsFit r.settings := by constructor <;> decide +kernel
theorem test_witness_EveryStepKeepsValuesInRange : SettingsFit busy.settings := by constructor <;> decide +kernel

end Sys2Proof.Tests
end

/-! Edition Intake, openings and segments (R20, R22): what LOAD_OPEN and LOAD_SEGMENT make of a context. -/
namespace Sys2Proof.Machine

/-! ### The contexts -/

@[simp] theorem intake_acceptFrom (s : State) (src : MacAddr) (k : Kind) : (s.acceptFrom src).intake k = s.intake k := by
  cases k <;> rfl

/-- Accepting a frame touches the port, replacing a context the intakes: the two commute. -/
theorem setIntake_acceptFrom (s : State) (src : MacAddr) (k : Kind) (l : Option Load) :
    (s.acceptFrom src).setIntake k l = (s.setIntake k l).setPort { s.port with gateway := some src } := by
  cases k <;> rfl

@[simp] theorem setIntake_port (s : State) (k : Kind) (l : Option Load) : (s.setIntake k l).port = s.port := by
  cases k <;> rfl

theorem missing_eq_countP (l : Load) : l.missing = l.segments.countP (fun x => x.isNone) := countP_none l.segments

/-! ### LOAD_OPEN -/

theorem exec_loadOpen (m : Head) (b : OpenBody) (s : State) : exec (.loadOpen m b) s = execLoadOpen m b s := rfl

/-- An opening that passes the nine tests of R19 is judged good, with the kind and form that its codes name. -/
theorem judgeOpen_of_passes {s : State} {b : OpenBody} (h : (openTests s.cat b).all (fun q => q.1) = true) :
    s.judgeOpen b = .ok (if b.kind = 1 then .fare else .block, if b.form = 1 then .full else .delta) := by
  rw [judgeOpen_spec s.cat b s rfl, firstFail_none _ h]

theorem sameAs_iff (l : Load) (f : Form) (b : OpenBody) :
    l.sameAs f b = true ↔
      l.edition = b.edition.toNat ∧ l.form = f ∧ l.segments.length = b.segCount.toNat ∧ l.itemCount = b.itemCount.toNat ∧
        l.digest = b.digest := by
  simp only [Load.sameAs, Bool.and_eq_true, beq_iff_eq, and_assoc]

section
variable {s : State} {k : Kind} (tag : Tag) (b : OpenBody) (f : Form)

theorem takeOpen_of_idle (hi : s.intake k = none) :
    s.takeOpen tag b k f = s.acceptOpen tag .accepted b k (s.newLoad k f b) := by
  simp only [State.takeOpen, hi]

theorem takeOpen_of_same {l : Load} (hi : s.intake k = some l) (hs : l.stage = .receiving) (h : l.sameAs f b = true) :
    s.takeOpen tag b k f =
      s.acceptOpen tag .acceptedContinue b k
        { l with urgent := (s.newLoad k f b).urgent, minute := (s.newLoad k f b).minute, deadline := s.idleDeadline } := by
  simp only [State.takeOpen, hi, hs, h, if_true]

theorem takeOpen_of_not_same {l : Load} (hi : s.intake k = some l) (hs : l.stage = .receiving) (h : ¬l.sameAs f b = true) :
    s.takeOpen tag b k f = s.acceptOpen tag .restarted b k (s.newLoad k f b) := by
  simp only [State.takeOpen, hi, hs]
  exact if_neg h

theorem takeOpen_of_busy {l : Load} (hi : s.intake k = some l) (hs : l.stage ≠ .receiving) :
    s.takeOpen tag b k f = s.loadResult tag .busy b.kind b.edition.toNat 0 0 := by
  cases hg : l.stage with
  | receiving => exact absurd hg hs
  | checking | applying | rebuilding => simp only [State.takeOpen, hi, hg]

end

/-- An accepting answer after the frame's acceptance: the context is replaced, and one RESULT with the two figures of R20 joins
the answer queue. -/
theorem acceptOpen_acceptFrom (s : State) (src : MacAddr) (tag : Tag) (code : Code) (b : OpenBody) (k : Kind) (l : Load) :
    (s.acceptFrom src).acceptOpen tag code b k l =
      (s.setIntake k (some l)).setPort
        { (s.acceptFrom src).port with
          answers := s.port.answers ++
            [.result tag code b.kind b.edition.toNat (l.segments.countP (fun x => x.isNone))
              (l.segments.findIdx (fun x => x.isNone))] } := by
  rw [State.acceptOpen, setIntake_acceptFrom, missing_eq_countP, firstMissing_eq]
  cases k <;> rfl

/-- An opening judged good and taken with answer room: `as` are its answers and `u` is the hub with its context replaced. -/
theorem loadOpen_answered {m : Head} {b : OpenBody} {s : State} {k : Kind} {f : Form} (as : List Answer) (u : State)
    (room : s.answerRoom = true) (hj : s.judgeOpen b = .ok (k, f)) (hu : u.port = s.port)
    (ht : (s.acceptFrom m.src).takeOpen m.tag b k f =
      u.setPort { (s.acceptFrom m.src).port with answers := s.port.answers ++ as }) :
    ∃ t, exec (.loadOpen m b) s = .next t ∧ t = u.setPort t.port ∧ Answered m.src as s t := by
  have hj' : (s.acceptFrom m.src).judgeOpen b = .ok (k, f) := hj
  refine ⟨_, exec_loadOpen m b s, takeMessage_set s m _ as u room hu ?_⟩
  simp only [hj', ht]

/-- An accepting outcome of an opening: the context becomes `l`, and the RESULT gives the figures of `l`. -/
theorem loadOpen_accepted {m : Head} {b : OpenBody} {s : State} {k : Kind} {f : Form} {code : Code} {l : Load}
    (room : s.answerRoom = true) (hj : s.judgeOpen b = .ok (k, f))
    (ht : (s.acceptFrom m.src).takeOpen m.tag b k f = (s.acceptFrom m.src).acceptOpen m.tag code b k l) :
    ∃ t, exec (.loadOpen m b) s = .next t ∧ t = (s.setIntake k (some l)).setPort t.port ∧
      Answered m.src
        [.result m.tag code b.kind b.edition.toNat (l.segments.countP (fun x => x.isNone))
          (l.segments.findIdx (fun x => x.isNone))] s t :=
  loadOpen_answered _ _ room hj (setIntake_port ..) (ht.trans (acceptOpen_acceptFrom ..))

/-- Settles O22, by the context's state: IDLE, RECEIVING with the same parameters or with others, or busy. -/
theorem loadOpenTakenAgainstItsContext : Obligations.LoadOpenTakenAgainstItsContext := by
  intro m b s room passes k f e deadline urgent minute fresh answer opened
  have hj : s.judgeOpen b = .ok (k, f) := judgeOpen_of_passes passes
  refine ⟨fun hi => ?idle, fun l hi hs => ?receiving, fun l hi hs => ?busy⟩
  case idle =>
    exact loadOpen_accepted room hj (takeOpen_of_idle m.tag b f ((intake_acceptFrom ..).trans hi))
  case receiving =>
    have hi' := (intake_acceptFrom s m.src k).trans hi
    split
    next same => exact loadOpen_accepted room hj (takeOpen_of_same m.tag b f hi' hs ((sameAs_iff ..).mpr same))
    next other => exact loadOpen_accepted room hj (takeOpen_of_not_same m.tag b f hi' hs (mt (sameAs_iff ..).mp other))
  case busy =>
    exact loadOpen_answered _ s room hj rfl (takeOpen_of_busy m.tag b f ((intake_acceptFrom ..).trans hi) hs)

/-! ### LOAD_SEGMENT -/

theorem exec_loadSegment (m : Head) (kind : Byte) (edition index : BitVec 16) (payload : Segment) (s : State) :
    exec (.loadSegment m kind edition index payload) s = execLoadSegment m kind edition index payload s := rfl

section
variable {s : State} {k : Kind} {l : Load} {i : Nat} (payload : Segment)

theorem takeSegment_of_clear (h : l.segments[i]? = some none) :
    s.takeSegment k l i payload =
      s.setIntake k (some { l with segments := l.segments.set i (some payload), deadline := s.idleDeadline }) := by
  simp only [State.takeSegment, h]

theorem takeSegment_of_set {q : Segment} (h : l.segments[i]? = some (some q)) :
    s.takeSegment k l i payload = s.setIntakes { s.intakes with segDuplicate := bump s.intakes.segDuplicate 1 } := by
  simp only [State.takeSegment, h]

theorem takeSegment_of_beyond (h : l.segments.length ≤ i) : s.takeSegment k l i payload = s.straySegment := by
  simp only [State.takeSegment, List.getElem?_eq_none h]

end

section
variable (m : Head) {kind : Byte} {edition : BitVec 16} (index : BitVec 16) {payload : Segment} {s : State}

/-- A segment for the RECEIVING intake of its kind and edition is taken by that intake. -/
theorem loadSegment_taken {k : Kind} {l : Load} (hp : payload.length = 240) (hk : kindOf kind = some k)
    (hi : s.intake k = some l) (hs : l.stage = .receiving) (he : l.edition = edition.toNat) :
    exec (.loadSegment m kind edition index payload) s =
      .next ((s.acceptFrom m.src).takeSegment k l index.toNat payload) := by
  simp only [exec_loadSegment, execLoadSegment, hp, hk, intake_acceptFrom, hi, hs, he, and_self, if_true]

/-- A segment that no RECEIVING intake of its kind and edition waits for is a stray. -/
theorem loadSegment_stray (hp : payload.length = 240)
    (h : ∀ k l, kindOf kind = some k → s.intake k = some l → l.stage = .receiving → l.edition ≠ edition.toNat) :
    exec (.loadSegment m kind edition index payload) s = .next (s.acceptFrom m.src).straySegment := by
  simp only [exec_loadSegment, execLoadSegment, hp, if_true, intake_acceptFrom]
  cases hk : kindOf kind with
  | none => rfl
  | some k =>
    cases hi : s.intake k with
    | none => simp only [hi]
    | some l =>
      simp only [hi]
      exact if_neg fun ⟨hs, he⟩ => h k l hk hi hs he

end

/-- Settles O23: the context takes the segment by what stands under its index, and any other segment is a stray. -/
theorem loadSegmentStoredDuplicateOrStray : Obligations.LoadSegmentStoredDuplicateOrStray := by
  intro m kind edition index payload s hp
  refine ⟨fun k l hk hi hs he => ?taken, fun h => loadSegment_stray m index hp h⟩
  have run := loadSegment_taken m index hp hk hi hs he
  refine ⟨fun clear => ?_, fun q stored => ?_, fun beyond => ?_⟩
  · rw [run, takeSegment_of_clear payload clear]
    rfl
  · rw [run, takeSegment_of_set payload stored]
    rfl
  · rw [run, takeSegment_of_beyond payload beyond]
    rfl

end Sys2Proof.Machine


/-! Tap Screen, the verdict (R160, R162): what each of the five orders makes of a tap record. -/
namespace Sys2Proof.Machine

section
variable (since reason a : Nat) {t : Tap}

/-- Order 1. -/
theorem verdictOf_unusable (t : Tap) : verdictOf .unusable a t = .unscreened := rfl

/-- Orders 2 and 3. -/
theorem verdictOf_listed_of_accepted (h : t.accepted = true) :
    verdictOf (.listed since reason) a t = if newer since t.blockUsed.toNat then .lateListed else .listedIgnored :=
  if_pos h

/-- A tap that the validator refused reaches order 4 whatever the table holds (R162). -/
theorem verdictOf_listed_of_refused (h : t.accepted = false) :
    verdictOf (.listed since reason) a t = verdictOf .notListed a t :=
  if_neg (ne_true_of_eq_false h)

/-- Orders 4 and 5. -/
theorem verdictOf_notListed (t : Tap) :
    verdictOf .notListed a t = bif a != 0 && t.fareUsed.toNat != a then .staleTariff else .clear := by
  simp only [verdictOf, cond_eq_ite, Bool.and_eq_true, bne_iff_ne]

end

theorem screened_verdict (s : State) (d : DropId) (t : Tap) :
    (s.screened d t).verdict = verdictOf (s.lookup t.card.toNat t.minute.toNat) s.cat.a t := rfl

/-- The conditions of orders 2 and 3 exclude each other and cover an accepted tap on a listed card. -/
theorem find?_listed (accepted late stale : Bool) :
    ([(false, .unscreened), (accepted && late, .lateListed), (accepted && !late, .listedIgnored), (stale, .staleTariff),
        (true, .clear)].find? (fun x : Bool × Verdict => x.1)).map Prod.snd =
      some (bif accepted then (if late then .lateListed else .listedIgnored) else bif stale then .staleTariff else .clear) := by
  cases accepted
  case true => cases late <;> rfl
  case false => cases stale <;> rfl

/-- Settles O52, by the lookup's answer: UNUSABLE is order 1, LISTED goes by the decision to orders 2 and 3 or on to order 4, and
NOT_LISTED is at order 4. -/
theorem verdictIsTheFirstCondition : Obligations.VerdictIsTheFirstCondition := by
  intro s d t found accepted conditions
  refine ⟨?verdict, rfl, rfl, rfl, rfl, rfl⟩
  rw [screened_verdict]
  subst conditions
  change _ = some (verdictOf found s.cat.a t)
  cases found with
  | unusable => exact congrArg some (verdictOf_unusable s.cat.a t).symm
  | listed since reason =>
    refine (find?_listed t.accepted _ _).trans (congrArg some ?_)
    cases h : t.accepted with
    | true => exact (verdictOf_listed_of_accepted since reason _ h).symm
    | false => exact ((verdictOf_listed_of_refused since reason _ h).trans (verdictOf_notListed _ t)).symm
  | notListed => exact (find?_listed false false _).trans (congrArg some (verdictOf_notListed _ t).symm)

end Sys2Proof.Machine

/-! Invariants, the part that planning, the arbiter and the changeover keep operation by operation: the notices, the counters, the
tap queue, the job queue and the run counts. -/
namespace Sys2Proof.Machine

/-! ### Counters, block by block -/

/-- Counters that stop at 65,535 (R187). -/
def Capped (l : List Nat) : Prop := ∀ n ∈ l, n ≤ 65535

def Port.counterList (p : Port) : List Nat := [p.fcsBad, p.otherType, p.msgDiscard, p.answerDrop, p.linkLoss]
def Intakes.counterList (i : Intakes) : List Nat := [i.segDuplicate, i.segStray]
def CardTable.counterList (t : CardTable) : List Nat := [t.removeAbsent, t.markLag]
def Planner.counterList (p : Planner) : List Nat := [p.retries, p.jobFail, p.preempt]

theorem bump_le (c n : Nat) : bump c n ≤ 65535 := min_le_left ..

theorem capped_cons {n : Nat} {l : List Nat} : Capped (n :: l) ↔ n ≤ 65535 ∧ Capped l := List.forall_mem_cons

theorem countersFit_iff (s : State) :
    CountersFit s ↔
      Capped s.port.counterList ∧ Capped s.intakes.counterList ∧ Capped s.table.counterList ∧
        (∀ d, Capped (s.drop d).counters.list) ∧ Capped s.planner.counterList ∧ Capped s.trunk.counters ∧
          Capped s.taps.counters := by
  have drops : (∀ n ∈ s.roster.drops.toList.flatMap (fun r => r.counters.list), n ≤ 65535) ↔
      ∀ d, Capped (s.drop d).counters.list := by
    simp only [List.mem_flatMap, forall_exists_index, and_imp]
    constructor
    · intro h d n
      refine h n (s.drop d) ?_
      fin_cases d <;> simp [State.drop, Per8.get, Per8.toList]
    · intro h n r hr
      simp only [Per8.toList, List.mem_cons, List.not_mem_nil, or_false] at hr
      rcases hr with rfl | rfl | rfl | rfl | rfl | rfl | rfl | rfl
      exacts [h 0 n, h 1 n, h 2 n, h 3 n, h 4 n, h 5 n, h 6 n, h 7 n]
  unfold CountersFit State.counters
  simp only [List.forall_mem_append, drops]
  have split : (∀ n ∈ [s.port.fcsBad, s.port.otherType, s.port.msgDiscard, s.port.answerDrop, s.port.linkLoss,
      s.intakes.segDuplicate, s.intakes.segStray, s.table.removeAbsent, s.table.markLag], n ≤ 65535) ↔
      Capped s.port.counterList ∧ Capped s.intakes.counterList ∧ Capped s.table.counterList := by
    unfold Capped Port.counterList Intakes.counterList CardTable.counterList
    simp only [List.forall_mem_cons, List.not_mem_nil, false_imp_iff, forall_const, and_true, and_assoc]
  rw [split]
  simp only [and_assoc]
  rfl

section
variable (s : State)

theorem counters_setPort (x : Port) (h : Capped s.port.counterList → Capped x.counterList) (hs : CountersFit s) :
    CountersFit (s.setPort x) := by
  obtain ⟨p, rest⟩ := (countersFit_iff s).mp hs
  exact (countersFit_iff _).mpr ⟨h p, rest⟩

theorem counters_setIntakes (x : Intakes) (h : Capped s.intakes.counterList → Capped x.counterList) (hs : CountersFit s) :
    CountersFit (s.setIntakes x) := by
  obtain ⟨p, i, rest⟩ := (countersFit_iff s).mp hs
  exact (countersFit_iff _).mpr ⟨p, h i, rest⟩

theorem counters_setTable (x : CardTable) (h : Capped s.table.counterList → Capped x.counterList) (hs : CountersFit s) :
    CountersFit (s.setTable x) := by
  obtain ⟨p, i, t, rest⟩ := (countersFit_iff s).mp hs
  exact (countersFit_iff _).mpr ⟨p, i, h t, rest⟩

theorem counters_setRoster (x : Roster)
    (h : ∀ d, Capped (s.drop d).counters.list → Capped (x.drops.get d).counters.list) (hs : CountersFit s) :
    CountersFit (s.setRoster x) := by
  obtain ⟨p, i, t, r, rest⟩ := (countersFit_iff s).mp hs
  exact (countersFit_iff _).mpr ⟨p, i, t, fun d => h d (r d), rest⟩

theorem counters_setPlanner (x : Planner) (h : Capped s.planner.counterList → Capped x.counterList) (hs : CountersFit s) :
    CountersFit (s.setPlanner x) := by
  obtain ⟨p, i, t, r, l, rest⟩ := (countersFit_iff s).mp hs
  exact (countersFit_iff _).mpr ⟨p, i, t, r, h l, rest⟩

theorem counters_setTrunk (x : Trunk) (h : Capped s.trunk.counters → Capped x.counters) (hs : CountersFit s) :
    CountersFit (s.setTrunk x) := by
  obtain ⟨p, i, t, r, l, u, q⟩ := (countersFit_iff s).mp hs
  exact (countersFit_iff _).mpr ⟨p, i, t, r, l, h u, q⟩

theorem counters_setTaps (x : Taps) (h : Capped s.taps.counters → Capped x.counters) (hs : CountersFit s) :
    CountersFit (s.setTaps x) := by
  obtain ⟨p, i, t, r, l, u, q⟩ := (countersFit_iff s).mp hs
  exact (countersFit_iff _).mpr ⟨p, i, t, r, l, u, h q⟩

end

/-! ### The relation -/

/-- The pair that a job serves. -/
def Job.pair (j : Job) : DropId × Kind := (j.drop, j.kind)

/-- `t` keeps what `s` has of these five: one NOTICE for each flag, the counters' cap, the room of the tap queue, one job for each
pair, and run counts that fit. -/
structure Sound (s t : State) : Prop where
  notices : NoticesOnce s → NoticesOnce t
  counters : CountersFit s → CountersFit t
  taps : TapsFit s → TapsFit t
  jobs : JobsOnce s → JobsOnce t
  runs : RunsFit s → RunsFit t

theorem Sound.refl (s : State) : Sound s s := ⟨id, id, id, id, id⟩

theorem Sound.trans {s t u : State} (h : Sound s t) (g : Sound t u) : Sound s u :=
  ⟨g.notices ∘ h.notices, g.counters ∘ h.counters, g.taps ∘ h.taps, g.jobs ∘ h.jobs, g.runs ∘ h.runs⟩

theorem sound_foldl {α : Type} (f : State → α → State) (h : ∀ s a, Sound s (f s a)) (l : List α) (s : State) :
    Sound s (l.foldl f s) := foldl_preserves f (Sound s) (fun t a g => g.trans (h t a)) l s (.refl s)

/-! ### The setters -/

section
variable (s : State)

theorem sound_setTimebase (x : Nat) : Sound s (s.setTimebase x) := ⟨id, id, id, id, id⟩
theorem sound_setClock (x : Clock) : Sound s (s.setClock x) := ⟨id, id, id, id, id⟩
theorem sound_setSettings (x : Settings) : Sound s (s.setSettings x) := ⟨id, id, id, id, id⟩
theorem sound_setCat (x : Catalogue) : Sound s (s.setCat x) := ⟨id, id, id, id, id⟩
theorem sound_setChange (x : Changeover) : Sound s (s.setChange x) := ⟨id, id, id, id, id⟩

theorem sound_setPort (x : Port) (hn : (s.port.notices.map Notice.flag).Nodup → (x.notices.map Notice.flag).Nodup)
    (hc : Capped s.port.counterList → Capped x.counterList) : Sound s (s.setPort x) :=
  ⟨hn, counters_setPort s x hc, id, id, id⟩

theorem sound_setIntakes (x : Intakes) (hc : Capped s.intakes.counterList → Capped x.counterList) : Sound s (s.setIntakes x) :=
  ⟨id, counters_setIntakes s x hc, id, id, id⟩

theorem sound_setTable (x : CardTable) (hc : Capped s.table.counterList → Capped x.counterList) : Sound s (s.setTable x) :=
  ⟨id, counters_setTable s x hc, id, id, id⟩

theorem sound_setTrunk (x : Trunk) (hc : Capped s.trunk.counters → Capped x.counters) (ho : x.owedTaps ≤ s.trunk.owedTaps) :
    Sound s (s.setTrunk x) :=
  ⟨id, counters_setTrunk s x hc, (Nat.add_le_add_left ho _).trans, id, id⟩

theorem sound_setTaps (x : Taps) (hc : Capped s.taps.counters → Capped x.counters) (hq : x.queue.length ≤ s.taps.queue.length) :
    Sound s (s.setTaps x) :=
  ⟨id, counters_setTaps s x hc, (Nat.add_le_add_right hq _).trans, id, id⟩

/-- The Planner replaced: the queue serves no pair twice and none that it did not serve before. -/
theorem sound_setPlanner (x : Planner) (hj : (x.jobs.map Job.pair).Sublist (s.planner.jobs.map Job.pair))
    (hc : Capped s.planner.counterList → Capped x.counterList) : Sound s (s.setPlanner x) where
  notices := id
  counters := counters_setPlanner s x hc
  taps := id
  jobs h := by
    refine ⟨List.Nodup.sublist hj h.1, fun j hj' => ?_⟩
    obtain ⟨i, hi, e⟩ := List.mem_map.mp (hj.subset (List.mem_map_of_mem hj'))
    have hd : i.drop = j.drop := congrArg Prod.fst e
    rw [State.drop_setPlanner, ← hd]
    exact h.2 i hi
  runs := id

/-- The Roster replaced: no drop becomes DISABLED, no drop's counters pass the cap, and the run counts fit. -/
theorem sound_setRoster (x : Roster) (hc : ∀ d, Capped (s.drop d).counters.list → Capped (x.drops.get d).counters.list)
    (hr : ∀ d, runFits (s.drop d).presence (s.drop d).run → runFits (x.drops.get d).presence (x.drops.get d).run)
    (hp : ∀ j ∈ s.planner.jobs, (s.drop j.drop).presence ≠ .disabled → (x.drops.get j.drop).presence ≠ .disabled) :
    Sound s (s.setRoster x) where
  notices := id
  counters := counters_setRoster s x hc
  taps := id
  jobs h := ⟨h.1, fun j hj => hp j hj (h.2 j hj)⟩
  runs h d := hr d (h d)

theorem sound_setRoster_same (x : Roster) (h : x.drops = s.roster.drops) : Sound s (s.setRoster x) :=
  sound_setRoster s x (fun _ => by rw [h]; exact id) (fun _ => by rw [h]; exact id) (fun _ _ => by rw [h]; exact id)

/-- One drop's record replaced: one that has a job does not become DISABLED. -/
theorem sound_setDrop_jobs (d : DropId) (x : Drop) (hc : Capped (s.drop d).counters.list → Capped x.counters.list)
    (hr : runFits (s.drop d).presence (s.drop d).run → runFits x.presence x.run)
    (hp : (∃ j ∈ s.planner.jobs, j.drop = d) → (s.drop d).presence ≠ .disabled → x.presence ≠ .disabled) :
    Sound s (s.setDrop d x) := by
  have get (e : DropId) : (s.roster.drops.set d x).get e = if e = d then x else s.drop e := State.drop_setDrop s d e x
  refine sound_setRoster s _ (fun e => ?_) (fun e => ?_) (fun j hj => ?_) <;> dsimp only <;> rw [get] <;> split
  next h => exact h ▸ hc
  next => exact id
  next h => exact h ▸ hr
  next => exact id
  next h => rw [h]; exact hp ⟨j, hj, h⟩
  next => exact id

theorem sound_setDrop (d : DropId) (x : Drop) (hc : Capped (s.drop d).counters.list → Capped x.counters.list)
    (hr : runFits (s.drop d).presence (s.drop d).run → runFits x.presence x.run)
    (hp : (s.drop d).presence ≠ .disabled → x.presence ≠ .disabled) : Sound s (s.setDrop d x) :=
  sound_setDrop_jobs s d x hc hr fun _ => hp

/-- A record with the same bare form: only its three marks differ. -/
theorem sound_setDrop_bare (d : DropId) (x : Drop) (h : x.bare = (s.drop d).bare) : Sound s (s.setDrop d x) := by
  have hc : x.bare.counters = (s.drop d).bare.counters := congrArg Drop.counters h
  have hp : x.bare.presence = (s.drop d).bare.presence := congrArg Drop.presence h
  have hr : x.bare.run = (s.drop d).bare.run := congrArg Drop.run h
  exact sound_setDrop s d x (fun g => hc ▸ g) (fun g => (congrArg₂ runFits hp hr).mpr g) (fun g => hp ▸ g)

end

end Sys2Proof.Machine

namespace Sys2Proof.Machine

/-! ### Flags, read marks, the uplink -/

/-- A NOTICE put into the queue takes the place of its flag's, or is the first of its flag (R185). -/
theorem queueNotice_nodup {q : List Notice} (n : Notice) (h : (q.map Notice.flag).Nodup) :
    ((queueNotice q n).map Notice.flag).Nodup := by
  unfold queueNotice
  split
  case isTrue waits =>
    have same : (q.map (fun x => if x.flag = n.flag then n else x)).map Notice.flag = q.map Notice.flag := by
      rw [List.map_map]
      refine List.map_congr_left fun x _ => ?_
      by_cases e : x.flag = n.flag <;> simp [e]
    rw [same]
    exact h
  case isFalse first =>
    have absent : n.flag ∉ q.map Notice.flag := by
      intro hm
      obtain ⟨x, hx, e⟩ := List.mem_map.mp hm
      exact first (List.any_eq_true.mpr ⟨x, hx, by rw [e, beq_self_eq_true]⟩)
    rw [List.map_append]
    exact List.Nodup.append h (List.nodup_singleton _) (List.disjoint_singleton.mpr absent)

theorem raise_nodup {p : Port} (e : Enables) (f : Flag) (c : Ctx) (h : (p.notices.map Notice.flag).Nodup) :
    ((p.raise e f c).notices.map Notice.flag).Nodup := by
  unfold Port.raise
  split
  · exact h
  · dsimp only
    split
    · exact queueNotice_nodup _ h
    · exact h

theorem raise_counterList (p : Port) (e : Enables) (f : Flag) (c : Ctx) : (p.raise e f c).counterList = p.counterList := by
  unfold Port.raise
  split <;> rfl

section
variable (s : State)

theorem raise_sound (f : Flag) (ed : Nat) (c : Option Code) (d : Option DropId) : Sound s (s.raise f ed c d) :=
  sound_setPort s _ (raise_nodup _ _ _) (by rw [raise_counterList]; exact id)

theorem uplink_sound : Sound s s.uplink := by
  unfold State.uplink
  split
  · exact sound_setPort s _ id id
  · exact .refl s

theorem requestSweep_sound : Sound s s.requestSweep := by
  unfold State.requestSweep
  split <;> exact sound_setTable s _ id

theorem setMark_sound (d : DropId) (m : Option Mark) : Sound s (s.setMark d m) := sound_setTable s _ id

theorem onMark_sound (d : DropId) (f : Mark → Mark) : Sound s (s.onMark d f) := setMark_sound s d _

theorem releaseMark_sound (d : DropId) : Sound s (s.releaseMark d) := by
  unfold State.releaseMark
  split
  · exact .refl s
  · exact (setMark_sound s d none).trans (requestSweep_sound _)

theorem placeMark_sound (d : DropId) : Sound s (s.placeMark d) := (releaseMark_sound s d).trans (setMark_sound _ d _)

theorem leaveMark_sound (d : DropId) (k : Kind) : Sound s (s.leaveMark d k) := by
  cases k with
  | fare => exact .refl s
  | block => exact releaseMark_sound s d

theorem freeRecords_sound : Sound s s.freeRecords := sound_setCat s _

/-! ### The job queue -/

/-- A new queue that serves no pair twice and none that was not served. -/
theorem setJobs_sound (js : List Job) (h : (js.map Job.pair).Sublist (s.planner.jobs.map Job.pair)) : Sound s (s.setJobs js) :=
  sound_setPlanner s _ h id

/-- Jobs changed in their places. -/
theorem mapJobs_sound (f : Job → Job) (h : ∀ j, (f j).pair = j.pair) : Sound s (s.setJobs (s.planner.jobs.map f)) := by
  refine setJobs_sound s _ ?_
  rw [List.map_map, List.map_congr_left (f := Job.pair ∘ f) (g := Job.pair) fun j _ => h j]

theorem filterJobs_sound (p : Job → Bool) : Sound s (s.setJobs (s.planner.jobs.filter p)) :=
  setJobs_sound s _ (List.filter_sublist.map _)

theorem pair_of_serves {d : DropId} {k : Kind} {j : Job} (h : Job.serves d k j = true) : j.pair = (d, k) := by
  obtain ⟨hd, hk⟩ := (serves_iff d k j).mp h
  exact Prod.ext hd hk

theorem putJob_sound (j : Job) : Sound s (s.putJob j) := by
  refine mapJobs_sound s _ fun x => ?_
  split
  next h => exact (pair_of_serves h).symm
  · rfl

theorem removeJob_sound (d : DropId) (k : Kind) : Sound s (s.removeJob d k) :=
  (filterJobs_sound s _).trans (leaveMark_sound _ d k)

/-- A job made for a pair that has none, on a drop that is not DISABLED (R96). -/
theorem addJob_sound (j : Job) (hn : s.job? j.drop j.kind = none) (hp : (s.drop j.drop).presence ≠ .disabled) :
    Sound s (s.addJob j) where
  notices := id
  counters := counters_setPlanner s _ id
  taps := id
  runs := id
  jobs h := by
    have fresh : j.pair ∉ s.planner.jobs.map Job.pair := by
      rintro hm
      obtain ⟨i, hi, e⟩ := List.mem_map.mp hm
      exact List.find?_eq_none.mp hn i hi ((serves_iff ..).mpr (Prod.ext_iff.mp e))
    constructor
    · show ((s.planner.jobs ++ [j]).map Job.pair).Nodup
      rw [List.map_append]
      exact List.Nodup.append h.1 (List.nodup_singleton _) (List.disjoint_singleton.mpr fresh)
    · intro i hi
      rcases List.mem_append.mp hi with old | new
      · exact h.2 i old
      · rw [List.mem_singleton.mp new]; exact hp

theorem judgeJob_pair (j : Job) : (s.judgeJob j).pair = j.pair := Prod.ext_iff.mpr (judgeJob_drop s j)

theorem judgeJobs_sound : Sound s s.judgeJobs := mapJobs_sound s _ (judgeJob_pair s)

theorem relevelJobs_sound : Sound s s.relevelJobs := mapJobs_sound s _ (fun _ => judgeJob_pair s _)

theorem dropFailed_sound (k : Kind) : Sound s (s.dropFailed k) := filterJobs_sound s _

/-- The Planner's other fields replaced. -/
theorem keepJobs_sound (x : Planner) (hj : x.jobs = s.planner.jobs) (hc : Capped s.planner.counterList → Capped x.counterList) :
    Sound s (s.setPlanner x) := sound_setPlanner s x (by rw [hj]) hc

theorem writeLog_sound (e : LogEntry) : Sound s (s.writeLog e) := by
  unfold State.writeLog
  split
  · exact .refl s
  · exact keepJobs_sound s _ rfl id

/-- One more of the three counters of the Planner, or all as they were. -/
theorem planner_capped {a b c a' b' c' : Nat} (ha : a ≤ 65535 → a' ≤ 65535) (hb : b ≤ 65535 → b' ≤ 65535)
    (hc : c ≤ 65535 → c' ≤ 65535) (h : Capped [a, b, c]) : Capped [a', b', c'] := by
  simp only [capped_cons] at h ⊢
  exact ⟨ha h.1, hb h.2.1, hc h.2.2.1, h.2.2.2⟩

theorem countFail_sound : Sound s (s.setPlanner { s.planner with jobFail := bump s.planner.jobFail 1 }) :=
  keepJobs_sound s _ rfl (planner_capped id (fun _ => bump_le ..) id)

theorem failJob_sound (j : Job) (c : Cause) : Sound s (s.failJob j c) :=
  ((((putJob_sound s _).trans (leaveMark_sound _ _ _)).trans (raise_sound _ _ _ _ _)).trans (countFail_sound _)).trans
    (writeLog_sound _ _)

/-! ### Planning -/

theorem settleJob_sound (j : Job) : Sound s (s.settleJob j) := by
  unfold State.settleJob
  split
  · exact failJob_sound s j _
  · exact putJob_sound s _

theorem takePlan_sound (d : DropId) (k : Kind) (plan : List Step) (target : Nat) (hp : (s.drop d).presence ≠ .disabled) :
    Sound s (s.takePlan d k plan target) := by
  unfold State.takePlan
  split
  next none => exact (addJob_sound s _ none hp).trans (settleJob_sound _ _)
  next =>
    split
    · exact putJob_sound s _
    · exact ((putJob_sound s _).trans (leaveMark_sound _ d k)).trans (settleJob_sound _ _)

theorem noteNofit_sound (d : DropId) (b : Bool) : Sound s (s.noteNofit d b) := by
  unfold State.noteNofit
  have noted : Sound s (s.setDrop d { s.drop d with blockNofit := b }) := sound_setDrop_bare s d _ rfl
  split
  · exact (noted.trans (raise_sound _ _ _ _ _)).trans (writeLog_sound _ _)
  · exact noted

theorem noteAhead_sound (d : DropId) (b : Bool) : Sound s (s.noteAhead d b) := sound_setDrop_bare s d _ rfl

/-- A decision moves no presence. -/
theorem Decided.presence {s t : State} (h : Decided s t) (d : DropId) : (t.drop d).presence = (s.drop d).presence :=
  show (t.drop d).bare.presence = (s.drop d).bare.presence from congrArg Drop.presence (h.drops d)

theorem planBlock_sound (d : DropId) (hp : (s.drop d).presence ≠ .disabled) : Sound s (s.planBlock d) := by
  have noted (b : Bool) : ((s.noteNofit d b).drop d).presence ≠ .disabled := by
    rw [(noteNofit_decided s d b).presence]; exact hp
  unfold State.planBlock
  split
  · exact (noteNofit_sound s d _).trans (removeJob_sound _ _ _)
  · exact (noteNofit_sound s d _).trans (removeJob_sound _ _ _)
  · exact (noteNofit_sound s d _).trans (takePlan_sound _ _ _ _ _ (noted _))
  · exact (noteNofit_sound s d _).trans (takePlan_sound _ _ _ _ _ (noted _))

theorem planFare_sound (d : DropId) (hp : (s.drop d).presence ≠ .disabled) : Sound s (s.planFare d) := by
  unfold State.planFare
  split
  · exact (noteAhead_sound s d _).trans (removeJob_sound _ _ _)
  · exact (noteAhead_sound s d _).trans (removeJob_sound _ _ _)
  · exact (noteAhead_sound s d _).trans
      (takePlan_sound _ _ _ _ _ (by rw [(noteAhead_decided s d _).presence]; exact hp))

theorem planKind_sound (d : DropId) (k : Kind) (hp : (s.drop d).presence ≠ .disabled) : Sound s (s.planKind d k) := by
  cases k with
  | fare => exact planFare_sound s d hp
  | block => exact planBlock_sound s d hp

theorem planned_not_disabled {s : State} {d : DropId} (h : s.planned d = true) : (s.drop d).presence ≠ .disabled := by
  intro e
  simp [State.planned, e] at h

theorem planPair_sound (d : DropId) (k : Kind) : Sound s (s.planPair d k) := by
  unfold State.planPair
  split
  next planned =>
    have hp := planned_not_disabled planned
    split
    · exact planKind_sound s d k hp
    · split
      · exact .refl s
      · split
        · exact putJob_sound s _
        · exact planKind_sound s d k hp
  next => exact .refl s

theorem planBoth_sound (d : DropId) : Sound s (s.planBoth d) := (planPair_sound s d _).trans (planPair_sound _ d _)

theorem planEvery_sound : Sound s s.planEvery := sound_foldl _ planBoth_sound _ s

theorem replanKind_sound (k : Kind) : Sound s (s.replanKind k) :=
  (dropFailed_sound s k).trans (sound_foldl _ (fun t d => planPair_sound t d k) _ _)

theorem stopStep_sound (d : DropId) : Sound s (s.stopStep d) := by
  unfold State.stopStep
  split
  · split
    · exact putJob_sound s _
    · exact .refl s
  · exact .refl s

theorem owedTaps_detached (t : Trunk) (f : Exchange → Exchange) (h : ∀ x, (f x).frame = x.frame) :
    ({ t with ex := t.ex.map f } : Trunk).owedTaps = t.owedTaps := by
  unfold Trunk.owedTaps
  cases t.ex with
  | none => rfl
  | some x => simp only [Option.map_some, h]

theorem endPush_sound (d : DropId) : Sound s (s.endPush d) := by
  rw [endPush_eq]
  exact (stopStep_sound s d).trans (sound_setTrunk _ _ id (owedTaps_detached _ (Exchange.detachedFrom _) fun _ => rfl).le)

theorem promoteJob_sound (j : Job) : Sound s (s.promoteJob j) := putJob_sound s _

theorem lateListed_sound (d : DropId) : Sound s (s.lateListed d) := by
  unfold State.lateListed
  split
  · split
    · exact .refl s
    · exact promoteJob_sound s _
  · dsimp only
    split
    · exact (planPair_sound s d _).trans (promoteJob_sound _ _)
    · exact planPair_sound s d _

/-! ### The outcome of a push exchange -/

theorem moveCursor_sound (j : Job) (f : Mark → Mark) : Sound s (s.moveCursor j f) := by
  unfold State.moveCursor
  split
  · exact onMark_sound s _ f
  · exact .refl s

theorem countRetry_sound (j : Job) (c : Cause) (move : State → Job → State) (h : ∀ t i, Sound t (move t i)) :
    Sound s (s.countRetry j c move) := by
  have counted : Sound s (s.setPlanner { s.planner with retries := bump s.planner.retries 1 }) :=
    keepJobs_sound s _ rfl (planner_capped (fun _ => bump_le ..) id id)
  unfold State.countRetry
  dsimp only
  split
  · exact counted.trans (failJob_sound _ _ _)
  · exact counted.trans (h _ _)

theorem resume_sound (j : Job) : Sound s (s.resume j) := by
  unfold State.resume
  split
  · exact (moveCursor_sound s j _).trans (putJob_sound _ _)
  · exact putJob_sound s _

theorem stepBack_sound (j : Job) (n : Nat) : Sound s (s.stepBack j n) := by
  unfold State.stepBack
  split
  · exact (moveCursor_sound s j _).trans (putJob_sound _ _)
  · exact putJob_sound s _

theorem resend_sound (j : Job) : Sound s (s.resend j) := (moveCursor_sound s j _).trans (putJob_sound _ _)

theorem restage_sound (j : Job) : Sound s (s.restage j) := (putJob_sound s _).trans (settleJob_sound _ _)

theorem takeBadSequence_sound (j : Job) : Sound s (s.takeBadSequence j) := by
  unfold State.takeBadSequence
  split
  · exact countRetry_sound s j _ _ resume_sound
  · exact countRetry_sound s j _ _ (fun t i => putJob_sound t _)

theorem takeNak_sound (j : Job) (r : NakReason) : Sound s (s.takeNak j r) := by
  cases r with
  | noRoom => exact failJob_sound s j _
  | badSequence => exact takeBadSequence_sound s j
  | digest =>
    show Sound s (if j.phase = .close then _ else _)
    split
    · exact countRetry_sound s j _ _ resend_sound
    · exact countRetry_sound s j _ _ resume_sound
  | notStaged =>
    show Sound s (if j.phase = .activate then _ else _)
    split
    · exact countRetry_sound s j _ _ restage_sound
    · exact countRetry_sound s j _ _ resume_sound
  | refused => exact countRetry_sound s j _ _ resume_sound

theorem takeOpened_sound (j : Job) (k : Nat) : Sound s (s.takeOpened j k) := by
  unfold State.takeOpened
  split
  · exact putJob_sound s _
  · split
    · exact putJob_sound s _
    · exact takeBadSequence_sound s j

theorem endStep_sound (j : Job) : Sound s (s.endStep j) := (putJob_sound s _).trans (leaveMark_sound _ _ _)

theorem takeClosed_sound (j : Job) (e : Nat) : Sound s (s.takeClosed j e) := by
  unfold State.takeClosed
  dsimp only
  split
  · exact endStep_sound s _
  · exact (endStep_sound s _).trans (planPair_sound _ _ _)

theorem takeOutcome_sound (j : Job) (o : PushOutcome) : Sound s (s.takeOutcome j o) := by
  cases o with
  | ack v =>
    show Sound s (match j.phase with | .open_ => _ | .segments => _ | .close => _ | .activate => _)
    cases j.phase with
    | open_ => exact takeOpened_sound s j v
    | segments => exact (moveCursor_sound s j _).trans (putJob_sound _ _)
    | close => exact takeClosed_sound s j v
    | activate => exact (endStep_sound s _).trans (planPair_sound _ _ _)
  | nak r => exact takeNak_sound s j r
  | missed c => exact countRetry_sound s j _ _ resume_sound
  | badSequence => exact takeBadSequence_sound s j
  | goBack n => exact countRetry_sound s j _ _ (fun t i => stepBack_sound t i n)
  | unacknowledged => exact .refl s

theorem pushEnded_sound (d : DropId) (k : Kind) (b : Bool) (o : PushOutcome) : Sound s (s.pushEnded d k b o) := by
  have handed (t : State) : Sound t (t.handOutcome d k b o) := by
    unfold State.handOutcome
    split
    · split
      · exact .refl t
      · exact takeOutcome_sound t _ o
    · exact .refl t
  have replanned (t : State) : Sound t (t.takeReplan d k) := by
    unfold State.takeReplan
    split
    · split
      · exact (putJob_sound t _).trans (planPair_sound _ d k)
      · exact .refl t
    · exact .refl t
  have judged (t : State) : Sound t (t.rejudge d k) := by
    unfold State.rejudge
    split
    · exact putJob_sound t _
    · exact .refl t
  exact ((handed s).trans (replanned _)).trans (judged _)

/-! ### Forming exchanges and the arbiter -/

/-- A change of the trunk that keeps its exchange and its counters. -/
theorem trunkRound_sound (x : Trunk) (hc : x.counters = s.trunk.counters) (he : x.ex = s.trunk.ex) : Sound s (s.setTrunk x) :=
  sound_setTrunk s x (by rw [hc]; exact id) (by unfold Trunk.owedTaps; rw [he])

/-- A new exchange: a POLL allows no more than the tap queue has room for. -/
theorem beginExchange_sound (kind : ExKind) (drop : Option DropId) (f : TrunkFrame) (bs be : Nat)
    (h : ∀ a, f = .poll a → s.taps.queue.length ≤ 256 → s.taps.queue.length + a ≤ 256) :
    Sound s (s.beginExchange kind drop f bs be) where
  notices := id
  counters := counters_setTrunk s _ id
  jobs := id
  runs := id
  taps hs := by
    have room : s.taps.queue.length ≤ 256 := (Nat.le_add_right ..).trans hs
    unfold TapsFit
    cases f with
    | poll a => exact h a rfl room
    | openF | segment | close | activate => exact room

theorem noteAllowance_sound : Sound s s.noteAllowance := by
  unfold State.noteAllowance
  split
  · refine (sound_setTaps s _ (fun h => ?_) (by exact le_rfl)).trans (raise_sound _ _ _ _ _)
    simp only [Taps.counters, capped_cons] at h ⊢
    obtain ⟨h1, h2, h3, h4, h5, -, h7⟩ := h
    exact ⟨h1, h2, h3, h4, h5, bump_le .., h7⟩
  · exact .refl s

theorem noteAllowance_queue : s.noteAllowance.taps.queue = s.taps.queue := by
  unfold State.noteAllowance
  split <;> rfl

theorem formPoll_sound (kind : ExKind) (d : DropId) : Sound s (s.formPoll kind d) := by
  refine ((noteAllowance_sound s).trans (sound_setDrop_bare _ d _ (by rfl))).trans (beginExchange_sound _ _ _ _ _ _ ?_)
  rintro a ⟨⟩ room
  simp only [State.setDrop_taps, noteAllowance_queue, Taps.allowance, tapQueueLimit] at room ⊢
  omega

theorem formBroadcast_sound (p : Nat) : Sound s (s.formBroadcast p) :=
  (trunkRound_sound s _ (by rfl) (by rfl)).trans (beginExchange_sound _ _ _ _ _ _ (fun _ => nofun))

theorem formUrgent_sound (d : DropId) : Sound s (s.formUrgent d) := (trunkRound_sound s _ (by rfl) (by rfl)).trans (formPoll_sound _ _ d)

theorem displace_sound (d : DropId) (k : Kind) : Sound s (s.displace d k) := by
  unfold State.displace
  split
  · refine sound_setPlanner s _ ?_ (planner_capped id id (fun _ => bump_le ..))
    rw [List.map_map, List.map_congr_left (g := Job.pair) fun j _ => ?_]
    show Job.pair (if _ then _ else _) = _
    split <;> rfl
  · exact .refl s

theorem formPush_sound (j : Job) (f : TrunkFrame) (bs be : Nat) (h : ∀ a, f ≠ .poll a) : Sound s (s.formPush j f bs be) :=
  ((((displace_sound s _ _).trans (putJob_sound _ _)).trans (keepJobs_sound _ _ (by rfl) (by exact id))).trans
    (trunkRound_sound _ _ (by rfl) (by rfl))).trans
    (beginExchange_sound _ _ _ _ _ _ fun a e => absurd e (h a))

theorem openFull_sound (j : Job) : Sound s (s.openFull j) := by
  unfold State.openFull
  split
  · exact .refl s
  · dsimp only
    split
    · exact (placeMark_sound s _).trans (formPush_sound _ _ _ _ _ nofun)
    · exact (((placeMark_sound s _).trans (releaseMark_sound _ _)).trans (putJob_sound _ _)).trans (planPair_sound _ _ _)

theorem openStep_sound (j : Job) : Sound s (s.openStep j) := by
  unfold State.openStep
  split
  · split
    · exact formPush_sound s _ _ _ _ nofun
    · exact .refl s
  · exact openFull_sound s j
  · split
    · exact formPush_sound s _ _ _ _ nofun
    · exact .refl s
  · exact .refl s
  · exact .refl s

theorem sendBurst_sound (j : Job) : Sound s (s.sendBurst j) := by
  unfold State.sendBurst
  dsimp only
  split
  · exact (moveCursor_sound s j _).trans (formPush_sound _ _ _ _ _ nofun)
  · exact .refl s

theorem wake_sound (j : Job) : Sound s (s.wake j).1 := by
  unfold State.wake
  split
  · split
    · exact setMark_sound s _ _
    · exact .refl s
  · exact .refl s

theorem pushJob_sound (j : Job) : Sound s (s.pushJob j) := by
  unfold State.pushJob
  refine (wake_sound s j).trans ?_
  dsimp only
  split
  · exact openStep_sound _ _
  · exact sendBurst_sound _ _
  · split
    · exact formPush_sound _ _ _ _ _ nofun
    · exact .refl _
  · exact formPush_sound _ _ _ _ _ nofun

theorem tryJob_sound (d : DropId) (k : Kind) : Sound s (s.tryJob d k) := by
  unfold State.tryJob
  split
  · exact .refl s
  · split
    · split
      · exact pushJob_sound s _
      · exact .refl s
    · exact .refl s

theorem pushChoice_sound : Sound s s.pushChoice := sound_foldl _ (fun t (j : Job) => tryJob_sound t j.drop j.kind) _ s

theorem endRound_sound : Sound s s.endRound := (trunkRound_sound s _ (by rfl) (by rfl)).trans (sound_setRoster_same _ _ (by rfl))

theorem openRound_sound : Sound s s.openRound := by
  refine (sound_setTrunk s _ (fun h => ?_) (by exact le_rfl)).trans (sound_setRoster_same _ _ (by rfl))
  simp only [Trunk.counters, capped_cons] at h ⊢
  obtain ⟨h1, h2, h3, h4, h5, -, h7⟩ := h
  exact ⟨h1, h2, h3, h4, h5, bump_le .., h7⟩

theorem startPause_sound : Sound s s.startPause := by
  unfold State.startPause
  split
  · exact trunkRound_sound s _ rfl rfl
  · exact .refl s

theorem startRound_sound : Sound s s.startRound := by
  unfold State.startRound
  split
  · exact ((openRound_sound s).trans (endRound_sound _)).trans (startPause_sound _)
  · exact openRound_sound s

theorem takeTurn_sound : Sound s s.takeTurn := by
  unfold State.takeTurn
  split
  · exact .refl s
  · split
    · exact endRound_sound s
    · exact (trunkRound_sound s _ (by rfl) (by rfl)).trans (formPoll_sound _ _ _)

theorem roundStep_sound : Sound s s.roundStep := by
  unfold State.roundStep
  dsimp only
  split
  · exact ((takeTurn_sound s).trans (startRound_sound _)).trans (takeTurn_sound _)
  · exact takeTurn_sound s

theorem pushStep_sound : Sound s s.pushStep := by
  unfold State.pushStep
  dsimp only
  split
  · exact ((pushChoice_sound s).trans (startRound_sound _)).trans (takeTurn_sound _)
  · exact pushChoice_sound s

theorem arbitrate_sound : Sound s s.arbitrate := by
  unfold State.arbitrate
  split
  · exact .refl s
  · split
    · exact formBroadcast_sound s _
    · split
      · exact formUrgent_sound s _
      · dsimp only
        split
        · exact roundStep_sound s
        · exact (roundStep_sound s).trans (pushStep_sound _)

theorem conclude_sound : Sound s s.conclude := ((arbitrate_sound s).trans (freeRecords_sound _)).trans (uplink_sound _)

end

end Sys2Proof.Machine

namespace Sys2Proof.Machine

/-! ### The relation of a whole event -/

/-- `t` keeps, besides, what the enable values and the changeover record follow. -/
structure Kept (s t : State) : Prop extends Sound s t where
  enable : EnableAgrees s → EnableAgrees t
  change : ChangeFollows s → ChangeFollows t

theorem Kept.refl (s : State) : Kept s s := ⟨.refl s, id, id⟩

theorem Kept.trans {s t u : State} (h : Kept s t) (g : Kept t u) : Kept s u :=
  ⟨h.toSound.trans g.toSound, g.enable ∘ h.enable, g.change ∘ h.change⟩

theorem kept_foldl {α : Type} (f : State → α → State) (h : ∀ s a, Kept s (f s a)) (l : List α) (s : State) :
    Kept s (l.foldl f s) := foldl_preserves f (Kept s) (fun t a g => g.trans (h t a)) l s (.refl s)

theorem EnableAgrees.of_same {s t : State} (h : EnableAgrees s) (hs : t.settings = s.settings)
    (hp : ∀ d, (t.drop d).presence = (s.drop d).presence) (hq : ∀ d, (t.drop d).stopping = (s.drop d).stopping) :
    EnableAgrees t := by
  intro d
  rw [hs, hp, hq]
  exact h d

theorem ChangeFollows.of_same {s t : State} (h : ChangeFollows s) (hc : t.change = s.change)
    (hp : t.cat.pendingFare = s.cat.pendingFare) : ChangeFollows t := by
  unfold ChangeFollows
  rw [hc, hp]
  exact h

theorem presence_of_bare {r q : Drop} (h : r.bare = q.bare) : r.presence = q.presence :=
  show r.bare.presence = q.bare.presence from congrArg Drop.presence h

/-- An event that moves no setting, no presence and no changeover. -/
theorem Sound.kept {s t : State} (h : Sound s t) (hs : t.settings = s.settings)
    (hd : ∀ d, (t.drop d).bare = (s.drop d).bare) (hc : t.change = s.change) (hp : t.cat.pendingFare = s.cat.pendingFare) :
    Kept s t :=
  ⟨h, fun g => g.of_same hs (fun d => presence_of_bare (hd d)) (fun d => stopping_of_bare (hd d)), fun g => g.of_same hc hp⟩

theorem pendingFare_of_bare {c k : Catalogue} (h : c.bare = k.bare) : c.pendingFare = k.pendingFare :=
  show c.bare.pendingFare = k.bare.pendingFare from congrArg Catalogue.pendingFare h

theorem Sound.decided {s t : State} (h : Sound s t) (g : Decided s t) : Kept s t :=
  h.kept g.settings g.drops g.change (pendingFare_of_bare g.cat)

/-- What the changeover's own operations keep, apart from its record. -/
theorem Sound.moved {s t : State} (h : Sound s t) (g : Moved s t) (hc : ChangeFollows s → ChangeFollows t) : Kept s t :=
  ⟨h, fun e => e.of_same g.settings (fun d => presence_of_bare (g.drops d)) (fun d => stopping_of_bare (g.drops d)), hc⟩

section
variable (s : State)

theorem conclude_kept : Kept s s.conclude := (conclude_sound s).decided (conclude_decided s)
theorem uplink_kept : Kept s s.uplink := (uplink_sound s).decided (uplink_decided s)
theorem planBoth_kept (d : DropId) : Kept s (s.planBoth d) := (planBoth_sound s d).decided (planBoth_decided s d)

theorem raise_kept (f : Flag) (ed : Nat) (c : Option Code) (d : Option DropId) : Kept s (s.raise f ed c d) :=
  (raise_sound s f ed c d).kept rfl (fun _ => rfl) rfl rfl

theorem setTimebase_kept (x : Nat) : Kept s (s.setTimebase x) := (sound_setTimebase s x).kept rfl (fun _ => rfl) rfl rfl

theorem setTrunk_kept (x : Trunk) (hc : Capped s.trunk.counters → Capped x.counters) (ho : x.owedTaps ≤ s.trunk.owedTaps) :
    Kept s (s.setTrunk x) := (sound_setTrunk s x hc ho).kept rfl (fun _ => rfl) rfl rfl

theorem setPort_kept (x : Port) (hn : (s.port.notices.map Notice.flag).Nodup → (x.notices.map Notice.flag).Nodup)
    (hc : Capped s.port.counterList → Capped x.counterList) : Kept s (s.setPort x) :=
  (sound_setPort s x hn hc).kept rfl (fun _ => rfl) rfl rfl

theorem setIntakes_kept (x : Intakes) (hc : Capped s.intakes.counterList → Capped x.counterList) : Kept s (s.setIntakes x) :=
  (sound_setIntakes s x hc).kept rfl (fun _ => rfl) rfl rfl

theorem setTable_kept (x : CardTable) (hc : Capped s.table.counterList → Capped x.counterList) : Kept s (s.setTable x) :=
  (sound_setTable s x hc).kept rfl (fun _ => rfl) rfl rfl

/-! ### The changeover -/

theorem activate_sound (p : Nat) : Sound s (s.activate p) :=
  ((sound_setCat s _).trans (trunkRound_sound _ _ (by rfl) (by rfl))).trans (sound_setChange _ _)

theorem foundReady_sound (p : Nat) (b : Bool) : Sound s (s.foundReady p b) := by
  unfold State.foundReady
  dsimp only
  split
  · exact (sound_setChange s _).trans (activate_sound _ p)
  · exact (sound_setChange s _).trans (sound_setChange _ _)

theorem judgeReady_sound : Sound s s.judgeReady := by
  unfold State.judgeReady
  split
  · split
    · exact foundReady_sound s _ _
    · split
      · exact foundReady_sound s _ _
      · exact .refl s
  · exact .refl s

theorem passHold_sound (p : Nat) : Sound s (s.passHold p) := by
  unfold State.passHold
  refine Sound.trans ?_ (judgeReady_sound _)
  dsimp only
  split
  · exact sound_setChange s _
  · exact (sound_setChange s _).trans (raise_sound _ _ _ _ _)

theorem enterDue_sound (p : Nat) : Sound s (s.enterDue p) := by
  unfold State.enterDue
  dsimp only
  split
  · exact (sound_setChange s _).trans (passHold_sound _ p)
  · split <;> exact ((sound_setChange s _).trans (sound_setChange _ _)).trans (judgeReady_sound _)

theorem dueTest_sound : Sound s s.dueTest := by
  unfold State.dueTest
  split
  · exact sound_setChange s _
  · split
    · exact enterDue_sound s _
    · exact sound_setChange s _

theorem changeoverClock_sound (b : Bool) : Sound s (s.changeoverClock b) := by
  unfold State.changeoverClock
  split
  · split
    · exact enterDue_sound s _
    · exact .refl s
  · split
    · split
      · split
        · exact passHold_sound s _
        · exact sound_setChange s _
      · exact .refl s
    · split
      · exact passHold_sound s _
      · exact .refl s
    · exact .refl s
    · exact .refl s
  · exact .refl s

variable {s}

theorem activate_follows (p : Nat) (h : s.cat.pendingFare ≠ none) : ChangeFollows (s.activate p) :=
  ⟨⟨nofun, fun e => absurd e h⟩, fun e => absurd rfl e, ⟨nofun, nofun⟩, fun _ => rfl⟩

theorem foundReady_follows (p : Nat) (b : Bool) (hq : s.change.requested = none) (h : s.cat.pendingFare ≠ none) :
    ChangeFollows (s.foundReady p b) := by
  unfold State.foundReady
  dsimp only
  split
  · exact activate_follows p h
  · refine ⟨⟨nofun, fun e => absurd e h⟩, fun e => absurd rfl e, ⟨fun _ => rfl, fun _ => rfl⟩, fun e => ?_⟩
    simp only [State.setChange_change, hq, Option.isSome_none, Bool.false_eq_true] at e

theorem pendingFare_of_p? {p : Nat} (h : s.cat.p? = some p) : s.cat.pendingFare ≠ none := by
  intro e
  simp [Catalogue.p?, e] at h

theorem judgeReady_follows (h : ChangeFollows s) : ChangeFollows s.judgeReady := by
  unfold State.judgeReady
  split
  next _ hq hp =>
    have some := pendingFare_of_p? hp
    split
    · exact foundReady_follows _ _ hq some
    · split
      · exact foundReady_follows _ _ hq some
      · exact h
  · exact h

/-- In DUE with no request any hold deadline may stand. -/
theorem setHold_follows (x : Hold) (h : ChangeFollows s) (hs : s.change.state = .due) (hq : s.change.requested = none) :
    ChangeFollows (s.setChange { s.change with hold := x }) := by
  obtain ⟨idle, -, door, requested⟩ := h
  exact ⟨idle, fun _ => ⟨hs, hq⟩, door, requested⟩

theorem passHold_follows (p : Nat) (h : ChangeFollows s) (hs : s.change.state = .due) (hq : s.change.requested = none) :
    ChangeFollows (s.passHold p) := by
  have passed := setHold_follows .passed h hs hq
  unfold State.passHold
  refine judgeReady_follows ?_
  dsimp only
  split
  · exact passed
  · exact passed.of_same rfl rfl

theorem enterDue_follows (p : Nat) (h : s.cat.pendingFare ≠ none) : ChangeFollows (s.enterDue p) := by
  have entered : ChangeFollows
      (s.setChange { state := .due, hold := .absent, door := none, requested := none, forced := false }) :=
    ⟨⟨nofun, fun e => absurd e h⟩, fun e => absurd rfl e, ⟨nofun, nofun⟩, nofun⟩
  unfold State.enterDue
  dsimp only
  split
  · exact passHold_follows p entered rfl rfl
  · split <;> exact judgeReady_follows (setHold_follows _ entered rfl rfl)

theorem dueTest_follows : ChangeFollows s.dueTest := by
  unfold State.dueTest
  split
  next none => exact ⟨⟨fun _ => none, fun _ => rfl⟩, fun e => absurd rfl e, ⟨nofun, nofun⟩, nofun⟩
  next r some =>
    have present : s.cat.pendingFare ≠ none := by rw [some]; nofun
    split
    · exact enterDue_follows _ present
    · exact ⟨⟨nofun, fun e => absurd e present⟩, fun e => absurd rfl e, ⟨nofun, nofun⟩, nofun⟩

variable (s)

theorem judgeReady_kept : Kept s s.judgeReady := (judgeReady_sound s).moved (judgeReady_moved s) judgeReady_follows

theorem dueTest_kept : Kept s s.dueTest := (dueTest_sound s).moved (dueTest_moved s) fun _ => dueTest_follows

theorem changeoverClock_kept (b : Bool) : Kept s (s.changeoverClock b) := by
  refine (changeoverClock_sound s b).moved (changeoverClock_moved s b) fun h => ?_
  unfold State.changeoverClock
  split
  next _ r hr =>
    split
    · exact enterDue_follows _ (by rw [hr]; nofun)
    · exact h
  next r hs hq hr =>
    split
    · split
      · split
        · exact passHold_follows _ h hs hq
        · exact setHold_follows _ h hs hq
      · exact h
    · split
      · exact passHold_follows _ h hs hq
      · exact h
    · exact h
    · exact h
  · exact h

theorem endDoorWait_kept : Kept s s.endDoorWait := by
  unfold State.endDoorWait
  split
  next _ hp => exact (activate_sound s _).moved (activate_moved s _) fun _ => activate_follows _ (pendingFare_of_p? hp)
  · exact .refl s

theorem changeoverDoors_kept : Kept s s.changeoverDoors := by
  unfold State.changeoverDoors
  split
  · exact endDoorWait_kept s
  · exact .refl s

theorem changeoverRestart_kept : Kept s s.changeoverRestart := by
  unfold State.changeoverRestart
  split
  · exact .refl s
  all_goals exact dueTest_kept s

/-! ### The Roster -/

/-- One drop's record replaced, its presence and its stopping mark as before. -/
theorem setDrop_kept (d : DropId) (x : Drop) (hc : Capped (s.drop d).counters.list → Capped x.counters.list)
    (hp : x.presence = (s.drop d).presence) (hr : x.run = (s.drop d).run) (hs : x.stopping = (s.drop d).stopping) :
    Kept s (s.setDrop d x) := by
  refine ⟨sound_setDrop s d x hc (by rw [hp, hr]; exact id) (by rw [hp]; exact id), fun h => ?_, id⟩
  refine h.of_same rfl (fun e => ?_) (fun e => ?_) <;>
    rw [State.drop_setDrop] <;> split
  next e => rw [e, hp]
  next => rfl
  next e => rw [e, hs]
  next => rfl

theorem countDrop_kept (d : DropId) (f : DropCounters → DropCounters)
    (h : Capped (s.drop d).counters.list → Capped (f (s.drop d).counters).list) : Kept s (s.countDrop d f) :=
  setDrop_kept s d _ h rfl rfl rfl

theorem countGood_kept (d : DropId) : Kept s (s.countGood d) :=
  countDrop_kept s d _ fun h => by simp_all [Capped, DropCounters.list, bump_le]

theorem countMiss_kept (d : DropId) (g : Bool) : Kept s (s.countMiss d g) :=
  countDrop_kept s d _ fun h => by cases g <;> simp_all [Capped, DropCounters.list, bump_le]

/-- A presence other than DISABLED set on a drop that is not DISABLED, with a run count that fits (R79). -/
theorem setPresence_kept (d : DropId) (p : Presence) (n : Nat) (hd : (s.drop d).presence ≠ .disabled) (hp : p ≠ .disabled)
    (hr : runFits (s.drop d).presence (s.drop d).run → runFits p n) : Kept s (s.setPresence d p n) where
  toSound := sound_setDrop s d _ id hr fun _ => hp
  enable h e := by
    rw [State.setPresence, State.drop_setDrop]
    split
    next eq =>
      subst eq
      obtain ⟨on, off⟩ := h e
      refine ⟨on.trans ?_, fun _ => hp⟩
      rw [bne_iff_ne.mpr hd, bne_iff_ne.mpr hp]
    next => exact h e
  change := id

end

end Sys2Proof.Machine

namespace Sys2Proof.Machine

section
variable (s : State) (d : DropId)

/-! ### Presence (R79 to R82, R88) -/

theorem forgetDrop_decided : Decided s (s.forgetDrop d) :=
  (((removeJob_decided s d _).trans (removeJob_decided _ d _)).trans (releaseMark_decided _ d)).trans
    (decided_setDrop _ _ _ (by rfl))

theorem forgetDrop_sound : Sound s (s.forgetDrop d) :=
  (((removeJob_sound s d _).trans (removeJob_sound _ d _)).trans (releaseMark_sound _ d)).trans
    (sound_setDrop_bare _ _ _ (by rfl))

theorem forgetDrop_kept : Kept s (s.forgetDrop d) := (forgetDrop_sound s d).decided (forgetDrop_decided s d)

theorem joinDrop_kept (h : (s.drop d).presence = .joining) : Kept s (s.joinDrop d) :=
  ((((setPresence_kept s d .present 0 (by rw [h]; nofun) nofun fun _ => rfl).trans
    (countDrop_kept _ d _ fun h => by simp_all [Capped, DropCounters.list, bump_le])).trans (raise_kept _ _ _ _ _)).trans
      (planBoth_kept _ d))

theorem loseDrop_kept (h : (s.drop d).presence ≠ .disabled) : Kept s (s.loseDrop d) :=
  (((setPresence_kept s d .absent 0 h nofun fun _ => rfl).trans (forgetDrop_kept _ d)).trans
    (countDrop_kept _ d _ fun h => by simp_all [Capped, DropCounters.list, bump_le])).trans (raise_kept _ _ _ _ _)

theorem goodEvent_kept : Kept s (s.goodEvent d) := by
  unfold State.goodEvent
  split
  · exact .refl s
  unfold State.presenceGood
  split
  next => exact .refl s
  next h => exact setPresence_kept s d _ _ (by rw [h]; nofun) nofun fun _ => rfl
  next h => exact joinDrop_kept s d h
  next h => exact setPresence_kept s d _ _ (by rw [h]; nofun) nofun fun _ => rfl
  next h => exact setPresence_kept s d _ _ (by rw [h]; nofun) nofun fun _ => rfl

theorem missEvent_kept : Kept s (s.missEvent d) := by
  unfold State.missEvent
  split
  · exact .refl s
  unfold State.presenceMiss
  split
  next => exact .refl s
  next h => exact setPresence_kept s d _ _ (by rw [h]; nofun) nofun fun _ => rfl
  next h => exact loseDrop_kept s d (by rw [h]; nofun)
  next h => exact setPresence_kept s d _ _ (by rw [h]; nofun) nofun fun _ => ⟨le_rfl, by decide⟩
  next h =>
    have present : (s.drop d).presence ≠ .disabled := by rw [h]; nofun
    split
    · exact loseDrop_kept s d present
    next below =>
      refine setPresence_kept s d _ _ present nofun fun fits => ?_
      rw [h] at fits
      exact ⟨fits.1.trans (Nat.le_succ _), Nat.lt_of_not_le below⟩

theorem disableDrop_sound : Sound s (s.disableDrop d) :=
  (forgetDrop_sound s d).trans
    (sound_setDrop_jobs _ d _ (by exact id) (fun _ => rfl) fun ⟨j, hj, e⟩ => absurd e (forgetDrop_clears s d j hj))

/-- The record of a drop that becomes DISABLED, and every other drop's (R88). -/
theorem disableDrop_presence (e : DropId) :
    ((s.disableDrop d).drop e).presence = (if e = d then .disabled else (s.drop e).presence) ∧
      ((s.disableDrop d).drop e).stopping = (if e = d then false else (s.drop e).stopping) := by
  have bare := (forgetDrop_decided s d).drops e
  unfold State.disableDrop
  dsimp only
  rw [State.drop_setDrop]
  split
  · exact ⟨rfl, rfl⟩
  · exact ⟨presence_of_bare bare, stopping_of_bare bare⟩

theorem settleStopping_kept : Kept s (s.settleStopping d) := by
  unfold State.settleStopping
  split
  next stopping =>
    refine ⟨disableDrop_sound s d, fun h e => ?_, fun h => ?_⟩
    · have settings : (s.disableDrop d).settings = s.settings := (disableDrop_ended s d).settings
      obtain ⟨presence, stops⟩ := disableDrop_presence s d e
      rw [settings, presence, stops]
      obtain ⟨on, off⟩ := h e
      split
      next eq =>
        subst eq
        exact ⟨on.trans (by simp [stopping]), nofun⟩
      next => exact ⟨on, off⟩
    · have forgot := forgetDrop_decided s d
      exact h.of_same forgot.change (pendingFare_of_bare forgot.cat)
  · exact .refl s

/-! ### Holdings and taps -/

theorem takeHolding_kept (f : Holdings → Holdings) : Kept s (s.takeHolding d f) := setDrop_kept s d _ (by exact id) rfl rfl rfl

theorem takeWaiting_kept (n : Nat) : Kept s (s.takeWaiting d n) := by
  unfold State.takeWaiting
  split
  · exact setDrop_kept s d _ (by exact id) rfl rfl rfl
  · exact .refl s

theorem setRoster_kept (x : Roster) (h : x.drops = s.roster.drops) : Kept s (s.setRoster x) :=
  (sound_setRoster_same s x h).kept rfl (fun e => by unfold State.drop; rw [State.setRoster_roster, h]) rfl rfl

theorem takeStatus_kept (h : Holdings) (held n : Nat) : Kept s (s.takeStatus d h held n) := by
  have written : Kept s (s.setDrop d { s.drop d with holdings := h, known := true, tapsHeld := held }) :=
    setDrop_kept s d _ (by exact id) rfl rfl rfl
  unfold State.takeStatus
  dsimp only
  split
  · exact written
  · exact (written.trans (countDrop_kept _ d _ fun h => by simp_all [Capped, DropCounters.list, bump_le])).trans
      (setRoster_kept _ _ (by rfl))

theorem clearExchange_kept (x : Exchange) : Kept s (s.clearExchange x) := by
  have cleared : Kept s (s.setTrunk { s.trunk with ex := none }) := setTrunk_kept s _ (by exact id) (Nat.zero_le _)
  unfold State.clearExchange
  dsimp only
  split
  · exact cleared.trans ((endRound_sound _).decided (endRound_decided _))
  · exact cleared

theorem handed_kept (x : Exchange) (o : PushOutcome) : Kept s (s.handed x d o) := by
  unfold State.handed
  split
  · exact (pushEnded_sound s d _ _ o).decided (pushEnded_decided s d _ _ o)
  all_goals exact .refl s

/-- The end of an exchange keeps what its presence event keeps (R129). -/
theorem endExchange_kept (x : Exchange) (o : PushOutcome) (event : State → State) (h : ∀ t, Kept t (event t)) :
    Kept s (s.endExchange x d o event) := by
  rw [endExchange_eq]
  exact (((((clearExchange_kept s x).trans (handed_kept _ d x o)).trans (h _)).trans (settleStopping_kept _ d)).trans
    (judgeReady_kept _)).trans (conclude_kept _)

theorem endGood_kept (x : Exchange) (o : PushOutcome) : Kept s (s.endGood x d o) :=
  endExchange_kept s d x o _ fun t => goodEvent_kept t d

/-- One of the trunk's own counters raised. -/
theorem countTrunk_kept (x : Trunk) (hc : Capped s.trunk.counters → Capped x.counters) (he : x.ex = s.trunk.ex) :
    Kept s (s.setTrunk x) := setTrunk_kept s x hc (by unfold Trunk.owedTaps; rw [he])

theorem noAnswer_kept (x : Exchange) : Kept s (s.noAnswer x d) :=
  ((countTrunk_kept s _ (fun h => by simp_all [Capped, Trunk.counters, bump_le]) (by rfl)).trans (countMiss_kept _ d false)).trans
    (endExchange_kept _ d x _ _ fun t => missEvent_kept t d)

theorem garbled_kept (x : Exchange) : Kept s (s.garbled x d) :=
  ((countTrunk_kept s _ (fun h => by simp_all [Capped, Trunk.counters, bump_le]) (by rfl)).trans (countMiss_kept _ d true)).trans
    (endExchange_kept _ d x _ _ fun t => missEvent_kept t d)

/-- The exchange in flight replaced by one whose frame owes no more taps. -/
theorem setExchange_kept (x y : Exchange) (hx : s.trunk.ex = some x) (hf : y.frame = x.frame ∨ ∀ a, y.frame ≠ .poll a) :
    Kept s (s.setExchange y) := by
  refine setTrunk_kept s _ (by exact id) ?_
  unfold Trunk.owedTaps
  rw [hx]
  dsimp only
  rcases hf with same | other
  · rw [same]
  · split
    next a e => exact absurd e (other a)
    next => exact Nat.zero_le _

/-- A decision that follows an answer which does not end the exchange. -/
theorem goOn_kept : Kept s (s.goodEvent d).judgeReady.conclude :=
  ((goodEvent_kept s d).trans (judgeReady_kept _)).trans (conclude_kept _)

theorem takeWait_kept (x : Exchange) (hx : s.trunk.ex = some x) : Kept s (s.takeWait x d) := by
  unfold State.takeWait
  split
  · exact endGood_kept s d x _
  · split
    · exact (setExchange_kept s x _ hx (.inl (by rfl))).trans (goOn_kept _ d)
    · exact (countTrunk_kept s _ (fun h => by simp_all [Capped, Trunk.counters, bump_le]) (by rfl)).trans (endGood_kept _ d x _)

theorem rewindCursor_decided (k : Kind) (n : Nat) : Decided s (s.rewindCursor d k n) := by
  unfold State.rewindCursor
  split
  · exact moveCursor_decided s _ _
  · exact .refl s

theorem rewindCursor_sound (k : Kind) (n : Nat) : Sound s (s.rewindCursor d k n) := by
  unfold State.rewindCursor
  split
  · exact moveCursor_sound s _ _
  · exact .refl s

theorem goBack_kept (x : Exchange) (k : Kind) (n : Nat) (hx : s.trunk.ex = some x) : Kept s (s.goBack x d k n) := by
  unfold State.goBack
  split
  · exact endGood_kept s d x _
  · have counted : Kept s (s.setTrunk { s.trunk with goBack := bump s.trunk.goBack 1 }) :=
      countTrunk_kept s _ (fun h => by simp_all [Capped, Trunk.counters, bump_le]) rfl
    have rewound := rewindCursor_decided (s.setTrunk { s.trunk with goBack := bump s.trunk.goBack 1 }) d k (n - x.burstStart)
    exact ((counted.trans ((rewindCursor_sound ..).decided rewound)).trans
      (setExchange_kept _ x _ (rewound.flying x hx) (.inr fun _ => by nofun))).trans (goOn_kept _ d)

theorem takeBurstAck_kept (x : Exchange) (k : Kind) (n : Nat) (hx : s.trunk.ex = some x) : Kept s (s.takeBurstAck x d k n) := by
  unfold State.takeBurstAck
  split
  · exact endGood_kept s d x _
  split
  · exact endGood_kept s d x _
  split
  · exact endGood_kept s d x _
  split
  · split
    · exact endGood_kept s d x _
    · exact goBack_kept s d x k n hx
  · exact goBack_kept s d x k n hx

theorem takeAck_kept (x : Exchange) (k : Kind) (v : Nat) (w : Option Nat) (hx : s.trunk.ex = some x) :
    Kept s (s.takeAck x d k v w) := by
  unfold State.takeAck
  split
  · cases w with
    | none => exact takeBurstAck_kept s d x k v hx
    | some n =>
      refine (takeWaiting_kept s d n).trans (takeBurstAck_kept _ d x k v ?_)
      unfold State.takeWaiting
      split <;> exact hx
  · exact (takeHolding_kept s d _).trans (endGood_kept _ d x _)
  · exact (takeHolding_kept s d _).trans (endGood_kept _ d x _)
  all_goals exact endGood_kept s d x _

/-! ### The taps of a STATUS (R160, R166) -/

/-- Verdicts counted in a row stop at 65,535 (R187), whatever joins the queue. -/
theorem count_capped (q : Taps) (l : List Screened) (v : Verdict) (h : Capped q.counters) :
    Capped ({ q with queue := l }.count v).counters := by
  cases v <;> simp_all [Capped, Taps.counters, Taps.count, bump_le]

/-- `t` keeps what `Kept` says, the room of the tap queue apart. -/
structure KeptApart (s t : State) : Prop where
  notices : NoticesOnce s → NoticesOnce t
  counters : CountersFit s → CountersFit t
  jobs : JobsOnce s → JobsOnce t
  runs : RunsFit s → RunsFit t
  enable : EnableAgrees s → EnableAgrees t
  change : ChangeFollows s → ChangeFollows t

variable {s} in
theorem Kept.apart {t : State} (h : Kept s t) : KeptApart s t := ⟨h.notices, h.counters, h.jobs, h.runs, h.enable, h.change⟩

variable {s} in
theorem KeptApart.trans {t u : State} (h : KeptApart s t) (g : KeptApart t u) : KeptApart s u :=
  ⟨g.notices ∘ h.notices, g.counters ∘ h.counters, g.jobs ∘ h.jobs, g.runs ∘ h.runs, g.enable ∘ h.enable, g.change ∘ h.change⟩

variable {s} in
theorem KeptApart.kept {t : State} (h : KeptApart s t) (room : TapsFit s → TapsFit t) : Kept s t :=
  ⟨⟨h.notices, h.counters, room, h.jobs, h.runs⟩, h.enable, h.change⟩

theorem setTaps_apart (q : Taps) (h : Capped s.taps.counters → Capped q.counters) : KeptApart s (s.setTaps q) :=
  ⟨id, counters_setTaps s q h, id, id, id, id⟩

theorem screenTap_apart (r : Tap) : KeptApart s (s.screenTap d r) := by
  unfold State.screenTap
  dsimp only
  have appended := setTaps_apart s _ (count_capped s.taps (s.taps.queue ++ [s.screened d r]) (s.screened d r).verdict)
  split
  · exact appended.trans ((lateListed_sound _ d).decided (lateListed_decided _ d)).apart
  · exact appended

theorem queue_of_bare {q r : Taps} (h : q.bare = r.bare) : q.queue = r.queue :=
  show q.bare.queue = r.bare.queue from congrArg Taps.queue h

theorem lateListed_trunk : (s.lateListed d).trunk = s.trunk := by
  unfold State.lateListed
  split
  · split <;> rfl
  · have planned : (s.planPair d .block).trunk = s.trunk := (pair_planPair s d .block).trunk
    dsimp only
    split <;> exact planned

theorem screenTaps_apart (ts : List Tap) :
    KeptApart s (s.screenTaps d ts) ∧ (s.screenTaps d ts).trunk = s.trunk ∧
      (s.screenTaps d ts).taps.queue.length = s.taps.queue.length + ts.length := by
  induction ts generalizing s with
  | nil => exact ⟨(Kept.refl s).apart, rfl, rfl⟩
  | cons r ts ih =>
    obtain ⟨kept, trunk, queue⟩ := ih (s.screenTap d r)
    have one : (s.screenTap d r).trunk = s.trunk := by
      unfold State.screenTap
      dsimp only
      split
      · exact lateListed_trunk _ d
      · rfl
    have joined : (s.screenTap d r).taps.queue = s.taps.queue ++ [s.screened d r] :=
      (queue_of_bare (screenTap_spec s d r).taps).trans (count_queue ..)
    refine ⟨(screenTap_apart s d r).trans kept, trunk.trans one, queue.trans ?_⟩
    simp only [joined, List.length_append, List.length_cons, List.length_nil]
    omega

/-- A STATUS brings no more records than the POLL in flight allowed (R166, R167). -/
theorem pollStatus_kept (x : Exchange) (h : Holdings) (held : Nat) (ts : List Tap)
    (room : s.taps.queue.length + s.trunk.owedTaps ≤ 256 → s.taps.queue.length + ts.length ≤ 256) :
    Kept s (s.pollStatus x d h held ts) := by
  have status := takeStatus_spec s d h held ts.length
  obtain ⟨-, -, -, taps, -, -⟩ := status
  unfold State.pollStatus
  dsimp only
  rw [endExchange_eq]
  generalize hu : (State.clearExchange (s.takeStatus d h held ts.length) x).handed x d .unacknowledged = u
  have before : Kept s u :=
    hu ▸ ((takeStatus_kept s d h held _).trans (clearExchange_kept _ x)).trans (handed_kept _ d x _)
  have idle : u.trunk.ex = none := by rw [← hu, handed_ex, clearExchange_ex]
  have queue : u.taps.queue = s.taps.queue := by
    have ended := (beforeEvent (s.takeStatus d h held ts.length) x d .unacknowledged).1
    rw [hu] at ended
    exact (queue_of_bare ended.taps).trans (congrArg Taps.queue taps)
  generalize hv : (if s.holdingsDiffer d h = true then (u.goodEvent d).planBoth d else u.goodEvent d) = v
  have present : Kept u v ∧ v.trunk = u.trunk ∧ v.taps.queue = u.taps.queue := by
    have good := goodEvent_ended u d
    rw [← hv]
    split
    · have planned := planBoth_decided (u.goodEvent d) d
      exact ⟨(goodEvent_kept u d).trans (planBoth_kept _ d),
        ((pair_planPair _ d .fare).trunk.trans (pair_planPair _ d .block).trunk).trans (goodEvent_trunk u d),
        (queue_of_bare planned.taps).trans (queue_of_bare good.taps)⟩
    · exact ⟨goodEvent_kept u d, goodEvent_trunk u d, queue_of_bare good.taps⟩
  obtain ⟨kept, trunk, same⟩ := present
  obtain ⟨screened, line, joined⟩ := screenTaps_apart v d ts
  have taken : Kept s (v.screenTaps d ts) := by
    refine ((before.trans kept).apart.trans screened).kept fun fits => ?_
    have owed : (v.screenTaps d ts).trunk.owedTaps = 0 := by
      unfold Trunk.owedTaps
      rw [line, trunk, idle]
    unfold TapsFit
    rw [owed, joined, same, queue]
    exact room fits
  exact ((taken.trans (settleStopping_kept _ d)).trans (judgeReady_kept _)).trans (conclude_kept _)

/-- What a STATUS is judged by: as many records as it states, at most the allowance (R127). -/
theorem replyOf_status {f : TrunkFrame} {kind : Byte} {payload : List Byte} {h : Holdings} {held : Nat} {ts : List Tap}
    (e : replyOf f kind payload = some (.status h held ts)) : ∃ a, f = .poll a ∧ ts.length ≤ a := by
  have cut (n : Nat) (l : List Byte) : (cutSlots 24 n l).length = n := by
    induction n generalizing l with
    | zero => rfl
    | succ n ih => rw [cutSlots, List.length_cons, ih]
  unfold replyOf at e
  split at e
  · split at e <;> cases e
  split at e
  · split at e <;> cases e
  split at e
  · split at e
    next legal =>
      simp only [Option.some.injEq, Reply.status.injEq] at e
      exact ⟨_, rfl, by rw [← e.2.2, List.length_map, cut]; exact legal.2.2.2⟩
    next => cases e
  all_goals split at e <;> cases e

theorem judgeAnswer_status {drop : Option DropId} {f : TrunkFrame} {bytes : List Byte} {h : Holdings} {held : Nat} {ts : List Tap}
    (e : judgeAnswer drop f bytes = some (.status h held ts)) : ∃ a, f = .poll a ∧ ts.length ≤ a := by
  unfold judgeAnswer at e
  split at e
  · dsimp only at e
    split at e
    · exact replyOf_status e
    · cases e
  · cases e

theorem takeReply_kept (x : Exchange) (r : Reply) (hx : s.trunk.ex = some x)
    (hr : ∀ h held ts, r = .status h held ts → ∃ a, x.frame = .poll a ∧ ts.length ≤ a) : Kept s (s.takeReply x d r) := by
  have counted := countGood_kept s d
  have hx' : (s.countGood d).trunk.ex = some x := hx
  unfold State.takeReply
  dsimp only
  split
  next => exact counted.trans (takeWait_kept _ d x hx')
  next h held ts =>
    refine counted.trans (pollStatus_kept _ d x h held ts fun fits => ?_)
    obtain ⟨a, frame, le⟩ := hr h held ts rfl
    have owed : (s.countGood d).trunk.owedTaps = a := by simp only [Trunk.owedTaps, hx', frame]
    omega
  next => exact counted.trans (endGood_kept _ d x _)
  next =>
    split
    · exact counted.trans (takeAck_kept _ d x _ _ _ hx')
    all_goals exact counted.trans (endGood_kept _ d x _)

/-! ### Frames on the line -/

theorem touchLine_kept : Kept s s.touchLine := countTrunk_kept s _ (by exact id) (by rfl)

theorem passTo_kept (n : Nat) : Kept s (s.passTo n) := setTimebase_kept s _

theorem takePayload_decided (k : Kind) (i : Nat) : Decided s (s.takePayload d k i).1 ∧ Sound s (s.takePayload d k i).1 := by
  unfold State.takePayload
  split
  · exact ⟨.refl s, .refl s⟩
  split
  · exact ⟨.refl s, .refl s⟩
  · exact ⟨.refl s, .refl s⟩
  · split
    next m hm => exact ⟨setMark_decided s d _ fun none => absurd (hm.symm.trans none) nofun, setMark_sound s d _⟩
    next => exact ⟨.refl s, .refl s⟩
  · exact ⟨.refl s, .refl s⟩
  · exact ⟨.refl s, .refl s⟩

theorem formSegment_kept (x : Exchange) (k : Kind) (i : Nat) (last : Bool) (hx : s.trunk.ex = some x) :
    Kept s (s.formSegment x d k i last) := by
  unfold State.formSegment
  split
  · exact endExchange_kept s d x _ _ .refl
  · obtain ⟨taken, sound⟩ := takePayload_decided s d k i
    exact (sound.decided taken).trans (setExchange_kept _ x _ (taken.flying x hx) (.inr fun _ => by nofun))

variable {d} in
theorem quietMet_kept (x : Exchange) (hx : s.trunk.ex = some x) : Kept s (s.quietMet x) := by
  unfold State.quietMet
  split
  · exact formSegment_kept s _ x _ _ _ hx
  · exact setExchange_kept s x _ hx (.inl (by rfl))

theorem nextSegment_kept (x : Exchange) (i : Nat) (hx : s.trunk.ex = some x) : Kept s (s.nextSegment x d i) := by
  unfold State.nextSegment
  split
  · exact endExchange_kept s d x _ _ .refl
  · exact setExchange_kept s x _ hx (.inr fun _ => by nofun)

/-- The promotion moves P, and the due test that follows gives the changeover record anew (R152). -/
theorem broadcastSent_kept (p : Nat) : Kept s (s.broadcastSent p) := by
  unfold State.broadcastSent
  dsimp only
  generalize hu : State.raiseEdition _ _ p = u
  have promoted : Sound s u := hu ▸ (sound_setCat s _).trans (raise_sound _ _ _ _ _)
  have tested := dueTest_kept u
  refine ⟨promoted.trans tested.toSound, fun h => tested.enable ?_, fun _ => dueTest_follows⟩
  exact hu ▸ h.of_same rfl (fun _ => rfl) (fun _ => rfl)

theorem endBroadcast_kept (x : Exchange) (p : Nat) : Kept s (s.endBroadcast x p) :=
  ((((clearExchange_kept s x).trans
    (countTrunk_kept _ _ (fun h => by simp_all [Capped, Trunk.counters, bump_le]) (by rfl))).trans
      (broadcastSent_kept _ p)).trans ((replanKind_sound _ .fare).decided (replanKind_decided _ .fare))).trans (conclude_kept _)

variable {d} in
theorem frameSent_kept (x : Exchange) (hx : s.trunk.ex = some x) : Kept s (s.frameSent x) := by
  unfold State.frameSent
  split
  · split
    · exact endBroadcast_kept s x _
    · exact .refl s
  · split
    · exact nextSegment_kept s _ x _ hx
    · exact setExchange_kept s x _ hx (.inl (by rfl))

end
end Sys2Proof.Machine

namespace Sys2Proof.Machine

section
variable (s : State)

/-! ### The port's own operations -/

theorem answer_kept (a : Answer) : Kept s (s.answer a) := setPort_kept s _ id (by exact id)

theorem setIntake_kept (k : Kind) (l : Option Load) : Kept s (s.setIntake k l) := by
  cases k <;> exact setIntakes_kept s _ (by exact id)

theorem answerClose_kept (k : Kind) (l : Load) (c : Code) (v : Nat) : Kept s (s.answerClose k l c v) := by
  unfold State.answerClose
  split
  · exact answer_kept s _
  · exact .refl s

theorem answerAbort_kept (k : Kind) (l : Load) : Kept s (s.answerAbort k l) := by
  unfold State.answerAbort
  split
  · exact answer_kept s _
  · exact .refl s

theorem dropAnswer_kept : Kept s s.dropAnswer :=
  setPort_kept s _ id fun h => by simp_all [Capped, Port.counterList, bump_le]

theorem acceptFrom_kept (src : MacAddr) : Kept s (s.acceptFrom src) := setPort_kept s _ id (by exact id)

theorem discardMessage_kept : Kept s s.discardMessage :=
  setPort_kept s _ id fun h => by simp_all [Capped, Port.counterList, bump_le]

theorem takeMessage_kept (m : Head) (take : State → State) (h : ∀ t, Kept t (take t)) : Kept s (s.takeMessage m take) := by
  unfold State.takeMessage
  split
  · exact ((acceptFrom_kept s _).trans (h _)).trans (uplink_kept _)
  · exact (acceptFrom_kept s _).trans (dropAnswer_kept _)

/-- What completes a frame: its NOTICE leaves the queue, its tap records leave theirs (R168, R177). -/
theorem txDone_kept (b : TxBody) : Kept s (s.txDone b) := by
  have cut : Kept s (s.setPort { s.port with tx := none }) := setPort_kept s _ id (by exact id)
  unfold State.txDone
  cases b with
  | answer a => exact cut.trans (setPort_kept _ _ id (by exact id))
  | notice n =>
    exact cut.trans (setPort_kept _ _ (fun h => h.sublist ((List.drop_sublist 1 _).map _)) (by exact id))
  | taps n =>
    refine cut.trans ((sound_setTaps _ _ (fun h => ?_) ?_).kept (by rfl) (fun _ => by rfl) (by rfl) (by rfl))
    · simp_all [Capped, Taps.counters, bump_le]
    · simp

/-! ### Loads -/

theorem straySegment_kept : Kept s s.straySegment :=
  setIntakes_kept s _ fun h => by simp_all [Capped, Intakes.counterList, bump_le]

theorem takeSegment_kept (k : Kind) (l : Load) (i : Nat) (p : Segment) : Kept s (s.takeSegment k l i p) := by
  unfold State.takeSegment
  split
  · exact straySegment_kept s
  · exact setIntakes_kept s _ fun h => by simp_all [Capped, Intakes.counterList, bump_le]
  · exact setIntake_kept s k _

theorem takeOpen_kept (tag : Tag) (b : OpenBody) (k : Kind) (f : Form) : Kept s (s.takeOpen tag b k f) := by
  have accepted (c : Code) (l : Load) : Kept s (s.acceptOpen tag c b k l) := (setIntake_kept s k _).trans (answer_kept _ _)
  unfold State.takeOpen
  dsimp only
  split
  · exact accepted _ _
  · split
    · split
      · exact accepted _ _
      · exact accepted _ _
    all_goals exact answer_kept s _

theorem takeClose_kept (tag : Tag) (kind : Byte) (k : Kind) (l : Load) : Kept s (s.takeClose tag kind k l) := by
  unfold State.takeClose
  split
  · split
    · exact setIntake_kept s k _
    · exact answer_kept s _
  all_goals exact answer_kept s _

theorem startUndo_kept : Kept s s.startUndo := by
  unfold State.startUndo
  split
  · exact setTable_kept s _ (by exact id)
  · exact setTable_kept s _ (by exact id)
  all_goals exact .refl s

theorem takeAbort_kept (tag : Tag) (kind : Byte) (k : Kind) (l : Load) : Kept s (s.takeAbort tag kind k l) := by
  unfold State.takeAbort
  split
  · exact (setIntake_kept s k _).trans (answer_kept _ _)
  · exact (((setIntake_kept s k _).trans (answerClose_kept _ _ _ _ _)).trans (answer_kept _ _)).trans (raise_kept _ _ _ _ _)
  · split
    · exact (setIntake_kept s k _).trans (startUndo_kept _)
    · exact answer_kept s _
  · exact answer_kept s _

theorem namedLoad_kept (tag : Tag) (kind : Byte) (ed : Nat) (take : Kind → Load → State) (h : ∀ k l, Kept s (take k l)) :
    Kept s (s.namedLoad tag kind ed take) := by
  unfold State.namedLoad
  split
  · exact answer_kept s _
  · split
    · exact answer_kept s _
    · split
      · exact h _ _
      · exact answer_kept s _

/-! ### The clock -/

theorem testDeadline_kept (k : Kind) : Kept s (s.testDeadline k) := by
  unfold State.testDeadline
  split
  · split
    · exact (setIntake_kept s k _).trans (raise_kept _ _ _ _ _)
    · exact .refl s
  · exact .refl s

theorem clockChange_kept (b : Bool) : Kept s (s.clockChange b) := by
  refine (changeoverClock_kept s b).trans ?_
  show Kept _ (State.intakeClock _ b)
  unfold State.intakeClock
  refine Kept.trans ?_ ((testDeadline_kept _ .fare).trans (testDeadline_kept _ .block))
  split
  · exact setIntakes_kept _ _ (by exact id)
  · exact .refl _

theorem setMinute_kept (n : Nat) : Kept s (s.setMinute n) := (sound_setClock s _).kept rfl (fun _ => rfl) rfl rfl

theorem nextMinute_kept : Kept s s.nextMinute := ((passTo_kept s _).trans (setMinute_kept _ _)).trans (clockChange_kept _ _)

theorem minutes_kept (n : Nat) : Kept s (s.minutes n) := by
  induction n generalizing s with
  | zero => exact .refl s
  | succ n ih => exact ((nextMinute_kept s).trans (conclude_kept _)).trans (ih _)

theorem takeTime_kept (n : Nat) : Kept s (s.takeTime n) := by
  unfold State.takeTime
  dsimp only
  split
  · split
    · exact setMinute_kept s n
    · exact (setMinute_kept s n).trans (clockChange_kept _ _)
  · exact (setMinute_kept s n).trans (clockChange_kept _ _)

/-! ### The check and the completions -/

theorem refuseLoad_kept (k : Kind) (l : Load) (c : Code) (v : Nat) : Kept s (s.refuseLoad k l c v) := by
  have refused := ((setIntake_kept s k none).trans (answerClose_kept _ k l c v)).trans
    (raise_kept _ .loadRefused l.edition (some c) none)
  unfold State.refuseLoad
  dsimp only
  split
  · exact refused.trans (raise_kept _ _ _ _ _)
  · exact refused

theorem loadDone_kept (k : Kind) (l : Load) : Kept s (s.loadDone k l) :=
  ((setIntake_kept s k _).trans (answerClose_kept _ _ _ _ _)).trans (raise_kept _ _ _ _ _)

theorem replanKind_kept (k : Kind) : Kept s (s.replanKind k) := (replanKind_sound s k).decided (replanKind_decided s k)

/-- A new P meets the changeover: while a request stands the record is left, and otherwise the due test gives it anew (R153,
R154). -/
theorem passFare_kept (l : Load) : Kept s (s.passFare l) := by
  unfold State.passFare
  dsimp only
  generalize hp : s.cat.setPending s.planner.jobs _ = c
  have pending : c.pendingFare ≠ none := by rw [← hp]; exact Option.some_ne_none _
  have passed : Sound s (s.setCat c) := sound_setCat s c
  have planned : Kept (s.setCat c) (((s.setCat c).loadDone .fare l).replanKind .fare) :=
    (loadDone_kept _ .fare l).trans (replanKind_kept _ .fare)
  have frame : (((s.setCat c).loadDone .fare l).replanKind .fare).change = s.change ∧
      (((s.setCat c).loadDone .fare l).replanKind .fare).cat.pendingFare = c.pendingFare := by
    have replan := replanKind_decided ((s.setCat c).loadDone .fare l) .fare
    have done : ((s.setCat c).loadDone .fare l).change = s.change ∧ ((s.setCat c).loadDone .fare l).cat = c := by
      unfold State.loadDone State.answerClose
      cases l.close <;> exact ⟨rfl, rfl⟩
    exact ⟨replan.change.trans done.1, (pendingFare_of_bare replan.cat).trans (congrArg _ done.2)⟩
  unfold State.changeoverNewP
  split
  next standing =>
    refine ⟨passed.trans planned.toSound, planned.enable, fun h => ?_⟩
    rw [frame.1] at standing
    obtain ⟨-, hold, door, requested⟩ := h
    have due := requested standing
    unfold ChangeFollows
    rw [frame.1, frame.2]
    exact ⟨⟨fun e => absurd (due.symm.trans e) nofun, fun e => absurd e pending⟩, hold, door, requested⟩
  next =>
    have tested := dueTest_kept (((s.setCat c).loadDone .fare l).replanKind .fare)
    exact ⟨(passed.trans planned.toSound).trans tested.toSound, fun h => tested.enable (planned.enable h), fun _ =>
      dueTest_follows⟩

/-- The exchange detached from its job, and the job's step ended. -/
theorem endPush_kept (d : DropId) : Kept s (s.endPush d) := by
  have ended := endPush_decided s d
  refine (endPush_sound s d).kept ended.settings ended.drops ended.change (pendingFare_of_bare ended.cat)

theorem startRebuild_kept (l : Load) : Kept s (s.startRebuild l) := by
  unfold State.startRebuild
  exact (((kept_foldl _ endPush_kept _ s).trans (setIntake_kept _ .block _)).trans (setTable_kept _ _ (by exact id))).trans
    (kept_foldl _ (fun t d => (planPair_sound t d .block).decided (planPair_decided t d .block)) _ _)

theorem startApply_kept (l : Load) (f : Figures) : Kept s (s.startApply l f) :=
  (setIntake_kept s .block _).trans (setTable_kept _ _ fun h => by simp_all [Capped, CardTable.counterList, bump_le])

theorem finishCheck_kept (k : Kind) (l : Load) (third : Stage3) : Kept s (s.finishCheck k l third) := by
  unfold State.finishCheck
  split
  · exact refuseLoad_kept s k l _ _
  cases k with
  | fare => exact passFare_kept s l
  | block =>
    show Kept s (s.finishBlock l third)
    unfold State.finishBlock
    split
    · exact startRebuild_kept s l
    · split
      · exact .refl s
      · split
        · exact refuseLoad_kept s _ l _ _
        · exact startApply_kept s l _

theorem requestSweep_kept : Kept s s.requestSweep := by
  unfold State.requestSweep
  split <;> exact setTable_kept s _ (by exact id)

theorem releaseMark_kept (d : DropId) : Kept s (s.releaseMark d) := (releaseMark_sound s d).decided (releaseMark_decided s d)

theorem lagCheck_kept (d : DropId) : Kept s (s.lagCheck d) := by
  unfold State.lagCheck
  split
  · split
    · exact ((endPush_kept s d).trans
        (setTable_kept _ _ fun h => by simp_all [Capped, CardTable.counterList, bump_le])).trans (releaseMark_kept _ d)
    · exact .refl s
  · exact .refl s

/-- A change of the Catalogue that leaves P. -/
theorem setCat_kept (c : Catalogue) (h : c.pendingFare = s.cat.pendingFare) : Kept s (s.setCat c) :=
  (sound_setCat s c).kept rfl (fun _ => rfl) rfl h

theorem append_pendingFare (c : Catalogue) (jobs : List Job) (d : Delta) : (c.append jobs d).pendingFare = c.pendingFare := by
  unfold Catalogue.append
  dsimp only
  split <;> rfl

theorem finishApply_kept (l : Load) (ed la : Nat) (w : ApplyWork) : Kept s (s.finishApply l ed la w) :=
  (((((setTable_kept s _ (by exact id)).trans (setCat_kept _ _ (append_pendingFare _ _ _))).trans (loadDone_kept _ .block l)).trans
    (kept_foldl _ lagCheck_kept _ _)).trans (requestSweep_kept _)).trans (replanKind_kept _ .block)

theorem finishUndo_kept (l : Load) (ed : Nat) (p : Place) : Kept s (s.finishUndo l ed p) :=
  ((((setTable_kept s _ (by exact id)).trans (setIntake_kept _ .block none)).trans (answerClose_kept _ _ _ _ _)).trans
    (answerAbort_kept _ _ _)).trans (raise_kept _ _ _ _ _)

theorem finishRebuild_kept (l : Load) (ed n : Nat) : Kept s (s.finishRebuild l ed n) :=
  ((((setTable_kept s _ (by exact id)).trans (setCat_kept _ _ (by rfl))).trans (loadDone_kept _ .block l)).trans
    (requestSweep_kept _)).trans (replanKind_kept _ .block)

/-! ### Restart -/

theorem restartIntake_kept (k : Kind) : Kept s (s.restartIntake k) := by
  unfold State.restartIntake
  split
  · exact .refl s
  · split
    · exact setIntake_kept s k _
    · exact ((setIntake_kept s k _).trans (answerClose_kept _ _ _ _ _)).trans (raise_kept _ _ _ _ _)
    · exact startUndo_kept s
    · exact .refl s

theorem restartTrunk_kept : Kept s s.restartTrunk := by
  unfold State.restartTrunk
  dsimp only
  exact (setTrunk_kept s _ (by exact id) (Nat.zero_le _)).trans ((endRound_sound _).decided (endRound_decided _))

theorem restartPlanner_kept : Kept s s.restartPlanner :=
  (sound_setPlanner s { s.planner with jobs := [], lastServed := none } (List.nil_sublist _) id).kept rfl (fun _ => rfl) rfl rfl

theorem restartTable_kept : Kept s s.restartTable := (setTable_kept s _ (by exact id)).trans (requestSweep_kept _)

/-- Every drop ABSENT or DISABLED, with no job left (R95). -/
theorem restartRoster_kept (h : s.planner.jobs = []) : Kept s s.restartRoster := by
  have get (d : DropId) : s.restartRoster.drop d = (s.drop d).restart := Per8.get_map ..
  refine ⟨sound_setRoster s _ (fun d => ?_) (fun d => ?_) fun j hj => ?_, fun h d => ?_, id⟩
  · show _ → Capped (s.restartRoster.drop d).counters.list
    rw [get]
    exact id
  · show _ → runFits (s.restartRoster.drop d).presence (s.restartRoster.drop d).run
    rw [get]
    intro _
    unfold Drop.restart
    dsimp only
    split
    · rfl
    · split <;> rfl
  · rw [h] at hj
    cases hj
  · rw [get]
    obtain ⟨on, off⟩ := h d
    refine ⟨on.trans ?_, nofun⟩
    unfold Drop.restart
    cases (s.drop d).stopping <;> cases (s.drop d).presence <;> rfl

theorem warmRestart_kept : Kept s s.warmRestart := by
  have blocks := ((((restartIntake_kept s .fare).trans (restartIntake_kept _ .block)).trans (restartTrunk_kept _)).trans
    (restartPlanner_kept _)).trans (setCat_kept _ { State.cat _ with retired := [], withdrawn := [], hold := none } (by rfl))
  have whole := (blocks.trans (restartTable_kept _)).trans (restartRoster_kept _ ?_)
  · exact (whole.trans (changeoverRestart_kept _)).trans (conclude_kept _)
  · have table (t : State) : t.restartTable.planner = t.planner := by rw [restartTable_eq]; rfl
    rw [table]
    rfl

/-! ### Settings -/

/-- What one drop's enable value does keeps all but the agreement that it restores (R88). -/
theorem applyEnable_sound (d : DropId) : Sound s (s.applyEnable d) := by
  unfold State.applyEnable
  split
  · split
    · exact sound_setDrop s d _ (by exact id) (by exact id) (by exact id)
    · split
      · exact sound_setDrop s d _ (by exact id) (fun _ => rfl) (fun _ => nofun)
      · exact .refl s
  · split
    · exact .refl s
    · split
      · exact sound_setDrop s d _ (by exact id) (by exact id) (by exact id)
      · exact disableDrop_sound s d

/-- A record on which the enable value has acted agrees with it (R88). -/
theorem enabledRecord_agrees (on flying : Bool) (r : Drop) (h : r.stopping = true → r.presence ≠ .disabled) :
    on = ((enabledRecord on flying r).presence != .disabled && !(enabledRecord on flying r).stopping) ∧
      ((enabledRecord on flying r).stopping = true → (enabledRecord on flying r).presence ≠ .disabled) := by
  unfold enabledRecord
  cases on <;> cases hs : r.stopping <;> cases hp : r.presence <;> cases flying <;> simp_all

theorem withdrawNotices_kept : Kept s s.withdrawNotices :=
  setPort_kept s _ (fun h => h.sublist (List.filter_sublist.map _)) (by exact id)

theorem applyPolling_kept (old : Settings) : Kept s (s.applyPolling old) := setRoster_kept s _ (by rfl)

theorem configure_kept (new : Settings) : Kept s (s.configure new) := by
  let s1 := (s.setSettings new).renewDeadlines
  have enabled := applyEnables_spec allDrops (by decide) s1
  have first : Sound s (allDrops.foldl State.applyEnable s1) :=
    ((sound_setSettings s new).trans (sound_setIntakes _ _ (by exact id))).trans (sound_foldl _ applyEnable_sound _ _)
  have kept : Kept s (allDrops.foldl State.applyEnable s1) := by
    refine ⟨first, fun h d => ?_, fun h => h.of_same enabled.change (congrArg _ enabled.cat)⟩
    rw [enabled.settings, enabled.drops d, if_pos (mem_allDrops d)]
    exact enabledRecord_agrees _ _ _ (h d).2
  have levelled := (kept.trans (applyPolling_kept _ s.settings)).trans ((relevelJobs_sound _).decided (relevelJobs_decided _))
  unfold State.configure
  dsimp only
  refine Kept.trans ?_ (withdrawNotices_kept _)
  split
  · exact levelled.trans ((planEvery_sound _).decided (planEvery_decided _))
  · exact levelled

theorem settleConfigure_kept (before : State) : Kept s (s.settleConfigure before) := by
  unfold State.settleConfigure
  split
  · exact endExchange_kept s _ _ _ _ .refl
  · exact (judgeReady_kept s).trans (conclude_kept _)

/-! ### CLEAR and VEHICLE -/

theorem clearFailed_kept (d : DropId) (k : Kind) : Kept s (s.clearFailed d k) := by
  have replanned : Kept s ((s.removeJob d k).planPair d k) :=
    ((removeJob_sound s d k).trans (planPair_sound _ d k)).decided ((removeJob_decided s d k).trans (planPair_decided _ d k))
  unfold State.clearFailed
  split
  · split
    · exact replanned
    · exact .refl s
  · exact .refl s

theorem capped_zeros (n : Nat) : Capped (List.replicate n 0) := fun m h => by
  rw [List.eq_of_mem_replicate h]
  exact Nat.zero_le _

/-- The drops' counters cleared; presence, run count and stopping mark stand. -/
theorem clearDrops_kept :
    Kept s (s.setRoster
      { s.roster with drops := s.roster.drops.map (fun r => { r with counters := ⟨0, 0, 0, 0, 0, 0⟩ }) }) := by
  refine ⟨sound_setRoster s _ (fun d => ?_) (fun d => ?_) fun j _ => ?_, fun h => h.of_same rfl (fun d => ?_) (fun d => ?_), id⟩ <;>
    simp only [State.drop, Per8.get_map, State.setRoster_roster]
  · exact fun _ => by exact capped_zeros 6
  · exact id
  · exact id

theorem clearCounters_kept : Kept s s.clearCounters := by
  unfold State.clearCounters
  dsimp only
  exact ((((((setPort_kept s _ (by exact id) fun _ => by exact capped_zeros 5).trans
    (setIntakes_kept _ _ fun _ => by exact capped_zeros 2)).trans
    (setTable_kept _ _ fun _ => by exact capped_zeros 2)).trans (clearDrops_kept _)).trans
      ((keepJobs_sound _ _ (by rfl) fun _ => by exact capped_zeros 3).kept (by rfl) (fun _ => by rfl) (by rfl) (by rfl))).trans
        (countTrunk_kept _ _ (fun _ => by exact capped_zeros 7) (by rfl))).trans
          ((sound_setTaps _ _ (fun _ => by exact capped_zeros 7) (by exact le_rfl)).kept (by rfl) (fun _ => by rfl) (by rfl) (by rfl))

theorem failedJobs_kept {c : ClearBody} {f : State → State} (h : ClearBody.failedJobs c = some f) : Kept s (f s) := by
  unfold ClearBody.failedJobs at h
  split at h
  · cases h; exact .refl s
  split at h
  · cases h; exact kept_foldl _ (fun t (j : Job) => clearFailed_kept t j.drop j.kind) _ s
  split at h
  · split at h
    · cases h; exact clearFailed_kept s _ _
    · cases h
  · cases h

theorem clearAll_kept (c : ClearBody) (jobs : State → State) (h : ∀ t, Kept t (jobs t)) : Kept s (s.clearAll c jobs) := by
  have flags : Kept s (s.setPort { s.port with flags := s.port.flags.clear c.flags }) := setPort_kept s _ id (by exact id)
  unfold State.clearAll
  dsimp only
  have logged (t : State) : Kept t (t.setPlanner { t.planner with log := none }) :=
    (keepJobs_sound t { t.planner with log := none } rfl id).kept rfl (fun _ => rfl) rfl rfl
  have counted (t : State) : Kept t (if c.counters = 0 then t else t.clearCounters) := by
    split
    · exact .refl t
    · exact clearCounters_kept t
  refine Kept.trans ?_ (counted _)
  refine Kept.trans ?_ (h _)
  split
  · exact flags
  · exact flags.trans (logged _)

theorem takeVehicle_kept (mode door : Byte) : Kept s (s.takeVehicle mode door) :=
  ((setPort_kept s _ (by exact id) (by exact id)).trans ((judgeJobs_sound _).decided (judgeJobs_decided _))).trans (changeoverDoors_kept _)

end
end Sys2Proof.Machine

namespace Sys2Proof.Machine

/-! ### The reset state (O55) -/

theorem reset_settingsFit : SettingsFit State.reset.settings := by constructor <;> decide +kernel

theorem reset_enableAgrees : EnableAgrees State.reset := by unfold EnableAgrees; decide +kernel

theorem reset_drop (d : DropId) : State.reset.drop d = Drop.reset := by revert d; decide +kernel

theorem reset_runsFit : RunsFit State.reset := fun d => by rw [reset_drop]; exact rfl

theorem reset_countersFit : CountersFit State.reset := by unfold CountersFit; decide +kernel

theorem reset_workFollows : WorkFollows State.reset := fun _ none_ => nomatch none_

/-- Settles O55, each invariant by evaluation at the reset state. -/
theorem resetMeetsEveryInvariant : Obligations.ResetMeetsEveryInvariant := by
  unfold Obligations.ResetMeetsEveryInvariant
  refine ⟨?clock, ?answers, ?notices, ?taps, reset_enableAgrees, reset_runsFit, reset_countersFit, reset_settingsFit, ?jobs,
    reset_workFollows, ?chain, ?change⟩
  case clock => exact ⟨Nat.zero_le _, fun _ => rfl⟩
  case answers => unfold AnswersFit; decide
  case notices => exact List.nodup_nil
  case taps => unfold TapsFit; decide
  case jobs => exact ⟨List.nodup_nil, fun _ among => absurd among List.not_mem_nil⟩
  case chain => exact ⟨by decide, by decide, by decide, by decide, rfl, nofun⟩
  case change => exact ⟨by decide, by decide, by decide, by decide⟩

end Sys2Proof.Machine

namespace Sys2Proof.Machine

/-! ### What a whole event keeps of clock, settings, answers and the BLOCK editions -/

/-- The table's work: the stage, form and edition that the BLOCK intake has with it. -/
def TableState.work : TableState → Option (LoadStage × Form × Nat)
  | .empty | .ready => none
  | .applying e _ _ => some (.applying, .delta, e)
  | .rebuilding e _ => some (.rebuilding, .full, e)

/-- The work that an intake has the table do. -/
def Load.work (l : Load) : Option (LoadStage × Form × Nat) :=
  match l.stage with
  | .receiving | .checking _ => none
  | .applying => some (.applying, l.form, l.edition)
  | .rebuilding => some (.rebuilding, l.form, l.edition)

theorem Load.work_eq_none (l : Load) : l.work = none ↔ l.stage ≠ .applying ∧ l.stage ≠ .rebuilding := by
  cases h : l.stage <;> simp [Load.work, h]

theorem Load.work_eq_some (l : Load) (g : LoadStage) (f : Form) (e : Nat) :
    l.work = some (g, f, e) ↔ (g = .applying ∨ g = .rebuilding) ∧ l.stage = g ∧ l.form = f ∧ l.edition = e := by
  cases h : l.stage <;> cases g <;> simp [Load.work, h]

theorem workFollows_iff (s : State) : WorkFollows s ↔ s.intakes.block.bind Load.work = s.table.state.work := by
  unfold WorkFollows
  cases s.table.state <;> simp [TableState.work, Option.bind_eq_some_iff, Load.work_eq_none, Load.work_eq_some]

/-- `t` keeps the ranges and the agreements of `s`, and has at most `n` answers more, formed or owed. -/
structure Held (n : Int) (s t : State) : Prop where
  pending : t.pending = s.pending
  clock : ClockInRange s → ClockInRange t
  settings : SettingsFit s.settings → SettingsFit t.settings
  answers : (t.port.answers.length + t.deferred : Int) ≤ s.port.answers.length + s.deferred + n
  work : WorkFollows s → WorkFollows t
  chain : WorkFollows s → ChainFollows s → ChainFollows t

theorem Held.refl (s : State) : Held 0 s s := ⟨rfl, id, id, by omega, id, fun _ => id⟩

theorem Held.trans {m n k : Int} {s t u : State} (h : Held m s t) (g : Held n t u) (hk : m + n ≤ k := by decide) : Held k s u where
  pending := g.pending.trans h.pending
  clock := g.clock ∘ h.clock
  settings := g.settings ∘ h.settings
  answers := by have := h.answers; have := g.answers; omega
  work := g.work ∘ h.work
  chain := fun w c => g.chain (h.work w) (h.chain w c)

theorem Held.next {n : Int} {s t u : State} (h : Held n s t) (g : Held 0 t u) : Held n s u := h.trans g (by omega)

theorem Held.after {n : Int} {s t u : State} (h : Held 0 s t) (g : Held n t u) : Held n s u := h.trans g (by omega)

theorem Held.mono {m n : Int} {s t : State} (h : Held m s t) (hn : m ≤ n) : Held n s t := h.trans (.refl t) (by omega)

theorem held_foldl {α : Type} (f : State → α → State) (h : ∀ s a, Held 0 s (f s a)) (l : List α) (s : State) :
    Held 0 s (l.foldl f s) := foldl_preserves f (Held 0 s) (fun t a g => g.trans (h t a)) l s (.refl s)

/-- The chain stands on h, b, the chain itself, and edition and form of the BLOCK intake. -/
theorem ChainFollows.of_same {s t : State} (h : ChainFollows s) (hh : t.cat.h = s.cat.h) (hb : t.cat.b = s.cat.b)
    (hc : t.cat.chain = s.cat.chain)
    (hl : ∀ l, t.intakes.block = some l → ∃ k, s.intakes.block = some k ∧ l.edition = k.edition ∧ l.form = k.form) :
    ChainFollows t := by
  obtain ⟨top, base, zero, long, run, load⟩ := h
  have length : t.cat.length = s.cat.length := by simp only [Catalogue.length, hh, hb]
  rw [← length] at long run
  unfold ChainFollows
  rw [hc, hh, hb]
  refine ⟨top, base, zero, long, run, fun l e => ?_⟩
  obtain ⟨k, old, same, form⟩ := hl l e
  rw [same, form]
  exact load k old

/-- An event that moves none of it. -/
theorem held_of_same {s t : State} (hp : t.pending = s.pending) (hc : t.clock = s.clock) (hs : t.settings = s.settings)
    (hi : t.intakes = s.intakes) (ha : t.port.answers = s.port.answers) (hh : t.cat.h = s.cat.h) (hb : t.cat.b = s.cat.b)
    (hk : t.cat.chain = s.cat.chain) (hw : t.table.state.work = s.table.state.work) : Held 0 s t where
  pending := hp
  clock := fun h => by unfold ClockInRange; rw [hc]; exact h
  settings := fun h => by rw [hs]; exact h
  answers := by rw [ha]; unfold State.deferred; rw [hi]; omega
  work := fun h => by rw [workFollows_iff] at h ⊢; rw [hi, hw]; exact h
  chain := fun _ h => h.of_same hh hb hk fun l e => ⟨l, hi ▸ e, rfl, rfl⟩

/-- What the bare forms keep. -/
theorem ExchangeEnded.held {d : DropId} {s t : State} (h : ExchangeEnded d s t) : Held 0 s t :=
  have answers : t.port.core.answers = s.port.core.answers := congrArg Port.answers h.port
  have state : t.table.bare.state = s.table.bare.state := congrArg CardTable.state h.table
  have head := congrArg Catalogue.h h.cat
  have base := congrArg Catalogue.b h.cat
  have chain := congrArg Catalogue.chain h.cat
  held_of_same h.pending h.clock h.settings h.intakes answers head base chain (congrArg TableState.work state)

theorem Moved.held {s t : State} (h : Moved s t) : Held 0 s t := (h.ended 0).exchangeEnded.held

theorem Decided.held {s t : State} (h : Decided s t) : Held 0 s t := h.moved.held

section
variable (s : State)

theorem conclude_held : Held 0 s s.conclude := (conclude_decided s).held
theorem uplink_held : Held 0 s s.uplink := (uplink_decided s).held
theorem raise_held (f : Flag) (e : Nat) (c : Option Code) (d : Option DropId) : Held 0 s (s.raise f e c d) :=
  (ended_raise s 0 f e c d).exchangeEnded.held
theorem setTimebase_held (n : Nat) : Held 0 s (s.setTimebase n) := held_of_same rfl rfl rfl rfl rfl rfl rfl rfl rfl
theorem setTrunk_held (x : Trunk) : Held 0 s (s.setTrunk x) := held_of_same rfl rfl rfl rfl rfl rfl rfl rfl rfl
theorem setRoster_held (x : Roster) : Held 0 s (s.setRoster x) := held_of_same rfl rfl rfl rfl rfl rfl rfl rfl rfl
theorem setPlanner_held (x : Planner) : Held 0 s (s.setPlanner x) := held_of_same rfl rfl rfl rfl rfl rfl rfl rfl rfl
theorem setTaps_held (x : Taps) : Held 0 s (s.setTaps x) := held_of_same rfl rfl rfl rfl rfl rfl rfl rfl rfl
theorem setPort_held (x : Port) (h : x.answers = s.port.answers) : Held 0 s (s.setPort x) :=
  held_of_same rfl rfl rfl rfl h rfl rfl rfl rfl
theorem setTable_held (x : CardTable) (h : x.state.work = s.table.state.work) : Held 0 s (s.setTable x) :=
  held_of_same rfl rfl rfl rfl rfl rfl rfl rfl h
theorem setCat_held (x : Catalogue) (hh : x.h = s.cat.h) (hb : x.b = s.cat.b) (hc : x.chain = s.cat.chain) :
    Held 0 s (s.setCat x) := held_of_same rfl rfl rfl rfl rfl hh hb hc rfl

end

end Sys2Proof.Machine

namespace Sys2Proof.Machine

/-! ### The ring of editions -/

theorem succEdition_range {e : Nat} (h : e ≤ 65535) : 1 ≤ succEdition e ∧ succEdition e ≤ 65535 := by
  unfold succEdition
  split <;> omega

theorem serialDist_succ {v h : Nat} (hv : 1 ≤ v ∧ v ≤ 65535) (hh : 1 ≤ h ∧ h ≤ 65535) (far : serialDist v h < 65534) :
    serialDist v (succEdition h) = serialDist v h + 1 := by
  unfold serialDist succEdition at *
  split <;> omega

theorem serialDist_pred {v h : Nat} (hv : 1 ≤ v ∧ v ≤ 65535) (hh : 1 ≤ h ∧ h ≤ 65535) (apart : serialDist v h ≠ 0) :
    serialDist (succEdition v) h = serialDist v h - 1 := by
  unfold serialDist succEdition at *
  split <;> omega

theorem serialDist_eq_zero {v h : Nat} (hv : 1 ≤ v ∧ v ≤ 65535) (hh : 1 ≤ h ∧ h ≤ 65535) : serialDist v h = 0 ↔ v = h := by
  unfold serialDist
  omega

/-- The run of editions up to h goes on with h's successor. -/
theorem editionsAfter_succ (n : Nat) (v h : Nat) (hv : 1 ≤ v ∧ v ≤ 65535) (hh : 1 ≤ h ∧ h ≤ 65535) (far : serialDist v h = n) :
    editionsAfter v (n + 1) = editionsAfter v n ++ [succEdition h] := by
  induction n generalizing v with
  | zero => rw [(serialDist_eq_zero hv hh).mp far]; rfl
  | succ n ih =>
    have next := ih (succEdition v) (succEdition_range hv.2) (by rw [serialDist_pred hv hh (by omega)]; omega)
    calc editionsAfter v (n + 2) = succEdition v :: editionsAfter (succEdition v) (n + 1) := rfl
      _ = succEdition v :: (editionsAfter (succEdition v) n ++ [succEdition h]) := by rw [next]
      _ = editionsAfter v (n + 1) ++ [succEdition h] := rfl

theorem editionsAfter_length (v n : Nat) : (editionsAfter v n).length = n := by
  induction n generalizing v with
  | zero => rfl
  | succ n ih => simp [editionsAfter, ih]

/-! ### The chain -/

/-- The clauses of the chain that the Catalogue meets by itself. -/
def Catalogue.Whole (c : Catalogue) : Prop :=
  c.h ≤ 65535 ∧ c.b ≤ 65535 ∧ (c.h = 0 ↔ c.b = 0) ∧ c.length ≤ 12 ∧ c.chain.map Delta.edition = editionsAfter c.b c.length

/-- The clause of the chain that a BLOCK intake meets. -/
def Load.Fits (h : Nat) (l : Load) : Prop :=
  (1 ≤ l.edition ∧ l.edition ≤ 65535) ∧ (l.form = .delta → h ≠ 0 ∧ l.edition = succEdition h)

theorem chainFollows_iff (s : State) : ChainFollows s ↔ s.cat.Whole ∧ ∀ l, s.intakes.block = some l → l.Fits s.cat.h :=
  ⟨fun ⟨top, base, zero, long, run, load⟩ => ⟨⟨top, base, zero, long, run⟩, load⟩,
    fun ⟨⟨top, base, zero, long, run⟩, load⟩ => ⟨top, base, zero, long, run, load⟩⟩

theorem Catalogue.length_of_head {c : Catalogue} (h : c.h ≠ 0) : c.length = serialDist c.b c.h := if_neg h

theorem append_whole {c : Catalogue} (jobs : List Job) (d : Delta) (whole : c.Whole) (hd : c.h ≠ 0) (next : d.edition = succEdition c.h) :
    (c.append jobs d).Whole := by
  obtain ⟨top, base, zero, long, run⟩ := whole
  have hh : 1 ≤ c.h ∧ c.h ≤ 65535 := ⟨by omega, top⟩
  have hb : 1 ≤ c.b ∧ c.b ≤ 65535 := ⟨by omega, base⟩
  obtain ⟨pos, le⟩ := succEdition_range top
  rw [Catalogue.length_of_head hd] at long run
  have size : c.chain.length = serialDist c.b c.h := by
    simpa [editionsAfter_length] using congrArg List.length run
  have longer : (c.chain ++ [d]).map Delta.edition = editionsAfter c.b (serialDist c.b c.h + 1) := by
    rw [editionsAfter_succ _ c.b c.h hb hh rfl, List.map_append, run, List.map_singleton, next]
  have far := serialDist_succ hb hh (by omega)
  unfold Catalogue.append
  dsimp only
  split
  next short =>
    have len : ({ c with h := d.edition, chain := c.chain ++ [d], records := c.records + 1 } : Catalogue).length =
        serialDist c.b c.h + 1 := by
      rw [Catalogue.length_of_head (by dsimp only; omega)]
      dsimp only
      rw [next, far]
    unfold Catalogue.Whole
    rw [len]
    refine ⟨by dsimp only; omega, base, by dsimp only; omega, ?_, longer⟩
    simp only [List.length_append, List.length_singleton] at short
    omega
  next full =>
    simp only [List.length_append, List.length_singleton] at full
    obtain ⟨x, xs, split⟩ : ∃ x xs, c.chain ++ [d] = x :: xs :=
      List.exists_cons_of_ne_nil (List.append_ne_nil_of_right_ne_nil _ (List.cons_ne_nil _ _))
    rw [split] at longer ⊢
    obtain ⟨first, rest⟩ := List.cons.inj longer
    have step := serialDist_pred hb (succEdition_range top) (by omega)
    obtain ⟨pos', le'⟩ := succEdition_range base
    unfold Catalogue.Whole
    rw [Catalogue.length_of_head (by dsimp only; omega)]
    dsimp only
    rw [next, first, step, far]
    refine ⟨le, le', by omega, by omega, ?_⟩
    exact rest

theorem rebuild_whole (c : Catalogue) (jobs : List Job) (e : Nat) (he : 1 ≤ e ∧ e ≤ 65535) : (c.rebuild jobs e).Whole := by
  have len : (c.rebuild jobs e).length = 0 := by
    rw [Catalogue.length_of_head (show e ≠ 0 by omega)]
    exact (serialDist_eq_zero he he).mpr rfl
  unfold Catalogue.Whole
  rw [len]
  exact ⟨he.2, he.2, Iff.rfl, by omega, rfl⟩

end Sys2Proof.Machine

namespace Sys2Proof.Machine

/-! ### Loads -/

/-- The answers that a context owes. -/
def owedBy (l : Option Load) : Int := (l.map Load.owed).getD 0

/-- The part of an intake's owed answers that is its pending close. -/
def Load.owedClose (l : Load) : Int := if l.close.isSome then 1 else 0

/-- The part of an intake's owed answers that is its pending abort. -/
def Load.owedAbort (l : Load) : Int := if l.abort.isSome then 1 else 0

theorem owedBy_some (l : Load) : owedBy (some l) = l.owedClose + l.owedAbort := by
  simp only [owedBy, Option.map_some, Option.getD_some, Load.owed, Load.owedClose, Load.owedAbort, Nat.cast_add, Nat.cast_ite,
    Nat.cast_one, Nat.cast_zero]

theorem owedBy_none : owedBy none = 0 := rfl

theorem owedClose_nonneg (l : Load) : 0 ≤ l.owedClose := by unfold Load.owedClose; split <;> omega

theorem owedAbort_nonneg (l : Load) : 0 ≤ l.owedAbort := by unfold Load.owedAbort; split <;> omega

theorem deferred_eq (s : State) : (s.deferred : Int) = owedBy s.intakes.fare + owedBy s.intakes.block := by
  unfold State.deferred owedBy
  cases s.intakes.fare <;> cases s.intakes.block <;> simp

theorem ChainFollows.load {s : State} {k : Kind} {l : Load} (h : ChainFollows s) (hk : k = .block) (hi : s.intake k = some l) :
    l.Fits s.cat.h := by
  subst hk
  exact ((chainFollows_iff s).mp h).2 l hi

section
variable (s : State)

/-- Contexts changed, with their work for the table kept. -/
theorem setIntakes_held (x : Intakes) (n : Int)
    (ho : owedBy x.fare + owedBy x.block ≤ owedBy s.intakes.fare + owedBy s.intakes.block + n)
    (hw : x.block.bind Load.work = s.intakes.block.bind Load.work)
    (hc : ∀ l, x.block = some l → ChainFollows s → l.Fits s.cat.h) : Held n s (s.setIntakes x) where
  pending := rfl
  clock := id
  settings := id
  answers := by
    rw [deferred_eq, deferred_eq]
    simp only [State.setIntakes_port, State.setIntakes_intakes]
    omega
  work := by
    rw [workFollows_iff, workFollows_iff]
    exact hw.trans
  chain := fun _ h => (chainFollows_iff _).mpr ⟨((chainFollows_iff s).mp h).1, fun l e => hc l e h⟩

/-- One context changed. -/
theorem setIntake_held (k : Kind) (l : Option Load) (n : Int) (ho : owedBy l ≤ owedBy (s.intake k) + n)
    (hw : l.bind Load.work = (s.intake k).bind Load.work)
    (hc : k = .block → ∀ x, l = some x → ChainFollows s → x.Fits s.cat.h) : Held n s (s.setIntake k l) := by
  cases k with
  | fare =>
    exact setIntakes_held s _ n (by simp only [State.intake] at ho; dsimp only; omega) (by rfl) fun x e h => h.load (k := .block) rfl e
  | block => exact setIntakes_held s _ n (by simp only [State.intake] at ho; dsimp only; omega) hw (hc rfl)

/-- A context that has the table do nothing becomes IDLE. -/
theorem dropIntake_held {k : Kind} {l : Load} (hi : s.intake k = some l) (hw : l.work = none) :
    Held (-owedBy (some l)) s (s.setIntake k none) :=
  setIntake_held s k none _ (by rw [hi, owedBy_none]; omega) (by rw [hi]; exact hw.symm) nofun

theorem answer_held (a : Answer) : Held 1 s (s.answer a) where
  pending := rfl
  clock := id
  settings := id
  answers := by
    show (((s.port.answers ++ [a]).length : Nat) + s.deferred : Int) ≤ _
    rw [List.length_append, List.length_singleton]
    omega
  work := id
  chain := fun _ => id

theorem answerClose_held (k : Kind) (l : Load) (c : Code) (v : Nat) : Held l.owedClose s (s.answerClose k l c v) := by
  unfold State.answerClose Load.owedClose
  cases l.close with
  | none => exact .refl s
  | some tag => exact answer_held s _

theorem answerAbort_held (k : Kind) (l : Load) : Held l.owedAbort s (s.answerAbort k l) := by
  unfold State.answerAbort Load.owedAbort
  cases l.abort with
  | none => exact .refl s
  | some tag => exact answer_held s _

theorem raiseLoad_held (f : Flag) (e : Nat) (c : Code) : Held 0 s (s.raiseLoad f e c) := raise_held s f e (some c) none

/-! #### The four messages -/

/-- Only the two counters of the intakes change. -/
theorem countIntakes_held (m n : Nat) : Held 0 s (s.setIntakes { s.intakes with segDuplicate := m, segStray := n }) :=
  setIntakes_held s _ 0 (by dsimp only; omega) (by rfl) fun l e h => h.load (k := .block) rfl e

theorem takeSegment_held {k : Kind} {l : Load} (hi : s.intake k = some l) (i : Nat) (p : Segment) : Held 0 s (s.takeSegment k l i p) := by
  unfold State.takeSegment
  split
  · exact countIntakes_held s _ _
  · exact countIntakes_held s _ _
  · exact setIntake_held s k _ 0 (by rw [hi]; exact le_of_eq (by rfl)) (by rw [hi]; rfl) fun hk x e h => by
      obtain rfl := Option.some.inj e
      have fits := h.load hk hi
      exact fits

/-- The only edition that is newer than h, or its successor, and not newer than that successor (R19). -/
theorem eq_succEdition {h e : Nat} (hh : 1 ≤ h ∧ h ≤ 65535) (he : 1 ≤ e ∧ e ≤ 65535)
    (new : e = succEdition h ∨ newer e h = true) (last : newer e (succEdition h) = false) : e = succEdition h := by
  rcases new with same | new
  · exact same
  · obtain ⟨pos, le⟩ := succEdition_range hh.2
    have apart := serialDist_eq_zero ⟨pos, le⟩ he
    have dist := serialDist_pred hh he
    simp only [newer, bne_iff_ne, Bool.and_eq_true, Bool.or_eq_true, beq_iff_eq, decide_eq_true_eq] at new
    simp only [newer, Bool.and_eq_false_iff, bne_eq_false_iff_eq, Bool.or_eq_false_iff, beq_eq_false_iff_ne,
      decide_eq_false_iff_not] at last
    exact (apart.mp (by omega)).symm

/-- What R19 passes fits the chain. -/
theorem newLoad_fits {b : OpenBody} {f : Form} (hj : s.judgeOpen b = .ok (.block, f)) (h : ChainFollows s) :
    (s.newLoad .block f b).Fits s.cat.h := by
  have ⟨⟨top, _⟩, _⟩ := (chainFollows_iff s).mp h
  have small := b.edition.isLt
  unfold State.judgeOpen at hj
  split at hj
  · split at hj
    · nomatch hj
    next figures =>
      split at hj
      · nomatch hj
      next passes =>
        obtain ⟨rfl, rfl⟩ := Prod.mk.inj (Except.ok.inj hj)
        have pos : b.edition.toNat ≠ 0 := by
          intro zero
          simp [openFigures, zero] at figures
        refine ⟨⟨Nat.pos_of_ne_zero pos, Nat.le_of_lt_succ small⟩, fun delta => ?_⟩
        obtain rfl : _ = Form.delta := delta
        unfold Catalogue.openEdition at passes
        dsimp only at passes
        split at passes
        · nomatch passes
        next some =>
          split at passes
          · nomatch passes
          next new =>
            split at passes
            · nomatch passes
            next last =>
              refine ⟨some, show b.edition.toNat = _ from eq_succEdition ⟨by omega, top⟩ ⟨by omega, by omega⟩ ?_ (by simpa using last)⟩
              simpa [not_and_or, or_iff_not_imp_left] using new
  · nomatch hj

theorem takeOpen_held (tag : Tag) {b : OpenBody} {k : Kind} {f : Form} (hj : s.judgeOpen b = .ok (k, f)) :
    Held 1 s (s.takeOpen tag b k f) := by
  have fresh : ∀ x, s.intake k = x → x.bind Load.work = none → ∀ c, Held 1 s (s.acceptOpen tag c b k (s.newLoad k f b)) := by
    intro x hx work c
    refine Held.after (setIntake_held s k _ 0 ?_ (by rw [hx]; exact work.symm) ?_) (answer_held _ _)
    · rw [hx]
      cases x with
      | none => exact le_rfl
      | some l =>
        have none : owedBy (some (s.newLoad k f b)) = 0 := rfl
        have := owedClose_nonneg l
        have := owedAbort_nonneg l
        rw [none, owedBy_some l]
        omega
    · rintro rfl y e h
      obtain rfl := Option.some.inj e
      exact newLoad_fits s hj h
  unfold State.takeOpen
  dsimp only
  split
  next h => exact fresh _ h rfl _
  next l h =>
    split
    next g =>
      have idle : l.work = none := by unfold Load.work; rw [g]
      split
      · refine Held.after (setIntake_held s k _ 0 (by rw [h]; exact le_of_eq (by rfl)) (by rw [h]; rfl) ?_) (answer_held _ _)
        intro hk y e g
        obtain rfl := Option.some.inj e
        have fits := g.load hk h
        exact fits
      · exact fresh _ h idle _
    all_goals exact answer_held s _

theorem owedClose_le (l : Load) : l.owedClose ≤ 1 := by unfold Load.owedClose; split <;> omega

theorem owedAbort_le (l : Load) : l.owedAbort ≤ 1 := by unfold Load.owedAbort; split <;> omega

/-- A context that goes on in another state of the same edition. -/
theorem goOn_held {k : Kind} {l m : Load} (n : Int) (hi : s.intake k = some l)
    (ho : m.owedClose + m.owedAbort ≤ l.owedClose + l.owedAbort + n)
    (hw : m.work = l.work) (he : m.edition = l.edition) (hf : m.form = l.form) : Held n s (s.setIntake k (some m)) :=
  setIntake_held s k _ n (by rw [hi, owedBy_some, owedBy_some]; exact ho) (by rw [hi]; exact hw) fun hk x e h => by
    obtain rfl := Option.some.inj e
    have fits := h.load hk hi
    unfold Load.Fits
    rw [he, hf]
    exact fits

theorem takeClose_held (tag : Tag) (kind : Byte) {k : Kind} {l : Load} (hi : s.intake k = some l) :
    Held 1 s (s.takeClose tag kind k l) := by
  unfold State.takeClose
  split
  next g =>
    split
    · refine goOn_held s 1 hi ?_ (by simp only [Load.work, g]) rfl rfl
      have close := owedClose_nonneg l
      have abort : ∀ x : Load, x.abort = l.abort → x.owedAbort = l.owedAbort := fun x e => by unfold Load.owedAbort; rw [e]
      rw [abort _ (by rfl)]
      exact add_le_add_left (owedClose_le _) _ |>.trans (by omega)
    · exact answer_held s _
  all_goals exact answer_held s _

/-- An undo goes on with the edition of the apply. -/
theorem startUndo_held : Held 0 s s.startUndo := by
  unfold State.startUndo
  split
  · next h => exact setTable_held s _ (by rw [h]; rfl)
  · next h => exact setTable_held s _ (by rw [h]; rfl)
  all_goals exact .refl s

theorem takeAbort_held (tag : Tag) (kind : Byte) {k : Kind} {l : Load} (hi : s.intake k = some l) :
    Held 1 s (s.takeAbort tag kind k l) := by
  have drop : ∀ g, l.stage = g → l.work = none → Held (-(l.owedClose + l.owedAbort)) s (s.setIntake k none) := fun _ _ w =>
    owedBy_some l ▸ dropIntake_held s hi w
  have close := owedClose_nonneg l
  have abort := owedAbort_nonneg l
  unfold State.takeAbort
  split
  next g =>
    exact (drop _ g (by simp only [Load.work, g])).trans (answer_held _ _) (by omega)
  next g =>
    exact (Held.after ((drop _ g (by simp only [Load.work, g])).trans (answerClose_held _ k l .aborted 0) (by omega))
      (answer_held _ _)).next (raiseLoad_held _ _ _ _)
  next g =>
    split
    next h =>
      refine Held.next (goOn_held s 1 hi ?_ (by simp only [Load.work, g]) (by rfl) (by rfl)) (startUndo_held _)
      have same : ∀ x : Load, x.close = l.close → x.owedClose = l.owedClose := fun x e => by unfold Load.owedClose; rw [e]
      have less : ∀ x : Load, x.owedAbort ≤ 1 := owedAbort_le
      rw [same _ (by rfl)]
      have := less { l with abort := some tag }
      omega
    · exact answer_held s _
  next => exact answer_held s _

theorem namedLoad_held (tag : Tag) (kind : Byte) (ed : Nat) (take : Kind → Load → State)
    (h : ∀ k l, s.intake k = some l → Held 1 s (take k l)) : Held 1 s (s.namedLoad tag kind ed take) := by
  unfold State.namedLoad
  split
  · exact answer_held s _
  · split
    · exact answer_held s _
    next l hi =>
      split
      · exact h _ l hi
      · exact answer_held s _

end
end Sys2Proof.Machine

namespace Sys2Proof.Machine

section
variable (s : State)

/-! #### The clock -/

theorem deadlinePassed_receiving {l : Load} (h : s.deadlinePassed l = true) : l.stage = .receiving := by
  unfold State.deadlinePassed at h
  split at h
  next g _ => exact g
  · nomatch h

theorem testDeadline_held (k : Kind) : Held 0 s (s.testDeadline k) := by
  unfold State.testDeadline
  split
  next l hi =>
    split
    next passed =>
      have calm : l.work = none := by simp only [Load.work, deadlinePassed_receiving s passed]
      have close := owedClose_nonneg l
      have abort := owedAbort_nonneg l
      exact (Held.mono (dropIntake_held s hi calm) (by rw [owedBy_some]; omega)).next (raiseLoad_held _ _ _ _)
    · exact .refl s
  · exact .refl s

/-- A RECEIVING intake given another deadline. -/
theorem mapDeadline_held (f : Load → Load) (h : ∀ l, f l = l ∨ ∃ d, f l = { l with deadline := d }) :
    Held 0 s (s.setIntakes { s.intakes with fare := s.intakes.fare.map f, block := s.intakes.block.map f }) := by
  have same (l : Load) : (f l).owed = l.owed ∧ (f l).work = l.work ∧ (f l).edition = l.edition ∧ (f l).form = l.form := by
    rcases h l with e | ⟨d, e⟩ <;> rw [e] <;> exact ⟨rfl, rfl, rfl, rfl⟩
  have owed (x : Option Load) : owedBy (x.map f) = owedBy x := by
    cases x with
    | none => rfl
    | some l => simp only [owedBy, Option.map_some, (same l).1]
  have work : (s.intakes.block.map f).bind Load.work = s.intakes.block.bind Load.work := by
    rw [Option.bind_map]
    exact congrArg _ (funext fun l => (same l).2.1)
  refine setIntakes_held s _ 0 (by rw [owed, owed]; omega) work fun l e g => ?_
  obtain ⟨k, old, rfl⟩ := Option.map_eq_some_iff.mp e
  obtain ⟨-, -, edition, form⟩ := same k
  unfold Load.Fits
  rw [edition, form]
  exact g.load (k := .block) rfl old

theorem giveDeadline_only (l : Load) : s.giveDeadline l = l ∨ ∃ d, s.giveDeadline l = { l with deadline := d } := by
  unfold State.giveDeadline
  split
  · exact .inr ⟨_, rfl⟩
  · exact .inl rfl

theorem renewDeadline_only (l : Load) : s.renewDeadline l = l ∨ ∃ d, s.renewDeadline l = { l with deadline := d } := by
  unfold State.renewDeadline
  split
  · exact .inr ⟨_, rfl⟩
  all_goals exact .inl rfl

theorem clockChange_held (b : Bool) : Held 0 s (s.clockChange b) := by
  unfold State.clockChange State.intakeClock
  refine (changeoverClock_moved s b).held.next ?_
  refine Held.next (Held.next ?_ (testDeadline_held _ _)) (testDeadline_held _ _)
  split
  · exact mapDeadline_held _ _ (giveDeadline_only _)
  · exact .refl _

theorem setMinute_held {n : Nat} (h : n ≤ clockLimit) : Held 0 s (s.setMinute n) where
  pending := rfl
  clock := fun _ => ⟨h, nofun⟩
  settings := id
  answers := le_of_eq (by rfl)
  work := id
  chain := fun _ => id

theorem passTo_held (n : Nat) : Held 0 s (s.passTo n) := setTimebase_held s _

theorem held_nextMinute (h : s.clock.minute < clockLimit) : Held 0 s s.nextMinute :=
  ((passTo_held s _).next (setMinute_held _ h)).next (clockChange_held _ _)

theorem held_minutes (n : Nat) (h : s.clock.minute + n ≤ clockLimit) : Held 0 s (s.minutes n) := by
  induction n generalizing s with
  | zero => exact .refl s
  | succ n ih =>
    have minute : s.nextMinute.conclude.clock.minute = s.clock.minute + 1 := (nextMinute_spec s).1.clock.1
    exact ((held_nextMinute s (by omega)).next (conclude_held _)).next (ih _ (by omega))

theorem takeTime_held {n : Nat} (h : n ≤ clockLimit) : Held 0 s (s.takeTime n) := by
  have set := setMinute_held s h
  unfold State.takeTime
  dsimp only
  split
  · split
    · exact set
    · exact set.next (clockChange_held _ _)
  · exact set.next (clockChange_held _ _)

/-! #### The check and the work for the table -/

theorem refuseLoad_held {k : Kind} {l : Load} (hi : s.intake k = some l) (hw : l.work = none) (c : Code) (v : Nat) :
    Held 0 s (s.refuseLoad k l c v) := by
  have close := owedClose_nonneg l
  have abort := owedAbort_nonneg l
  have refused : Held 0 s (((s.setIntake k none).answerClose k l c v).raiseLoad .loadRefused l.edition c) :=
    Held.next ((dropIntake_held s hi hw).trans (answerClose_held _ k l c v) (by rw [owedBy_some]; omega)) (raiseLoad_held _ _ _ _)
  unfold State.refuseLoad
  dsimp only
  split
  · exact refused.next (raise_held _ _ _ _ _)
  · exact refused

theorem replanKind_held (k : Kind) : Held 0 s (s.replanKind k) := (replanKind_decided s k).held

theorem passFare_held {l : Load} (hi : s.intake .fare = some l) (hw : l.work = none) : Held 0 s (s.passFare l) := by
  have close := owedClose_nonneg l
  have abort := owedAbort_nonneg l
  have done (c : Catalogue) : Held 0 (s.setCat c) ((s.setCat c).loadDone .fare l) :=
    have dropped := dropIntake_held (s.setCat c) (k := .fare) hi hw
    Held.next (dropped.trans (answerClose_held _ .fare l .done 0) (by rw [owedBy_some]; omega)) (raiseLoad_held _ _ _ _)
  unfold State.passFare
  dsimp only
  exact (((setCat_held s _ (by rfl) (by rfl) (by rfl)).next (done _)).next (replanKind_held _ _)).next (changeoverNewP_moved _).held

/-- The BLOCK context, the table's work and the Catalogue changed in one. -/
theorem swapWork_held (x : Option Load) (tab : CardTable) (c : Catalogue) (n : Int)
    (ho : owedBy x ≤ owedBy s.intakes.block + n) (hw : x.bind Load.work = tab.state.work)
    (hc : WorkFollows s → ChainFollows s → c.Whole ∧ ∀ l, x = some l → l.Fits c.h) :
    Held n s (((s.setTable tab).setCat c).setIntake .block x) where
  pending := rfl
  clock := id
  settings := id
  answers := by
    rw [deferred_eq, deferred_eq]
    simp only [State.setIntake, State.setIntakes_port, State.setIntakes_intakes, State.setCat_port, State.setTable_port,
      State.setCat_intakes, State.setTable_intakes]
    omega
  work := fun _ => (workFollows_iff _).mpr hw
  chain := fun w h => (chainFollows_iff _).mpr (hc w h)

theorem startApply_held {l : Load} (hi : s.intakes.block = some l) (hf : l.form = .delta) (f : Figures) :
    Held 0 s (s.startApply l f) := by
  refine swapWork_held s (some { l with stage := .applying })
    { s.table with
      state := .applying l.edition f.liveAfter (.purge none), removeAbsent := bump s.table.removeAbsent f.removeAbsent }
    s.cat 0 (by rw [hi]; exact le_of_eq (by rfl)) (by simp [Load.work, TableState.work, hf]) fun _ h =>
      ⟨((chainFollows_iff s).mp h).1, fun m e => ?_⟩
  obtain rfl := Option.some.inj e
  have fits := h.load (k := .block) rfl hi
  exact fits

theorem endPush_held (d : DropId) : Held 0 s (s.endPush d) :=
  (setTrunk_held s _).next (endPush_decided s d).held

theorem startRebuild_held {l : Load} (hi : s.intakes.block = some l) (hf : l.form = .full) : Held 0 s (s.startRebuild l) := by
  unfold State.startRebuild
  dsimp only
  have ended := held_foldl State.endPush endPush_held s.markedDrops s
  have same : (s.markedDrops.foldl State.endPush s).intakes.block = some l := by
    rw [(fold_endPush s.markedDrops s).1.intakes]
    exact hi
  generalize s.markedDrops.foldl State.endPush s = u at ended same ⊢
  refine (ended.next ?_).next (held_foldl _ (fun t d => (planPair_decided t d .block).held) _ _)
  refine swapWork_held u (some { l with stage := .rebuilding })
    { u.table with
      state := .rebuilding l.edition 0, entries := [], live := 0, marks := Per8.all none, sweep := none
      sweepRequest := false }
    u.cat 0 (by rw [same]; exact le_of_eq (by rfl)) (by simp [Load.work, TableState.work, hf]) fun _ h =>
      ⟨((chainFollows_iff u).mp h).1, fun m e => ?_⟩
  obtain rfl := Option.some.inj e
  have fits := h.load (k := .block) rfl same
  exact fits

theorem finishCheck_held {k : Kind} {l : Load} {third : Stage3} (hi : s.intake k = some l) (hs : l.stage = .checking third) :
    Held 0 s (s.finishCheck k l third) := by
  have calm : l.work = none := by simp only [Load.work, hs]
  unfold State.finishCheck
  split
  · exact refuseLoad_held s hi calm _ _
  cases k with
  | fare => exact passFare_held s hi calm
  | block =>
    show Held 0 s (s.finishBlock l third)
    unfold State.finishBlock
    split
    next full => exact startRebuild_held s hi full
    next delta =>
      split
      · exact .refl s
      · split
        · exact refuseLoad_held s hi calm _ _
        · exact startApply_held s hi delta _

theorem beginStage3_held {l : Load} (hi : s.intakes.block = some l) (hs : l.stage = .checking .notBegun) :
    Held 0 s (s.beginStage3 l) := by
  unfold State.beginStage3
  split
  · exact goOn_held s 0 hi (by rw [add_zero]; exact le_of_eq (by rfl))
      (by simp only [Load.work, hs]) (by rfl) (by rfl)
  · exact .refl s

theorem formFigures_held : Held 0 s s.formFigures := by
  unfold State.formFigures
  split
  next l hi =>
    split
    next hs =>
      exact goOn_held (k := .block) s 0 hi (by rw [add_zero]; exact le_of_eq (by rfl)) (by simp only [Load.work, hs])
        (by rfl) (by rfl)
    · exact .refl s
  · exact .refl s

theorem requestSweep_held : Held 0 s s.requestSweep := by
  unfold State.requestSweep
  split <;> exact setTable_held s _ (by rfl)

theorem lagCheck_held (d : DropId) : Held 0 s (s.lagCheck d) := by
  unfold State.lagCheck
  split
  · split
    · exact ((endPush_held s d).next (setTable_held _ _ (by rfl))).next (releaseMark_decided _ d).held
    · exact .refl s
  · exact .refl s

/-- The BLOCK edition that is done: DONE answered, the chain standing anew. -/
theorem blockDone_held {l : Load} (hi : s.intakes.block = some l) (tab : CardTable) (c : Catalogue) (hw : tab.state.work = none)
    (hc : WorkFollows s → ChainFollows s → c.Whole) : Held 0 s (((s.setTable tab).setCat c).loadDone .block l) := by
  have close := owedClose_nonneg l
  have abort := owedAbort_nonneg l
  have dropped : Held (-owedBy (some l)) s (((s.setTable tab).setCat c).setIntake .block none) :=
    swapWork_held s none tab c _ (by rw [hi, owedBy_none]; omega) hw.symm fun w h => ⟨hc w h, nofun⟩
  exact Held.next (dropped.trans (answerClose_held _ .block l .done 0) (by rw [owedBy_some]; omega)) (raiseLoad_held _ _ _ _)

/-- The intake that the table works for. -/
theorem WorkFollows.load {s : State} {l : Load} {g : LoadStage} {f : Form} {e : Nat} (h : WorkFollows s)
    (hi : s.intakes.block = some l) (hw : s.table.state.work = some (g, f, e)) : l.form = f ∧ l.edition = e := by
  rw [workFollows_iff, hi, hw] at h
  obtain ⟨_, _, form, edition⟩ := (Load.work_eq_some l g f e).mp h
  exact ⟨form, edition⟩

theorem finishApply_held {l : Load} {ed la : Nat} {w : ApplyWork} (hi : s.intakes.block = some l)
    (hw : s.table.state = .applying ed la w) : Held 0 s (s.finishApply l ed la w) := by
  unfold State.finishApply
  refine Held.next (Held.next (Held.next (blockDone_held s hi _ _ (by rfl) fun work chain => ?_)
    (held_foldl _ lagCheck_held _ _)) (requestSweep_held _)) (replanKind_held _ _)
  obtain ⟨form, -⟩ := work.load hi (by rw [hw]; rfl)
  obtain ⟨-, follows⟩ := chain.load (k := .block) rfl hi
  obtain ⟨some, next⟩ := follows form
  exact append_whole _ _ ((chainFollows_iff s).mp chain).1 some next

theorem finishRebuild_held {l : Load} {ed n : Nat} (hi : s.intakes.block = some l) (hw : s.table.state = .rebuilding ed n) :
    Held 0 s (s.finishRebuild l ed n) := by
  unfold State.finishRebuild
  refine Held.next (Held.next (blockDone_held s hi _ _ (by rfl) fun work chain => ?_) (requestSweep_held _)) (replanKind_held _ _)
  obtain ⟨-, rfl⟩ := work.load hi (by rw [hw]; rfl)
  exact rebuild_whole _ _ _ (chain.load (k := .block) rfl hi).1

theorem finishUndo_held {l : Load} (ed : Nat) (p : Place) (hi : s.intakes.block = some l) : Held 0 s (s.finishUndo l ed p) := by
  have close := owedClose_nonneg l
  have abort := owedAbort_nonneg l
  have dropped := swapWork_held s none { s.table with entries := undoneEntries ed p s.table.entries, state := .ready } s.cat
    (-owedBy (some l)) (by rw [hi, owedBy_none]; omega) (by rfl) fun _ h => ⟨((chainFollows_iff s).mp h).1, nofun⟩
  exact Held.next ((dropped.trans (answerClose_held _ .block l .aborted 0) le_rfl).trans (answerAbort_held _ .block l)
    (by rw [owedBy_some]; omega)) (raiseLoad_held _ _ _ _)

end
end Sys2Proof.Machine

namespace Sys2Proof.Machine

theorem Ended.held {d : DropId} {s t : State} (h : Ended d s t) : Held 0 s t := h.exchangeEnded.held

section
variable (s : State) (d : DropId)

/-! #### Exchanges -/

theorem endExchange_held (x : Exchange) (o : PushOutcome) (event : State → State) (h : ∀ t, Held 0 t (event t)) :
    Held 0 s (s.endExchange x d o event) := by
  rw [endExchange_eq]
  exact ((((beforeEvent s x d o).1.held.next (h _)).next (settleStopping_ended _ d).held).next (judgeReady_moved _).held).next
    (conclude_held _)

theorem endGood_held (x : Exchange) (o : PushOutcome) : Held 0 s (s.endGood x d o) := (endGood_ended s x d o).1.held

theorem setExchange_held (x : Exchange) : Held 0 s (s.setExchange x) := setTrunk_held s _

theorem goOn_good_held : Held 0 s (s.goodEvent d).judgeReady.conclude :=
  ((goodEvent_ended s d).held.next (judgeReady_moved _).held).next (conclude_held _)

theorem setDrop_held (r : Drop) : Held 0 s (s.setDrop d r) := (ended_setDrop s d r).held

theorem takeWait_held (x : Exchange) : Held 0 s (s.takeWait x d) := by
  unfold State.takeWait
  split
  · exact endGood_held s d x _
  · split
    · exact (setExchange_held s _).next (goOn_good_held _ d)
    · exact (setTrunk_held s _).next (endGood_held _ d x _)

theorem goBack_held (x : Exchange) (k : Kind) (n : Nat) : Held 0 s (s.goBack x d k n) := by
  unfold State.goBack
  split
  · exact endGood_held s d x _
  · exact (((setTrunk_held s _).next (rewindCursor_decided _ d k _).held).next (setExchange_held _ _)).next (goOn_good_held _ d)

theorem takeBurstAck_held (x : Exchange) (k : Kind) (n : Nat) : Held 0 s (s.takeBurstAck x d k n) := by
  unfold State.takeBurstAck
  split
  · exact endGood_held s d x _
  split
  · exact endGood_held s d x _
  split
  · exact endGood_held s d x _
  split
  · split
    · exact endGood_held s d x _
    · exact goBack_held s d x k n
  · exact goBack_held s d x k n

theorem takeHolding_held (f : Holdings → Holdings) : Held 0 s (s.takeHolding d f) := setDrop_held s d _

theorem takeWaiting_held (n : Nat) : Held 0 s (s.takeWaiting d n) := by
  unfold State.takeWaiting
  split
  · exact setDrop_held s d _
  · exact .refl s

theorem takeAck_held (x : Exchange) (k : Kind) (v : Nat) (w : Option Nat) : Held 0 s (s.takeAck x d k v w) := by
  unfold State.takeAck
  split
  · cases w with
    | none => exact takeBurstAck_held s d x k v
    | some n => exact (takeWaiting_held s d n).next (takeBurstAck_held _ d x k v)
  · exact (takeHolding_held s d _).next (endGood_held _ d x _)
  · exact (takeHolding_held s d _).next (endGood_held _ d x _)
  all_goals exact endGood_held s d x _

theorem takeStatus_held (h : Holdings) (held n : Nat) : Held 0 s (s.takeStatus d h held n) := by
  unfold State.takeStatus
  dsimp only
  split
  · exact setDrop_held s d _
  · exact ((setDrop_held s d _).next (countDrop_ended _ d _).held).next (setRoster_held _ _)

theorem pollStatus_held (x : Exchange) (h : Holdings) (held : Nat) (ts : List Tap) : Held 0 s (s.pollStatus x d h held ts) := by
  have screened (t : State) : Held 0 t (t.screenTaps d ts) := by
    obtain ⟨q, taken, -⟩ := screenTaps_spec d ts t
    exact (setTaps_held t q).next taken.held
  unfold State.pollStatus
  dsimp only
  refine (takeStatus_held s d h held _).next (endExchange_held _ d x _ _ fun t => Held.next ?_ (screened _))
  split
  · exact (goodEvent_ended t d).held.next (planBoth_decided _ d).held
  · exact (goodEvent_ended t d).held

theorem takeReply_held (x : Exchange) (r : Reply) : Held 0 s (s.takeReply x d r) := by
  have counted := (countGood_ended s d).held
  unfold State.takeReply
  dsimp only
  split
  · exact counted.next (takeWait_held _ d x)
  · exact counted.next (pollStatus_held _ d x _ _ _)
  · exact counted.next (endGood_held _ d x _)
  · split
    · exact counted.next (takeAck_held _ d x _ _ _)
    all_goals exact counted.next (endGood_held _ d x _)

theorem noAnswer_held (x : Exchange) : Held 0 s (s.noAnswer x d) :=
  ((setTrunk_held s _).next (setDrop_held _ d _)).next (endMiss_ended _ x d _).1.held

theorem garbled_held (x : Exchange) : Held 0 s (s.garbled x d) :=
  ((setTrunk_held s _).next (setDrop_held _ d _)).next (endMiss_ended _ x d _).1.held

theorem touchLine_held : Held 0 s s.touchLine := setTrunk_held s _

theorem formSegment_held (x : Exchange) (k : Kind) (i : Nat) (last : Bool) : Held 0 s (s.formSegment x d k i last) := by
  unfold State.formSegment
  split
  · exact (endQuiet_ended s x d _).1.held
  · exact (takePayload_decided s d k i).1.held.next (setExchange_held _ _)

theorem quietMet_held (x : Exchange) : Held 0 s (s.quietMet x) := by
  unfold State.quietMet
  split
  · exact formSegment_held s _ x _ _ _
  · exact setExchange_held s _

theorem broadcastSent_held (p : Nat) : Held 0 s (s.broadcastSent p) := by
  have promoted : Held 0 s (s.setCat (s.cat.promote s.planner.jobs p)) := by
    obtain ⟨head, base, chain⟩ := promote_frame s.cat s.planner.jobs p
    exact setCat_held s _ head base chain
  exact (promoted.next (raise_held _ _ _ _ _)).next (dueTest_moved _).held

theorem frameSent_held (x : Exchange) : Held 0 s (s.frameSent x) := by
  unfold State.frameSent
  split
  · split
    · exact ((((clearExchange_ended s x 0).held.next (setTrunk_held _ _)).next (broadcastSent_held _ _)).next
        (replanKind_held _ _)).next (conclude_held _)
    · exact .refl s
  · split
    · unfold State.nextSegment
      split
      · exact (endQuiet_ended s x _ _).1.held
      · exact setExchange_held s _
    · exact setExchange_held s _

end
end Sys2Proof.Machine

namespace Sys2Proof.Machine

section
variable (s : State)

/-! #### Restart, settings, CLEAR, VEHICLE -/

theorem restartIntake_held (k : Kind) : Held 0 s (s.restartIntake k) := by
  unfold State.restartIntake
  split
  · exact .refl s
  next l hi =>
    have close := owedClose_nonneg l
    have abort := owedAbort_nonneg l
    have drop (calm : l.work = none) : Held (-(l.owedClose + l.owedAbort)) s (s.setIntake k none) :=
      owedBy_some l ▸ dropIntake_held s hi calm
    split
    next g => exact (drop (by simp only [Load.work, g])).mono (by omega)
    next g =>
      exact Held.next ((drop (by simp only [Load.work, g])).trans (answerClose_held _ k l .aborted 0) (by omega))
        (raiseLoad_held _ _ _ _)
    · exact startUndo_held s
    · exact .refl s

theorem warmRestart_held : Held 0 s s.warmRestart := by
  have trunk (t : State) : Held 0 t t.restartTrunk := (setTrunk_held t _).next (endRound_decided _).held
  have table (t : State) : Held 0 t t.restartTable := (setTable_held t _ (by rfl)).next (requestSweep_held _)
  exact ((((((((restartIntake_held s .fare).next (restartIntake_held _ .block)).next (trunk _)).next (setPlanner_held _ _)).next
    (setCat_held _ _ (by rfl) (by rfl) (by rfl))).next (table _)).next (setRoster_held _ _)).next
      (changeoverRestart_moved _).held).next (conclude_held _)

theorem holdRestart_held (b : Bool) : Held 0 s (s.holdRestart b) := setPort_held s _ rfl

theorem applyEnable_held (d : DropId) : Held 0 s (s.applyEnable d) := by
  unfold State.applyEnable
  split
  · split
    · exact setDrop_held s d _
    · split
      · exact setDrop_held s d _
      · exact .refl s
  · split
    · exact .refl s
    · split
      · exact setDrop_held s d _
      · exact (disableDrop_ended s d).held

theorem setSettings_held (new : Settings) (h : SettingsFit s.settings → SettingsFit new) : Held 0 s (s.setSettings new) :=
  ⟨rfl, id, h, le_of_eq (by rfl), id, fun _ => id⟩

theorem configure_held (new : Settings) (h : SettingsFit s.settings → SettingsFit new) : Held 0 s (s.configure new) := by
  have applied : Held 0 s
      (((allDrops.foldl State.applyEnable (s.setSettings new).renewDeadlines).applyPolling s.settings).relevelJobs) :=
    ((((setSettings_held s new h).next (mapDeadline_held _ _ (renewDeadline_only _))).next
      (held_foldl _ applyEnable_held _ _)).next (setRoster_held _ _)).next (relevelJobs_decided _).held
  have withdrawn (t : State) : Held 0 t t.withdrawNotices := setPort_held t _ rfl
  unfold State.configure
  dsimp only
  refine Held.next ?_ (withdrawn _)
  split
  · exact applied.next (planEvery_decided _).held
  · exact applied

theorem settleConfigure_held (before : State) : Held 0 s (s.settleConfigure before) := by
  unfold State.settleConfigure
  split
  · exact (endQuiet_ended s _ _ _).1.held
  · exact (judgeReady_moved s).held.next (conclude_held _)

theorem clearFailed_held (d : DropId) (k : Kind) : Held 0 s (s.clearFailed d k) := by
  unfold State.clearFailed
  split
  · split
    · exact ((removeJob_decided s d k).trans (planPair_decided _ d k)).held
    · exact .refl s
  · exact .refl s

theorem failedJobs_held {c : ClearBody} {f : State → State} (h : ClearBody.failedJobs c = some f) : Held 0 s (f s) := by
  unfold ClearBody.failedJobs at h
  split at h
  · cases h; exact .refl s
  split at h
  · cases h; exact held_foldl _ (fun t (j : Job) => clearFailed_held t j.drop j.kind) _ s
  split at h
  · split at h
    · cases h; exact clearFailed_held s _ _
    · cases h
  · cases h

theorem clearCounters_held : Held 0 s s.clearCounters :=
  ((((((setPort_held s _ (by rfl)).next (countIntakes_held _ 0 0)).next (setTable_held _ _ (by rfl))).next
    (setRoster_held _ _)).next (setPlanner_held _ _)).next (setTrunk_held _ _)).next (setTaps_held _ _)

theorem clearAll_held (c : ClearBody) (jobs : State → State) (h : ∀ t, Held 0 t (jobs t)) : Held 0 s (s.clearAll c jobs) := by
  have flags : Held 0 s (s.setPort { s.port with flags := s.port.flags.clear c.flags }) := setPort_held s _ rfl
  have counted (t : State) : Held 0 t (if c.counters = 0 then t else t.clearCounters) := by
    split
    · exact .refl t
    · exact clearCounters_held t
  unfold State.clearAll
  dsimp only
  refine Held.next (Held.next ?_ (h _)) (counted _)
  split
  · exact flags
  · exact flags.next (setPlanner_held _ _)

theorem takeVehicle_held (mode door : Byte) : Held 0 s (s.takeVehicle mode door) :=
  ((setPort_held s _ (by rfl)).next (judgeJobs_decided _).held).next (changeoverDoors_moved _).held

theorem txDone_held (b : TxBody) : Held 0 s (s.txDone b) := by
  have cut : Held 0 s (s.setPort { s.port with tx := none }) := setPort_held s _ rfl
  unfold State.txDone
  cases b with
  | answer a =>
    refine cut.next ⟨rfl, id, id, ?_, id, fun _ => id⟩
    simp only [State.setPort_port, List.length_drop, State.deferred, State.setPort_intakes]
    omega
  | notice n => exact cut.next (setPort_held _ _ (by rfl))
  | taps n => exact cut.next (setTaps_held _ _)

/-! #### The idle microsecond -/

theorem applySome_held (n : Nat) : Held 0 s (s.applySome n) := by
  unfold State.applySome
  split
  next h =>
    dsimp only
    split <;> exact setTable_held s _ (by rw [h]; rfl)
  next h => exact setTable_held s _ (by rw [h]; rfl)
  next h => exact setTable_held s _ (by rw [h]; rfl)
  all_goals exact .refl s

theorem rebuildSome_held (n : Nat) : Held 0 s (s.rebuildSome n) := by
  unfold State.rebuildSome
  split
  next h => exact setTable_held s _ (by rw [h]; rfl)
  all_goals exact .refl s

theorem sweepSome_held (n : Nat) : Held 0 s (s.sweepSome n) := by
  unfold State.sweepSome
  split
  · exact setTable_held s _ (by rfl)
  · exact .refl s

theorem tick_held : Held 0 s s.tick := by
  have worked : Held 0 s s.workOn := by
    unfold State.workOn
    dsimp only
    have some := ((applySome_held s (Config.applyItems s.timebase)).next (rebuildSome_held _ (Config.rebuildItems s.timebase))).next
      (sweepSome_held _ (Config.sweepItems s.timebase))
    split
    · exact some.next (formFigures_held _)
    · exact some
  exact (worked.next (setTimebase_held _ _)).next (conclude_held _)

theorem tick_kept : Kept s s.tick := by
  obtain ⟨t, i, worked, still, counters⟩ := workOn_frame s
  have capped := congrArg CardTable.counterList still
  have stray := congrArg Intakes.counterList counters
  unfold State.tick
  rw [worked]
  refine (((setTable_kept s t ?_).trans (setIntakes_kept _ i ?_)).trans (setTimebase_kept _ _)).trans (conclude_kept _)
  · show Capped s.table.counterList → _
    exact fun h => capped.symm ▸ h
  · show Capped s.intakes.counterList → _
    exact fun h => stray.symm ▸ h

end
end Sys2Proof.Machine

namespace Sys2Proof.Machine

/-! ### Every event keeps every invariant -/

/-- `t` meets every invariant that `s` meets, and keeps its queue of commands. -/
structure Upheld (s t : State) : Prop extends Kept s t where
  pending : t.pending = s.pending
  clock : ClockInRange s → ClockInRange t
  settings : SettingsFit s.settings → SettingsFit t.settings
  answers : AnswersFit s → AnswersFit t
  work : WorkFollows s → WorkFollows t
  chain : WorkFollows s → ChainFollows s → ChainFollows t

/-- What a command answers is a next state that keeps what `Upheld` says. -/
def Upholds (s : State) (o : Host.Outcome State Fault Refusal) : Prop := ∃ t, o = .next t ∧ Upheld s t

theorem Kept.upheld {s t : State} (h : Kept s t) (g : Held 0 s t) : Upheld s t where
  toKept := h
  pending := g.pending
  clock := g.clock
  settings := g.settings
  answers := fun a => by
    have := g.answers
    unfold AnswersFit at a ⊢
    omega
  work := g.work
  chain := g.chain

theorem Upheld.refl (s : State) : Upheld s s := (Kept.refl s).upheld (.refl s)

/-- A message that takes an answer brings at most one, and has room for it (R176). -/
theorem takeMessage_upheld (s : State) (m : Head) (take : State → State) (hk : ∀ t, Kept t (take t)) (hh : ∀ t, Held 1 t (take t)) :
    Upheld s (s.takeMessage m take) := by
  have kept := takeMessage_kept s m take hk
  have accepted : Held 0 s (s.acceptFrom m.src) := setPort_held s _ rfl
  unfold State.takeMessage at kept ⊢
  split at kept
  next room =>
    rw [if_pos room]
    have taken := (accepted.after (hh _)).next (uplink_held _)
    refine { kept with pending := taken.pending, clock := taken.clock, settings := taken.settings, answers := fun _ => ?_
                       work := taken.work, chain := taken.chain }
    have held := ((hh (s.acceptFrom m.src)).next (uplink_held _)).answers
    have room : (s.acceptFrom m.src).port.answers.length + (s.acceptFrom m.src).deferred < 16 := of_decide_eq_true room
    unfold AnswersFit
    omega
  next full =>
    rw [if_neg full]
    have dropped : Held 0 (s.acceptFrom m.src) (s.acceptFrom m.src).dropAnswer := setPort_held _ _ rfl
    exact kept.upheld (accepted.next dropped)

/-! #### What a CONFIGURE that passes carries -/

theorem clamp_between (lo hi n : Nat) (h : lo ≤ hi) : lo ≤ clamp lo hi n ∧ clamp lo hi n ≤ hi := by
  unfold clamp
  omega

theorem rateOf_cases (n : Nat) : rateOf n = 250 ∨ rateOf n = 500 ∨ rateOf n = 1000 := by
  unfold rateOf
  split
  · exact .inr (.inr rfl)
  split
  · exact .inr (.inl rfl)
  · exact .inl rfl

/-- A window of size 0 is legal wherever it stands, and the record's own base is replaced by 0 (R89, R190). -/
theorem applied_windows (c : RawClass) (h : RawClass.ok c = true) :
    let a := RawClass.applied c
    windowOk a.blockBase a.blockSize = true ∧ windowOk a.fareBase a.fareSize = true ∧
      windowsOverlap a.blockBase a.blockSize a.fareBase a.fareSize = false := by
  simp only [RawClass.ok, Bool.and_eq_true, Bool.not_eq_true'] at h
  obtain ⟨⟨block, fare⟩, apart⟩ := h
  unfold RawClass.applied
  dsimp only
  by_cases hb : c.blockSize = 0 <;> by_cases hf : c.fareSize = 0 <;> simp_all [windowOk, windowsOverlap]

theorem applied_classes (r : RawConfig) (h : RawConfig.refusal r = none) (i : ClassId) : RawClass.ok (r.classes.get i) = true := by
  refine (Per4.all_toList _ _).mp ?_ i
  unfold RawConfig.refusal at h
  split at h
  · nomatch h
  next all => simpa using all

theorem applied_fits (r : RawConfig) (current : BitVec 16) (hc : 0x0600 ≤ current.toNat) (h : RawConfig.refusal r = none) :
    SettingsFit (RawConfig.applied r current) where
  protocolType := by
    unfold RawConfig.applied
    dsimp only
    split <;> omega
  dayStart := Nat.min_le_left _ _
  idleTimeout := Nat.min_le_left _ _
  windows i := by
    have same : (RawConfig.applied r current).classes.get i = RawClass.applied (r.classes.get i) := by fin_cases i <;> rfl
    rw [same]
    exact applied_windows _ (applied_classes r h i)
  polling := by
    have ⟨p1, p2⟩ := clamp_between 1 60 r.period.toNat (by decide)
    have ⟨d1, d2⟩ := clamp_between 1 16 r.divisor.toNat (by decide)
    exact ⟨p1, p2, d1, d2⟩
  bias := Nat.min_le_left _ _
  levels := ⟨Nat.min_le_left _ _, Nat.min_le_left _ _, Nat.min_le_left _ _⟩
  floors := ⟨clamp_between 1 3 _ (by decide), clamp_between 1 3 _ (by decide), clamp_between 1 3 _ (by decide)⟩
  retryLimit := ⟨Nat.le_max_left _ _, max_le (by decide) (Nat.le_of_lt_succ r.retryLimit.isLt)⟩
  rate := rateOf_cases _
  times := ⟨clamp_between 8 255 _ (by decide), clamp_between 100 5000 _ (by decide), Nat.le_max_left _ _,
    max_le (by decide) (Nat.le_of_lt_succ r.waitInterval.isLt)⟩
  counts := ⟨clamp_between 1 64 _ (by decide), clamp_between 1 8 _ (by decide)⟩
  pacing := ⟨clamp_between 1 32 _ (by decide), clamp_between 1 32 _ (by decide)⟩
  limits := ⟨Nat.min_le_left _ _, Nat.min_le_left _ _⟩

end Sys2Proof.Machine

namespace Sys2Proof.Machine

section
variable (s : State)

/-! #### Messages -/

theorem result_upheld (m : Head) (f : State → Answer) : Upheld s (s.takeMessage m fun s => s.answer (f s)) :=
  takeMessage_upheld s m _ (fun t => answer_kept t _) (fun t => answer_held t _)

theorem loadOpen_upholds (m : Head) (b : OpenBody) : Upholds s (execLoadOpen m b s) := by
  refine ⟨_, rfl, takeMessage_upheld s m _ (fun t => ?_) (fun t => ?_)⟩
  · split
    · exact answer_kept t _
    · exact takeOpen_kept t _ _ _ _
  · split
    · exact answer_held t _
    next hj => exact takeOpen_held t m.tag hj

theorem loadSegment_upholds (m : Head) (kind : Byte) (edition index : BitVec 16) (p : Segment) :
    Upholds s (execLoadSegment m kind edition index p s) := by
  have accepted : Kept s (s.acceptFrom m.src) ∧ Held 0 s (s.acceptFrom m.src) := ⟨acceptFrom_kept s _, setPort_held s _ rfl⟩
  have stray : Upheld s (s.acceptFrom m.src).straySegment :=
    (accepted.1.trans (straySegment_kept _)).upheld (accepted.2.next (countIntakes_held _ _ _))
  unfold Upholds execLoadSegment
  dsimp only
  split
  · split
    · exact ⟨_, rfl, stray⟩
    · split
      · exact ⟨_, rfl, stray⟩
      next l hi =>
        split
        · exact ⟨_, rfl, (accepted.1.trans (takeSegment_kept _ _ _ _ _)).upheld (accepted.2.next (takeSegment_held _ hi _ _))⟩
        · exact ⟨_, rfl, stray⟩
  · exact ⟨_, rfl, (accepted.1.trans (discardMessage_kept _)).upheld (accepted.2.next (setPort_held _ _ (by rfl)))⟩

theorem loadClose_upholds (m : Head) (kind : Byte) (edition : BitVec 16) : Upholds s (execLoadClose m kind edition s) :=
  ⟨_, rfl, takeMessage_upheld s m _ (fun t => namedLoad_kept t _ _ _ _ fun k l => takeClose_kept t _ _ k l)
    (fun t => namedLoad_held t _ _ _ _ fun _ _ hi => takeClose_held t _ _ hi)⟩

theorem loadAbort_upholds (m : Head) (kind : Byte) (edition : BitVec 16) : Upholds s (execLoadAbort m kind edition s) :=
  ⟨_, rfl, takeMessage_upheld s m _ (fun t => namedLoad_kept t _ _ _ _ fun k l => takeAbort_kept t _ _ k l)
    (fun t => namedLoad_held t _ _ _ _ fun _ _ hi => takeAbort_held t _ _ hi)⟩

theorem configure_upholds (m : Head) (r : RawConfig) : Upholds s (execConfigure m r s) := by
  refine ⟨_, rfl, takeMessage_upheld s m _ (fun t => ?_) (fun t => ?_)⟩
  · split
    · exact answer_kept t _
    · exact ((configure_kept t _).trans (answer_kept _ _)).trans (settleConfigure_kept _ t)
  · split
    · exact answer_held t _
    next passes =>
      have applied := configure_held t (RawConfig.applied r t.settings.protocolType) fun h => applied_fits r _ h.protocolType passes
      exact (applied.after (answer_held _ _)).next (settleConfigure_held _ t)

theorem queryDrop_upholds (m : Head) (n : Byte) : Upholds s (execQueryDrop m n s) := by
  refine ⟨_, rfl, takeMessage_upheld s m _ (fun t => ?_) (fun t => ?_)⟩ <;> split
  · exact answer_kept t _
  · exact answer_kept t _
  · exact answer_held t _
  · exact answer_held t _

theorem clear_upholds (m : Head) (c : ClearBody) : Upholds s (execClear m c s) := by
  refine ⟨_, rfl, takeMessage_upheld s m _ (fun t => ?_) (fun t => ?_)⟩ <;> split
  · exact answer_kept t _
  next jobs h => exact ((clearAll_kept t c jobs fun u => failedJobs_kept u h).trans (answer_kept _ _)).trans (conclude_kept _)
  · exact answer_held t _
  next jobs h => exact ((clearAll_held t c jobs fun u => failedJobs_held u h).after (answer_held _ _)).next (conclude_held _)

theorem holdRestart_kept (b : Bool) : Kept s (s.holdRestart b) := setPort_kept s _ id (by exact id)

theorem restart_upholds (m : Head) : Upholds s (execRestart m s) := by
  refine ⟨_, rfl, takeMessage_upheld s m _ (fun t => ?_) (fun t => ?_)⟩ <;> dsimp only <;> split
  · exact (answer_kept t _).trans (holdRestart_kept _ _)
  · exact (answer_kept t _).trans (warmRestart_kept _)
  · exact (answer_held t _).next (holdRestart_held _ _)
  · exact (answer_held t _).next (warmRestart_held _)

theorem warmRestart_upholds : Upholds s (execWarmRestart s) := by
  unfold Upholds execWarmRestart
  split
  · exact ⟨_, rfl, .refl s⟩
  · exact ⟨_, rfl, ((holdRestart_kept s _).trans (warmRestart_kept _)).upheld ((holdRestart_held s _).next (warmRestart_held _))⟩

theorem time_upholds (m : Head) (minute : BitVec 32) : Upholds s (execTime m minute s) := by
  refine ⟨_, rfl, takeMessage_upheld s m _ (fun t => ?_) (fun t => ?_)⟩ <;> split
  · exact answer_kept t _
  · exact ((takeTime_kept t _).trans (answer_kept _ _)).trans (conclude_kept _)
  · exact answer_held t _
  · exact ((takeTime_held t (Nat.le_of_lt_succ minute.isLt)).after (answer_held _ _)).next (conclude_held _)

theorem vehicle_upholds (m : Head) (mode door : Byte) : Upholds s (execVehicle m mode door s) :=
  ⟨_, rfl, takeMessage_upheld s m _
    (fun t => ((takeVehicle_kept t _ _).trans (answer_kept _ _)).trans (conclude_kept _))
    (fun t => ((takeVehicle_held t _ _).after (answer_held _ _)).next (conclude_held _))⟩

/-! #### The link -/

theorem countPort_upheld (x : Port) (hn : x.notices = s.port.notices) (ha : x.answers = s.port.answers)
    (hc : Capped s.port.counterList → Capped x.counterList) : Upheld s (s.setPort x) :=
  (setPort_kept s x (fun h => hn ▸ h) hc).upheld (setPort_held s x ha)

theorem answerDrop_upholds (src : MacAddr) : Upholds s (execAnswerDrop src s) := by
  unfold Upholds execAnswerDrop
  split
  · exact ⟨_, rfl, .refl s⟩
  · exact ⟨_, rfl, ((acceptFrom_kept s _).trans (dropAnswer_kept _)).upheld ((setPort_held s _ (by rfl)).next (setPort_held _ _ (by rfl)))⟩

/-- The hard reset meets every invariant by the reset state and the decision in its event (O55). -/
theorem hardReset_upheld : Upheld s s.hardReset := by
  have g := (conclude_kept (State.reset.setPending s.pending)).upheld (conclude_held _)
  obtain ⟨clock, answers, notices, taps, enable, runs, counters, settings, jobs, work, chain, change⟩ := resetMeetsEveryInvariant
  exact
    { notices := fun _ => g.notices notices, counters := fun _ => g.counters counters, taps := fun _ => g.taps taps
      jobs := fun _ => g.jobs jobs, runs := fun _ => g.runs runs, enable := fun _ => g.enable enable
      change := fun _ => g.change change, pending := g.pending, clock := fun _ => g.clock clock
      settings := fun _ => g.settings settings, answers := fun _ => g.answers answers, work := fun _ => g.work work
      chain := fun _ _ => g.chain work chain }

theorem linkDown_upholds : Upholds s (execLinkDown s) := by
  unfold Upholds execLinkDown
  split
  · exact ⟨_, rfl, countPort_upheld s _ rfl rfl fun h => by simp_all [Capped, Port.counterList, bump_le]⟩
  · exact ⟨_, rfl, .refl s⟩

theorem transmitComplete_upholds : Upholds s (execTransmitComplete s) := by
  unfold Upholds execTransmitComplete
  split
  · exact ⟨_, rfl, ((txDone_kept s _).trans (uplink_kept _)).upheld ((txDone_held s _).next (uplink_held _))⟩
  · exact ⟨_, rfl, .refl s⟩

/-! #### The clock and the deadlines -/

theorem minuteAdvance_upholds : Upholds s (execMinuteAdvance s) := by
  unfold Upholds execMinuteAdvance
  split
  · split
    next low => exact ⟨_, rfl, ((nextMinute_kept s).trans (conclude_kept _)).upheld ((held_nextMinute s low).next (conclude_held _))⟩
    · exact ⟨_, rfl, (passTo_kept s _).upheld (passTo_held s _)⟩
  · exact ⟨_, rfl, .refl s⟩

/-- The minutes up to a deadline within 32 bits. -/
theorem minutes_upheld (n : Nat) (h : s.clock.minute < n ∧ n ≤ clockLimit) : Upheld s (s.minutes (n - s.clock.minute)) :=
  (minutes_kept s _).upheld (held_minutes s _ (by omega))

theorem idleDeadlinePass_upholds (k : Kind) : Upholds s (execIdleDeadlinePass k s) := by
  unfold Upholds execIdleDeadlinePass
  split
  · exact ⟨_, rfl, .refl s⟩
  · split
    · split
      next legal =>
        split
        next early => exact ⟨_, rfl, minutes_upheld s _ ⟨early, legal.2⟩⟩
        · exact ⟨_, rfl, ((testDeadline_kept s k).trans (uplink_kept _)).upheld ((testDeadline_held s k).next (uplink_held _))⟩
      · exact ⟨_, rfl, .refl s⟩
    · exact ⟨_, rfl, .refl s⟩

theorem passHold_upheld (p : Nat) (h : s.change.state = .due) (hq : s.change.requested = none) : Upheld s (s.passHold p) :=
  ((passHold_sound s p).moved (passHold_moved s p) fun g => passHold_follows p g h hq).upheld (passHold_moved s p).held

theorem Upheld.conclude {s t : State} (h : Upheld s t) : Upheld s t.conclude :=
  have g := (conclude_kept t).upheld (conclude_held t)
  { h.toKept.trans g.toKept with
    pending := g.pending.trans h.pending, clock := g.clock ∘ h.clock, settings := g.settings ∘ h.settings
    answers := g.answers ∘ h.answers, work := g.work ∘ h.work, chain := fun w c => g.chain (h.work w) (h.chain w c) }

theorem holdDeadlinePass_upholds : Upholds s (execHoldDeadlinePass s) := by
  unfold Upholds execHoldDeadlinePass
  split
  next due free _ _ =>
    split
    next legal =>
      split
      next early => exact ⟨_, rfl, minutes_upheld s _ ⟨early, legal.2⟩⟩
      · exact ⟨_, rfl, (passHold_upheld s _ due free).conclude⟩
    · exact ⟨_, rfl, .refl s⟩
  · exact ⟨_, rfl, .refl s⟩

theorem doorDeadline_upholds : Upholds s (execDoorDeadline s) := by
  unfold Upholds execDoorDeadline
  split
  · exact ⟨_, rfl, (((passTo_kept s _).trans (endDoorWait_kept _)).upheld ((passTo_held s _).next (endDoorWait_moved _).held)).conclude⟩
  · exact ⟨_, rfl, .refl s⟩

/-! #### The hub's own work -/

theorem deltaCheckStart_upholds : Upholds s (execDeltaCheckStart s) := by
  unfold Upholds execDeltaCheckStart
  split
  next l hi =>
    split
    next begins =>
      refine ⟨_, rfl, Kept.upheld ?_ (beginStage3_held s hi begins.1)⟩
      unfold State.beginStage3
      split
      · exact setIntake_kept s _ _
      · exact .refl s
    · exact ⟨_, rfl, .refl s⟩
  · exact ⟨_, rfl, .refl s⟩

theorem checkComplete_upholds (k : Kind) : Upholds s (execCheckComplete k s) := by
  unfold Upholds execCheckComplete
  split
  next l hi =>
    split
    next checking => exact ⟨_, rfl, ((finishCheck_kept s k l _).upheld (finishCheck_held s hi checking)).conclude⟩
    all_goals exact ⟨_, rfl, .refl s⟩
  · exact ⟨_, rfl, .refl s⟩

theorem applyComplete_upholds : Upholds s (execApplyComplete s) := by
  unfold Upholds execApplyComplete
  split
  next l _ _ p hi hw => exact ⟨_, rfl, ((finishApply_kept s l _ _ _).upheld (finishApply_held s hi hw)).conclude⟩
  next l _ _ n hi hw => exact ⟨_, rfl, ((finishApply_kept s l _ _ _).upheld (finishApply_held s hi hw)).conclude⟩
  · exact ⟨_, rfl, .refl s⟩

theorem undoComplete_upholds : Upholds s (execUndoComplete s) := by
  unfold Upholds execUndoComplete
  split
  next l _ _ p hi _ =>
    exact ⟨_, rfl, ((finishUndo_kept s l _ p).trans (uplink_kept _)).upheld ((finishUndo_held s _ p hi).next (uplink_held _))⟩
  · exact ⟨_, rfl, .refl s⟩

theorem rebuildComplete_upholds : Upholds s (execRebuildComplete s) := by
  unfold Upholds execRebuildComplete
  split
  next l ed n hi hw =>
    have kept := (finishRebuild_kept s l ed n).trans (conclude_kept _)
    have held := (finishRebuild_held s hi hw).next (conclude_held _)
    dsimp only
    split
    · exact ⟨_, rfl, ((kept.trans (holdRestart_kept _ _)).trans (warmRestart_kept _)).upheld
        ((held.next (holdRestart_held _ _)).next (warmRestart_held _))⟩
    · exact ⟨_, rfl, kept.upheld held⟩
  · exact ⟨_, rfl, .refl s⟩

theorem sweepPassComplete_upholds : Upholds s (execSweepPassComplete s) := by
  unfold Upholds execSweepPassComplete
  split
  · exact ⟨_, rfl, .refl s⟩
  · dsimp only
    split
    · exact ⟨_, rfl, ((setTable_kept s _ (by exact id)).trans (requestSweep_kept _)).upheld
        ((setTable_held s _ (by rfl)).next (requestSweep_held _))⟩
    · exact ⟨_, rfl, (setTable_kept s _ (by exact id)).upheld (setTable_held s _ (by rfl))⟩

/-! #### The trunk -/

theorem inStage_ex {g : Stage} {x : Exchange} (h : s.inStage g = some x) : s.trunk.ex = some x := by
  unfold State.inStage at h
  split at h
  next y e =>
    split at h
    · rw [e, h]
    · nomatch h
  · nomatch h

theorem inStageWith_ex {g : Stage} {x : Exchange} {d : DropId} (h : s.inStageWith g = some (x, d)) :
    s.trunk.ex = some x ∧ x.drop = some d := by
  unfold State.inStageWith at h
  split at h
  next y e =>
    obtain ⟨z, drop, same⟩ := Option.map_eq_some_iff.mp h
    cases same
    exact ⟨inStage_ex s e, drop⟩
  · nomatch h

/-- An exchange in flight goes on in another stage, after a state in which it is the same. -/
theorem setFlying_upheld {s t : State} {x : Exchange} (y : Exchange) (hk : Kept s t) (hh : Held 0 s t) (hx : t.trunk.ex = some x)
    (hf : y.frame = x.frame) : Upheld s (t.setExchange y) :=
  (hk.trans (setExchange_kept t x y hx (.inl hf))).upheld (hh.next (setExchange_held t y))

theorem quietTimeMet_upholds : Upholds s (execQuietTimeMet s) := by
  unfold Upholds execQuietTimeMet
  split
  next x h =>
    exact ⟨_, rfl, ((passTo_kept s _).trans (quietMet_kept _ x (inStage_ex s h))).upheld ((passTo_held s _).next (quietMet_held _ x))⟩
  · exact ⟨_, rfl, .refl s⟩

theorem collision_upholds : Upholds s (execCollision s) := by
  unfold Upholds execCollision
  split
  next x h =>
    refine ⟨_, rfl, setFlying_upheld _ (countTrunk_kept s _ (fun h => ?_) (by rfl)) (setTrunk_held s _) (inStage_ex s h) (by rfl)⟩
    simp_all [Capped, Trunk.counters, bump_le]
  · exact ⟨_, rfl, .refl s⟩

theorem trunkFrameSent_upholds : Upholds s (execTrunkFrameSent s) := by
  unfold Upholds execTrunkFrameSent
  split
  next x h =>
    exact ⟨_, rfl, (((passTo_kept s _).trans (touchLine_kept _)).trans (frameSent_kept _ x (inStage_ex s h))).upheld
      (((passTo_held s _).next (touchLine_held _)).next (frameSent_held _ x))⟩
  · exact ⟨_, rfl, .refl s⟩

theorem answerStart_upholds : Upholds s (execAnswerStart s) := by
  unfold Upholds execAnswerStart
  split
  next x h => exact ⟨_, rfl, setFlying_upheld _ (touchLine_kept s) (touchLine_held s) (inStage_ex s h) (by rfl)⟩
  · exact ⟨_, rfl, .refl s⟩

theorem replyTimeout_upholds : Upholds s (execReplyTimeout s) := by
  unfold Upholds execReplyTimeout
  split
  next x d _ => exact ⟨_, rfl, ((passTo_kept s _).trans (noAnswer_kept _ d x)).upheld ((passTo_held s _).next (noAnswer_held _ d x))⟩
  · exact ⟨_, rfl, .refl s⟩

theorem answerIncomplete_upholds : Upholds s (execAnswerIncomplete s) := by
  unfold Upholds execAnswerIncomplete
  split
  next x d _ =>
    have silent : Kept s (s.fallSilent x) ∧ Held 0 s (s.fallSilent x) :=
      ⟨(passTo_kept s _).trans (countTrunk_kept _ _ (by exact id) (by rfl)), (passTo_held s _).next (setTrunk_held _ _)⟩
    exact ⟨_, rfl, (silent.1.trans (garbled_kept _ d x)).upheld (silent.2.next (garbled_held _ d x))⟩
  · exact ⟨_, rfl, .refl s⟩

theorem garbledNow_upheld (x : Exchange) (d : DropId) : Upheld s (s.touchLine.garbled x d) :=
  ((touchLine_kept s).trans (garbled_kept _ d x)).upheld ((touchLine_held s).next (garbled_held _ d x))

theorem answerComplete_upholds (bytes : List Byte) : Upholds s (execAnswerComplete bytes s) := by
  unfold Upholds execAnswerComplete
  split
  next x d h =>
    split
    next r judged =>
      refine ⟨_, rfl, ((touchLine_kept s).trans (takeReply_kept _ d x r (inStageWith_ex s h).1 ?_)).upheld
        ((touchLine_held s).next (takeReply_held _ d x r))⟩
      rintro held n ts rfl
      exact judgeAnswer_status judged
    · exact ⟨_, rfl, garbledNow_upheld s x d⟩
  · exact ⟨_, rfl, .refl s⟩

theorem waitInterval_upholds : Upholds s (execWaitInterval s) := by
  unfold Upholds execWaitInterval
  split
  next x h => exact ⟨_, rfl, setFlying_upheld _ (passTo_kept s _) (passTo_held s _) (inStage_ex s h) (by rfl)⟩
  · exact ⟨_, rfl, .refl s⟩

theorem emptyRoundPauseEnd_upholds : Upholds s (execEmptyRoundPauseEnd s) := by
  unfold Upholds execEmptyRoundPauseEnd
  split
  · exact ⟨_, rfl, (((passTo_kept s _).trans (countTrunk_kept _ _ (by exact id) (by rfl))).upheld
      ((passTo_held s _).next (setTrunk_held _ _))).conclude⟩
  · exact ⟨_, rfl, .refl s⟩

theorem pollPeriod_upholds : Upholds s (execPollPeriod s) := by
  unfold Upholds execPollPeriod
  split
  · exact ⟨_, rfl, ((passTo_kept s _).upheld (passTo_held s _)).conclude⟩
  · exact ⟨_, rfl, .refl s⟩

theorem answerLengthTooLarge_upholds : Upholds s (execAnswerLengthTooLarge s) := by
  unfold Upholds execAnswerLengthTooLarge
  split
  · exact ⟨_, rfl, garbledNow_upheld s _ _⟩
  · exact ⟨_, rfl, .refl s⟩

/-! ### Every command -/

/-- Every command answers a next state that keeps every invariant, and the commands that wait. -/
theorem exec_upholds (c : Instr) : Upholds s (exec c s) := by
  cases c with
  | loadOpen m b => exact loadOpen_upholds s m b
  | loadSegment m k e i p => exact loadSegment_upholds s m k e i p
  | loadClose m k e => exact loadClose_upholds s m k e
  | loadAbort m k e => exact loadAbort_upholds s m k e
  | configure m r => exact configure_upholds s m r
  | querySummary m => exact ⟨_, rfl, result_upheld s m _⟩
  | queryDrop m n => exact queryDrop_upholds s m n
  | queryChain m => exact ⟨_, rfl, result_upheld s m _⟩
  | queryJobs m => exact ⟨_, rfl, result_upheld s m _⟩
  | queryErrorlog m => exact ⟨_, rfl, result_upheld s m _⟩
  | queryCounters m => exact ⟨_, rfl, result_upheld s m _⟩
  | queryBadTopic m n => exact ⟨_, rfl, result_upheld s m _⟩
  | clear m b => exact clear_upholds s m b
  | restart m => exact restart_upholds s m
  | warmRestart => exact warmRestart_upholds s
  | time m n => exact time_upholds s m n
  | vehicle m a b => exact vehicle_upholds s m a b
  | fcsBad => exact ⟨_, rfl, countPort_upheld s _ rfl rfl fun h => by simp_all [Capped, Port.counterList, bump_le]⟩
  | otherType => exact ⟨_, rfl, countPort_upheld s _ rfl rfl fun h => by simp_all [Capped, Port.counterList, bump_le]⟩
  | msgDiscard src why =>
    exact ⟨_, rfl, ((acceptFrom_kept s src).trans (discardMessage_kept _)).upheld
      ((setPort_held s _ (by rfl)).next (setPort_held _ _ (by rfl)))⟩
  | answerDrop src => exact answerDrop_upholds s src
  | hardReset => exact ⟨_, rfl, hardReset_upheld s⟩
  | linkUp =>
    exact ⟨_, rfl, ((setPort_kept s _ (by exact id) (by exact id)).trans (uplink_kept _)).upheld
      ((setPort_held s _ (by rfl)).next (uplink_held _))⟩
  | linkDown => exact linkDown_upholds s
  | transmitComplete => exact transmitComplete_upholds s
  | minuteAdvance => exact minuteAdvance_upholds s
  | idleDeadlinePass k => exact idleDeadlinePass_upholds s k
  | deltaCheckStart => exact deltaCheckStart_upholds s
  | checkComplete k => exact checkComplete_upholds s k
  | applyComplete => exact applyComplete_upholds s
  | undoComplete => exact undoComplete_upholds s
  | rebuildComplete => exact rebuildComplete_upholds s
  | sweepPassComplete => exact sweepPassComplete_upholds s
  | quietTimeMet => exact quietTimeMet_upholds s
  | collision => exact collision_upholds s
  | trunkFrameSent => exact trunkFrameSent_upholds s
  | answerStart => exact answerStart_upholds s
  | replyTimeout => exact replyTimeout_upholds s
  | answerIncomplete => exact answerIncomplete_upholds s
  | answerComplete bytes => exact answerComplete_upholds s bytes
  | waitInterval => exact waitInterval_upholds s
  | emptyRoundPauseEnd => exact emptyRoundPauseEnd_upholds s
  | pollPeriod => exact pollPeriod_upholds s
  | holdDeadlinePass => exact holdDeadlinePass_upholds s
  | doorDeadline => exact doorDeadline_upholds s
  | characterReceived => exact ⟨_, rfl, (touchLine_kept s).upheld (touchLine_held s)⟩
  | answerLengthTooLarge => exact answerLengthTooLarge_upholds s

/-- Every step keeps every invariant; the queue of commands is none of their business. -/
theorem step_keeps {P : State → Prop} (queue : ∀ s l, P s → P (s.setPending l)) (kept : ∀ s t, Upheld s t → P s → P t)
    (s t : State) (h : P s) (e : step s = .next t) : P t := by
  unfold step at e
  split at e
  · cases e
    exact kept s _ ((tick_kept s).upheld (tick_held s)) h
  next c rest _ =>
    obtain ⟨u, next, upheld⟩ := exec_upholds (s.setPending rest) c
    cases next.symm.trans e
    exact kept _ _ upheld (queue s rest h)

end

/-- Settles O56. -/
theorem everyStepKeepsValuesInRange : Obligations.EveryStepKeepsValuesInRange :=
  ⟨step_keeps (fun _ _ => id) fun _ _ u => u.clock,
    step_keeps (P := fun s => SettingsFit s.settings) (fun _ _ => id) fun _ _ u => u.settings,
    step_keeps (fun _ _ => id) fun _ _ u => u.counters⟩

/-- Settles O57. -/
theorem everyStepKeepsTheQueuesBounded : Obligations.EveryStepKeepsTheQueuesBounded :=
  ⟨step_keeps (fun _ _ => id) fun _ _ u => u.answers, step_keeps (fun _ _ => id) fun _ _ u => u.notices,
    step_keeps (fun _ _ => id) fun _ _ u => u.taps⟩

/-- Settles O58. -/
theorem everyStepKeepsTheRosterConsistent : Obligations.EveryStepKeepsTheRosterConsistent :=
  ⟨step_keeps (fun _ _ => id) fun _ _ u => u.enable, step_keeps (fun _ _ => id) fun _ _ u => u.runs,
    step_keeps (fun _ _ => id) fun _ _ u => u.jobs⟩

/-- Settles O59: the chain is kept together with the table's work, since an apply that completes takes its edition from the intake. -/
theorem everyStepKeepsTheChainWhole : Obligations.EveryStepKeepsTheChainWhole :=
  ⟨step_keeps (fun _ _ => id) fun _ _ u => u.work, fun s t work chain e =>
    (step_keeps (P := fun s => WorkFollows s ∧ ChainFollows s) (fun _ _ => id)
      (fun _ _ u h => ⟨u.work h.1, u.chain h.1 h.2⟩) s t ⟨work, chain⟩ e).2⟩

/-- Settles O60. -/
theorem everyStepKeepsTheChangeoverWithP : Obligations.EveryStepKeepsTheChangeoverWithP :=
  step_keeps (fun _ _ => id) fun _ _ u => u.change

/-- Settles O3. -/
theorem everyCommandCompletes : Obligations.EveryCommandCompletes := by
  intro c s
  obtain ⟨t, next, upheld⟩ := exec_upholds s c
  exact ⟨t, next, upheld.pending⟩

end Sys2Proof.Machine

namespace Sys2Proof.Machine

/-! ### The step, the link, the flags: O1, O2, O4, O6 to O10, O53 -/

/-- Settles O1. -/
theorem stepRunsFrontCommand : Obligations.StepRunsFrontCommand := fun _ _ _ => rfl

/-- Settles O6. -/
theorem unusableFramesAreCounted : Obligations.UnusableFramesAreCounted := fun _ _ _ => ⟨rfl, rfl, rfl⟩

/-- Settles O2: what the work in flight may change in a microsecond, and then what a decision may. -/
theorem stepWithEmptyQueuePassesTime : Obligations.StepWithEmptyQueuePassesTime := by
  intro s empty
  obtain ⟨t, i, worked, still, counters⟩ := workOn_frame s
  have decided := conclude_decided (s.workOn.setTimebase (s.timebase + 1))
  rw [worked] at decided
  have table := decided.table
  have live := congrArg CardTable.live still
  have absent := congrArg CardTable.removeAbsent still
  have lag := congrArg CardTable.markLag still
  have fare := congrArg Intakes.fare counters
  have duplicate := congrArg Intakes.segDuplicate counters
  have stray := congrArg Intakes.segStray counters
  have intakes : s.tick.intakes = i := by unfold State.tick; rw [worked]; exact decided.intakes
  refine ⟨s.tick, by rw [step, empty], ?_⟩
  unfold State.tick at intakes ⊢
  rw [worked] at intakes ⊢
  generalize State.conclude _ = u at decided table intakes ⊢
  refine ⟨decided.pending.trans empty, decided.timebase, decided.clock, decided.settings, decided.change, intakes ▸ fare,
    decided.port, decided.cat, decided.taps, decided.trunk, ?_, ?_, ?_, intakes ▸ duplicate, intakes ▸ stray, decided.drops⟩
  · have kept := congrArg CardTable.live table
    exact kept.trans live
  · have kept := congrArg CardTable.removeAbsent table
    exact kept.trans absent
  · have kept := congrArg CardTable.markLag table
    exact kept.trans lag

/-- The first decision after a reset polls drop 1 in a probing round (R91, R92, R167). -/
theorem hardReset_eq (s : State) :
    s.hardReset =
      ((State.reset.setPending s.pending).setTrunk
        { State.reset.trunk with
          ex :=
            some
              { kind := .roundPoll, drop := some 0, frame := .poll 8, stage := .quiet, waits := 0, burstStart := 0, burstEnd := 0
                lastResend := none, set := Settings.defaults.trunk, detached := false, since := 0 }
          round := some [1, 2, 3, 4, 5, 6, 7], rounds := 1 }).setRoster
        { State.reset.roster with probe := 1, lastRound := some 0 } := by
  unfold State.hardReset
  rfl

/-- Settles O4. -/
theorem hardResetRestoresDefaults : Obligations.HardResetRestoresDefaults := by
  refine ⟨fun s => congrArg Host.Outcome.next (hardReset_eq s), ?_⟩
  refine ⟨by decide, by decide +kernel, ⟨rfl, rfl, rfl, rfl, rfl, by decide +kernel⟩, ?_, by decide, ?_, by decide, by decide,
    by decide, by decide, by decide, ?_, ?_⟩
  · decide +kernel
  · decide +kernel
  · refine ⟨rfl, rfl, rfl, rfl, rfl, rfl, rfl, rfl, fun f => ?_⟩
    cases f <;> rfl
  · decide +kernel

/-- Settles O53: by the stage, the state or the deadline that each event asks for. -/
theorem eventsThatCannotAriseChangeNothing : Obligations.EventsThatCannotAriseChangeNothing := by
  intro s
  refine ⟨fun h => ?_, fun h => ⟨?_, ?_⟩, fun h => ⟨?_, ?_⟩, fun h bytes => ⟨?_, ?_, ?_⟩, fun h => ?_, fun h => ?_, fun h => ?_,
    fun k h => ?_, fun k h => ?_, fun h => ⟨?_, ?_⟩, fun h => ?_, fun h => ?_, fun h => ?_, fun h => ?_, fun h => ?_, fun h src => ?_⟩
  · show execQuietTimeMet s = _
    rw [execQuietTimeMet, inStage_none h]
  · show execCollision s = _
    rw [execCollision, inStage_none h]
  · show execTrunkFrameSent s = _
    rw [execTrunkFrameSent, inStage_none h]
  · show execAnswerStart s = _
    rw [execAnswerStart, inStage_none h]
  · show execReplyTimeout s = _
    rw [execReplyTimeout, inStageWith_none h]
  · show execAnswerComplete bytes s = _
    rw [execAnswerComplete, inStageWith_none h]
  · show execAnswerIncomplete s = _
    rw [execAnswerIncomplete, inStageWith_none h]
  · show execAnswerLengthTooLarge s = _
    rw [execAnswerLengthTooLarge, inStageWith_none h]
  · show execWaitInterval s = _
    rw [execWaitInterval, inStage_none h]
  · show execEmptyRoundPauseEnd s = _
    rw [execEmptyRoundPauseEnd, h]
  · show execPollPeriod s = _
    rw [execPollPeriod, h]
  · show execIdleDeadlinePass k s = _
    unfold execIdleDeadlinePass
    split
    · rfl
    next l hi =>
      split
      next receiving _ => exact absurd receiving (h l hi)
      · rfl
  · show execCheckComplete k s = _
    unfold execCheckComplete
    split
    next l hi =>
      split
      next third checking => exact absurd checking (h l third hi)
      all_goals rfl
    · rfl
  · show execApplyComplete s = _
    unfold execApplyComplete
    split
    next e l p _ applying => exact absurd applying (h e l _)
    next e l n _ applying => exact absurd applying (h e l _)
    · rfl
  · show execUndoComplete s = _
    unfold execUndoComplete
    split
    next e l p _ applying => exact absurd applying (h e l _)
    · rfl
  · show execRebuildComplete s = _
    unfold execRebuildComplete
    split
    next e n _ rebuilding => exact absurd rebuilding (h e n)
    · rfl
  · show execSweepPassComplete s = _
    rw [execSweepPassComplete, h]
  · show execHoldDeadlinePass s = _
    unfold execHoldDeadlinePass
    split
    next due _ _ _ => exact absurd due h
    · rfl
  · show execDoorDeadline s = _
    unfold execDoorDeadline
    split
    next waits _ => exact absurd waits h
    · rfl
  · show execTransmitComplete s = _
    rw [execTransmitComplete, h]
  · show execAnswerDrop src s = _
    rw [execAnswerDrop, if_pos h]

/-- The answers that a context owes, one for each tag that waits. -/
theorem owed_eq (l : Load) : l.owed = l.close.toList.length + l.abort.toList.length := by
  unfold Load.owed
  cases l.close <;> cases l.abort <;> rfl

theorem answerRoom_iff (s : State) : s.answerRoom = true ↔ s.port.answers.length + s.deferred < 16 := decide_eq_true_iff

/-- Settles O7: each message that takes an answer is a `takeMessage`. -/
theorem noAnswerRoomDiscardsTheMessage : Obligations.NoAnswerRoomDiscardsTheMessage := by
  refine ⟨fun s => ?_, fun c m s hm hs full => ?_⟩
  · rw [answerRoom_iff]
    unfold State.deferred
    cases s.intakes.fare <;> cases s.intakes.block <;> simp only [owed_eq]
  · have dropped : exec (.answerDrop m.src) s =
        .next (s.setPort { s.port with gateway := some m.src, answerDrop := min 65535 (s.port.answerDrop + 1) }) := by
      show execAnswerDrop m.src s = _
      rw [execAnswerDrop, if_neg (by rw [full]; nofun)]
      rfl
    have discarded : exec c s =
        .next (s.setPort { s.port with gateway := some m.src, answerDrop := min 65535 (s.port.answerDrop + 1) }) := by
      cases c with
      | loadSegment n k e i p =>
        cases hm
        exact absurd rfl (hs k e i p)
      | _ => cases hm <;> exact congrArg Host.Outcome.next (takeMessage_none s _ _ full)
    exact ⟨discarded, dropped.trans discarded.symm⟩

/-- Settles O8. -/
theorem linkStateGovernsTheUplink : Obligations.LinkStateGovernsTheUplink := by
  intro s
  refine ⟨⟨_, rfl, ?_⟩, fun up => ?_, fun down => ?_⟩
  · obtain ⟨only, port, sending⟩ := uplink_port (s.setPort { s.port with linkUp := true })
    exact ⟨only, port, sending, fun idle => uplink_tx (s.setPort { s.port with linkUp := true }) idle⟩
  · show execLinkDown s = _
    rw [execLinkDown, if_pos up]
    rfl
  · show execLinkDown s = _
    rw [execLinkDown, if_neg (by rw [down]; nofun)]

/-- What completes a frame and then chooses the next one. -/
theorem transmitComplete_eq (s : State) (x : Tx) (h : s.port.tx = some x) : exec .transmitComplete s = .next (s.txDone x.body).uplink := by
  show execTransmitComplete s = _
  rw [execTransmitComplete, h]

/-- A completed frame leaves no frame in transmission, and touches neither the link, the gateway nor the settings. -/
theorem txDone_frame (s : State) (b : TxBody) :
    (s.txDone b).port.tx = none ∧ (s.txDone b).port.linkUp = s.port.linkUp ∧ (s.txDone b).port.gateway = s.port.gateway ∧
      (s.txDone b).settings = s.settings ∧ s.txDone b = (s.setPort (s.txDone b).port).setTaps (s.txDone b).taps := by
  cases b <;> exact ⟨rfl, rfl, rfl, rfl, rfl⟩

/-- Settles O9. -/
theorem completedFrameLeavesItsQueue : Obligations.CompletedFrameLeavesItsQueue := by
  intro s x h
  refine ⟨_, transmitComplete_eq s x h, ?_⟩
  obtain ⟨idle, link, gateway, settings, only⟩ := txDone_frame s x.body
  obtain ⟨same, port, -⟩ := uplink_port (s.txDone x.body)
  have taps : (s.txDone x.body).uplink.taps = (s.txDone x.body).taps := by rw [same]; rfl
  have sent := uplink_tx (s.txDone x.body) idle
  have answers : (s.txDone x.body).uplink.port.answers = (s.txDone x.body).port.answers := by rw [port]
  have notices : (s.txDone x.body).uplink.port.notices = (s.txDone x.body).port.notices := by rw [port]
  refine ⟨?_, fun a ha => ?_, fun n hn => ?_, fun n hn => ?_, ?_⟩
  · calc (s.txDone x.body).uplink = (s.txDone x.body).setPort (s.txDone x.body).uplink.port := same
      _ = ((s.setPort (s.txDone x.body).port).setTaps (s.txDone x.body).taps).setPort (s.txDone x.body).uplink.port :=
        congrArg (fun u => State.setPort u (s.txDone x.body).uplink.port) only
      _ = _ := by rw [taps]; rfl
  · rw [taps, port, ha]
    exact ⟨rfl, rfl⟩
  · rw [taps, port, hn]
    exact ⟨rfl, rfl⟩
  · rw [taps, port, hn]
    exact ⟨rfl, rfl⟩
  · rw [sent, answers, notices, taps, link, gateway, settings]

/-! #### Flags -/

theorem get_put (p : FlagSet) (f g : Flag) (c : Option Ctx) : (p.put f c).get g = if g = f then c else p.get g := by
  cases f <;> cases g <;> rfl

theorem raise_set (p : Port) (e : Enables) (f : Flag) (c : Ctx) (h : (p.flags.get f).isSome = true) : p.raise e f c = p := by
  obtain ⟨v, hv⟩ := Option.isSome_iff_exists.mp h
  rw [Port.raise, hv]

theorem raise_clear (p : Port) (e : Enables) (f : Flag) (c : Ctx) (h : p.flags.get f = none) :
    p.raise e f c =
      { p with flags := p.flags.put f (some c), notices := if e.has f then queueNotice p.notices ⟨f, c⟩ else p.notices } := by
  rw [Port.raise, h]

theorem queueNotice_first (q : List Notice) (n : Notice) (h : ∀ x ∈ q, x.flag ≠ n.flag) : queueNotice q n = q ++ [n] := by
  refine if_neg fun any => ?_
  obtain ⟨x, hx, same⟩ := List.any_eq_true.mp any
  exact h x hx (eq_of_beq same)

theorem queueNotice_again (q : List Notice) (n : Notice) (h : ∃ x ∈ q, x.flag = n.flag) :
    queueNotice q n = q.map (fun x => if x.flag = n.flag then n else x) := by
  obtain ⟨x, hx, same⟩ := h
  exact if_pos (List.any_eq_true.mpr ⟨x, hx, by rw [same, beq_self_eq_true]⟩)

/-- Settles O10. -/
theorem raisingAFlagQueuesOneNotice : Obligations.RaisingAFlagQueuesOneNotice := by
  refine ⟨fun _ => ⟨⟨rfl, rfl⟩, ⟨rfl, rfl⟩, rfl, ⟨rfl, rfl, rfl⟩, rfl, rfl⟩, fun p e f c => ⟨raise_set p e f c, fun clear => ?_⟩⟩
  rw [raise_clear p e f c clear]
  refine ⟨fun g => get_put p.flags f g (some c), rfl, fun off => ?_, fun on first => ?_, fun on again => ?_⟩
  · simp only [off, Bool.false_eq_true, if_false]
  · simp only [on, if_true]
    exact queueNotice_first p.notices ⟨f, c⟩ first
  · simp only [on, if_true]
    rw [queueNotice_again p.notices ⟨f, c⟩ again]
    refine ⟨?_, fun n hn => ?_⟩
    · rw [List.map_map]
      refine List.map_congr_left fun x _ => ?_
      by_cases same : x.flag = f <;> simp [same]
    · obtain ⟨x, hx, rfl⟩ := List.mem_map.mp hn
      by_cases same : x.flag = f <;> simp [same, hx]

/-! ### Refused messages: O12 -/

theorem windowSize_iff (n : Nat) : windowSize n = true ↔ ∃ e, e ≤ 16 ∧ n = 2 ^ e := by
  simp [windowSize, Nat.lt_succ_iff]

theorem windowOk_iff (base size : BitVec 32) : windowOk base.toNat size.toNat = true ↔
    size = 0 ∨ (∃ e, e ≤ 16 ∧ size.toNat = 2 ^ e) ∧ size.toNat ∣ base.toNat ∧ base.toNat + size.toNat ≤ 65536 := by
  have zero : size.toNat = 0 ↔ size = 0 := by rw [← BitVec.toNat_inj]; rfl
  simp only [windowOk, Bool.or_eq_true, Bool.and_eq_true, beq_iff_eq, decide_eq_true_eq, windowSize_iff, zero, and_assoc,
    ← Nat.dvd_iff_mod_eq_zero]

/-- Two windows overlap exactly when a segment position lies in both. -/
theorem windowsOverlap_iff (b n c m : Nat) : windowsOverlap b n c m = true ↔ ∃ i, (b ≤ i ∧ i < b + n) ∧ c ≤ i ∧ i < c + m := by
  simp only [windowsOverlap, Bool.and_eq_true, bne_iff_ne, decide_eq_true_eq]
  constructor
  · rintro ⟨⟨⟨hn, hm⟩, first⟩, second⟩
    exact ⟨max b c, by omega, by omega⟩
  · rintro ⟨i, hi, hj⟩
    omega

theorem rawClass_ok_iff (c : RawClass) : RawClass.ok c = true ↔
    windowOk c.blockBase.toNat c.blockSize.toNat = true ∧ windowOk c.fareBase.toNat c.fareSize.toNat = true ∧
      windowsOverlap c.blockBase.toNat c.blockSize.toNat c.fareBase.toNat c.fareSize.toNat = false := by
  simp only [RawClass.ok, Bool.and_eq_true, Bool.not_eq_true', and_assoc]

/-- A message whose handler only joins one RESULT or REPORT. -/
theorem refused_answered (s : State) (m : Head) (f : State → State) (a : Answer) (h : s.answerRoom = true)
    (hf : f (s.acceptFrom m.src) = (s.acceptFrom m.src).answer a) :
    s.takeMessage m f = s.setPort (s.takeMessage m f).port ∧ Answered m.src [a] s (s.takeMessage m f) :=
  takeMessage_answer s m f [a] h hf

theorem dropAt_none (n : Nat) (h : n = 0 ∨ 8 < n) : dropAt n = none := dif_neg (by omega)

theorem kindOf_none (k : Byte) (h : k.toNat ≠ 1 ∧ k.toNat ≠ 2) : kindOf k = none := by
  have fare : k ≠ 1 := fun e => h.1 (by rw [e]; rfl)
  have block : k ≠ 2 := fun e => h.2 (by rw [e]; rfl)
  rw [kindOf, if_neg fare, if_neg block]

/-- A failed-job selector that names nothing (R182, R190). -/
theorem failedJobs_none (c : ClearBody)
    (h : 2 < c.selector.toNat ∨ c.selector.toNat = 1 ∧
      (c.drop.toNat = 0 ∨ 8 < c.drop.toNat ∨ (c.kind.toNat ≠ 1 ∧ c.kind.toNat ≠ 2))) : ClearBody.failedJobs c = none := by
  have code (n : Byte) : c.selector = n ↔ c.selector.toNat = n.toNat := BitVec.toNat_inj.symm
  have zero : c.selector ≠ 0 := by rw [Ne, code]; show ¬_ = 0; omega
  have two : c.selector ≠ 2 := by rw [Ne, code]; show ¬_ = 2; omega
  rw [ClearBody.failedJobs, if_neg zero, if_neg two]
  rcases h with large | ⟨one, bad⟩
  · rw [if_neg]
    rw [code]
    show ¬_ = 1
    omega
  · split
    · split
      next hd hk =>
        rcases bad with low | high | kind
        · rw [dropAt_none _ (.inl low)] at hd; nomatch hd
        · rw [dropAt_none _ (.inr high)] at hd; nomatch hd
        · rw [kindOf_none _ kind] at hk; nomatch hk
      · rfl
    · rfl

theorem refusal_window (r : RawConfig) (h : ∃ i, RawClass.ok (r.classes.get i) = false) : RawConfig.refusal r = some .badWindow := by
  obtain ⟨i, bad⟩ := h
  have some : r.classes.toList.all RawClass.ok ≠ true := fun all => by
    rw [(Per4.all_toList _ _).mp all i] at bad
    nomatch bad
  rw [RawConfig.refusal, if_pos (by simpa using some)]

theorem refusal_map (r : RawConfig) (h : ∀ i, RawClass.ok (r.classes.get i) = true)
    (bad : ∃ d, 1 < (r.dropMap.get d).enable.toNat ∨ 3 < (r.dropMap.get d).cls.toNat) : RawConfig.refusal r = some .badMap := by
  have all : r.classes.toList.all RawClass.ok = true := (Per4.all_toList _ _).mpr h
  obtain ⟨d, out⟩ := bad
  have some : r.dropMap.toList.all RawMapEntry.ok ≠ true := fun all => by
    have ok := (Per8.all_toList _ _).mp all d
    simp only [RawMapEntry.ok, Bool.and_eq_true, decide_eq_true_eq] at ok
    omega
  rw [RawConfig.refusal, all, if_neg (by nofun), if_pos (by simpa using some)]

/-- Settles O12. -/
theorem refusedMessagesChangeNothing : Obligations.RefusedMessagesChangeNothing := by
  refine ⟨fun c => ?_, fun m s room => ⟨fun n => ?_, fun n out => ?_, ?_, fun c bad => ?_, fun r bad => ?_, fun r good bad => ?_⟩⟩
  · rw [rawClass_ok_iff, windowOk_iff, windowOk_iff, ← Bool.not_eq_true, windowsOverlap_iff, not_exists]
  · exact ⟨_, rfl, refused_answered s m _ _ room rfl⟩
  · refine ⟨_, rfl, refused_answered s m _ _ room ?_⟩
    rw [dropAt_none _ out]
    rfl
  · exact ⟨_, rfl, refused_answered s m _ _ room rfl⟩
  · refine ⟨_, rfl, refused_answered s m _ _ room ?_⟩
    rw [failedJobs_none c bad]
    rfl
  · refine ⟨_, rfl, refused_answered s m _ _ room ?_⟩
    rw [refusal_window r bad]
    rfl
  · refine ⟨_, rfl, refused_answered s m _ _ room ?_⟩
    rw [refusal_map r good bad]
    rfl

end Sys2Proof.Machine

namespace Sys2Proof.Machine

/-! ### Restart and reports: O5, O11 -/

theorem isRebuilding_false {s : State} (h : ∀ l, s.intakes.block = some l → l.stage ≠ .rebuilding) : s.isRebuilding = false := by
  unfold State.isRebuilding
  split
  next l hi => exact beq_eq_false_iff_ne.mpr (h l hi)
  · rfl

theorem isRebuilding_true {s : State} {l : Load} (hi : s.intakes.block = some l) (h : l.stage = .rebuilding) :
    s.isRebuilding = true := by
  unfold State.isRebuilding
  rw [hi]
  exact beq_iff_eq.mpr h

theorem warmRestart_free (s : State) (h : s.isRebuilding = false) : exec .warmRestart s = .next (s.holdRestart false).warmRestart := by
  show execWarmRestart s = _
  rw [execWarmRestart, if_neg (by rw [h]; nofun)]

theorem warmRestart_busy (s : State) (h : s.isRebuilding = true) : exec .warmRestart s = .next s := by
  show execWarmRestart s = _
  rw [execWarmRestart, if_pos h]

/-- The hub after a message's frame is accepted and its answer OK has joined. -/
def State.answeredOk (s : State) (m : Head) : State := (s.acceptFrom m.src).result m.tag .ok

theorem restart_free (s : State) (m : Head) (room : s.answerRoom = true) (h : s.isRebuilding = false) :
    exec (.restart m) s = .next (s.answeredOk m).warmRestart.uplink := by
  refine (congrArg Host.Outcome.next (takeMessage_some s m _ room)).trans ?_
  have idle : ¬(s.answeredOk m).isRebuilding = true := by
    rw [show (s.answeredOk m).isRebuilding = s.isRebuilding from rfl, h]
    nofun
  exact congrArg (fun u => Host.Outcome.next (State.uplink u)) (if_neg idle)

theorem restart_busy (s : State) (m : Head) (room : s.answerRoom = true) (h : s.isRebuilding = true) :
    exec (.restart m) s = .next ((s.answeredOk m).holdRestart true).uplink := by
  refine (congrArg Host.Outcome.next (takeMessage_some s m _ room)).trans ?_
  exact congrArg (fun u => Host.Outcome.next (State.uplink u)) (if_pos (show (s.answeredOk m).isRebuilding = true from h))

/-- Settles O5. -/
theorem restartActsOnEveryBlock : Obligations.RestartActsOnEveryBlock := by
  intro m s
  refine ⟨fun free => ?_, fun l hi busy => ?_⟩
  · have idle := isRebuilding_false free
    exact ⟨⟨_, warmRestart_free s idle, warmRestart_spec _⟩, fun room =>
      ⟨_, restart_free s m room idle, (warmRestart_spec (s.answeredOk m)).uplink⟩⟩
  · have works := isRebuilding_true hi busy
    obtain ⟨only, port, -⟩ := uplink_port ((s.answeredOk m).holdRestart true)
    exact ⟨warmRestart_busy s works, fun room => ⟨_, restart_busy s m room works, only, port⟩⟩

/-- A QUERY that is answered with a REPORT. -/
theorem report_answered (s : State) (m : Head) (topic : Byte) (content : State → List Byte) (h : s.answerRoom = true) :
    let t := s.takeMessage m fun s => s.report m.tag topic (content s)
    t = s.setPort t.port ∧ Answered m.src [.report m.tag topic (content (s.acceptFrom m.src))] s t :=
  refused_answered s m _ _ h rfl

/-- Settles O11: each report by its layout. -/
theorem queryIsAnsweredWithItsReport : Obligations.QueryIsAnsweredWithItsReport := by
  refine ⟨fun m s room => ⟨?_, fun d n hn => ?_, ?_, ?_, ?_, ?_⟩, fun s d j => ?_⟩
  · have answered := report_answered s m 1 State.summaryReport room
    rw [summaryReport_eq] at answered
    exact ⟨_, rfl, answered⟩
  · have named : exec (.queryDrop m n) s = .next (s.takeMessage m fun s => s.report m.tag 2 (s.dropReport d)) := by
      show execQueryDrop m n s = _
      rw [execQueryDrop, dropAt_addr d n hn]
    have answered := report_answered s m 2 (fun s => s.dropReport d) room
    rw [dropReport_eq] at answered
    exact ⟨_, named, answered⟩
  · have answered := report_answered s m 3 State.chainReport room
    rw [chainReport_eq] at answered
    exact ⟨_, rfl, answered⟩
  · have answered := report_answered s m 4 State.jobsReport room
    rw [show ∀ t : State, t.jobsReport = t.jobsBytes t.planner.jobs from fun _ => rfl, jobsBytes_eq] at answered
    exact ⟨_, rfl, answered⟩
  · have answered := report_answered s m 5 State.errorlogReport room
    rw [errorlogReport_eq] at answered
    exact ⟨_, rfl, answered⟩
  · have answered := report_answered s m 6 State.countersReport room
    rw [countersReport_eq] at answered
    exact ⟨_, rfl, answered⟩
  · exact ⟨summaryLayout_gapless s, dropLayout_gapless s d, jobLayout_gapless s j, errorlogLayout_gapless _⟩

end Sys2Proof.Machine

namespace Sys2Proof.Machine

/-! ### VEHICLE, the clock and its deadlines: O15 to O20 -/

theorem uplink_trunk (s : State) : s.uplink.trunk = s.trunk := by rw [(uplink_port s).1]; rfl

theorem uplink_planner (s : State) : s.uplink.planner = s.planner := by rw [(uplink_port s).1]; rfl

/-! #### The decision of activation -/

theorem endDoorWait_activate {s : State} {e : Nat} (h : s.change.state = .doorWait) (hp : s.cat.p? = some e) :
    s.endDoorWait = s.activate e := by
  rw [State.endDoorWait, h, hp]

theorem endDoorWait_still {s : State} (h : s.change.state ≠ .doorWait) : s.endDoorWait = s := by
  unfold State.endDoorWait
  split
  next waits _ => exact absurd waits h
  · rfl

theorem endDoorWait_none {s : State} (h : s.cat.p? = none) : s.endDoorWait = s := by
  unfold State.endDoorWait
  split
  next some => nomatch h.symm.trans some
  · rfl

theorem endDoorWait_answer (s : State) (a : Answer) : s.endDoorWait.answer a = (s.answer a).endDoorWait := by
  by_cases w : s.change.state = .doorWait
  · cases p : s.cat.p? with
    | none => rw [endDoorWait_none p, endDoorWait_none (s := s.answer a) p]
    | some e =>
      rw [endDoorWait_activate w p, endDoorWait_activate (s := s.answer a) w p]
      rfl
  · rw [endDoorWait_still w, endDoorWait_still (s := s.answer a) w]

/-- The activation decided: P is requested, the hold names it, and the arbiter has the request (R150, R151). -/
theorem activate_decided (s : State) (e : Nat) :
    Decided
      ((s.setChange { s.change with state := .due, hold := .absent, door := none, requested := some e }).setCat
        { s.cat with hold := s.cat.pendingFare.map Fare.ref }) (s.activate e) :=
  decided_setTrunk _ { s.trunk with request := some e } rfl fun _ h => h

/-- The broadcast of a request waits for the exchange in flight, or is formed at once. -/
structure Requested (e : Nat) (s t : State) : Prop where
  waits : s.trunk.ex.isSome = true → t.trunk.request = some e
  formed : s.trunk.ex = none → t.trunk.request = none ∧
    ∃ x, t.trunk.ex = some x ∧ x.kind = .broadcast ∧ x.drop = none ∧ x.frame = .activate e ∧ x.stage = .quiet

theorem conclude_requested {s : State} {e : Nat} (h : s.trunk.request = some e) : Requested e s s.conclude :=
  ⟨(arbitrate_request s h).1, (arbitrate_request s h).2⟩

theorem Requested.uplink {e : Nat} {s t : State} (h : Requested e s t) : Requested e s t.uplink :=
  ⟨fun b => uplink_trunk t ▸ h.waits b, fun b => uplink_trunk t ▸ h.formed b⟩

/-- Settles O20. -/
theorem doorDeadlineDecidesActivation : Obligations.DoorDeadlineDecidesActivation := by
  intro e n s waits door p
  have activated : exec .doorDeadline s = .next ((s.passTo n).activate e).conclude := by
    show execDoorDeadline s = _
    rw [execDoorDeadline, waits, door]
    exact congrArg (fun u => Host.Outcome.next (State.conclude u)) (endDoorWait_activate (s := s.passTo n) waits p)
  have requested := conclude_requested (s := (s.passTo n).activate e) (e := e) rfl
  exact ⟨_, activated, (activate_decided (s.passTo n) e).trans (conclude_decided _), requested.waits, requested.formed⟩

/-! #### VEHICLE -/

theorem doorOf_closed (door : Byte) : doorOf door = .closed ↔ door = 2 := by
  unfold doorOf
  split
  next h => exact ⟨fun _ => h, fun _ => rfl⟩
  next h => exact ⟨nofun, fun g => absurd g h⟩

/-- The hub that a VEHICLE meets: the frame accepted, the answer OK joined, the two codes taken. -/
def State.vehicleTaken (s : State) (m : Head) (mode door : Byte) : State :=
  s.setPort
    { s.port with
      gateway := some m.src, answers := s.port.answers ++ [.result m.tag .ok 0 0 0 0], mode := modeOf mode s.port.mode
      door := doorOf door }

/-- What a VEHICLE does before the decision: the jobs judged, and in DOOR_WAIT the activation that CLOSED doors decide. -/
theorem vehicle_eq (s : State) (m : Head) (mode door : Byte) (room : s.answerRoom = true) :
    exec (.vehicle m mode door) s = .next (s.vehicleTaken m mode door).judgeJobs.changeoverDoors.conclude.uplink := by
  refine (congrArg Host.Outcome.next (takeMessage_some s m _ room)).trans ?_
  have commutes (u : State) (a : Answer) : u.changeoverDoors.answer a = (u.answer a).changeoverDoors := by
    unfold State.changeoverDoors
    split
    next shut => exact (endDoorWait_answer u a).trans (if_pos shut).symm
    next open_ => exact (if_neg open_).symm
  exact congrArg (fun u => Host.Outcome.next (State.uplink (State.conclude u))) (commutes _ _)

/-- With an exchange in flight, each job but its own is judged against the floor (R108). -/
theorem judgeJobs_flying (u : State) (x : Exchange) (hx : u.trunk.ex = some x) (floor : Nat) (hf : u.floor = floor) :
    u.planner.jobs.map u.judgeJob =
      u.planner.jobs.map (fun j =>
        if x.kind = .push j.kind ∧ x.drop = some j.drop then j
        else
          { j with
            state :=
              match j.state with
              | .failed => .failed
              | .held => if 1 ≤ j.level ∧ floor ≤ j.level then (if j.underWay then .paused else .ready) else .held
              | st => if j.level = 0 ∨ j.level < floor then .held else st }) := by
  refine List.map_congr_left fun j _ => ?_
  have flying : u.inFlight j.drop j.kind = true ↔ x.kind = .push j.kind ∧ x.drop = some j.drop := by
    rw [State.inFlight, hx]
    simp only [Bool.and_eq_true, beq_iff_eq]
  unfold State.judgeJob
  by_cases own : x.kind = .push j.kind ∧ x.drop = some j.drop
  · rw [if_pos (flying.mpr own), if_pos own]
  · rw [if_neg (fun h => own (flying.mp h)), if_neg own, hf]
    unfold Job.judge
    cases state : j.state with
    | failed => simp only [← state]
    | held =>
      dsimp only
      split
      · rfl
      · simp only [← state]
    | ready | active | paused =>
      dsimp only
      split
      · rfl
      · simp only [← state]

theorem changeoverDoors_planner (u : State) : u.changeoverDoors.planner = u.planner := by
  unfold State.changeoverDoors State.endDoorWait
  split
  · split <;> rfl
  · rfl

/-- Settles O15. -/
theorem vehicleSetsModeAndDoors : Obligations.VehicleSetsModeAndDoors := by
  intro m mode door s room
  refine ⟨_, vehicle_eq s m mode door room, fun stays => ?_, fun e waits closed p => ?_, fun x hx => ?_⟩
  · have still : (s.vehicleTaken m mode door).judgeJobs.changeoverDoors = (s.vehicleTaken m mode door).judgeJobs := by
      unfold State.changeoverDoors
      split
      next shut => exact endDoorWait_still fun waits => stays ⟨waits, (doorOf_closed door).mp shut⟩
      · rfl
    rw [still]
    exact ((judgeJobs_decided _).trans (conclude_decided _)).trans (uplink_decided _)
  · have activated : (s.vehicleTaken m mode door).judgeJobs.changeoverDoors =
        ((s.vehicleTaken m mode door).activate e).judgeJobs := by
      have shut : (s.vehicleTaken m mode door).judgeJobs.port.door = .closed := (doorOf_closed door).mpr closed
      rw [State.changeoverDoors, if_pos shut]
      exact endDoorWait_activate (s := (s.vehicleTaken m mode door).judgeJobs) waits p
    rw [activated]
    have requested := (conclude_requested (s := ((s.vehicleTaken m mode door).activate e).judgeJobs) (e := e) rfl).uplink
    exact ⟨(((activate_decided _ e).trans (judgeJobs_decided _)).trans (conclude_decided _)).trans (uplink_decided _),
      requested.waits, requested.formed⟩
  · have flying : (s.vehicleTaken m mode door).judgeJobs.changeoverDoors.trunk.ex.isSome = true := by
      rw [(changeoverDoors_moved (s.vehicleTaken m mode door).judgeJobs).flying x hx]
      rfl
    have jobs := congrArg Planner.jobs ((uplink_planner _).trans
      ((conclude_busy_planner _ flying).trans (changeoverDoors_planner _)))
    exact jobs.trans (judgeJobs_flying (s.vehicleTaken m mode door) x hx _ rfl)

end Sys2Proof.Machine

namespace Sys2Proof.Machine

/-! #### Clock changes -/

theorem clockChange_times (s : State) (b : Bool) : (s.clockChange b).clock = s.clock ∧ (s.clockChange b).timebase = s.timebase := by
  have moved := changeoverClock_moved s b
  obtain ⟨i, p, tested, -⟩ := (intakeClock_intaken (s.changeoverClock b) b).eq
  unfold State.clockChange
  rw [tested]
  exact ⟨moved.clock, moved.timebase⟩

/-- An accepted TIME is a setting of the minute and, unless the valid clock reads it already, a clock change (R14). -/
theorem takeTime_same {s : State} {n : Nat} (hv : s.clock.valid = true) (hm : s.clock.minute = n) : s.takeTime n = s.setMinute n := by
  rw [State.takeTime, if_pos hv, if_pos hm]

theorem takeTime_change {s : State} {n : Nat} (h : ¬(s.clock.valid = true ∧ s.clock.minute = n)) :
    s.takeTime n = (s.setMinute n).clockChange (!s.clock.valid) := by
  unfold State.takeTime
  dsimp only
  split
  next hv =>
    rw [if_neg (fun hm => h ⟨hv, hm⟩), hv]
    rfl
  next hv =>
    rw [eq_false_of_ne_true hv]
    rfl

theorem takeTime_times (s : State) (n : Nat) :
    (s.takeTime n).clock = { minute := n, valid := true, phaseStart := s.timebase } ∧ (s.takeTime n).timebase = s.timebase := by
  by_cases h : s.clock.valid = true ∧ s.clock.minute = n
  · rw [takeTime_same h.1 h.2]
    exact ⟨rfl, rfl⟩
  · rw [takeTime_change h]
    exact clockChange_times _ _

theorem time_eq (s : State) (m : Head) (n : BitVec 32) (room : s.answerRoom = true) (hn : n ≠ 0) :
    exec (.time m n) s = .next ((((s.acceptFrom m.src).takeTime n.toNat).result m.tag .ok).conclude).uplink := by
  refine (congrArg Host.Outcome.next (takeMessage_some s m _ room)).trans ?_
  rw [if_neg hn]

/-- Settles O16. -/
theorem timeSetsTheClock : Obligations.TimeSetsTheClock := by
  intro m n s room hn
  have decided (u : State) : Decided u u.conclude.uplink := (conclude_decided u).trans (uplink_decided _)
  obtain ⟨clock, timebase⟩ := takeTime_times (s.acceptFrom m.src) n.toNat
  have taken := decided (((s.acceptFrom m.src).takeTime n.toNat).result m.tag .ok)
  refine ⟨_, time_eq s m n room hn, taken.clock.trans clock, taken.timebase.trans timebase, fun hv hm => ?_, fun change => ?_⟩
  · rw [takeTime_same (s := s.acceptFrom m.src) hv hm]
    exact decided _
  · rw [takeTime_change (s := s.acceptFrom m.src) change]
    have changed := clockChange_spec ((s.acceptFrom m.src).setMinute n.toNat) n.toNat (!s.clock.valid) rfl rfl
    have left : ClockChanged n.toNat (!s.clock.valid) (s.acceptFrom m.src) _ := changed.left (s.acceptFrom m.src).timebase _
    exact (left.answer (.result m.tag .ok 0 0 0 0)).decided (decided _)

/-- Settles O17. -/
theorem minuteAdvanceIsOneClockChange : Obligations.MinuteAdvanceIsOneClockChange := by
  intro s
  refine ⟨fun valid low => ⟨_, minuteAdvance_next s valid low, nextMinute_spec s⟩, fun valid top => ?_, fun invalid => ?_⟩
  · show execMinuteAdvance s = _
    rw [execMinuteAdvance, if_pos valid, if_neg (by unfold clockLimit; omega)]
    rfl
  · show execMinuteAdvance s = _
    rw [execMinuteAdvance, if_neg (by rw [invalid]; nofun)]

/-! #### The minutes up to a deadline (log 5) -/

/-- Along the minutes C rises by one each, and a property that a minute short of the last keeps stands until the last. -/
theorem minutes_along (s : State) (n : Nat) (P : State → Prop) (hv : s.clock.valid = true) (hP : P s)
    (step : ∀ u, P u → u.clock.valid = true → u.clock.minute + 1 < s.clock.minute + n → P u.nextMinute.conclude) :
    ∀ i, i ≤ n → (s.minutes i).clock.minute = s.clock.minute + i ∧ (s.minutes i).clock.valid = true ∧
      (i < n → P (s.minutes i)) := by
  intro i
  induction i with
  | zero => exact fun _ => ⟨rfl, hv, fun _ => hP⟩
  | succ i ih =>
    intro hi
    obtain ⟨minute, valid, keeps⟩ := ih (by omega)
    have next := (nextMinute_spec (s.minutes i)).1.clock
    rw [minutes_succ]
    exact ⟨by rw [next.1, minute, Nat.add_assoc], next.2, fun less => step _ (keeps (by omega)) valid (by omega)⟩

/-- The intake context after a minute. -/
theorem nextMinute_intake (s : State) (k : Kind) :
    s.nextMinute.conclude.intake k =
      (s.intake k).bind (deadlineTest s.settings.idleTimeout (s.clock.minute + 1) false) := by
  obtain ⟨changed, -⟩ := nextMinute_spec s
  cases k with
  | fare => exact changed.fare
  | block => exact changed.block

theorem deadlineTest_receiving {l : Load} {n : Nat} (hr : l.stage = .receiving) (hd : l.deadline = some n) (o m : Nat) (b : Bool) :
    deadlineTest o m b l = if n ≤ m then none else some l := by
  rw [deadlineTest, hr, hd]

/-- The minute that reaches an idle deadline raises LOAD_REFUSED (R24). -/
theorem nextMinute_refused (s : State) (k : Kind) (l : Load) (n : Nat) (hi : s.intake k = some l) (hr : l.stage = .receiving)
    (hd : l.deadline = some n) (reached : n ≤ s.clock.minute + 1) : s.nextMinute.conclude.port.flags.loadRefused.isSome = true := by
  have concluded := Port.flags_of_bare (conclude_decided s.nextMinute).port .loadRefused nofun nofun
  refine (congrArg Option.isSome concluded).trans ?_
  have moved := changeoverClock_moved ((s.passTo (s.clock.phaseStart + 60000000)).setMinute (s.clock.minute + 1)) false
  show (((State.changeoverClock _ false).testDeadline .fare).testDeadline .block).port.flags.loadRefused.isSome = true
  generalize State.changeoverClock _ false = w at moved ⊢
  have stands : w.intake k = some l := (intake_of_moved moved.intakes k).trans hi
  have passes (v : State) (hv : v.clock = w.clock) : v.deadlinePassed l = true := by
    unfold State.deadlinePassed
    rw [hr, hd, hv, moved.clock]
    exact decide_eq_true reached
  cases k with
  | fare => exact testDeadline_mono _ _ (testDeadline_refused w .fare l stands (passes w rfl))
  | block =>
    exact testDeadline_refused _ .block l ((testDeadline_other w .fare .block nofun).trans stands) (passes _ (testDeadline_clock w .fare))

theorem minutes_answers (s : State) (n : Nat) : (s.minutes n).port.answers = s.port.answers := by
  induction n with
  | zero => rfl
  | succ n ih =>
    rw [minutes_succ]
    exact (core_answers (nextMinute_spec (s.minutes n)).1.port).trans ih

theorem idleDeadline_minutes {s : State} {k : Kind} {l : Load} {n : Nat} (hi : s.intake k = some l) (hr : l.stage = .receiving)
    (hd : l.deadline = some n) (hv : s.clock.valid = true) (hn : n ≤ clockLimit) :
    exec (.idleDeadlinePass k) s =
      if s.clock.minute < n then .next (s.minutes (n - s.clock.minute)) else .next (s.testDeadline k).uplink := by
  show execIdleDeadlinePass k s = _
  unfold execIdleDeadlinePass
  rw [hi]
  dsimp only
  rw [hr, hd]
  exact if_pos ⟨hv, hn⟩

/-- Settles O18. -/
theorem idleDeadlineDiscardsTheIntake : Obligations.IdleDeadlineDiscardsTheIntake := by
  intro k l n s hi hr hd hv hn
  have runs := idleDeadline_minutes hi hr hd hv hn
  by_cases early : s.clock.minute < n
  · rw [if_pos early] at runs
    have along := minutes_along s (n - s.clock.minute) (fun u => u.intake k = some l) hv hi fun u hu _ short => by
      rw [nextMinute_intake, hu, Option.bind_some, deadlineTest_receiving hr hd, if_neg (by omega)]
    obtain ⟨last, prior⟩ : ∃ i, n - s.clock.minute = i + 1 := ⟨n - s.clock.minute - 1, by omega⟩
    obtain ⟨minute, -, stands⟩ := along last (by omega)
    have stands := stands (by omega)
    obtain ⟨reached, valid, -⟩ := along (n - s.clock.minute) le_rfl
    refine ⟨_, runs, ?_, ?_, minutes_answers _ _, fun _ => ⟨by omega, valid, s.minutes, rfl, rfl, fun i hi => ?_⟩,
      fun late => absurd early (by omega)⟩
    · rw [prior, minutes_succ, nextMinute_intake, stands, Option.bind_some, deadlineTest_receiving hr hd, if_pos (by omega)]
    · rw [prior, minutes_succ]
      exact nextMinute_refused _ k l n stands hr hd (by omega)
    · obtain ⟨minute, valid, stands⟩ := along i (by omega)
      refine ⟨minute, stands hi, ?_⟩
      rw [minutes_succ]
      exact minuteAdvance_next _ valid (by rw [minute]; omega)
  · rw [if_neg early] at runs
    have passed : s.deadlinePassed l = true := by
      rw [State.deadlinePassed, hr, hd]
      exact decide_eq_true (by omega)
    have tested : s.testDeadline k =
        (s.setIntake k none).setPort
          (s.port.raise s.settings.enables .loadRefused
            { edition := l.edition, code := some .timeout, drop := none, minute := s.clock.minute }) := by
      rw [State.testDeadline, hi]
      dsimp only
      rw [if_pos passed, ← show s.stamp = s.clock.minute from if_pos hv]
      cases k <;> rfl
    obtain ⟨only, port, -⟩ := uplink_port (s.testDeadline k)
    rw [tested] at runs only port
    refine ⟨_, runs, ?_, ?_, ?_, fun before => absurd before early, fun _ => ⟨only, port⟩⟩
    · rw [only]
      cases k <;> rfl
    · rw [port]
      have set := raise_sets s.port s.settings.enables .loadRefused
        { edition := l.edition, code := some .timeout, drop := none, minute := s.clock.minute }
      exact (congrArg Option.isSome set).trans rfl
    · rw [port]
      exact raise_answers _ _ _ _

/-! #### The hold deadline -/

/-- The hub of a minute after its clock change has reached the changeover. -/
def State.minuteChange (s : State) : State :=
  ((s.passTo (s.clock.phaseStart + 60000000)).setMinute (s.clock.minute + 1)).changeoverClock false

/-- What follows the changeover in a minute leaves its record, the hold and CHANGEOVER_HELD. -/
theorem nextMinute_change (s : State) :
    s.nextMinute.conclude.change = s.minuteChange.change ∧ s.nextMinute.conclude.cat.hold = s.minuteChange.cat.hold ∧
      s.nextMinute.conclude.cat.pendingFare = s.minuteChange.cat.pendingFare ∧
        s.nextMinute.conclude.port.flags.changeoverHeld = s.minuteChange.port.flags.changeoverHeld := by
  have decided := conclude_decided s.nextMinute
  have flag := Port.flags_of_bare decided.port .changeoverHeld nofun nofun
  obtain ⟨i, p, tested, -, flags, -⟩ := (intakeClock_intaken s.minuteChange false).eq
  have next : s.nextMinute = (s.minuteChange.setIntakes i).setPort p := tested
  refine ⟨decided.change.trans ?_, (decided_hold decided).trans ?_, (pendingFare_of_bare decided.cat).trans ?_, flag.trans ?_⟩ <;> rw [next]
  · rfl
  · rfl
  · rfl
  · exact flags .changeoverHeld nofun

theorem p?_pending {s : State} {e : Nat} (h : s.cat.p? = some e) : ∃ r, s.cat.pendingFare = some r ∧ r.edition = e := by
  unfold Catalogue.p? at h
  exact Option.map_eq_some_iff.mp h

/-- In DUE with a hold minute, a minute short of it leaves the changeover, and the one that reaches it passes the hold (R148). -/
theorem minuteChange_due {s : State} {n e : Nat} (hs : s.change.state = .due) (hq : s.change.requested = none)
    (hh : s.change.hold = .minute n) (hp : s.cat.p? = some e) :
    s.minuteChange =
      if n ≤ s.clock.minute + 1 then
        State.passHold ((s.passTo (s.clock.phaseStart + 60000000)).setMinute (s.clock.minute + 1)) e
      else (s.passTo (s.clock.phaseStart + 60000000)).setMinute (s.clock.minute + 1) := by
  obtain ⟨r, pending, rfl⟩ := p?_pending hp
  unfold State.minuteChange
  generalize hw : (s.passTo (s.clock.phaseStart + 60000000)).setMinute (s.clock.minute + 1) = w
  have state : w.change.state = .due := by rw [← hw]; exact hs
  have requested : w.change.requested = none := by rw [← hw]; exact hq
  have hold : w.change.hold = .minute n := by rw [← hw]; exact hh
  have fare : w.cat.pendingFare = some r := by rw [← hw]; exact pending
  have minute : w.clock.minute = s.clock.minute + 1 := by rw [← hw]; rfl
  rw [State.changeoverClock, state, requested, fare]
  dsimp only
  rw [hold, minute]

/-- What the hub keeps of `s` while the hold waits. -/
structure HoldWaits (s u : State) : Prop where
  change : u.change = s.change
  pending : u.cat.pendingFare = s.cat.pendingFare
  held : u.port.flags.changeoverHeld = s.port.flags.changeoverHeld
  door : u.port.door = s.port.door
  settings : u.settings = s.settings
  drops : ∀ d, (u.drop d).bare = (s.drop d).bare

theorem HoldWaits.refl (s : State) : HoldWaits s s := ⟨rfl, rfl, rfl, rfl, rfl, fun _ => rfl⟩

theorem HoldWaits.next {s u : State} {n e : Nat} (h : HoldWaits s u) (hs : s.change.state = .due) (hq : s.change.requested = none)
    (hh : s.change.hold = .minute n) (hp : s.cat.p? = some e) (short : u.clock.minute + 1 < n) :
    HoldWaits s u.nextMinute.conclude := by
  have p : u.cat.p? = some e := by rw [Catalogue.p?, h.pending]; exact hp
  have same := minuteChange_due (by rw [h.change]; exact hs) (by rw [h.change]; exact hq) (by rw [h.change]; exact hh) p
  rw [if_neg (by omega)] at same
  obtain ⟨change, -, pending, held⟩ := nextMinute_change u
  rw [same] at change pending held
  obtain ⟨changed, -⟩ := nextMinute_spec u
  have door := congrArg Port.door changed.port
  exact ⟨change.trans h.change, pending.trans h.pending, held.trans h.held, door.trans h.door, changed.settings.trans h.settings,
    fun d => (changed.drops d).trans (h.drops d)⟩

/-- The bus made ready by the passing of the hold: by arming, or else with CHANGEOVER_HELD (R148, R149). -/
structure HoldOver (s : State) (e stamp : Nat) (t : State) : Prop where
  hold : t.change.hold = .absent
  forced : t.change.forced = !s.allArmed e
  doors : if s.port.door = .closed ∨ s.settings.doorLimit = 0 then
      t.change.state = .due ∧ t.change.requested = some e ∧ t.change.door = none ∧ t.cat.hold = t.cat.pendingFare.map Fare.ref
    else t.change.state = .doorWait ∧ t.change.requested = none ∧ t.change.door.isSome = true
  armed : s.allArmed e = true → t.port.flags.changeoverHeld = s.port.flags.changeoverHeld
  unarmed : s.allArmed e = false → s.port.flags.changeoverHeld = none →
    t.port.flags.changeoverHeld = some { edition := e, code := none, drop := none, minute := stamp }

/-- The hold passes in a hub `w` that stands to `s` as one in which the hold waits, and what follows leaves the changeover. -/
theorem holdOver_of {s w t : State} {e : Nat} (waits : HoldWaits s w) (hs : s.change.state = .due) (hq : s.change.requested = none)
    (hp : s.cat.p? = some e) (change : t.change = (w.passHold e).change) (hold : t.cat.hold = (w.passHold e).cat.hold)
    (pending : t.cat.pendingFare = (w.passHold e).cat.pendingFare)
    (held : t.port.flags.changeoverHeld = (w.passHold e).port.flags.changeoverHeld) : HoldOver s e w.stamp t := by
  have p : w.cat.p? = some e := by rw [Catalogue.p?, waits.pending]; exact hp
  obtain ⟨gone, forced, doors, armed, unarmed⟩ :=
    passHold_all w e (by rw [waits.change]; exact hs) (by rw [waits.change]; exact hq) p
  have same : w.allArmed e = s.allArmed e := allArmed_congr waits.drops e
  have fare : t.cat.pendingFare = w.cat.pendingFare := pending.trans (moved_pending (passHold_moved w e))
  rw [← fare, ← hold, ← change, waits.door, waits.settings] at doors
  rw [← change, same] at forced
  rw [← held, same, waits.held] at armed unarmed
  exact ⟨change ▸ gone, forced, doors, armed, unarmed⟩

theorem holdDeadline_minutes {s : State} {n e : Nat} (hs : s.change.state = .due) (hq : s.change.requested = none)
    (hh : s.change.hold = .minute n) (hp : s.cat.p? = some e) (hv : s.clock.valid = true) (hn : n ≤ clockLimit) :
    exec .holdDeadlinePass s =
      if s.clock.minute < n then .next (s.minutes (n - s.clock.minute)) else .next (s.passHold e).conclude := by
  show execHoldDeadlinePass s = _
  rw [execHoldDeadlinePass, hs, hq, hh, hp]
  exact if_pos ⟨hv, hn⟩

/-- Settles O19. -/
theorem holdDeadlineMakesTheBusReady : Obligations.HoldDeadlineMakesTheBusReady := by
  intro n e s hs hq hh hp hv hn
  have runs := holdDeadline_minutes hs hq hh hp hv hn
  by_cases early : s.clock.minute < n
  · rw [if_pos early] at runs
    have along := minutes_along s (n - s.clock.minute) (HoldWaits s) hv (.refl s) fun u hu _ short =>
      hu.next hs hq hh hp (by omega)
    obtain ⟨last, prior⟩ : ∃ i, n - s.clock.minute = i + 1 := ⟨n - s.clock.minute - 1, by omega⟩
    obtain ⟨minute, -, waits⟩ := along last (by omega)
    have waits := waits (by omega)
    obtain ⟨reached, valid, -⟩ := along (n - s.clock.minute) le_rfl
    have ready : HoldOver s e (max s.clock.minute n) (s.minutes (n - s.clock.minute)) := by
      rw [prior, minutes_succ]
      generalize s.minutes last = u at minute waits
      have passes := minuteChange_due (by rw [waits.change]; exact hs) (by rw [waits.change]; exact hq)
        (by rw [waits.change]; exact hh) (show u.cat.p? = some e by rw [Catalogue.p?, waits.pending]; exact hp)
      rw [if_pos (by omega)] at passes
      obtain ⟨change, hold, pending, held⟩ := nextMinute_change u
      rw [passes] at change hold pending held
      have set : HoldWaits s ((u.passTo (u.clock.phaseStart + 60000000)).setMinute (u.clock.minute + 1)) :=
        ⟨waits.change, waits.pending, waits.held, waits.door, waits.settings, waits.drops⟩
      have stamp : State.stamp ((u.passTo (u.clock.phaseStart + 60000000)).setMinute (u.clock.minute + 1)) = max s.clock.minute n :=
        show u.clock.minute + 1 = _ by omega
      exact stamp ▸ holdOver_of set hs hq hp change hold pending held
    refine ⟨_, runs, allArmed_iff s e, ready.hold, ready.forced, ready.doors, ready.armed, ready.unarmed,
      fun _ => ⟨by omega, valid, s.minutes, rfl, rfl, fun i hi => ?_⟩, fun late => absurd early (by omega)⟩
    obtain ⟨minute, valid, waits⟩ := along i (by omega)
    refine ⟨minute, (waits hi).change, ?_⟩
    rw [minutes_succ]
    exact minuteAdvance_next _ valid (by rw [minute]; omega)
  · rw [if_neg early] at runs
    have decided := conclude_decided (s.passHold e)
    have moved := passHold_moved s e
    have ready := holdOver_of (HoldWaits.refl s) hs hq hp decided.change (decided_hold decided) (pendingFare_of_bare decided.cat)
      (Port.flags_of_bare decided.port .changeoverHeld nofun nofun)
    have stamp : s.stamp = max s.clock.minute n := (if_pos hv).trans (by omega)
    rw [stamp] at ready
    exact ⟨_, runs, allArmed_iff s e, ready.hold, ready.forced, ready.doors, ready.armed, ready.unarmed,
      fun before => absurd before early,
      fun _ => ⟨decided.clock.trans moved.clock, decided.timebase.trans moved.timebase, decided.intakes.trans moved.intakes⟩⟩

end Sys2Proof.Machine

namespace Sys2Proof.Machine

/-! #### LOAD_OPEN refused, LOAD_CLOSE, LOAD_ABORT -/

/-- The first test that fails gives its code (R19). -/
theorem judgeOpen_of_fails {s : State} {b : OpenBody} {x : Bool × Code}
    (h : (openTests s.cat b).find? (fun q => !q.1) = some x) : s.judgeOpen b = .error x.2 := by
  rw [judgeOpen_spec s.cat b s rfl, firstFail_find, h]
  rfl

/-- Settles O21. -/
theorem loadOpenRefusedByFirstFailingTest : Obligations.LoadOpenRefusedByFirstFailingTest := by
  intro m b s x room fails
  refine ⟨_, exec_loadOpen m b s, refused_answered s m _ _ room ?_⟩
  have judged : (s.acceptFrom m.src).judgeOpen b = .error x.2 := judgeOpen_of_fails fails
  simp only [judged]
  rfl

section
variable {s : State} (tag : Tag) {kind : Byte} {e : Nat} (take : Kind → Load → State)

theorem namedLoad_of_unnamed (h : ∀ k l, kindOf kind = some k → s.intake k = some l → l.edition ≠ e) :
    s.namedLoad tag kind e take = s.loadResult tag .notOpen kind e 0 0 := by
  unfold State.namedLoad
  cases hk : kindOf kind with
  | none => rfl
  | some k =>
    cases hi : s.intake k with
    | none => simp only [hi]
    | some l =>
      simp only [hi]
      exact if_neg (h k l hk hi)

theorem namedLoad_of_named {k : Kind} {l : Load} (hk : kindOf kind = some k) (hi : s.intake k = some l) (he : l.edition = e) :
    s.namedLoad tag kind e take = take k l := by
  simp only [State.namedLoad, hk, hi]
  exact if_pos he

end

theorem exec_loadClose (m : Head) (kind : Byte) (edition : BitVec 16) (s : State) :
    exec (.loadClose m kind edition) s = execLoadClose m kind edition s := rfl

theorem exec_loadAbort (m : Head) (kind : Byte) (edition : BitVec 16) (s : State) :
    exec (.loadAbort m kind edition) s = execLoadAbort m kind edition s := rfl

theorem missing_eq_zero_iff (l : Load) : l.missing = 0 ↔ none ∉ l.segments := by
  rw [missing_eq_countP, List.countP_eq_zero]
  refine ⟨fun h mem => absurd rfl (h none mem), fun h x mem => ?_⟩
  cases x with
  | none => exact absurd mem h
  | some p => nofun

/-- A LOAD_CLOSE whose outcome is one RESULT and nothing else. -/
theorem loadClose_result {m : Head} {kind : Byte} {edition : BitVec 16} {s : State} (room : s.answerRoom = true) {a : Answer}
    (h : (s.acceptFrom m.src).namedLoad m.tag kind edition.toNat
      (fun k l => (s.acceptFrom m.src).takeClose m.tag kind k l) = (s.acceptFrom m.src).answer a) :
    ∃ t, exec (.loadClose m kind edition) s = .next t ∧ t = s.setPort t.port ∧ Answered m.src [a] s t :=
  ⟨_, exec_loadClose m kind edition s, refused_answered s m _ a room h⟩

section
variable {s : State} (tag : Tag) (kind : Byte) (k : Kind) {l : Load}

theorem takeClose_receiving (hs : l.stage = .receiving) :
    s.takeClose tag kind k l =
      if l.missing = 0 then s.setIntake k (some { l with stage := .checking .notBegun, deadline := none, close := some tag })
      else s.loadResult tag .incomplete kind l.edition l.missing (firstMissing l.segments) := by
  simp only [State.takeClose, hs]

theorem takeClose_busy (hs : l.stage ≠ .receiving) :
    s.takeClose tag kind k l = s.loadResult tag .inProgress kind l.edition 0 0 := by
  cases hg : l.stage with
  | receiving => exact absurd hg hs
  | checking | applying | rebuilding => simp only [State.takeClose, hg]

end

/-- Settles O24, by the state of the context that the LOAD_CLOSE names. -/
theorem loadCloseStartsTheCheck : Obligations.LoadCloseStartsTheCheck := by
  intro m kind edition s room same
  refine ⟨fun unnamed => loadClose_result room (namedLoad_of_unnamed _ _ ?_), fun k l hk hi he => ?_⟩
  · exact fun k l hk hi => unnamed k l hk ((intake_acceptFrom s m.src k).symm.trans hi)
  · have named := namedLoad_of_named m.tag (s := s.acceptFrom m.src)
      (fun k l => (s.acceptFrom m.src).takeClose m.tag kind k l) hk ((intake_acceptFrom s m.src k).trans hi) he
    refine ⟨fun hs gap => ?_, fun hs whole => ?_, fun hs => ?_⟩
    · refine loadClose_result room (named.trans ?_)
      rw [takeClose_receiving m.tag kind k hs, if_neg (fun z => (missing_eq_zero_iff l).mp z gap), missing_eq_countP,
        firstMissing_eq, he]
      rfl
    · refine ⟨_, exec_loadClose m kind edition s, takeMessage_set s m _ [] _ room (setIntake_port ..) (named.trans ?_)⟩
      rw [takeClose_receiving m.tag kind k hs, if_pos ((missing_eq_zero_iff l).mpr whole), setIntake_acceptFrom,
        List.append_nil]
      rfl
    · refine loadClose_result room (named.trans ?_)
      rw [takeClose_busy m.tag kind k hs, he]
      rfl

/-- A LOAD_ABORT whose outcome is one RESULT and nothing else. -/
theorem loadAbort_result {m : Head} {kind : Byte} {edition : BitVec 16} {s : State} (room : s.answerRoom = true) {a : Answer}
    (h : (s.acceptFrom m.src).namedLoad m.tag kind edition.toNat
      (fun k l => (s.acceptFrom m.src).takeAbort m.tag kind k l) = (s.acceptFrom m.src).answer a) :
    ∃ t, exec (.loadAbort m kind edition) s = .next t ∧ t = s.setPort t.port ∧ Answered m.src [a] s t :=
  ⟨_, exec_loadAbort m kind edition s, refused_answered s m _ a room h⟩

/-- The undo's start touches the apply's work alone (R61). -/
theorem startUndo_eq (s : State) : s.startUndo = s.setTable { s.table with state := s.startUndo.table.state } := by
  unfold State.startUndo
  split <;> rfl

theorem startUndo_set (s : State) : s.startUndo = s.setTable s.startUndo.table := by
  rw [startUndo_eq]
  rfl

theorem startUndo_table (s : State) : s.startUndo.table = { s.table with state := s.startUndo.table.state } :=
  congrArg State.table (startUndo_eq s)

theorem startUndo_port (s : State) : s.startUndo.port = s.port := by rw [startUndo_eq]; rfl

theorem startUndo_setPort (s : State) (p : Port) : (s.setPort p).startUndo = s.startUndo.setPort p := by
  cases h : s.table.state with
  | applying ed la w => cases w <;> simp only [State.startUndo, State.setPort_table, h] <;> rfl
  | empty | ready | rebuilding => simp only [State.startUndo, State.setPort_table, h]

/-- The undo that an accepted LOAD_ABORT starts answers nothing yet (R32). -/
theorem startUndo_acceptFrom (s : State) (src : MacAddr) (k : Kind) (l : Option Load) :
    ((s.acceptFrom src).setIntake k l).startUndo =
      (s.setIntake k l).startUndo.setPort { (s.acceptFrom src).port with answers := s.port.answers ++ [] } := by
  rw [setIntake_acceptFrom, startUndo_setPort, List.append_nil]
  rfl

/-- A forward apply turns to the undo from the start, an undo goes on where it is. -/
theorem startUndo_applying {s : State} {ed la : Nat} {w : ApplyWork} (h : s.table.state = .applying ed la w) :
    ∃ p, s.startUndo.table.state = .applying ed la (.undo p) ∧ (∀ q, w = .undo q → p = q) ∧ ((∀ q, w ≠ .undo q) → p = none) := by
  cases w with
  | purge a => exact ⟨none, by rw [State.startUndo, h]; rfl, nofun, fun _ => rfl⟩
  | write i => exact ⟨none, by rw [State.startUndo, h]; rfl, nofun, fun _ => rfl⟩
  | undo p => exact ⟨p, by rw [State.startUndo, h]; exact h, fun q e => ApplyWork.undo.inj e, fun not => absurd rfl (not p)⟩

section
variable {s : State} (src : MacAddr) (tag : Tag) (kind : Byte) (k : Kind) {l : Load}

theorem takeAbort_receiving (hs : l.stage = .receiving) :
    s.takeAbort tag kind k l = (s.setIntake k none).loadResult tag .aborted kind l.edition 0 0 := by
  simp only [State.takeAbort, hs]

theorem takeAbort_checking {third : Stage3} (hs : l.stage = .checking third) :
    s.takeAbort tag kind k l =
      (((s.setIntake k none).answerClose k l .aborted 0).loadResult tag .aborted kind l.edition 0 0).raiseLoad .loadRefused
        l.edition .aborted := by
  simp only [State.takeAbort, hs]

theorem takeAbort_applying (hs : l.stage = .applying) (ha : l.abort = none) :
    s.takeAbort tag kind k l = (s.setIntake k (some { l with abort := some tag })).startUndo := by
  simp only [State.takeAbort, hs, ha]

theorem takeAbort_pending (hs : l.stage = .applying) (ha : l.abort.isSome = true) :
    s.takeAbort tag kind k l = s.loadResult tag .inProgress kind l.edition 0 0 := by
  obtain ⟨a, ha⟩ := Option.isSome_iff_exists.mp ha
  simp only [State.takeAbort, hs, ha]

theorem takeAbort_rebuilding (hs : l.stage = .rebuilding) :
    s.takeAbort tag kind k l = s.loadResult tag .busy kind l.edition 0 0 := by
  simp only [State.takeAbort, hs]

end

/-- Settles O25, by the state of the context that the LOAD_ABORT names. -/
theorem loadAbortByState : Obligations.LoadAbortByState := by
  intro m kind edition s room own same
  refine ⟨fun unnamed => loadAbort_result room (namedLoad_of_unnamed _ _ ?_), fun k l hk hi he => ?_⟩
  · exact fun k l hk hi => unnamed k l hk ((intake_acceptFrom s m.src k).symm.trans hi)
  · have named := namedLoad_of_named m.tag (s := s.acceptFrom m.src)
      (fun k l => (s.acceptFrom m.src).takeAbort m.tag kind k l) hk ((intake_acceptFrom s m.src k).trans hi) he
    have exec_eq := exec_loadAbort m kind edition s
    refine ⟨fun hs => ?receiving, fun third hs => ?checking, fun hs ha => ?applying, fun hs ha => ?pending, fun hs => ?rebuilding⟩
    case receiving =>
      refine ⟨_, exec_eq, takeMessage_set s m _ [own .aborted] _ room (setIntake_port ..) (named.trans ?_)⟩
      rw [takeAbort_receiving m.tag kind k hs, setIntake_acceptFrom, he]
      rfl
    case checking =>
      have taken := takeMessage_some s m (fun s => s.namedLoad m.tag kind edition.toNat fun k l => s.takeAbort m.tag kind k l) room
      rw [named, takeAbort_checking m.tag kind k hs] at taken
      rw [setIntake_acceptFrom, answerClose_eq, he] at taken
      obtain ⟨only, port, -⟩ := uplink_port (((((s.setIntake k none).setPort { s.port with gateway := some m.src }).setPort
        { s.port with gateway := some m.src, answers := s.port.answers ++ closeAnswers k l .aborted 0 }).loadResult m.tag
          .aborted kind edition.toNat 0 0).raiseLoad .loadRefused edition.toNat .aborted)
      refine ⟨_, exec_eq.trans (congrArg Host.Outcome.next taken), only.trans ?_, port.trans ?_⟩
      · cases k <;> rfl
      · rw [he]
        cases k <;> rfl
    case applying =>
      have start := startUndo_set (s.setIntake k (some { l with abort := some m.tag }))
      have table : (s.setIntake k (some { l with abort := some m.tag })).table = s.table := by cases k <;> rfl
      obtain ⟨only, answered⟩ := takeMessage_set s m
        (fun s => s.namedLoad m.tag kind edition.toNat fun k l => s.takeAbort m.tag kind k l) [] _ room
        ((startUndo_port (s.setIntake k (some { l with abort := some m.tag }))).trans (setIntake_port ..))
        (named.trans ((takeAbort_applying m.tag kind k hs ha).trans (startUndo_acceptFrom ..)))
      refine ⟨_, exec_eq, ?_, answered, ?_, ?_⟩
      · exact only.trans (congrArg (State.setPort · _) (start.trans (congrArg (State.setTable _) (congrArg State.table only).symm)))
      · rw [congrArg State.table only]
        have forward := startUndo_table (s.setIntake k (some { l with abort := some m.tag }))
        rw [table] at forward
        exact forward
      · rw [congrArg State.table only]
        exact fun ed la w works => startUndo_applying ((congrArg CardTable.state table).trans works)
    case pending =>
      refine loadAbort_result room (named.trans ?_)
      rw [takeAbort_pending m.tag kind k hs ha, he]
      rfl
    case rebuilding =>
      refine loadAbort_result room (named.trans ?_)
      rw [takeAbort_rebuilding m.tag kind k hs, he]
      rfl

end Sys2Proof.Machine

namespace Sys2Proof.Machine

/-! #### The check that refuses -/

theorem stageOutcome_digest {k : Kind} {l : Load} (h : digestOf (l.segments.filterMap id).flatten ≠ l.digest) :
    l.stageOutcome k = some (.digestBad, 0) :=
  if_pos h

/-- With the digest right, the first bad slot decides (R26). -/
theorem stageOutcome_malformed {k : Kind} {l : Load} {v : Nat} (digest : digestOf (l.segments.filterMap id).flatten = l.digest)
    (first : firstMalformed k l.form l.itemCount (l.segments.filterMap id) = some v) :
    l.stageOutcome k = some (.malformed, v) := by
  unfold Load.stageOutcome Load.payloads
  rw [if_neg (not_not_intro digest), first]
  rfl

theorem finishCheck_refuses {s : State} {k : Kind} {l : Load} {third : Stage3} {code : Code} {v : Nat}
    (h : l.stageOutcome k = some (code, v)) : s.finishCheck k l third = s.refuseLoad k l code v := by
  simp only [State.finishCheck, h]

theorem finishCheck_block {s : State} {l : Load} {third : Stage3} (h : CheckPasses .block l) :
    s.finishCheck .block l third = s.finishBlock l third := by
  simp only [State.finishCheck, (stageOutcome_none l .block).mpr h]

theorem stage3_eq {s : State} {l : Load} {third : Stage3} {f : Figures}
    (h : third = .formed f ∨ (third = .begun ∧ f = s.figures l.changes)) : s.stage3 l third = some f := by
  rcases h with rfl | ⟨rfl, rfl⟩ <;> rfl

/-- The third check's figures decide between TABLE_FULL and the apply (R57, R58). -/
theorem finishBlock_delta {s : State} {l : Load} {third : Stage3} {f : Figures} (form : l.form = .delta)
    (h : third = .formed f ∨ (third = .begun ∧ f = s.figures l.changes)) :
    s.finishBlock l third = if f.refuse then s.refuseLoad .block l .tableFull 0 else s.startApply l f := by
  simp only [State.finishBlock, form, stage3_eq h]

theorem finishCheck_of_fails {s : State} {k : Kind} {l : Load} {third : Stage3} {code : Code} {v : Nat}
    (h : CheckFails s k l third code v) : s.finishCheck k l third = s.refuseLoad k l code v := by
  unfold CheckFails at h
  dsimp only at h
  split at h
  next digest =>
    obtain ⟨rfl, rfl⟩ := h
    exact finishCheck_refuses (stageOutcome_digest digest)
  next digest =>
    have digest := not_not.mp digest
    rcases h with ⟨rfl, inside, bad, first⟩ | ⟨good, rfl, form, rfl, rfl, f, third, figures⟩
    · exact finishCheck_refuses (stageOutcome_malformed digest ((firstMalformed_eq_some_iff ..).mpr ⟨inside, bad, first⟩))
    · rw [finishCheck_block ⟨digest, good⟩, finishBlock_delta form third, if_pos ((figures_refuse f).mpr figures)]

/-- Settles O26: whichever test fails, the check ends in `State.refuseLoad`. -/
theorem checkRefusesTheEdition : Obligations.CheckRefusesTheEdition := by
  intro k l third code v s hi hs fails
  refine ⟨_, checkComplete_eq k l third s hi hs, ?_⟩
  rw [finishCheck_of_fails fails, refuseLoad_eq]
  exact conclude_decided _

/-! #### The third check and the apply's start -/

theorem deltaCheckStart_eq {l : Load} {s : State} (hi : s.intakes.block = some l) (hs : l.stage = .checking .notBegun)
    (form : l.form = .delta) : exec .deltaCheckStart s = .next (s.beginStage3 l) := by
  show execDeltaCheckStart s = _
  rw [execDeltaCheckStart, hi]
  exact if_pos ⟨hs, form⟩

/-- Both editions of R68 are the serially lowest of a start and the marked ones. -/
theorem frontierHolds (s : State) : FrontierHolds s where
  none h := ⟨if_pos h, if_pos h⟩
  lowest h := by
    obtain ⟨one, -, behind⟩ := serialLowest_spec s.cat.h s.markedEditions s.cat.h
    rw [show s.lowestRead = serialLowest s.cat.h s.cat.h s.markedEditions from if_neg h]
    refine ⟨one.imp id fun mem => ?_, fun d m hm => behind _ ((mem_markedEditions s _).mpr ⟨d, m, hm, rfl⟩)⟩
    obtain ⟨d, m, hm, e⟩ := (mem_markedEditions s _).mp mem
    exact ⟨d, m, hm, e.symm⟩
  horizon h := by
    obtain ⟨one, base, behind⟩ := serialLowest_spec s.cat.h s.markedEditions s.cat.b
    rw [show s.horizon = serialLowest s.cat.h s.cat.b s.markedEditions from if_neg h]
    refine ⟨one.imp id fun mem => ?_, base, fun d m hm => behind _ ((mem_markedEditions s _).mpr ⟨d, m, hm, rfl⟩)⟩
    obtain ⟨d, m, hm, e⟩ := (mem_markedEditions s _).mp mem
    exact ⟨d, m, hm, e.symm⟩

/-- Settles O28. -/
theorem deltaCheckWaitsThenStartsTheApply : Obligations.DeltaCheckWaitsThenStartsTheApply := by
  refine ⟨fun l s hi hs form => ⟨fun idle calm passes => ?_, fun blocked => ?_⟩, frontierHolds, fun s cs => ?_,
    fun l third f s hi hs form passes figures room live => ?_⟩
  · rw [deltaCheckStart_eq hi hs form]
    have ready : s.table.sweep.isNone ∧ s.table.sweepRequest = false ∧ (l.stageOutcome .block).isNone :=
      ⟨by rw [idle]; rfl, calm, by rw [(stageOutcome_none l .block).mpr passes]; rfl⟩
    exact congrArg Host.Outcome.next (if_pos ready)
  · rw [deltaCheckStart_eq hi hs form]
    refine congrArg Host.Outcome.next (if_neg ?_)
    rintro ⟨idle, calm, passes⟩
    rcases blocked with sweeps | asked | fails
    · rw [Option.isNone_iff_eq_none.mp idle] at sweeps
      nomatch sweeps
    · rw [calm] at asked
      nomatch asked
    · exact fails ((stageOutcome_none l .block).mp (Option.isNone_iff_eq_none.mp passes))
  · simp only [State.figures, addsOf, ← List.countP_eq_length_filter]
    rfl
  · have fits : ¬f.refuse = true := fun full => by
      rcases (figures_refuse f).mp full with few | many
      · omega
      · omega
    refine ⟨_, checkComplete_eq .block l third s hi hs, ?_⟩
    rw [finishCheck_block passes, finishBlock_delta form figures, if_neg fits]
    exact conclude_decided _

/-! #### The sweep, the undo and the lag check -/

theorem sweptEntries_eq {w : Option Nat} {p : Pass} {done todo : List Entry} (visited : ∀ e ∈ done, afterPlace p.after e = false)
    (waiting : ∀ e ∈ todo, afterPlace p.after e = true)
    (order : todo.Pairwise (fun a b => a.card < b.card ∨ (a.card = b.card ∧ newer b.since a.since = true ∧
      ∀ a', sweepEntry w p.lowest p.horizon a = some a' → newer b.since a'.since = true))) :
    sweptEntries w p (done ++ todo) = done ++ todo.filterMap (sweepEntry w p.lowest p.horizon) := by
  refine visit_all _ _ _ _ _ visited waiting (by simp) (order.imp fun {a b} lies => ⟨?_, fun a' left => ?_⟩)
  · exact (afterPlace_iff ..).mpr (lies.imp id fun ⟨same, newer, _⟩ => ⟨same, newer⟩)
  · exact (afterPlace_iff ..).mpr (lies.imp id fun ⟨same, _, lifted⟩ => ⟨same, lifted a' left⟩)

theorem writing_iff (t : TableState) (ed : Nat) : t.writing = some ed ↔ ∃ la w, t = .applying ed la w := by
  cases t with
  | applying e la w => exact ⟨fun h => ⟨la, w, by rw [Option.some.inj h]⟩, fun ⟨_, _, h⟩ => by injection h with h; exact congrArg some h⟩
  | empty | ready | rebuilding => exact ⟨nofun, nofun⟩

theorem writtenBy_iff (w : Option Nat) (e : Entry) :
    w.any e.writtenBy = true ↔ ∃ ed, w = some ed ∧ (e.since = ed ∨ e.until_ = some ed) := by
  cases w with
  | none => exact ⟨nofun, nofun⟩
  | some ed => simp [Entry.writtenBy]

theorem sweepEntry_unwritten {w : Option Nat} {e : Entry} (h : ¬w.any e.writtenBy = true) (lowest horizon : Nat) :
    sweepEntry w lowest horizon e =
      match e.until_ with
      | some u => if newer u lowest then some (if newer horizon e.since then { e with since := horizon } else e) else none
      | none => some (if newer horizon e.since then { e with since := horizon } else e) :=
  if_neg h

/-- The horizon lifts a since-stamp that is older. -/
theorem lift_since (e : Entry) (horizon : Nat) :
    (if newer horizon e.since then { e with since := horizon } else e) =
      { e with since := if newer horizon e.since = true then horizon else e.since } := by
  split <;> rfl

/-- Settles O33. -/
theorem sweepPassCompletesAndMayRestart : Obligations.SweepPassCompletesAndMayRestart := by
  refine ⟨fun p s hp => ?_, frontierHolds, fun s ed => writing_iff s.table.state ed, fun w lowest horizon e => ?_,
    fun w p done todo => sweptEntries_eq⟩
  · show execSweepPassComplete s = _
    rw [execSweepPassComplete, hp]
    dsimp only
    split
    all_goals rfl
  · rw [← writtenBy_iff]
    refine ⟨fun written => if_pos written, fun fresh u closed old => ?_, fun fresh stays => ?_⟩
    · rw [sweepEntry_unwritten fresh, closed]
      exact if_neg (ne_true_of_eq_false old)
    · rw [sweepEntry_unwritten fresh]
      obtain ⟨card, reason, expiry, since, closed⟩ := e
      cases closed with
      | none => exact congrArg some (lift_since _ horizon)
      | some u => exact (if_pos (stays u rfl)).trans (congrArg some (lift_since _ horizon))

theorem undoneEntries_eq {ed : Nat} {p : Place} {done todo : List Entry} (visited : ∀ e ∈ done, afterPlace p e = false)
    (waiting : ∀ e ∈ todo, afterPlace p e = true)
    (order : todo.Pairwise (fun a b => a.card < b.card ∨ (a.card = b.card ∧ newer b.since a.since = true))) :
    undoneEntries ed p (done ++ todo) = done ++ todo.filterMap (undoEntry ed) := by
  refine visit_all _ _ _ _ _ visited waiting (by simp) (order.imp fun {a b} lies => ⟨(afterPlace_iff ..).mpr lies, fun a' left => ?_⟩)
  have same : a'.since = a.since := by
    unfold undoEntry at left
    split at left
    · nomatch left
    · rw [← Option.some.inj left]
      split <;> rfl
  rw [same]
  exact (afterPlace_iff ..).mpr lies

theorem undoEntry_filterMap (ed : Nat) (es : List Entry) :
    es.filterMap (undoEntry ed) =
      (es.filter (fun e => e.since != ed)).map (fun e => if e.until_ = some ed then { e with until_ := none } else e) := by
  induction es with
  | nil => rfl
  | cons e es ih =>
    by_cases own : e.since = ed
    · simp [undoEntry, own, ih]
    · simp [undoEntry, own, ih]

/-- The pending abort is answered, when there is one. -/
theorem answerAbort_eq (s : State) (k : Kind) (l : Load) :
    s.answerAbort k l = s.setPort { s.port with
      answers := s.port.answers ++ l.abort.toList.map (fun tag => Answer.result tag .aborted (kindCode k) l.edition 0 0) } := by
  unfold State.answerAbort
  cases l.abort with
  | none => exact congrArg (fun as => s.setPort { s.port with answers := as }) (List.append_nil _).symm
  | some t => rfl

/-- Settles O31. -/
theorem undoCompleteTakesTheDeltaBack : Obligations.UndoCompleteTakesTheDeltaBack := by
  refine ⟨fun l ed la p s hi ht => ?_, fun ed p done todo visited waiting order => ?_⟩
  · have runs : exec .undoComplete s = .next (s.finishUndo l ed p).uplink := by
      show execUndoComplete s = _
      simp only [execUndoComplete, hi, ht]
    obtain ⟨only, port, -⟩ := uplink_port (s.finishUndo l ed p)
    refine ⟨_, runs, ?_, ?_⟩
    · refine only.trans ?_
      rw [State.finishUndo, answerClose_eq, answerAbort_eq]
      rfl
    · refine port.trans ?_
      rw [State.finishUndo, answerClose_eq, answerAbort_eq]
      rfl
  · rw [undoneEntries_eq visited waiting order, undoEntry_filterMap]

theorem lags_iff {s : State} {d : DropId} {m : Mark} (h : s.mark d = some m) :
    s.lags d = true ↔ 64 < serialDist m.edition s.cat.h := by
  simp only [State.lags, h, decide_eq_true_eq]

/-- What every lag check together leaves of a mark (R67). -/
theorem lagChecks_marks (s : State) (d : DropId) :
    (allDrops.foldl State.lagCheck s).mark d = if s.lags d then none else s.mark d := by
  rw [lagChecks_mark, if_pos (mem_allDrops d), State.lags]
  cases s.mark d with
  | none => rfl
  | some m => by_cases far : 64 < serialDist m.edition s.cat.h <;> simp [far]

theorem contains_lags (s : State) : (fun e => allDrops.contains e && s.lags e) = s.lags := by
  funext e
  rw [List.contains_iff_mem.mpr (mem_allDrops e), Bool.true_and]

/-- Settles O34. -/
theorem noMarkLagsMoreThan64Editions : Obligations.NoMarkLagsMoreThan64Editions := by
  refine ⟨fun s => lagChecks_markLag allDrops (by decide) s, fun s => ?_,
    fun s d => ⟨fun m j hm far hj way => ?_, fun m hm => ?_, fun m hm near => ?_⟩⟩
  · obtain ⟨-, trunk⟩ := lagChecks_decided allDrops s
    rw [contains_lags] at trunk
    exact congrArg Trunk.ex trunk
  · have stops := lagChecks_job? allDrops s d .block
    obtain ⟨drop, kind, -⟩ := job?_drop hj
    rw [contains_lags, hj] at stops
    refine stops.trans (congrArg some (if_pos ⟨kind, ?_, way⟩))
    rw [drop]
    exact (lags_iff hm).mpr far
  · rw [lagChecks_marks] at hm
    split at hm
    · nomatch hm
    · rename_i near
      rw [lags_iff hm] at near
      omega
  · rw [lagChecks_marks, if_neg (fun far => absurd ((lags_iff hm).mp far) (by omega)), hm]

end Sys2Proof.Machine

namespace Sys2Proof.Machine

/-! #### The FARE edition that passes -/

/-- What a changeover's move leaves of the port, its one flag and the notices apart. -/
theorem bare_of_moved {s t : State} (h : Moved s t) :
    t.port.bare =
      { s.port with
        flags := { s.port.flags with changeoverHeld := t.port.flags.changeoverHeld }, notices := t.port.notices }.bare := by
  have whole : t.port = { s.port with flags := t.port.flags, notices := t.port.notices, tx := t.port.tx } :=
    congrArg (fun p : Port => { p with flags := t.port.flags, notices := t.port.notices, tx := t.port.tx }) h.port
  have flags : { t.port.flags with jobFailed := none, tapqFull := none } =
      { s.port.flags with changeoverHeld := t.port.flags.changeoverHeld, jobFailed := none, tapqFull := none } := by
    simp only [FlagSet.mk.injEq, and_true, true_and]
    exact ⟨h.flags .loadDone nofun nofun nofun, h.flags .loadRefused nofun nofun nofun, h.flags .dropJoined nofun nofun nofun,
      h.flags .dropLost nofun nofun nofun, h.flags .changeoverDone nofun nofun nofun, h.flags .changeoverForced nofun nofun nofun,
      h.flags .tableFull nofun nofun nofun⟩
  calc t.port.bare = { s.port with flags := t.port.flags, notices := t.port.notices, tx := t.port.tx }.bare :=
        congrArg Port.bare whole
    _ = _ := congrArg (fun f : FlagSet =>
        ({ s.port with
            flags := f, notices := t.port.notices.filter (fun n => n.flag != .jobFailed && n.flag != .tapqFull)
            tx := none } : Port)) flags

/-- A move of the changeover is a decision once its record, the hold and its flag are put into the hub before it. -/
theorem decided_of_moved {s t : State} (h : Moved s t) :
    Decided
      (((s.setCat { s.cat with hold := t.cat.hold }).setChange t.change).setPort
        { s.port with
          flags := { s.port.flags with changeoverHeld := t.port.flags.changeoverHeld }, notices := t.port.notices }) t where
  pending := h.pending
  timebase := h.timebase
  clock := h.clock
  settings := h.settings
  intakes := h.intakes
  change := rfl
  port := bare_of_moved h
  cat := congrArg (fun c : Catalogue => { c with hold := t.cat.hold }) h.cat
  table := h.table
  taps := h.taps
  trunk := h.trunk
  lastTap := h.lastTap
  drops := h.drops
  flying := h.flying
  sweeping := h.sweeping
  quiet := h.quiet

/-- An edition taken (R28 to R30), written out. -/
theorem loadDone_all (s : State) (k : Kind) (l : Load) :
    s.loadDone k l =
      (s.setIntake k none).setPort
        ({ s.port with answers := s.port.answers ++ closeAnswers k l .done 0 }.raise s.settings.enables .loadDone
          { edition := l.edition, code := some .done, drop := none, minute := s.stamp }) := by
  rw [State.loadDone, answerClose_eq]
  cases k <;> rfl

theorem changeoverNewP_frame (s : State) : ChangeFrame s s.changeoverNewP := by
  unfold State.changeoverNewP
  split
  · exact .refl s
  · exact change_dueTest s

theorem changeoverNewP_lists (s : State) : SameLists s s.changeoverNewP := by
  unfold State.changeoverNewP
  split
  · exact ⟨rfl, rfl⟩
  · exact dueTest_lists s

theorem finishCheck_fare {s : State} {l : Load} {third : Stage3} (h : CheckPasses .fare l) :
    s.finishCheck .fare l third = s.passFare l := by
  simp only [State.finishCheck, (stageOutcome_none l .fare).mpr h]

/-- A pair of the kind that an event plans afresh has, with an exchange in flight, the job that planning it alone leaves. -/
theorem replanned_job? {s w : State} {k : Kind} (d : DropId) (same : SamePair d k (s.dropFailed k) w) :
    (s.replanKind k).job? d k = (w.planPair d k).job? d k :=
  (replanKind_job? s k d).1.trans same.planPair.symm

theorem unfailed_eq (s : State) (k : Kind) : (s.dropFailed k).planner.jobs = unfailed k s.planner.jobs := rfl

/-- The record that a FARE load becomes (R28). -/
def Load.fareRecord (l : Load) (ref : Nat) : Fare :=
  { ref, edition := l.edition, products := l.itemCount, digest := l.digest, segments := l.payloads, minute := l.minute }

/-- The withdrawn list once the P that was has left its place (R45). -/
def State.withdrawnNow (s : State) : List Fare :=
  s.cat.withdrawn ++
    s.cat.pendingFare.toList.filter (fun q => readersOf s.planner.jobs .fare q.ref != 0 || s.cat.hold == some q.ref)

/-- The hub with a FARE load taken, before any pair is planned and the changeover meets the new P. -/
def State.fareTaken (s : State) (l : Load) : State :=
  ((s.setIntakes { s.intakes with fare := none }).setCat
    { s.cat with
      pendingFare := some (l.fareRecord s.cat.records), withdrawn := s.withdrawnNow, records := s.cat.records + 1 }).setPort
    ({ s.port with answers := s.port.answers ++ closeAnswers .fare l .done 0 }.raise s.settings.enables .loadDone
      { edition := l.edition, code := some .done, drop := none, minute := s.stamp })

theorem passFare_eq (s : State) (l : Load) : s.passFare l = ((s.fareTaken l).replanKind .fare).changeoverNewP := by
  have cat : s.cat.setPending s.planner.jobs (l.fareRecord s.cat.records) =
      { s.cat with
        pendingFare := some (l.fareRecord s.cat.records), withdrawn := s.withdrawnNow, records := s.cat.records + 1 } :=
    congrArg (fun w => { s.cat with
      pendingFare := some (l.fareRecord s.cat.records), withdrawn := w, records := s.cat.records + 1 }) (withdraw_eq ..)
  show (((s.setCat (s.cat.setPending s.planner.jobs (l.fareRecord s.cat.records))).loadDone .fare l).replanKind
    .fare).changeoverNewP = _
  rw [cat, loadDone_all]
  rfl

/-- Taking the load and planning the pairs leave the flag CHANGEOVER_HELD, the vehicle's condition and the changeover record. -/
theorem fareTaken_vehicle (s : State) (l : Load) :
    (s.fareTaken l).port.mode = s.port.mode ∧ (s.fareTaken l).port.door = s.port.door ∧
      (s.fareTaken l).port.flags.changeoverHeld = s.port.flags.changeoverHeld := by
  have core := Port.raise_core { s.port with answers := s.port.answers ++ closeAnswers .fare l .done 0 } s.settings.enables .loadDone
    { edition := l.edition, code := some .done, drop := none, minute := s.stamp }
  have mode := congrArg Port.mode core
  have door := congrArg Port.door core
  exact ⟨mode, door, Port.raise_flags _ _ _ _ .changeoverHeld nofun⟩

/-- Settles O27: the context and P move, the FARE pairs are planned, and then the changeover meets the new P. -/
theorem checkPassesTheFareEdition : Obligations.CheckPassesTheFareEdition := by
  intro l third s hi hs passes r withdrawn held
  have runs := checkComplete_eq .fare l third s hi hs
  rw [finishCheck_fare passes, passFare_eq] at runs
  have planned := served_replanKind (s.fareTaken l) .fare
  have frame := changeoverNewP_frame ((s.fareTaken l).replanKind .fare)
  have lists := changeoverNewP_lists ((s.fareTaken l).replanKind .fare)
  have meets := planned.decided.moved.trans (changeoverNewP_moved _)
  have concluded := conclude_decided ((s.fareTaken l).replanKind .fare).changeoverNewP
  obtain ⟨mode, door, same⟩ := fareTaken_vehicle s l
  have same : ((s.fareTaken l).replanKind .fare).port.flags.changeoverHeld = s.port.flags.changeoverHeld :=
    (Port.flags_of_bare planned.decided.port .changeoverHeld nofun nofun).trans same
  have hold : ((s.fareTaken l).replanKind .fare).cat.hold = s.cat.hold := by rw [planned.cat]; rfl
  have unmoved : ((s.fareTaken l).replanKind .fare).change = s.change := planned.decided.change
  refine ⟨_, runs, ?_, ?_, fun flying d => ?_, fun asked => ?_, fun free => ?_⟩
  · have D := decided_of_moved (meets.trans concluded.moved)
    exact ⟨D.pending, D.timebase, D.clock, D.settings, D.intakes, D.change, D.port, D.cat, D.table, D.taps, D.trunk, D.lastTap,
      D.drops, D.flying, D.sweeping, D.quiet⟩
  · have freed := conclude_freed ((s.fareTaken l).replanKind .fare).changeoverNewP
    rw [lists.1, lists.2, planned.cat] at freed
    exact freed
  · have fly : ((s.fareTaken l).replanKind .fare).changeoverNewP.trunk.ex.isSome = true := by
      obtain ⟨x, hx⟩ := Option.isSome_iff_exists.mp flying
      rw [meets.flying x hx]
      rfl
    have jobs (k : Kind) : ((s.fareTaken l).replanKind .fare).changeoverNewP.conclude.job? d k =
        ((s.fareTaken l).replanKind .fare).job? d k :=
      (conclude_busy_job? _ fly d k).trans (job?_of_jobs (congrArg Planner.jobs frame.planner) d k)
    exact ⟨(jobs .fare).trans (replanned_job? d ⟨⟨rfl, rfl, rfl, rfl, mode.symm, door.symm⟩, rfl, rfl, rfl⟩),
      (jobs .block).trans ((replanKind_job? _ _ d).2 .block nofun)⟩
  · have stands : ((s.fareTaken l).replanKind .fare).changeoverNewP = (s.fareTaken l).replanKind .fare :=
      if_pos (by rw [unmoved]; exact asked)
    rw [stands] at concluded ⊢
    exact ⟨concluded.change.trans unmoved, (decided_hold concluded).trans hold,
      (Port.flags_of_bare concluded.port .changeoverHeld nofun nofun).trans same⟩
  · have tests : ((s.fareTaken l).replanKind .fare).changeoverNewP = ((s.fareTaken l).replanKind .fare).dueTest :=
      if_neg (by rw [unmoved, free]; nofun)
    have due := dueTest_due ((s.fareTaken l).replanKind .fare) r (congrArg Catalogue.pendingFare planned.cat)
    rw [planned.decided.clock, same] at due
    rw [tests] at concluded ⊢
    have carried := Carried.of_decided concluded
    split
    next come => exact DueEntered.carried ((if_pos come).mp due) carried
    next early =>
      obtain ⟨change, port⟩ := (if_neg early).mp due
      exact ⟨concluded.change.trans change, carried.held.trans ((congrArg (fun p : Port => p.flags.changeoverHeld) port).trans same)⟩

end Sys2Proof.Machine

namespace Sys2Proof.Machine

/-! #### The BLOCK FULL that passes -/

theorem endPush_cat (s : State) (d : DropId) : (s.endPush d).cat = s.cat := by
  unfold State.endPush State.stopStep
  dsimp only
  repeat' split
  all_goals rfl

theorem endPushes_cat (l : List DropId) (s : State) : (l.foldl State.endPush s).cat = s.cat := by
  induction l generalizing s with
  | nil => rfl
  | cons d l ih => exact (ih _).trans (endPush_cat s d)

theorem markedDrops_nodup (s : State) : s.markedDrops.Nodup := List.Nodup.filter _ (by decide)

theorem mem_markedDrops (s : State) (d : DropId) : d ∈ s.markedDrops ↔ (s.mark d).isSome = true := by
  rw [State.markedDrops, List.mem_filter]
  exact ⟨And.right, fun h => ⟨mem_allDrops d, h⟩⟩

theorem contains_markedDrops (s : State) : (fun d => s.markedDrops.contains d) = fun d => (s.mark d).isSome := by
  funext d
  rw [Bool.eq_iff_iff, List.contains_iff_mem, mem_markedDrops]

/-- The Card Table as a rebuild begins (R63). -/
def CardTable.rebuildBegun (t : CardTable) (ed : Nat) : CardTable :=
  { t with
    state := .rebuilding ed 0, entries := [], live := 0, marks := Per8.all none, sweep := none, sweepRequest := false }

/-- The hub as a rebuild begins, before the drops that held a mark are planned. -/
def State.rebuildBegun (s : State) (l : Load) : State :=
  ((s.markedDrops.foldl State.endPush s).setIntakes
    { (s.markedDrops.foldl State.endPush s).intakes with block := some { l with stage := .rebuilding } }).setTable
    (s.table.rebuildBegun l.edition)

theorem startRebuild_eq (s : State) (l : Load) :
    s.startRebuild l = s.markedDrops.foldl (fun s d => s.planPair d .block) (s.rebuildBegun l) := by
  obtain ⟨-, table, -⟩ := fold_endPush s.markedDrops s
  show s.markedDrops.foldl _ (State.setTable _ ((s.markedDrops.foldl State.endPush s).table.rebuildBegun l.edition)) = _
  rw [table]
  rfl

theorem finishBlock_full {s : State} {l : Load} {third : Stage3} (form : l.form = .full) :
    s.finishBlock l third = s.startRebuild l := by
  simp only [State.finishBlock, form]

/-- Up to the plans, a rebuild's start is a decision on the hub with its intake and its table moved and the pushes detached. -/
theorem rebuildBegun_decided (s : State) (l : Load) :
    Decided
      (((s.setIntakes { s.intakes with block := some { l with stage := .rebuilding } }).setTable
        (s.table.rebuildBegun l.edition)).detached (fun d => (s.mark d).isSome)) (s.rebuildBegun l) := by
  obtain ⟨ended, -, -⟩ := fold_endPush s.markedDrops s
  rw [contains_markedDrops] at ended
  exact ⟨ended.pending, ended.timebase, ended.clock, ended.settings,
    congrArg (fun i : Intakes => { i with block := some { l with stage := .rebuilding } }) ended.intakes, ended.change, ended.port,
    ended.cat, rfl, ended.taps, ended.trunk, ended.lastTap, ended.drops, ended.flying, id, fun _ _ => rfl⟩

theorem rebuildBegun_job? (s : State) (l : Load) (d : DropId) (k : Kind) :
    (s.rebuildBegun l).job? d k = (s.job? d k).map (Job.stopped fun d => (s.mark d).isSome) := by
  rw [← contains_markedDrops]
  exact endPushes_job? s.markedDrops s d k

/-- Ending FULL pushes touches no FARE job, and none of a drop left out. -/
theorem map_stopped_other {s : State} {d : DropId} {k : Kind} {p : DropId → Bool} (h : k = .fare ∨ p d = false) :
    (s.job? d k).map (Job.stopped p) = s.job? d k := by
  cases hj : s.job? d k with
  | none => rfl
  | some j =>
    obtain ⟨drop, kind, -⟩ := job?_drop hj
    refine congrArg some (if_neg fun ⟨block, ended, _⟩ => ?_)
    rcases h with fare | out
    · exact absurd (kind.symm.trans block) (by rw [fare]; nofun)
    · rw [drop, out] at ended
      nomatch ended

theorem mode_of_bare {p q : Port} (h : p.bare = q.bare) : p.mode = q.mode := by
  have mode := congrArg Port.mode h
  exact mode

theorem door_of_bare {p q : Port} (h : p.bare = q.bare) : p.door = q.door := by
  have door := congrArg Port.door h
  exact door

theorem restartHeld_of_core {p q : Port} (h : p.core = q.core) : p.restartHeld = q.restartHeld := by
  have held := congrArg Port.restartHeld h
  exact held

/-- Settles O29. -/
theorem checkStartsTheRebuild : Obligations.CheckStartsTheRebuild := by
  intro l third s hi hs form passes
  have runs := checkComplete_eq .block l third s hi hs
  rw [finishCheck_block passes, finishBlock_full form, startRebuild_eq] at runs
  have planned : Decided (s.rebuildBegun l) (s.markedDrops.foldl (fun s d => s.planPair d .block) (s.rebuildBegun l)) :=
    decided_foldl _ (fun s d => planPair_decided s d .block) _ _
  have concluded := planned.trans (conclude_decided _)
  have table : (s.markedDrops.foldl (fun s d => s.planPair d .block) (s.rebuildBegun l)).conclude.table =
      s.table.rebuildBegun l.edition := concluded.quiet rfl rfl
  refine ⟨_, runs, table, ?_, fun flying d => ?_⟩
  · rw [table]
    exact (rebuildBegun_decided s l).trans concluded
  · obtain ⟨-, -, trunk⟩ := fold_endPush s.markedDrops s
    rw [contains_markedDrops] at trunk
    have fly : (s.markedDrops.foldl (fun s d => s.planPair d .block) (s.rebuildBegun l)).trunk.ex.isSome = true := by
      obtain ⟨x, hx⟩ := Option.isSome_iff_exists.mp flying
      have begun : (s.rebuildBegun l).trunk.ex = some (x.detachedFrom fun d => (s.mark d).isSome) :=
        (congrArg Trunk.ex trunk).trans (congrArg (Option.map _) hx)
      rw [planned.flying _ begun]
      rfl
    have jobs (k : Kind) := (conclude_busy_job? _ fly d k).trans
      (planPairs_job? .block s.markedDrops (markedDrops_nodup s) (s.rebuildBegun l) d k)
    refine ⟨(jobs .fare).trans ?_, (jobs .block).trans ?_⟩
    · rw [if_neg (fun h => nomatch h.2), rebuildBegun_job?, map_stopped_other (.inl rfl)]
    · simp only [mem_markedDrops, and_true]
      split
      next marked =>
        rw [table]
        refine SamePair.planPair ⟨⟨congrArg Trunk.ex trunk, endPushes_cat _ _, ?_, rfl, ?_, ?_⟩, ?_, ?_, rfl⟩
        · exact (rebuildBegun_decided s l).settings
        · exact mode_of_bare (rebuildBegun_decided s l).port
        · exact door_of_bare (rebuildBegun_decided s l).port
        · exact (rebuildBegun_job? s l d .block).trans (stopJobs_job? s _ d .block).symm
        · exact planning_of_bare ((rebuildBegun_decided s l).drops d)
      next unmarked =>
        rw [rebuildBegun_job?]
        exact map_stopped_other (.inr (Bool.eq_false_iff.mpr unmarked))

/-! #### The rebuild's end -/

/-- The port after an edition of a kind has been taken: the close answered DONE, LOAD_DONE raised (R28 to R30). -/
theorem applyPort_core (s : State) (l : Load) :
    (applyPort s l).core = { s.port with answers := s.port.answers ++ closeAnswers .block l .done 0 }.core :=
  Port.raise_core ..

theorem applyPort_vehicle (s : State) (l : Load) :
    (applyPort s l).mode = s.port.mode ∧ (applyPort s l).door = s.port.door ∧
      (applyPort s l).restartHeld = s.port.restartHeld := by
  have core := applyPort_core s l
  have mode := congrArg Port.mode core
  have door := congrArg Port.door core
  have held := congrArg Port.restartHeld core
  exact ⟨mode, door, held⟩

/-- The hub after a rebuild has completed, before the sweep request and the plans. -/
def State.rebuilt (s : State) (l : Load) (ed made : Nat) : State :=
  (((s.setIntakes { s.intakes with block := none }).setCat
    { s.cat with
      h := ed, b := ed, chain := []
      retired := s.cat.retired ++ s.cat.chain.filter (fun r => readersOf s.planner.jobs .block r.ref != 0) }).setTable
    { s.table with
      state := .ready, live := l.itemCount, entries := s.table.entries ++ (imageEntries ed l.changes).drop made }).setPort
    (applyPort s l)

theorem finishRebuild_eq (s : State) (l : Load) (ed made : Nat) :
    s.finishRebuild l ed made = (s.rebuilt l ed made).requestSweep.replanKind .block := by
  have cat : s.cat.rebuild s.planner.jobs ed =
      { s.cat with
        h := ed, b := ed, chain := []
        retired := s.cat.retired ++ s.cat.chain.filter (fun r => readersOf s.planner.jobs .block r.ref != 0) } :=
    congrArg (fun retired => ({ s.cat with h := ed, b := ed, chain := [], retired } : Catalogue)) (retire_eq ..)
  show ((State.loadDone (((s.setTable _).setCat (s.cat.rebuild s.planner.jobs ed))) .block l).requestSweep).replanKind .block = _
  rw [cat, loadDone_eq]
  rfl

/-- What planning a pair reads of the hub is not moved by a sweep request. -/
theorem requestSweep_hub (s : State) : SameHub s s.requestSweep := by
  rw [requestSweep_table]
  have live := congrArg CardTable.live (requestSweep_bare s)
  exact ⟨rfl, rfl, rfl, live, rfl, rfl⟩

theorem requestSweep_mark (s : State) (d : DropId) : s.requestSweep.mark d = s.mark d := by
  have marks : s.requestSweep.table.marks = s.table.marks := by
    unfold State.requestSweep
    split <;> rfl
  exact congrArg (fun m => Per8.get m d) marks

theorem rebuildComplete_eq {s : State} {l : Load} {ed made : Nat} (hi : s.intakes.block = some l)
    (ht : s.table.state = .rebuilding ed made) :
    exec .rebuildComplete s =
      if (s.finishRebuild l ed made).conclude.port.restartHeld then
        .next ((s.finishRebuild l ed made).conclude.holdRestart false).warmRestart
      else .next (s.finishRebuild l ed made).conclude := by
  show execRebuildComplete s = _
  simp only [execRebuildComplete, hi, ht]

/-- Settles O32. -/
theorem rebuildCompleteMovesTheHead : Obligations.RebuildCompleteMovesTheHead := by
  intro l ed made s hi ht retired
  have runs := rebuildComplete_eq hi ht
  rw [finishRebuild_eq] at runs
  have planned := served_replanKind (s.rebuilt l ed made).requestSweep .block
  have swept := requestSweep_open (s.rebuilt l ed made) (tableClosed_of_ready rfl)
  have concluded := conclude_decided ((s.rebuilt l ed made).requestSweep.replanKind .block)
  have decided := (swept.trans planned.decided).trans concluded
  have restart : ((s.rebuilt l ed made).requestSweep.replanKind .block).conclude.port.restartHeld = s.port.restartHeld :=
    (restartHeld_of_core (Port.core_of_bare decided.port)).trans (applyPort_vehicle s l).2.2
  rw [restart] at runs
  refine ⟨((s.rebuilt l ed made).requestSweep.replanKind .block).conclude, ⟨?_, fun flying d => ?_⟩, ?_, fun free => ?_,
    fun waits => ?_⟩
  · exact decided_sweepOf decided (tableClosed_of_ready rfl)
  · have fly : ((s.rebuilt l ed made).requestSweep.replanKind .block).trunk.ex.isSome = true := by
      obtain ⟨x, hx⟩ := Option.isSome_iff_exists.mp flying
      rw [(swept.trans planned.decided).flying x hx]
      rfl
    have jobs (k : Kind) := conclude_busy_job? _ fly d k
    have unplanned (k : Kind) : (s.rebuilt l ed made).requestSweep.job? d k = s.job? d k := by
      rw [requestSweep_table]
      rfl
    have hub := requestSweep_hub (s.rebuilt l ed made)
    have fare := (replanKind_job? (s.rebuilt l ed made).requestSweep .block d).2 .fare nofun
    refine ⟨?_, ?_⟩
    · rw [jobs, fare]
      exact unplanned .fare
    · rw [jobs]
      refine replanned_job? d ⟨⟨?_, ?_, ?_, ?_, ?_, ?_⟩, ?_, ?_, ?_⟩
      · exact hub.ex.symm
      · exact hub.cat.symm
      · exact hub.settings.symm
      · exact hub.live.symm
      · exact hub.mode.symm
      · exact hub.door.symm
      · rw [requestSweep_table]
        rfl
      · rw [requestSweep_table]
        rfl
      · have marks := requestSweep_mark (s.rebuilt l ed made) d
        change s.table.marks.get d = _
        exact marks.symm
  · exact (planned.decided.trans concluded).sweeping (requestSweep_sweep _)
  · rw [free] at runs
    have freed := conclude_freed ((s.rebuilt l ed made).requestSweep.replanKind .block)
    rw [planned.cat, (requestSweep_hub _).cat] at freed
    exact ⟨runs, freed⟩
  · rw [if_pos waits] at runs
    exact ⟨_, runs, warmRestart_spec _⟩

end Sys2Proof.Machine

namespace Sys2Proof.Machine

/-! #### The apply's end -/

/-- The chain after an apply, with its trimmed record retired while a job reads it (R38, R40, R43). -/
theorem append_eq (c : Catalogue) (jobs : List Job) (r : Delta) :
    c.append jobs r =
      { c with
        h := r.edition, records := c.records + 1
        b := if (c.chain ++ [r]).length ≤ 12 then c.b else ((c.chain ++ [r]).head?.map Delta.edition).getD c.b
        chain := if (c.chain ++ [r]).length ≤ 12 then c.chain ++ [r] else (c.chain ++ [r]).drop 1
        retired :=
          c.retired ++
            (if c.chain.length < 12 then [] else c.chain.take 1).filter (fun r => readersOf jobs .block r.ref != 0) } := by
  unfold Catalogue.append
  dsimp only
  by_cases short : (c.chain ++ [r]).length ≤ 12
  · have room : c.chain.length < 12 := by simpa using short
    simp only [if_pos short, if_pos room, List.filter_nil, List.append_nil]
  · have full : ¬c.chain.length < 12 := by simpa using short
    simp only [if_neg short, if_neg full, retire_eq]
    cases chain : c.chain with
    | nil => simp [chain] at short
    | cons x xs => rfl

/-- The hub after a forward apply has completed, before the lag checks, the sweep request and the plans. -/
def State.applied (s : State) (l : Load) (ed la : Nat) (w : ApplyWork) : State :=
  appliedState s l
    { s.cat with
      h := l.edition, records := s.cat.records + 1
      b :=
        if (s.cat.chain ++ [l.deltaRecord s.cat.records]).length ≤ 12 then s.cat.b
        else ((s.cat.chain ++ [l.deltaRecord s.cat.records]).head?.map Delta.edition).getD s.cat.b
      chain :=
        if (s.cat.chain ++ [l.deltaRecord s.cat.records]).length ≤ 12 then s.cat.chain ++ [l.deltaRecord s.cat.records]
        else (s.cat.chain ++ [l.deltaRecord s.cat.records]).drop 1
      retired :=
        s.cat.retired ++
          (if s.cat.chain.length < 12 then [] else s.cat.chain.take 1).filter
            (fun r => readersOf s.planner.jobs .block r.ref != 0) }
    { s.table with entries := s.appliedEntries ed w, state := .ready, live := la }

/-- The hub after the lag checks and the sweep request, before the plans. -/
def State.lagChecked (s : State) : State := (allDrops.foldl State.lagCheck s).requestSweep

theorem finishApply_applied (s : State) (l : Load) (ed la : Nat) (w : ApplyWork) :
    s.finishApply l ed la w = (s.applied l ed la w).lagChecked.replanKind .block := by
  rw [finishApply_eq, append_eq]
  rfl

theorem applyComplete_eq {s : State} {l : Load} {ed la : Nat} {w : ApplyWork} (hi : s.intakes.block = some l)
    (ht : s.table.state = .applying ed la w) (forward : ∀ p, w ≠ .undo p) :
    exec .applyComplete s = .next (s.finishApply l ed la w).conclude := by
  show execApplyComplete s = _
  cases w with
  | purge p => simp only [execApplyComplete, hi, ht]
  | write n => simp only [execApplyComplete, hi, ht]
  | undo p => exact absurd rfl (forward p)

theorem lagChecked_cat (s : State) : s.lagChecked.cat = s.cat := by
  rw [State.lagChecked, (requestSweep_hub _).cat, lagChecks_cat]

theorem lagChecked_mark (s : State) (d : DropId) : s.lagChecked.mark d = if s.lags d then none else s.mark d := by
  rw [State.lagChecked, requestSweep_mark, lagChecks_marks]

theorem lagChecked_jobs (s : State) (h : (s.planner.jobs.map (fun j => (j.drop, j.kind))).Nodup) :
    s.lagChecked.planner.jobs = s.planner.jobs.map (Job.stopped s.lags) := by
  have jobs := lagChecks_jobs allDrops s h
  rw [contains_lags] at jobs
  rw [State.lagChecked, requestSweep_table]
  exact jobs

theorem lagChecked_trunk (s : State) : s.lagChecked.trunk = (s.detached s.lags).trunk := by
  obtain ⟨-, trunk⟩ := lagChecks_decided allDrops s
  rw [contains_lags] at trunk
  rw [State.lagChecked, requestSweep_table]
  exact trunk

theorem lagChecked_markLag (s : State) :
    s.lagChecked.table.markLag =
      if allDrops.countP s.lags = 0 then s.table.markLag else min 65535 (s.table.markLag + allDrops.countP s.lags) := by
  have bare := congrArg CardTable.markLag (requestSweep_bare (allDrops.foldl State.lagCheck s))
  exact Eq.trans bare (lagChecks_markLag allDrops (by decide) s)

/-- Up to the plans, the lag checks are a decision on the hub with MARK_LAG moved and the lagging pushes detached. -/
theorem lagChecked_decided (s : State) (ready : s.table.state = .ready) :
    ∃ n, Decided ((s.setTable { s.table with markLag := n }).detached s.lags) s.lagChecked := by
  obtain ⟨⟨n, checked⟩, -⟩ := lagChecks_decided allDrops s
  rw [contains_lags] at checked
  have state : (allDrops.foldl State.lagCheck s).table.state = .ready := (congrArg CardTable.state checked.table).trans ready
  exact ⟨n, checked.trans (requestSweep_open _ (tableClosed_of_ready state))⟩

/-- What stands once an apply's completion, with its lag checks, its plans and the decision, has left the hub as `t`; `b` is the
hub after the apply's own changes. -/
structure AfterApply (b t : State) : Prop where
  sweeping : t.table.sweep.isSome = true
  decided : Decided ((b.setTable { b.table with markLag := t.table.markLag, sweep := t.table.sweep }).detached b.lags) t
  freed : RecordsFreed b.cat.retired b.cat.withdrawn t
  jobs : b.trunk.ex.isSome = true → ∀ d k, t.job? d k = (b.lagChecked.replanKind .block).job? d k
  near : ∀ d m, t.mark d = some m → serialDist m.edition t.cat.h ≤ 64
  markLag : t.table.markLag =
    if allDrops.countP b.lags = 0 then b.table.markLag else min 65535 (b.table.markLag + allDrops.countP b.lags)

theorem serialDist_self (e : Nat) : serialDist e e = 0 := by simp [serialDist]

/-- No mark lags once the checks have passed, whatever planning and the decision then do with the marks (R67). -/
theorem near_of_served {b c p : State} (checked : c = b.lagChecked) (planned : Served c p) {d : DropId} {m : Mark}
    (hm : p.conclude.mark d = some m) : serialDist m.edition b.cat.h ≤ 64 := by
  subst checked
  have cat := lagChecked_cat b
  have stands : m.edition = b.cat.h ∨ ∃ m', b.lagChecked.mark d = some m' ∧ m.edition = m'.edition := by
    rcases conclude_mark _ d m hm with ⟨newest, -⟩ | ⟨m', hm', same⟩
    · exact .inl (newest.trans (congrArg Catalogue.h (planned.cat.trans cat)))
    · rcases planned.marks d m' hm' with ⟨newest, -⟩ | ⟨m'', hm'', same'⟩
      · exact .inl ((same.trans newest).trans (congrArg Catalogue.h cat))
      · exact .inr ⟨m'', hm'', same.trans same'⟩
  rcases stands with newest | ⟨m', hm', same⟩
  · rw [newest, serialDist_self]
    omega
  · rw [lagChecked_mark] at hm'
    split at hm'
    · nomatch hm'
    · rename_i near
      rw [lags_iff hm'] at near
      rw [same]
      omega

theorem afterApply (b : State) (ready : b.table.state = .ready) : AfterApply b (b.lagChecked.replanKind .block).conclude := by
  have whole := afterApply_decided b ready
  dsimp only at whole
  rw [← State.lagChecked] at whole
  obtain ⟨sweeping, decided⟩ := whole
  have planned := served_replanKind b.lagChecked .block
  have concluded := conclude_decided (b.lagChecked.replanKind .block)
  have freed := conclude_freed (b.lagChecked.replanKind .block)
  have flies (flying : b.trunk.ex.isSome = true) : (b.lagChecked.replanKind .block).trunk.ex.isSome = true := by
    obtain ⟨x, hx⟩ := Option.isSome_iff_exists.mp flying
    have checked : b.lagChecked.trunk.ex = some (x.detachedFrom b.lags) :=
      (congrArg Trunk.ex (lagChecked_trunk b)).trans (congrArg (Option.map _) hx)
    rw [planned.decided.flying _ checked]
    rfl
  have jobs := conclude_busy_job? (b.lagChecked.replanKind .block)
  have near (d : DropId) (m : Mark) := near_of_served (d := d) (m := m) rfl planned
  have head : (b.lagChecked.replanKind .block).conclude.cat.h = b.cat.h :=
    (moved_h (planned.decided.trans concluded).moved).trans (congrArg Catalogue.h (lagChecked_cat b))
  have markLag := (decided_markLag_eq (planned.decided.trans concluded)).trans (lagChecked_markLag b)
  rw [planned.cat, lagChecked_cat] at freed
  generalize (b.lagChecked.replanKind .block).conclude = t at *
  exact ⟨sweeping, decided, freed, fun flying d k => jobs (flies flying) d k, fun d m hm => head ▸ near d m hm, markLag⟩

/-- What planning a BLOCK pair reads after the lag checks: the marks that lag are gone, their steps ended, their exchange detached. -/
theorem lagChecked_pair {b w : State} (ready : b.table.state = .ready) (once : (b.planner.jobs.map (fun j => (j.drop, j.kind))).Nodup)
    (d : DropId) (ex : w.trunk.ex = b.trunk.ex.map (Exchange.detachedFrom b.lags)) (cat : w.cat = b.cat)
    (settings : w.settings = b.settings) (live : w.table.live = b.table.live) (mode : w.port.mode = b.port.mode)
    (door : w.port.door = b.port.door) (jobs : w.planner.jobs = unfailed .block (b.planner.jobs.map (Job.stopped b.lags)))
    (drops : (w.drop d).planning = (b.drop d).planning) (mark : w.mark d = if b.lags d then none else b.mark d) :
    SamePair d .block (b.lagChecked.dropFailed .block) w := by
  obtain ⟨n, checked⟩ := lagChecked_decided b ready
  refine ⟨⟨?_, ?_, ?_, ?_, ?_, ?_⟩, ?_, ?_, ?_⟩
  · exact ex.trans (congrArg Trunk.ex (lagChecked_trunk b)).symm
  · exact cat.trans (lagChecked_cat b).symm
  · exact settings.trans checked.settings.symm
  · have same := congrArg CardTable.live checked.table
    exact live.trans (Eq.symm same)
  · exact mode.trans (mode_of_bare checked.port).symm
  · exact door.trans (door_of_bare checked.port).symm
  · have queue : (b.lagChecked.dropFailed .block).planner.jobs = unfailed .block (b.planner.jobs.map (Job.stopped b.lags)) :=
      (unfailed_eq b.lagChecked .block).trans (congrArg (unfailed .block) (lagChecked_jobs b once))
    exact job?_of_jobs (jobs.trans queue.symm) d .block
  · exact drops.trans (planning_of_bare (checked.drops d)).symm
  · exact mark.trans (lagChecked_mark b d).symm

theorem lagChecked_job? (s : State) (d : DropId) (k : Kind) :
    s.lagChecked.job? d k = (s.job? d k).map (Job.stopped s.lags) := by
  have jobs := lagChecks_job? allDrops s d k
  rw [contains_lags] at jobs
  rw [State.lagChecked, requestSweep_table]
  exact jobs

theorem blockChanges_eq {s : State} {l : Load} (hi : s.intakes.block = some l) : s.blockChanges = l.changes := by
  rw [State.blockChanges, hi]

/-- A purge leaves the entries whose until-stamp is newer than the lowest read edition, and those that have none (R57). -/
theorem unpurgeable_filter (lowest : Nat) (es : List Entry) :
    es.filter (fun e => match e.until_ with | some u => newer u lowest | none => true) =
      es.filter (fun e => !purgeable lowest e) := by
  refine List.filter_congr fun e _ => ?_
  unfold purgeable
  cases e.until_ with
  | none => rfl
  | some u => exact (Bool.not_not _).symm

theorem closeCard_below {h ed n : Nat} {es : List Entry} (below : ∀ e ∈ es, e.card ≤ n) : ∀ e ∈ closeCard h ed n es, e.card ≤ n := by
  intro e mem
  obtain ⟨x, hx, rfl⟩ := List.mem_map.mp mem
  split
  · exact below x hx
  · exact below x hx

theorem closeCard_above {h ed n : Nat} {es : List Entry} (above : ∀ e ∈ es, n < e.card) : closeCard h ed n es = es := by
  refine (List.map_congr_left fun e mem => if_neg fun ⟨same, _⟩ => ?_).trans (List.map_id _)
  exact absurd same (above e mem).ne'

/-- The hub with the lagging marks gone, their pushes ended and the FAILED BLOCK jobs gone, as the BLOCK pairs are planned in it. -/
def State.unlagged (v : State) (jobs : List Job) : State :=
  ((allDrops.filter v.lags).foldl (fun v d => v.setMark d none) (v.detached v.lags)).setJobs
    (unfailed .block (jobs.map (Job.stopped v.lags)))

theorem mem_lagging (v : State) (d : DropId) : d ∈ allDrops.filter v.lags ↔ v.lags d = true := by
  rw [List.mem_filter]
  exact ⟨And.right, fun h => ⟨mem_allDrops d, h⟩⟩

/-- A BLOCK pair planned after the lag checks is planned as in the hub without the lagging marks. -/
theorem unlagged_planned {b v : State} (ready : b.table.state = .ready)
    (once : (b.planner.jobs.map (fun j => (j.drop, j.kind))).Nodup) (d : DropId) (lags : v.lags = b.lags)
    (trunk : v.trunk = b.trunk) (cat : v.cat = b.cat) (settings : v.settings = b.settings) (live : v.table.live = b.table.live)
    (port : v.port = b.port) (drop : v.drop d = b.drop d) (mark : v.mark d = b.mark d) :
    (b.lagChecked.replanKind .block).job? d .block = ((v.unlagged b.planner.jobs).planPair d .block).job? d .block := by
  obtain ⟨only, kept⟩ := unmark_table (allDrops.filter v.lags) (v.detached v.lags)
  refine replanned_job? d (lagChecked_pair ready once d ?_ ?_ ?_ ?_ ?_ ?_ ?_ ?_ ?_)
  · rw [State.unlagged, only, lags, State.detached, trunk]
    rfl
  · rw [State.unlagged, only]
    exact cat
  · rw [State.unlagged, only]
    exact settings
  · exact kept.trans live
  · rw [State.unlagged, only]
    exact congrArg Port.mode port
  · rw [State.unlagged, only]
    exact congrArg Port.door port
  · rw [← lags]
    rfl
  · rw [State.unlagged, only]
    exact congrArg Drop.planning drop
  · have marks := unmark_mark (allDrops.filter v.lags) (v.detached v.lags) d
    simp only [mem_lagging] at marks
    rw [← lags, ← mark]
    exact marks

/-- Settles O30. -/
theorem applyCompleteAdvancesTheHead : Obligations.ApplyCompleteAdvancesTheHead := by
  refine ⟨fun l ed la w s hi ht forward => ?_, fun h ed c low high => ⟨fun removes es => ?_, fun adds below above => ?_⟩⟩
  · have runs := applyComplete_eq hi ht forward
    rw [finishApply_applied] at runs
    have after := afterApply (s.applied l ed la w) rfl
    generalize ((s.applied l ed la w).lagChecked.replanKind .block).conclude = t at runs after
    obtain ⟨mode, door, -⟩ := applyPort_vehicle s l
    have table := after.decided.table
    have entries : t.table.entries = s.appliedEntries ed w := congrArg CardTable.entries table
    have changes := blockChanges_eq hi
    refine ⟨t, runs, ⟨after.decided, after.freed, fun flying once d => ⟨?_, ?_⟩⟩, after.sweeping, ⟨after.markLag, after.near⟩,
      fun n writes => ?_, fun p purges => ?_⟩
    · have planned := (replanKind_job? (s.applied l ed la w).lagChecked .block d).2 .fare nofun
      rw [after.jobs flying, planned, lagChecked_job?]
      exact map_stopped_other (.inl rfl)
    · rw [after.jobs flying]
      refine unlagged_planned ?_ ?_ d ?_ ?_ ?_ ?_ ?_ ?_ ?_ ?_
      · rfl
      · exact once
      · rfl
      · rfl
      · rfl
      · rfl
      · rfl
      · rfl
      · rfl
      · rfl
    · rw [entries, writes, State.appliedEntries, changes]
    · obtain ⟨sub, keeps⟩ := purgeSome_kept s.lowestRead p
        (purgeNeed (addsOf s.blockChanges) s.table.entries.length) s.table.entries.length s.table.entries
      rw [← unpurgeable_filter] at keeps
      refine ⟨_, sub, keeps, ?_⟩
      rw [entries, purges, State.appliedEntries, changes]
  · exact if_pos removes
  · have split : closeCard h ed c.card (low ++ high) = closeCard h ed c.card low ++ high :=
      (List.map_append ..).trans (congrArg (_ ++ ·) (closeCard_above above))
    rw [writeChange, if_neg (by rw [adds]; nofun), split]
    exact insertEntry_place _ _ _ (closeCard_below below) above

end Sys2Proof.Machine

namespace Sys2Proof.Machine

/-! #### The choice (R109) -/

theorem turnsAfter_lt (last : Option DropId) (d : DropId) : turnsAfter last d < 8 := by
  cases last with
  | none => exact d.isLt
  | some l => exact Nat.mod_lt _ (by omega)

theorem mem_rankInsert (last : Option DropId) (j x : Job) (l : List Job) : x ∈ rankInsert last j l ↔ x = j ∨ x ∈ l := by
  induction l with
  | nil => simp [rankInsert]
  | cons y ys ih =>
    rw [rankInsert]
    split
    · simp
    · rw [List.mem_cons, ih, List.mem_cons]
      tauto

/-- Jobs in the order of their ranks. -/
def Ranked (last : Option DropId) (l : List Job) : Prop := l.Pairwise (fun a b => a.rank last ≤ b.rank last)

theorem rankInsert_ranked {last : Option DropId} {l : List Job} (h : Ranked last l) (j : Job) : Ranked last (rankInsert last j l) := by
  induction l with
  | nil => exact List.pairwise_singleton _ _
  | cons y ys ih =>
    obtain ⟨first, rest⟩ := List.pairwise_cons.mp h
    rw [rankInsert]
    split
    next lower =>
      refine List.pairwise_cons.mpr ⟨fun x hx => ?_, h⟩
      rcases List.mem_cons.mp hx with rfl | later
      · omega
      · have := first x later
        omega
    next higher =>
      refine List.pairwise_cons.mpr ⟨fun x hx => ?_, ih rest⟩
      rcases (mem_rankInsert ..).mp hx with rfl | later
      · omega
      · exact first x later

theorem rankFold_spec (last : Option DropId) (js l : List Job) (h : Ranked last l) :
    Ranked last (js.foldl (fun l j => rankInsert last j l) l) ∧
      ∀ x, x ∈ js.foldl (fun l j => rankInsert last j l) l ↔ x ∈ js ∨ x ∈ l := by
  induction js generalizing l with
  | nil => exact ⟨h, fun x => by simp⟩
  | cons j js ih =>
    obtain ⟨ranked, members⟩ := ih _ (rankInsert_ranked h j)
    refine ⟨ranked, fun x => (members x).trans ?_⟩
    rw [mem_rankInsert, List.mem_cons]
    tauto

theorem candidates_ranked (s : State) : Ranked s.planner.lastServed s.candidates :=
  (rankFold_spec s.planner.lastServed _ [] .nil).1

theorem mem_candidates (s : State) (j : Job) : j ∈ s.candidates ↔ j ∈ s.planner.jobs ∧ s.candidate j = true := by
  refine ((rankFold_spec s.planner.lastServed (s.planner.jobs.filter s.candidate) [] .nil).2 j).trans ?_
  simp [List.mem_filter]

theorem tableClosed_iff (s : State) :
    s.tableClosed = true ↔ s.table.state = .empty ∨ ∃ e n, s.table.state = .rebuilding e n := by
  unfold State.tableClosed
  cases s.table.state <;> simp

theorem candidate_iff (s : State) (j : Job) :
    s.candidate j = true ↔
      (j.state = .ready ∨ j.state = .active ∨ j.state = .paused) ∧ (s.drop j.drop).presence = .present ∧
        (s.drop j.drop).stopping = false ∧
        ¬(j.phase = .open_ ∧ j.plan.head? = some .full ∧
          (s.table.state = .empty ∨ ∃ e n, s.table.state = .rebuilding e n)) := by
  rw [← tableClosed_iff]
  simp only [State.candidate, Job.opensFull, Job.isFull, Bool.and_eq_true, Bool.or_eq_true, beq_iff_eq, Bool.not_eq_true',
    ← Bool.not_eq_true, and_assoc, or_assoc]

/-- The weights of R109's four criteria: each outweighs all that stand below it. -/
theorem rank_compare {last : Option DropId} {i j : Job} (hi : i.level ≤ 3) (hj : j.level ≤ 3) (h : j.rank last ≤ i.rank last) :
    i.level ≤ j.level ∧
      (i.level = j.level →
        (i.state = .active → j.state = .active) ∧
        ((i.state = .active ↔ j.state = .active) →
          (i.kind = .block → j.kind = .block) ∧ (i.kind = j.kind → turnsAfter last j.drop ≤ turnsAfter last i.drop))) := by
  have ti := turnsAfter_lt last i.drop
  have tj := turnsAfter_lt last j.drop
  unfold Job.rank at h
  refine ⟨?_, fun level => ⟨fun active => ?_, fun both => ⟨fun block => ?_, fun kind => ?_⟩⟩⟩
  · split_ifs at h <;> omega
  · by_contra not
    rw [if_neg not, if_pos active] at h
    split_ifs at h <;> omega
  · by_contra not
    rw [if_neg not, if_pos block] at h
    simp only [both] at h
    omega
  · simp only [both, kind] at h
    omega

/-- Settles O47: the candidates stand in the order of their ranks. -/
theorem choiceFollowsLevelThenActiveThenKind : Obligations.ChoiceFollowsLevelThenActiveThenKind := by
  refine ⟨fun d => ⟨rfl, fun l => rfl⟩, by decide, fun s j => ⟨candidate_iff s j, mem_candidates s j⟩, fun s j rest low first => ?_⟩
  obtain ⟨queued, fits⟩ := (mem_candidates s j).mp (by rw [first]; exact List.mem_cons_self)
  refine ⟨queued, fits, fun i hi ready => rank_compare (low i hi) (low j queued) ?_⟩
  have ranked := candidates_ranked s
  have mem := (mem_candidates s i).mpr ⟨hi, ready⟩
  rw [first] at ranked mem
  rcases List.mem_cons.mp mem with rfl | later
  · exact le_rfl
  · exact (List.pairwise_cons.mp ranked).1 i later

/-! #### LATE_LISTED (R106) -/

/-- A promoted BLOCK job is urgent, at the BLOCK_URGENT level. -/
theorem promoteJob_eq (s : State) {j : Job} (block : j.kind = .block) :
    s.promoteJob j =
      s.putJob (s.judgeJob { j with promoted := true, urgent := true, level := s.settings.levelUrgent }) := by
  have level : s.markLevel (s.markUrgent { j with promoted := true }) =
      { j with promoted := true, urgent := true, level := s.settings.levelUrgent } := by
    simp only [State.markLevel, State.markUrgent, block, Bool.true_or, if_true]
  rw [State.promoteJob, level]

theorem promoteJob_job? {s : State} {d : DropId} {j : Job} (hj : s.job? d .block = some j) :
    (s.promoteJob j).job? d .block =
      some (s.judgeJob { j with promoted := true, urgent := true, level := s.settings.levelUrgent }) := by
  obtain ⟨drop, kind, -⟩ := job?_drop hj
  rw [promoteJob_eq s kind]
  obtain ⟨drop', kind'⟩ := judgeJob_drop s { j with promoted := true, urgent := true, level := s.settings.levelUrgent }
  exact job?_putJob hj (drop'.trans drop) (kind'.trans kind)

theorem planPair_unplanned {s : State} {d : DropId} (h : s.planned d = false) (k : Kind) : s.planPair d k = s :=
  if_neg (by rw [h]; nofun)

/-- Settles O50, by what stands under the drop's BLOCK pair. -/
theorem lateListedPromotesTheJob : Obligations.LateListedPromotesTheJob := by
  intro d s promoted
  refine ⟨fun j hj ok => ?_, fun j hj failed => ?_, fun hj plans => ?_, fun hj out => ?_⟩
  · have runs : s.lateListed d = s.promoteJob j := by
      simp only [State.lateListed, hj]
      exact if_neg ok
    rw [runs]
    exact promoteJob_job? hj
  · simp only [State.lateListed, hj]
    exact if_pos failed
  · simp only [State.lateListed, hj]
    cases made : (s.planPair d .block).job? d .block with
    | none => exact made
    | some j =>
      have hub := (pair_planPair s d .block).hub
      have level : (s.planPair d .block).settings = s.settings := hub.settings
      refine (promoteJob_job? made).trans (congrArg some ?_)
      rw [hub.judgeJob, level]
  · simp only [State.lateListed, hj, planPair_unplanned out]

/-! #### Editions, days, lookups -/

theorem newer_iff (a b : Nat) :
    newer a b = true ↔ a ≠ 0 ∧ (b = 0 ∨ (1 ≤ serialDist b a ∧ serialDist b a ≤ 32767)) := by
  simp only [newer, Bool.and_eq_true, bne_iff_ne, Bool.or_eq_true, beq_iff_eq, decide_eq_true_eq]

theorem newer_zero (a : Nat) : newer 0 a = false := rfl

theorem serialDist_lt (a b : Nat) : serialDist a b < 65535 := Nat.mod_lt _ (by omega)

/-- The two distances between different editions of the ring make up its length (R9). -/
theorem serialDist_add {a b : Nat} (ha : 1 ≤ a ∧ a ≤ 65535) (hb : 1 ≤ b ∧ b ≤ 65535) (apart : a ≠ b) :
    serialDist a b + serialDist b a = 65535 := by
  unfold serialDist
  omega

theorem newer_asymm {a b : Nat} (ha : 1 ≤ a ∧ a ≤ 65535) (hb : 1 ≤ b ∧ b ≤ 65535) (apart : a ≠ b) : newer a b = !newer b a := by
  have around := serialDist_add ha hb apart
  have ab := (serialDist_eq_zero ha hb).not.mpr apart
  have ba := (serialDist_eq_zero hb ha).not.mpr apart.symm
  rw [Bool.eq_iff_iff, Bool.not_eq_true', ← Bool.not_eq_true, newer_iff, newer_iff]
  omega

theorem liveAt_iff (ed : Nat) (e : Entry) :
    liveAt ed e = true ↔ ed ≠ 0 ∧ newer e.since ed = false ∧ ∀ u, e.until_ = some u → newer u ed = true := by
  unfold liveAt
  cases e.until_ <;> simp [and_assoc]

theorem lookup_unusable {s : State} (h : s.table.state = .empty ∨ ∃ e n, s.table.state = .rebuilding e n) (card m : Nat) :
    s.lookup card m = .unusable := by
  rcases h with empty | ⟨e, n, works⟩
  · rw [State.lookup, empty]
  · rw [State.lookup, works]

/-- The answer of a lookup by the entry that it finds (R56). -/
def listedAs : Option Entry → Lookup
  | some e => .listed e.since e.reason
  | none => .notListed

/-- The search of a lookup that the table's state admits (R56). -/
theorem lookup_usable {s : State} (h : s.table.state = .ready ∨ ∃ e la w, s.table.state = .applying e la w) (card m : Nat) :
    s.lookup card m =
      listedAs (s.table.entries.find? (fun e => e.card == card && liveAt s.cat.h e && s.expiryMatches e.expiry m)) := by
  unfold State.lookup
  generalize s.table.entries.find? _ = found
  rcases h with ready | ⟨e, la, w, works⟩
  · rw [ready]
    cases found with
    | none => rfl
    | some e => rfl
  · rw [works]
    cases found with
    | none => rfl
    | some e => rfl

/-- A list with nothing that a test's first part admits has nothing that the test admits. -/
theorem find?_unheld {s : State} {card : Nat} {es : List Entry} (h : ∀ x ∈ es, ¬(x.card = card ∧ liveAt s.cat.h x = true)) (m : Nat) :
    es.find? (fun e => e.card == card && liveAt s.cat.h e && s.expiryMatches e.expiry m) = none := by
  refine List.find?_eq_none.mpr fun x mem fits => h x mem ?_
  simp only [Bool.and_eq_true, beq_iff_eq] at fits
  exact fits.1

theorem expiryMatches_iff (s : State) (x m : Nat) :
    s.expiryMatches x m = true ↔
      x = 0 ∨
        (if m ≠ 0 then serviceDay s.settings.dayStart m ≤ x
        else if s.clock.valid then serviceDay s.settings.dayStart s.clock.minute ≤ x else True) := by
  unfold State.expiryMatches
  rw [Bool.or_eq_true, beq_iff_eq]
  split
  · simp
  · split <;> simp

theorem serviceDay_early {o m : Nat} (h : m < o) : serviceDay o m = 0 := if_pos h

theorem serviceDay_late {o m : Nat} (h : o ≤ m) :
    serviceDay o m * 1440 ≤ m - o ∧ m - o < (serviceDay o m + 1) * 1440 := by
  rw [serviceDay, if_neg (by omega)]
  omega

/-- Settles O51. -/
theorem editionsDaysAndLookups : Obligations.EditionsDaysAndLookups := by
  refine ⟨fun a b a1 a2 b1 b2 => ?_, fun o m => ⟨serviceDay_early, serviceDay_late⟩, fun s x m => ?_, liveAt_iff, fun s card m => ?_⟩
  · have ha := And.intro a1 a2
    have hb := And.intro b1 b2
    have same : serialDist a a = 0 := serialDist_self a
    have step : serialDist a (succEdition a) = 1 := (serialDist_succ ha ha (by omega)).trans (by omega)
    have next := succEdition_range a2
    refine ⟨(newer_iff ..).mpr ⟨by omega, .inl rfl⟩, newer_zero a, ?_, ⟨next.1, next.2, ?_, step⟩, newer_asymm ha hb, ?_,
      serialDist_lt a b, serialDist_eq_zero ha hb⟩
    · rw [← Bool.not_eq_true, newer_iff]
      omega
    · rw [newer_iff]
      omega
    · rw [newer_iff]
      omega
  · refine ⟨rfl, fun hx hm => ?_, fun hx valid => ?_, fun invalid => ?_⟩
    · rw [expiryMatches_iff, if_pos hm, or_iff_right hx]
    · rw [expiryMatches_iff, if_neg (not_not_intro rfl), if_pos valid, or_iff_right hx]
    · rw [expiryMatches_iff, if_neg (not_not_intro rfl), if_neg (by rw [invalid]; nofun)]
      exact .inr trivial
  · refine ⟨fun shut => lookup_unusable shut card m, fun usable => ⟨fun before after e split held pre post => ?_, fun none => ?_⟩⟩
    · rw [lookup_usable usable, split, List.find?_append, find?_unheld pre m, List.find?_cons]
      have admits : (e.card == card && liveAt s.cat.h e) = true := by simpa using held
      rw [admits, Bool.true_and]
      cases matched : s.expiryMatches e.expiry m with
      | true => rfl
      | false =>
        rw [find?_unheld post m]
        rfl
    · rw [lookup_usable usable, find?_unheld none m]
      rfl

end Sys2Proof.Machine

namespace Sys2Proof.Machine

/-! #### What an outcome makes of its job (R111 to R115) -/

/-- `t` is `s` with one job of the queue replaced, as far as queue, reports and counters go. -/
structure Recast (s : State) (i : Job) (t : State) : Prop where
  planner : t.planner = { s.planner with jobs := replaceJob s.planner.jobs i }
  port : t.port = s.port

theorem Recast.calm {s t : State} {i : Job} (h : Recast s i t) : NothingReported s t :=
  ⟨h.port, by rw [h.planner], by rw [h.planner], by rw [h.planner]⟩

theorem job?_of_replaced {s t : State} {i : Job} (held : ∃ j, s.job? i.drop i.kind = some j)
    (h : t.planner.jobs = replaceJob s.planner.jobs i) : t.job? i.drop i.kind = some i := by
  obtain ⟨j, hj⟩ := held
  exact (job?_of_jobs (s := s.putJob i) h i.drop i.kind).trans (job?_putJob hj rfl rfl)

theorem Recast.job? {s t : State} {i : Job} (h : Recast s i t) (held : ∃ j, s.job? i.drop i.kind = some j) :
    t.job? i.drop i.kind = some i :=
  job?_of_replaced held (by rw [h.planner])

theorem recast_putJob (s : State) (i : Job) : Recast s i (s.putJob i) := ⟨rfl, rfl⟩

theorem moveCursor_eq (s : State) (j : Job) (f : Mark → Mark) : s.moveCursor j f = s.setTable (s.moveCursor j f).table := by
  unfold State.moveCursor
  split <;> rfl

theorem recast_moveCursor (s : State) (j i : Job) (f : Mark → Mark) : Recast s i ((s.moveCursor j f).putJob i) := by
  rw [moveCursor_eq]
  exact ⟨rfl, rfl⟩

/-- The job that a miss, a WAIT limit or a REFUSED leaves: a burst resumes at its start (R114). -/
def Job.resumed (j : Job) : Job := { j with next := if j.phase = .segments then j.burstStart else j.next }

theorem resume_recast (s : State) (j : Job) : Recast s j.resumed (s.resume j) := by
  unfold State.resume Job.resumed
  split
  · exact recast_moveCursor ..
  · exact recast_putJob ..

theorem reopen_recast (s : State) (j : Job) : Recast s { j with phase := .open_ } (s.reopen j) := recast_putJob ..

theorem resend_recast (s : State) (j : Job) : Recast s { j with phase := .segments, next := 0 } (s.resend j) :=
  recast_moveCursor ..

theorem stepBack_recast (s : State) (j : Job) (n : Nat) :
    Recast s { j with next := if j.isFull then 0 else n } (s.stepBack j n) := by
  unfold State.stepBack
  split
  · exact recast_moveCursor ..
  · exact recast_putJob ..

/-- A job with one retry more and its cause (R114). -/
def Job.counted (j : Job) (c : Cause) : Job := { j with retry := min 255 (j.retry + 1), lastCause := some c }

/-- The hub with one retry more counted. -/
def State.retried (s : State) : State := s.setPlanner { s.planner with retries := bump s.planner.retries 1 }

theorem countRetry_eq (s : State) (j : Job) (c : Cause) (move : State → Job → State) :
    s.countRetry j c move =
      if s.settings.retryLimit ≤ (j.counted c).retry then s.retried.failJob (j.counted c) c else move s.retried (j.counted c) :=
  rfl

/-- A failure shown (R115, R116): the flag, the error log when it is empty, JOB_FAIL. -/
def FailureShown (s : State) (d : DropId) (k : Kind) (edition : Nat) (form : LogForm) (index : Nat) (reason : Cause) (t : State) :
    Prop :=
  t.port = s.port.raise s.settings.enables .jobFailed { edition := 0, code := none, drop := some d, minute := s.stamp } ∧
    t.planner.log = some (s.planner.log.getD { drop := d, kind := k, edition, form, index, reason, minute := s.stamp }) ∧
    t.planner.jobFail = min 65535 (s.planner.jobFail + 1)

/-- Port, error log and JOB_FAIL as before. -/
def Quiet (s t : State) : Prop :=
  t.port = s.port ∧ t.planner.log = s.planner.log ∧ t.planner.jobFail = s.planner.jobFail

/-- One retry of a job (R114): below the limit the job is `moved` and `rest` holds, at the limit it fails where it stands. -/
structure Retried (s : State) (j : Job) (c : Cause) (moved : Job → Job) (rest : Prop) (t : State) : Prop where
  below : (j.counted c).retry < s.settings.retryLimit → t.job? j.drop j.kind = some (moved (j.counted c)) ∧ rest
  limit : s.settings.retryLimit ≤ (j.counted c).retry →
    t.job? j.drop j.kind = some { j.counted c with state := .failed, underWay := false } ∧
      FailureShown s j.drop j.kind (s.stepEdition j) j.logForm j.next c t
  retries : t.planner.retries = min 65535 (s.planner.retries + 1)

theorem failJob_job? {s : State} {j i : Job} (hj : s.job? j.drop j.kind = some i) (c : Cause) :
    (s.failJob j c).job? j.drop j.kind = some { j with state := .failed, underWay := false } :=
  job?_of_replaced (i := { j with state := .failed, underWay := false }) ⟨i, hj⟩ (failJob_jobs s j c)

/-- A retry whose move below the limit is known. -/
theorem countRetry_retried {s : State} {j : Job} {c : Cause} {move : State → Job → State} {moved : Job → Job} {rest : Prop}
    (hj : s.job? j.drop j.kind = some j)
    (job : (move s.retried (j.counted c)).job? j.drop j.kind = some (moved (j.counted c)))
    (retries : (move s.retried (j.counted c)).planner.retries = s.retried.planner.retries)
    (also : s.countRetry j c move = move s.retried (j.counted c) → rest) :
    Retried s j c moved rest (s.countRetry j c move) := by
  have runs := countRetry_eq s j c move
  have failed := failJob_reported s.retried (j.counted c) c
  refine ⟨fun below => ?_, fun limit => ?_, ?_⟩
  · rw [if_neg (by omega)] at runs
    exact ⟨runs ▸ job, also runs⟩
  · rw [runs, if_pos limit]
    exact ⟨failJob_job? (s := s.retried) (j := j.counted c) hj c, failed.port, failed.log, failed.jobFail⟩
  · rw [runs]
    split
    · exact failed.retries
    · exact retries

/-- A retry whose move recasts the job and does nothing else to queue and reports. -/
theorem countRetry_recast {s : State} {j : Job} {c : Cause} {move : State → Job → State} {moved : Job → Job}
    (hj : s.job? j.drop j.kind = some j) (pair : (moved (j.counted c)).drop = j.drop ∧ (moved (j.counted c)).kind = j.kind)
    (recast : Recast s.retried (moved (j.counted c)) (move s.retried (j.counted c))) :
    Retried s j c moved (Quiet s (s.countRetry j c move)) (s.countRetry j c move) := by
  obtain ⟨port, log, jobFail, retries⟩ := recast.calm
  refine countRetry_retried hj ?_ retries fun runs => ?_
  · have job := recast.job? ⟨j, by rw [pair.1, pair.2]; exact hj⟩
    rw [pair.1, pair.2] at job
    exact job
  · rw [runs]
    exact ⟨port, log, jobFail⟩

section
variable {s : State} {j : Job} (hj : s.job? j.drop j.kind = some j)
include hj

theorem resume_retried (c : Cause) :
    Retried s j c Job.resumed (Quiet s (s.countRetry j c State.resume)) (s.countRetry j c State.resume) :=
  countRetry_recast hj ⟨rfl, rfl⟩ (resume_recast ..)

theorem reopen_retried (c : Cause) :
    Retried s j c (fun i => { i with phase := .open_ }) (Quiet s (s.countRetry j c State.reopen)) (s.countRetry j c State.reopen) :=
  countRetry_recast hj ⟨rfl, rfl⟩ (reopen_recast ..)

theorem resend_retried (c : Cause) :
    Retried s j c (fun i => { i with phase := .segments, next := 0 }) (Quiet s (s.countRetry j c State.resend))
      (s.countRetry j c State.resend) :=
  countRetry_recast hj ⟨rfl, rfl⟩ (resend_recast ..)

theorem stepBack_retried (c : Cause) (n : Nat) :
    Retried s j c (fun i => { i with next := if i.isFull then 0 else n })
      (Quiet s (s.countRetry j c fun s j => s.stepBack j n)) (s.countRetry j c fun s j => s.stepBack j n) :=
  countRetry_recast hj ⟨rfl, rfl⟩ (stepBack_recast ..)

/-- The job that a NOT_STAGED to an ACTIVATE leaves, and what its fit test reports (R102, R113; log 14). -/
theorem restage_retried (c : Cause) :
    Retried s j c (fun i => s.settled (s.marked (i.takeWhole [.stage j.target, .activate j.target] i.target)))
      (if s.stageNofit j.drop [.stage j.target, .activate j.target] = true then
        FailureShown s j.drop j.kind j.target .full 0 .nofit (s.countRetry j c State.restage)
      else Quiet s (s.countRetry j c State.restage))
      (s.countRetry j c State.restage) := by
  have hub : SameHub s s.retried := ⟨rfl, rfl, rfl, rfl, rfl, rfl⟩
  have runs : s.retried.restage (j.counted c) =
      (s.retried.putJob (s.marked ((j.counted c).takeWhole [.stage j.target, .activate j.target] j.target))).settleJob
        (s.marked ((j.counted c).takeWhole [.stage j.target, .activate j.target] j.target)) := by
    show (s.retried.putJob (s.retried.markLevel (s.retried.markUrgent _))).settleJob (s.retried.markLevel (s.retried.markUrgent _)) = _
    rw [marked_eq, hub.marked]
    rfl
  generalize made : s.marked ((j.counted c).takeWhole [.stage j.target, .activate j.target] j.target) = i at runs
  have drop : i.drop = j.drop := made ▸ rfl
  have kind : i.kind = j.kind := made ▸ rfl
  have plan : i.plan = [.stage j.target, .activate j.target] := made ▸ rfl
  have next : i.next = 0 := made ▸ rfl
  have put : SameHub s (s.retried.putJob i) := ⟨rfl, rfl, rfl, rfl, rfl, rfl⟩
  have report := settleJob_reported (s.retried.putJob i) i
  rw [put.stageNofit, drop, plan, kind, next] at report
  have edition : (s.retried.putJob i).stepEdition i = j.target := by rw [State.stepEdition, plan]
  have form : i.logForm = .full := by rw [Job.logForm, plan]
  rw [edition, form] at report
  refine countRetry_retried hj ?_ ?_ fun same => ?_
  · rw [runs]
    show _ = some (s.settled (s.marked ((j.counted c).takeWhole [.stage j.target, .activate j.target] j.target)))
    rw [made]
    obtain ⟨drop', kind'⟩ := settled_pair s i
    have jobs : ((s.retried.putJob i).settleJob i).planner.jobs = replaceJob s.planner.jobs (s.settled i) := by
      rw [settleJob_jobs, put.settled, putJob_jobs]
      refine replaceJob_replace _ _ _ ?_
      rw [drop', kind']
      exact serves_own i
    have job := job?_of_replaced (s := s) ⟨j, by rw [drop', kind', drop, kind]; exact hj⟩ jobs
    rw [drop', kind', drop, kind] at job
    exact job
  · rw [runs]
    split at report
    · exact report.retries
    · exact report.retries
  · rw [same, runs]
    split
    next nofit =>
      rw [if_pos nofit] at report
      exact ⟨report.port, report.log, report.jobFail⟩
    next fits =>
      rw [if_neg fits] at report
      exact ⟨report.port, report.log, report.jobFail⟩

theorem noRoom_failed :
    (s.failJob j .noRoom).job? j.drop j.kind = some { j with state := .failed, underWay := false } ∧
      (s.failJob j .noRoom).planner.retries = s.planner.retries ∧
      FailureShown s j.drop j.kind (s.stepEdition j) j.logForm j.next .noRoom (s.failJob j .noRoom) := by
  have failed := failJob_reported s j .noRoom
  exact ⟨failJob_job? hj .noRoom, failed.retries, failed.port, failed.log, failed.jobFail⟩

/-! #### Acknowledgements (R111 to R113) -/

theorem opened_full (full : j.isFull = true) (k : Nat) :
    (s.takeOpened j k).job? j.drop j.kind = some { j with next := 0, phase := .segments } := by
  rw [State.takeOpened, if_pos full]
  exact job?_putJob hj rfl rfl

theorem opened_within (full : j.isFull = false) {k : Nat} (within : k ≤ s.stepSegments j) :
    (s.takeOpened j k).job? j.drop j.kind =
      some { j with next := k, phase := if k = s.stepSegments j then .close else .segments } := by
  rw [State.takeOpened, if_neg (by rw [full]; nofun), if_pos within]
  exact job?_putJob hj rfl rfl

theorem burst_acknowledged (n : Nat) :
    (s.takeBurst j n).job? j.drop j.kind =
      some { j with next := n, phase := if n = s.stepSegments j then .close else .segments } :=
  (recast_moveCursor s j { j with next := n, phase := if n = s.stepSegments j then .close else .segments } _).job? ⟨j, hj⟩

end

/-- The end of a step, written out (R106, R107, R113). -/
theorem endStep_eq (s : State) (j : Job) :
    s.endStep j = (s.putJob (s.marked (j.takeWhole (j.plan.drop 1) j.target))).leaveMark j.drop j.kind := by
  rw [State.endStep, marked_eq]

theorem endStep_job? {s : State} {j i : Job} (held : s.job? j.drop j.kind = some i) :
    (s.endStep j).job? j.drop j.kind = some (s.marked (j.takeWhole (j.plan.drop 1) j.target)) := by
  rw [endStep_eq]
  exact (job?_of_jobs (congrArg Planner.jobs (leaveMark_jobs ..)) _ _).trans (job?_putJob held rfl rfl)

/-- Planning a BLOCK pair gives the drop no read mark (R65). -/
theorem planPair_unmarked {s : State} {d : DropId} {k : Kind} (block : k = .block) (h : s.mark d = none) :
    (s.planPair d k).mark d = none := by
  subst block
  have kinds : (s.planKind d .block).mark d = none := by
    obtain ⟨n, -, jobs, marks, -, plans⟩ := planKind_eq s d .block
    have unmarked : n.mark d = none := (marks d).trans h
    rw [plans]
    split
    · exact leaveMark_none _ d
    · rename_i plan target _
      cases held : n.job? d .block with
      | none =>
        have runs : n.takePlan d .block plan target =
            (n.addJob (n.marked (newJob d .block plan target))).settleJob (n.marked (newJob d .block plan target)) := by
          rw [State.takePlan, held, ← marked_eq]
        rw [runs]
        exact settleJob_mark _ (n.marked (newJob d .block plan target)) unmarked rfl
      | some j =>
        cases kept : n.keptPlan j plan with
        | some p =>
          rw [takePlan_kept _ _ _ _ _ _ _ held kept]
          exact unmarked
        | none => exact (takePlan_whole _ _ _ _ _ _ held kept).2 rfl
  unfold State.planPair
  split
  · split
    · exact kinds
    · split
      · exact h
      · split
        · exact h
        · exact kinds
  · exact h

theorem endStep_unmarked {s : State} {j : Job} (block : j.kind = .block) : (s.endStep j).mark j.drop = none := by
  rw [endStep_eq, block]
  exact leaveMark_none _ _

theorem closed_unmarked {s : State} {j : Job} (block : j.kind = .block) (e : Nat) : (s.takeClosed j e).mark j.drop = none := by
  have unmarked : (s.endStep { j with retry := 0, lastCause := none }).mark j.drop = none :=
    endStep_unmarked (j := { j with retry := 0, lastCause := none }) block
  unfold State.takeClosed
  dsimp only
  split
  · exact unmarked
  · exact planPair_unmarked block unmarked

/-! #### The read mark of a FULL step (R74) -/

theorem onMark_mark (s : State) (d : DropId) (f : Mark → Mark) : (s.onMark d f).mark d = (s.mark d).map f := by
  unfold State.onMark State.setMark
  exact (Per8.get_set ..).trans (if_pos rfl)

theorem moveCursor_mark {s : State} {j : Job} (full : j.isFull = true) (f : Mark → Mark) :
    (s.moveCursor j f).mark j.drop = (s.mark j.drop).map f := by
  rw [State.moveCursor, if_pos full]
  exact onMark_mark ..

theorem resume_mark {s : State} {j : Job} (full : j.isFull = true) :
    (s.resume j).mark j.drop = if j.phase = .segments then (s.mark j.drop).map Mark.toBurst else s.mark j.drop := by
  unfold State.resume
  split
  · exact moveCursor_mark full _
  · rfl

theorem stepBack_mark {s : State} {j : Job} (full : j.isFull = true) (n : Nat) :
    (s.stepBack j n).mark j.drop = (s.mark j.drop).map Mark.restart := by
  rw [State.stepBack, if_pos full]
  exact moveCursor_mark full _

/-- The mark after a retry: where its move leaves it below the limit, released where the job fails (R66). -/
theorem countRetry_mark {s : State} {j : Job} (block : j.kind = .block) (c : Cause) (move : State → Job → State) :
    (s.countRetry j c move).mark j.drop =
      if s.settings.retryLimit ≤ min 255 (j.retry + 1) then none else (move s.retried (j.counted c)).mark j.drop := by
  rw [countRetry_eq]
  show State.mark (if s.settings.retryLimit ≤ min 255 (j.retry + 1) then _ else _) _ = _
  split
  · exact failJob_mark s.retried (j.counted c) c block
  · rfl

/-- The same retry, its job described otherwise. -/
theorem Retried.congr {s t : State} {j : Job} {c : Cause} {moved moved' : Job → Job} {rest : Prop} (h : Retried s j c moved rest t)
    (same : moved (j.counted c) = moved' (j.counted c)) : Retried s j c moved' rest t :=
  ⟨fun below => ⟨same ▸ (h.below below).1, (h.below below).2⟩, h.limit, h.retries⟩

theorem resumed_of_ne {j : Job} (h : j.phase ≠ .segments) : j.resumed = j := by rw [Job.resumed, if_neg h]

section
variable (s : State) (j : Job)

theorem takeOutcome_open (h : j.phase = .open_) (k : Nat) : s.takeOutcome j (.ack k) = s.takeOpened j k := by
  simp only [State.takeOutcome, h]

theorem takeOutcome_segments (h : j.phase = .segments) (k : Nat) : s.takeOutcome j (.ack k) = s.takeBurst j k := by
  simp only [State.takeOutcome, h]

theorem takeOutcome_close (h : j.phase = .close) (e : Nat) : s.takeOutcome j (.ack e) = s.takeClosed j e := by
  simp only [State.takeOutcome, h]

theorem takeOutcome_activate (h : j.phase = .activate) (e : Nat) : s.takeOutcome j (.ack e) = s.takeActivated j e := by
  simp only [State.takeOutcome, h]

theorem takeBadSequence_activate (h : j.phase = .activate) : s.takeBadSequence j = s.countRetry j .refused State.resume := if_pos h

theorem takeBadSequence_other (h : j.phase ≠ .activate) : s.takeBadSequence j = s.countRetry j .badSequence State.reopen := if_neg h

theorem takeDigest_close (h : j.phase = .close) : s.takeNak j .digest = s.countRetry j .digest State.resend := if_pos h

theorem takeDigest_other (h : j.phase ≠ .close) : s.takeNak j .digest = s.countRetry j .refused State.resume := if_neg h

theorem takeNotStaged_activate (h : j.phase = .activate) : s.takeNak j .notStaged = s.countRetry j .notStaged State.restage :=
  if_pos h

theorem takeNotStaged_other (h : j.phase ≠ .activate) : s.takeNak j .notStaged = s.countRetry j .refused State.resume := if_neg h

theorem takeOpened_beyond (full : j.isFull = false) {k : Nat} (beyond : s.stepSegments j < k) :
    s.takeOpened j k = s.takeBadSequence j := by
  rw [State.takeOpened, if_neg (by rw [full]; nofun), if_neg (by omega)]

/-- The step's end with the next step current (R113). -/
theorem takeClosed_next {e : Nat} (same : e = s.stepEdition j) (more : j.plan.drop 1 ≠ []) :
    s.takeClosed j e = s.endStep { j with retry := 0, lastCause := none } :=
  if_pos ⟨same, List.isEmpty_eq_false_iff.mpr more⟩

theorem takeClosed_last {e : Nat} (h : e ≠ s.stepEdition j ∨ j.plan.drop 1 = []) :
    s.takeClosed j e = (s.endStep { j with retry := 0, lastCause := none }).planPair j.drop j.kind := by
  refine if_neg fun ⟨same, more⟩ => ?_
  rcases h with other | last
  · exact other same
  · rw [last] at more
    nomatch more

end

/-- Settles O48, by outcome and phase. -/
theorem pushOutcomeMovesTheJob : Obligations.PushOutcomeMovesTheJob := by
  intro j s hj after n edition form reported calm retried again back fresh planned clean
  have editionEq : edition = s.stepEdition j := by
    show (match j.plan with | .delta e :: _ => e | .full :: _ => _ | .stage x :: _ | .activate x :: _ => x | [] => 0) = _
    unfold State.stepEdition
    rcases j.plan with _ | ⟨_ | _ | _ | _, _⟩ <;> rfl
  have formEq : form = j.logForm := by
    show (match j.plan with
      | .delta _ :: _ => LogForm.delta | .activate _ :: _ => .activate | .full :: _ | .stage _ :: _ | [] => .full) = _
    unfold Job.logForm
    rcases j.plan with _ | ⟨_ | _ | _ | _, _⟩ <;> rfl
  have shown {c : Cause} {o : PushOutcome} {moved : Job → Job} {rest : Prop} {t : State} (runs : s.takeOutcome j o = t)
      (R : Retried s j c moved rest t) : retried c o moved rest := by
    subst runs
    refine ⟨R.below, fun limit => ⟨(R.limit limit).1, ?_⟩, R.retries⟩
    rw [editionEq, formEq]
    exact (R.limit limit).2
  have quietly (c : Cause) (o : PushOutcome) (moved : Job → Job) {t : State} (runs : s.takeOutcome j o = t)
      (R : Retried s j c moved (Quiet s t) t) : again c o moved := by
    subst runs
    exact shown (rest := calm o) rfl R
  have resumes {c : Cause} {o : PushOutcome} (runs : s.takeOutcome j o = s.countRetry j c State.resume) : again c o back :=
    quietly c o back runs ((resume_retried hj c).congr rfl)
  refine ⟨?openFull, ?openOther, ?segments, ?close, ?activate, fun c => resumes rfl, resumes rfl, ?badSequence, ?badActivate,
    ?digest, fun other => resumes (takeDigest_other s j other), ?notStaged, fun other => resumes (takeNotStaged_other s j other),
    ?goBack, ?noRoom, ?marks, rfl⟩
  case openFull =>
    intro opens full k
    show (s.takeOutcome j (.ack k)).job? j.drop j.kind = _
    rw [takeOutcome_open s j opens]
    exact opened_full hj full k
  case openOther =>
    intro opens full k
    have runs := takeOutcome_open s j opens k
    refine ⟨fun within => ?_, fun last => ?_, fun beyond => ?_⟩
    · show (s.takeOutcome j (.ack k)).job? j.drop j.kind = _
      rw [runs, opened_within hj full within.le, if_neg (Nat.ne_of_lt within)]
    · show (s.takeOutcome j (.ack k)).job? j.drop j.kind = _
      rw [runs, opened_within hj full last.le, if_pos last]
    · rw [takeOpened_beyond s j full beyond, takeBadSequence_other s j (by rw [opens]; nofun)] at runs
      refine quietly .badSequence (.ack k) id runs ((reopen_retried hj .badSequence).congr ?_)
      show { j.counted .badSequence with phase := .open_ } = j.counted .badSequence
      rw [← opens]
      rfl
  case segments =>
    intro sends k
    show (s.takeOutcome j (.ack k)).job? j.drop j.kind = _
    rw [takeOutcome_segments s j sends]
    exact burst_acknowledged hj k
  case close =>
    intro closes e
    have runs := takeOutcome_close s j closes e
    refine ⟨fun same more => ?_, fun last => ?_, fun block => ?_⟩
    · show (s.takeOutcome j (.ack e)).job? j.drop j.kind = _
      rw [runs, takeClosed_next s j same more]
      exact endStep_job? (j := { j with retry := 0, lastCause := none }) hj
    · show (s.takeOutcome j (.ack e)).job? j.drop j.kind = _
      rw [runs, takeClosed_last s j last, endStep_eq]
      rfl
    · rw [runs]
      exact closed_unmarked block e
  case activate =>
    intro activates e
    show (s.takeOutcome j (.ack e)).job? j.drop j.kind = _
    rw [takeOutcome_activate s j activates, State.takeActivated]
    by_cases reached : e = j.target
    · rw [if_pos reached, endStep_eq]
      rfl
    · rw [if_neg reached, endStep_eq]
      rfl
  case badSequence =>
    exact fun other => quietly .badSequence (.nak .badSequence) _ (takeBadSequence_other s j other) (reopen_retried hj .badSequence)
  case badActivate =>
    refine fun activates => quietly .refused (.nak .badSequence) id (takeBadSequence_activate s j activates)
      ((resume_retried hj .refused).congr ?_)
    exact resumed_of_ne (by rw [show (j.counted .refused).phase = j.phase from rfl, activates]; nofun)
  case digest =>
    exact fun closes => quietly .digest (.nak .digest) _ (takeDigest_close s j closes) (resend_retried hj .digest)
  case notStaged =>
    intro activates
    have R := restage_retried hj .notStaged
    rw [← takeNotStaged_activate s j activates] at R
    exact shown (c := .notStaged) (o := .nak .notStaged)
      (moved := fun i => s.settled (fresh i [.stage j.target, .activate j.target])) rfl (R.congr rfl)
  case goBack =>
    exact fun k => quietly .goBack (.goBack k) (fun i => { i with next := if j.isFull then 0 else k }) rfl
      ((stepBack_retried hj .goBack k).congr rfl)
  case noRoom =>
    rw [editionEq, formEq]
    exact noRoom_failed hj
  case marks =>
    intro full block mark m start restarted resumed limit
    have counts (c : Cause) (o : PushOutcome) (move : State → Job → State) (runs : s.takeOutcome j o = s.countRetry j c move) :
        mark o = if limit then none else (move s.retried (j.counted c)).mark j.drop := by
      show (s.takeOutcome j o).mark j.drop = _
      rw [runs]
      exact countRetry_mark block c move
    have resumes (c : Cause) : (s.retried.resume (j.counted c)).mark j.drop = resumed := resume_mark (j := j.counted c) full
    have back (k : Nat) (c : Cause) : (s.retried.stepBack (j.counted c) k).mark j.drop = restarted :=
      stepBack_mark (j := j.counted c) full k
    refine ⟨fun opens k => ?_, fun sends k => ?_, fun below => ⟨fun c => ?_, ?_, fun other => ?_,
      fun closes => ?_, fun other => ?_, fun k => ?_⟩,
      fun reached => ⟨fun c => ?_, ?_, ?_, ?_, fun k => ?_⟩, ?_⟩
    · show (s.takeOutcome j (.ack k)).mark j.drop = m
      rw [takeOutcome_open s j opens, State.takeOpened, if_pos full]
      rfl
    · show (s.takeOutcome j (.ack k)).mark j.drop = _
      rw [takeOutcome_segments s j sends]
      exact moveCursor_mark full Mark.acknowledge
    · rw [counts c (.missed c) _ rfl, if_neg below, resumes]
    · rw [counts .refused (.nak .refused) _ rfl, if_neg below, resumes]
    · rw [counts .badSequence (.nak .badSequence) _ (takeBadSequence_other s j other), if_neg below]
      rfl
    · rw [counts .digest (.nak .digest) _ (takeDigest_close s j closes), if_neg below]
      exact moveCursor_mark (s := s.retried) (j := j.counted .digest) full Mark.restart
    · rw [counts .refused (.nak .digest) _ (takeDigest_other s j other), if_neg below, resumes]
    · rw [counts .goBack (.goBack k) (fun s j => s.stepBack j k) rfl, if_neg below, back]
    · rw [counts c (.missed c) _ rfl, if_pos reached]
    · rw [counts .refused (.nak .refused) _ rfl, if_pos reached]
    · by_cases activates : j.phase = .activate
      · rw [counts .refused (.nak .badSequence) _ (takeBadSequence_activate s j activates), if_pos reached]
      · rw [counts .badSequence (.nak .badSequence) _ (takeBadSequence_other s j activates), if_pos reached]
    · by_cases closes : j.phase = .close
      · rw [counts .digest (.nak .digest) _ (takeDigest_close s j closes), if_pos reached]
      · rw [counts .refused (.nak .digest) _ (takeDigest_other s j closes), if_pos reached]
    · rw [counts .goBack (.goBack k) (fun s j => s.stepBack j k) rfl, if_pos reached]
    · exact failJob_mark s j .noRoom block

end Sys2Proof.Machine

namespace Sys2Proof.Machine

/-! #### The computations (R98 to R101) -/

/-- FARE planning with no P (R101). -/
theorem farePlan_without {c : Catalogue} {size : Nat} (hs : size ≠ 0) (hp : c.p? = none) (hold : Holdings) :
    c.farePlan size hold =
      if c.a = 0 then .nothing
      else if newer hold.active c.a then .ahead
      else if hold.active = c.a then .nothing
      else if hold.staged = c.a then .steps [.activate c.a] c.a
      else .steps [.stage c.a, .activate c.a] c.a := by
  rw [Catalogue.farePlan, if_neg hs, hp]

/-- FARE planning with a P (R101). -/
theorem farePlan_with {c : Catalogue} {size p : Nat} (hs : size ≠ 0) (hp : c.p? = some p) (hold : Holdings) :
    c.farePlan size hold =
      if newer hold.active c.a ∧ newer hold.active p then .ahead
      else if hold.active ≠ p ∧ hold.staged = p then .nothing
      else if hold.active ≠ p then .steps [.stage p] p
      else if hold.active = c.a then .nothing
      else if hold.staged = c.a then .steps [.activate c.a] c.a
      else .steps [.stage c.a, .activate c.a] c.a := by
  rw [Catalogue.farePlan, if_neg hs, hp]

/-- The cases of FARE planning in the order of R101's table, each with whether it applies. -/
def fareCases (c : Catalogue) (size : Nat) (hold : Holdings) : List (Bool × FarePlan) :=
  [(size == 0, .nothing),
    (c.a == 0 && c.p?.isNone, .nothing),
    (newer hold.active c.a && (c.p?.isNone || newer hold.active (c.p?.getD 0)), .ahead),
    (c.p?.isSome && hold.active != c.p?.getD 0 && hold.staged == c.p?.getD 0, .nothing),
    (c.p?.isSome && hold.active != c.p?.getD 0 && hold.staged != c.p?.getD 0, .steps [.stage (c.p?.getD 0)] (c.p?.getD 0)),
    (hold.active == c.a, .nothing),
    (hold.staged == c.a, .steps [.activate c.a] c.a),
    (true, .steps [.stage c.a, .activate c.a] c.a)]

theorem find?_first {α : Type} (b : Bool) (x : α) (l : List (Bool × α)) :
    (((b, x) :: l).find? (fun x => x.1)).map Prod.snd = if b = true then some x else (l.find? (fun x => x.1)).map Prod.snd := by
  cases b <;> rfl

/-- FARE planning takes the first case that applies (R101). -/
theorem farePlan_first (c : Catalogue) (size : Nat) (hold : Holdings) :
    ((fareCases c size hold).find? (fun x => x.1)).map Prod.snd = some (c.farePlan size hold) := by
  unfold fareCases
  simp only [find?_first, beq_iff_eq]
  by_cases hs : size = 0
  · rw [if_pos hs, Catalogue.farePlan, if_pos hs]
  · rw [if_neg hs]
    cases hp : c.p? with
    | none =>
      rw [farePlan_without hs hp]
      simp [apply_ite some]
    | some p =>
      rw [farePlan_with hs hp]
      by_cases reached : hold.active = p
      · simp [reached, apply_ite some]
      · by_cases staged : hold.staged = p
        · simp [reached, staged, apply_ite some]
        · simp [reached, staged, apply_ite some]

/-- The form on which the BLOCK computation settles (R99), its stages merged. -/
theorem blockForm_eq (c : Catalogue) (cls : ClassSettings) (bias live v : Nat) :
    c.blockForm cls bias live v =
      if v = c.h then .equal
      else if v = 0 ∨ 32768 ≤ serialDist v c.h ∨ c.length < serialDist v c.h ∨ cls.delta = false ∨
          max 1 ((live + 19) / 20) + 2 + bias <
            ((editionsAfter v (serialDist v c.h)).map c.chainSegments).sum + 2 * serialDist v c.h then .full
      else .delta := by
  have cost : c.deltaCost (editionsAfter v (serialDist v c.h)) =
      ((editionsAfter v (serialDist v c.h)).map c.chainSegments).sum + 2 * serialDist v c.h := by
    rw [Catalogue.deltaCost, editionsAfter_length]
  have full : segmentsFor .block live = max 1 ((live + 19) / 20) := rfl
  rw [Catalogue.blockForm, cost, full]
  by_cases same : v = c.h
  · rw [if_pos same, if_pos same]
  · rw [if_neg same, if_neg same]
    by_cases early : v = 0
    · rw [if_pos early, if_pos (.inl early)]
    · by_cases far : 32768 ≤ serialDist v c.h
      · rw [if_neg early, if_pos far, if_pos (.inr (.inl far))]
      · by_cases beyond : c.length < serialDist v c.h
        · rw [if_neg early, if_neg far, if_pos beyond, if_pos (.inr (.inr (.inl beyond)))]
        · cases capable : cls.delta with
          | false => simp [early, far, beyond]
          | true =>
            simp only [early, far, beyond, false_or, if_false, Bool.not_true, Bool.true_eq_false, reduceCtorEq]
            split_ifs <;> first | rfl | omega

/-- The BLOCK computation (R98 to R100), by the form on which it settles. -/
theorem blockPlan_eq (s : State) (d : DropId) (v : Nat) :
    s.blockPlan d v =
      if s.cat.h = 0 ∨ (s.classOf d).blockSize = 0 ∨
          s.cat.blockForm (s.classOf d) s.settings.bias s.table.live v = .equal then .nothing
      else if s.cat.blockForm (s.classOf d) s.settings.bias s.table.live v = .delta ∧
          ∀ e ∈ editionsAfter v (serialDist v s.cat.h), s.cat.chainSegments e ≤ (s.classOf d).blockSize then
        .delta (editionsAfter v (serialDist v s.cat.h))
      else if max 1 ((s.table.live + 19) / 20) ≤ (s.classOf d).blockSize then .full
      else .nofit := by
  rw [State.blockPlan]
  by_cases off : s.cat.h = 0 ∨ (s.classOf d).blockSize = 0
  · rw [if_pos off, if_pos (off.imp id .inl)]
  · have on {f : BlockForm} (h : f ≠ .equal) : ¬(s.cat.h = 0 ∨ (s.classOf d).blockSize = 0 ∨ f = .equal) := by tauto
    have all : (editionsAfter v (serialDist v s.cat.h)).all (fun e => s.cat.chainSegments e ≤ (s.classOf d).blockSize) = true ↔
        ∀ e ∈ editionsAfter v (serialDist v s.cat.h), s.cat.chainSegments e ≤ (s.classOf d).blockSize := by simp
    rw [if_neg off]
    cases form : s.cat.blockForm (s.classOf d) s.settings.bias s.table.live v with
    | equal => exact (if_pos (.inr (.inr rfl))).symm
    | full =>
      have other : ¬(BlockForm.full = .delta ∧
          ∀ e ∈ editionsAfter v (serialDist v s.cat.h), s.cat.chainSegments e ≤ (s.classOf d).blockSize) := fun both => nomatch both.1
      rw [if_neg (on (f := .full) nofun), if_neg other]
      rfl
    | delta =>
      rw [if_neg (on (f := .delta) nofun)]
      by_cases fits : ∀ e ∈ editionsAfter v (serialDist v s.cat.h), s.cat.chainSegments e ≤ (s.classOf d).blockSize
      · rw [if_pos (And.intro rfl fits)]
        exact if_pos (all.mpr fits)
      · have other : ¬(BlockForm.delta = .delta ∧
            ∀ e ∈ editionsAfter v (serialDist v s.cat.h), s.cat.chainSegments e ≤ (s.classOf d).blockSize) := fun both => fits both.2
        rw [if_neg other]
        exact if_neg fun h => fits (all.mp h)

theorem planned_iff (s : State) (d : DropId) :
    s.planned d = true ↔
      ((s.drop d).presence = .present ∨ (s.drop d).presence = .fading) ∧ (s.drop d).stopping = false ∧ (s.drop d).known = true := by
  simp only [State.planned, Bool.and_eq_true, Bool.or_eq_true, beq_iff_eq, Bool.not_eq_true', and_assoc]

/-! #### The drop's mark of a pair (R100, R101) -/

/-- The drop's mark of a pair noted as its computation leaves it. -/
def State.noted (s : State) (d : DropId) : Kind → State
  | .fare => s.noteAhead d (s.cat.farePlan (s.classOf d).fareSize (s.drop d).holdings = .ahead)
  | .block => s.noteNofit d (s.blockPlan d (s.drop d).holdings.block = .nofit)

theorem pair_noted (s : State) (d : DropId) (k : Kind) : PairPlanned d k s (s.noted d k) := by
  cases k
  · exact pair_noteAhead _ _ _
  · exact pair_noteNofit _ _ _

theorem noted_jobs (s : State) (d : DropId) (k : Kind) : (s.noted d k).planner.jobs = s.planner.jobs := by
  cases k
  · rfl
  · exact noteNofit_jobs _ _ _

theorem noted_job? (s : State) (d : DropId) (k : Kind) : (s.noted d k).job? d k = s.job? d k :=
  job?_of_jobs (noted_jobs s d k) d k

theorem noted_mark (s : State) (d : DropId) (k : Kind) (e : DropId) : (s.noted d k).mark e = s.mark e := by
  cases k
  · rfl
  · exact noteNofit_mark _ _ _ _

theorem noted_keptPlan (s : State) (d : DropId) (k : Kind) (j : Job) (plan : List Step) :
    (s.noted d k).keptPlan j plan = s.keptPlan j plan :=
  (pair_noted s d k).hub.keptPlan j plan (noted_mark s d k j.drop)

theorem noteAhead_calm (s : State) (d : DropId) : NothingReported s (s.noted d .fare) := ⟨rfl, rfl, rfl, rfl⟩

theorem noteNofit_first (s : State) (d : DropId) (h : (s.drop d).blockNofit = false) :
    (s.noteNofit d true).port =
        s.port.raise s.settings.enables .jobFailed { edition := 0, code := none, drop := some d, minute := s.stamp } ∧
      (s.noteNofit d true).planner.log =
        some (s.planner.log.getD
          { drop := d, kind := .block, edition := s.cat.h, form := .full, index := 0, reason := .nofit, minute := s.stamp }) := by
  unfold State.noteNofit
  rw [if_pos ⟨rfl, h⟩, writeLog_eq]
  exact ⟨rfl, rfl⟩

theorem noteNofit_calm (s : State) (d : DropId) (b : Bool) (h : b = false ∨ (s.drop d).blockNofit = true) :
    NothingReported s (s.noteNofit d b) := by
  have quiet : ¬(b = true ∧ (s.drop d).blockNofit = false) := by
    rintro ⟨rfl, g⟩
    rw [g] at h
    exact h.elim nofun nofun
  unfold State.noteNofit
  rw [if_neg quiet]
  exact ⟨rfl, rfl, rfl, rfl⟩

theorem noteNofit_drop (s : State) (d : DropId) (b : Bool) : (s.noteNofit d b).drop d = { s.drop d with blockNofit := b } := by
  have own : (s.setDrop d { s.drop d with blockNofit := b }).drop d = { s.drop d with blockNofit := b } := by
    rw [State.drop_setDrop, if_pos rfl]
  unfold State.noteNofit
  split
  · rw [writeLog_eq]
    exact own
  · exact own

/-! #### Planning a pair (R103) -/

/-- The pair's job goes, or takes the plan computed (R103). -/
def State.acted (s : State) (d : DropId) (k : Kind) : Option (List Step × Nat) → State
  | none => s.removeJob d k
  | some (plan, target) => s.takePlan d k plan target

theorem planKind_acted (s : State) (d : DropId) (k : Kind) : s.planKind d k = (s.noted d k).acted d k (s.pairPlan d k) := by
  cases k
  · show s.planFare d = _
    unfold State.planFare State.pairPlan
    dsimp only
    split <;> rename_i h <;> simp only [State.noted, h] <;> rfl
  · show s.planBlock d = _
    unfold State.planBlock State.pairPlan
    dsimp only
    split <;> rename_i h <;> simp only [State.noted, h] <;> rfl

theorem acted_roster (s : State) (d : DropId) (k : Kind) (p : Option (List Step × Nat)) : (s.acted d k p).roster = s.roster := by
  rcases p with _ | ⟨plan, target⟩
  · exact removeJob_roster _ _ _
  · exact takePlan_roster _ _ _ _ _

/-- The plan of a BLOCK pair has no STAGE, so its window test cannot fail it. -/
theorem blockPlan_noStage {s : State} {d : DropId} {plan : List Step} {target : Nat}
    (h : s.pairPlan d .block = some (plan, target)) (t : State) : ¬t.stageNofit d plan = true := by
  rw [stageNofit_iff]
  rintro ⟨x, q, r, rfl, -⟩
  unfold State.pairPlan at h
  dsimp only at h
  split at h
  · cases h
  · cases h
  · cases h
  next es _ =>
    cases es with
    | nil => cases h
    | cons e es => cases h

/-- The current DELTA step of a job is one that planning keeps (R105). -/
def State.KeepsDelta (s : State) (j : Job) : Prop :=
  ∃ e q r, j.plan = .delta e :: q ∧ s.cat.deltaOf j e = some r ∧ (s.classOf j.drop).delta = true ∧
    (s.classOf j.drop).blockBase = j.base ∧ r.segments.length ≤ (s.classOf j.drop).blockSize ∧
    s.blockPlan j.drop e ≠ .full ∧ s.blockPlan j.drop e ≠ .nofit

/-- The current FULL step of a job is one that planning keeps (R105). -/
def State.KeepsFull (s : State) (j : Job) (plan : List Step) : Prop :=
  ∃ q, j.plan = .full :: q ∧ plan = [.full] ∧ (s.mark j.drop).isSome = true ∧ (s.classOf j.drop).blockBase = j.base

/-- The current STAGE step of a job is one that planning keeps (R105). -/
def State.KeepsStage (s : State) (j : Job) (plan : List Step) : Prop :=
  ∃ x q p, j.plan = .stage x :: q ∧ plan = .stage x :: p ∧ (s.classOf j.drop).fareBase = j.base

theorem keptPlan_delta {s : State} {j : Job} (plan : List Step) (under : j.underWay = true) (keeps : s.KeepsDelta j) {e : Nat}
    (head : j.plan.head? = some (.delta e)) :
    (s.blockPlan j.drop e = .nothing → s.keptPlan j plan = some [.delta e]) ∧
      ∀ es, s.blockPlan j.drop e = .delta es → s.keptPlan j plan = some (.delta e :: es.map .delta) := by
  obtain ⟨x, q, r, steps, record, capable, base, fits, -, -⟩ := keeps
  rw [steps] at head
  obtain rfl : x = e := by simpa using head
  have fit := And.intro capable (And.intro base fits)
  constructor
  · intro plain
    simp only [State.keptPlan, under, steps, record, if_pos fit, plain, Bool.not_true, Bool.false_eq_true, if_false]
  · intro es more
    simp only [State.keptPlan, under, steps, record, if_pos fit, more, Bool.not_true, Bool.false_eq_true, if_false]

theorem keptPlan_rest {s : State} {j : Job} {plan : List Step} (under : j.underWay = true)
    (keeps : s.KeepsFull j plan ∨ s.KeepsStage j plan) : s.keptPlan j plan = some plan := by
  rcases keeps with ⟨q, steps, rfl, mark, base⟩ | ⟨x, q, p, steps, rfl, base⟩
  · simp only [State.keptPlan, under, steps, mark, base, and_self, if_true, Bool.not_true, Bool.false_eq_true, if_false]
  · simp only [State.keptPlan, under, steps, base, List.head?_cons, and_self, if_true, Bool.not_true, Bool.false_eq_true, if_false]

/-- Planning keeps a step only of the three sorts (R105). -/
theorem keeps_of_keptPlan {s : State} {j : Job} {plan kept : List Step} (h : s.keptPlan j plan = some kept) :
    j.underWay = true ∧ (s.KeepsDelta j ∨ s.KeepsFull j plan ∨ s.KeepsStage j plan) := by
  unfold State.keptPlan at h
  cases under : j.underWay with
  | false => rw [under] at h; cases h
  | true =>
    refine ⟨rfl, ?_⟩
    rw [under, if_neg (by decide)] at h
    split at h
    next e q steps =>
      cases record : s.cat.deltaOf j e with
      | none => rw [record] at h; cases h
      | some r =>
        simp only [record] at h
        split at h
        next fit =>
          refine .inl ⟨e, q, r, steps, record, fit.1, fit.2.1, fit.2.2, ?_, ?_⟩ <;> intro form <;> rw [form] at h <;> cases h
        · cases h
    next q steps =>
      split at h
      next fit => exact .inr (.inl ⟨q, steps, fit.1, fit.2.1, fit.2.2⟩)
      · cases h
    next x q steps =>
      split at h
      next fit =>
        obtain ⟨p, same⟩ := List.head?_eq_some_iff.mp fit.1
        exact .inr (.inr ⟨x, q, p, steps, same, fit.2⟩)
      · cases h
    · cases h
    · cases h

/-- What taking a FARE plan whole reports (R102, R115, R116). -/
def State.ReportsWhole (s : State) (d : DropId) (plan : List Step) (t : State) : Prop :=
  if s.stageNofit d plan = true then
    t.port = s.port.raise s.settings.enables .jobFailed { edition := 0, code := none, drop := some d, minute := s.stamp } ∧
      t.planner.jobFail = min 65535 (s.planner.jobFail + 1) ∧
      ∀ x q, plan = .stage x :: q →
        t.planner.log =
          some (s.planner.log.getD
            { drop := d, kind := .fare, edition := x, form := .full, index := 0, reason := .nofit, minute := s.stamp })
  else Quiet s t

theorem Quiet.of {s t : State} (h : NothingReported s t) : Quiet s t := ⟨h.port, h.log, h.jobFail⟩

theorem takePlan_reportsWhole {s n : State} {d : DropId} (hub : PairPlanned d .fare s n) (calm : NothingReported s n)
    (plan : List Step) (target : Nat) (whole : ∀ j, n.job? d .fare = some j → n.keptPlan j plan = none) :
    s.ReportsWhole d plan (n.takePlan d .fare plan target) := by
  obtain ⟨loud, quiet⟩ := takePlan_reported n d .fare plan target whole
  have stamp : n.stamp = s.stamp := by unfold State.stamp; rw [hub.decided.clock]
  rw [hub.hub.stageNofit] at loud quiet
  unfold State.ReportsWhole
  split
  next nofit =>
    obtain ⟨x, q, -, rfl, -⟩ := (stageNofit_iff s d plan).mp nofit
    obtain ⟨port, log, fails, -⟩ := loud nofit x q rfl
    rw [calm.port, hub.hub.settings, stamp] at port
    rw [calm.log, stamp] at log
    rw [calm.jobFail] at fails
    exact ⟨port, fails, fun y p same => by cases same; exact log⟩
  next fits => exact .of (calm.trans (quiet fits))

/-- What a BLOCK plan does to flags and log is what its NOFIT mark does (R100). -/
theorem acted_block_quiet (s : State) (d : DropId) :
    NothingReported (s.noted d .block) ((s.noted d .block).acted d .block (s.pairPlan d .block)) := by
  generalize s.noted d .block = n
  cases h : s.pairPlan d .block with
  | none => exact removeJob_calm _ _ _
  | some p =>
    obtain ⟨plan, target⟩ := p
    show NothingReported n (n.takePlan d .block plan target)
    by_cases kept : ∃ j p, n.job? d .block = some j ∧ n.keptPlan j plan = some p
    · obtain ⟨j, p, job, keeps⟩ := kept
      rw [takePlan_kept n d .block plan p target j job keeps]
      exact ⟨rfl, rfl, rfl, rfl⟩
    · have whole : ∀ j, n.job? d .block = some j → n.keptPlan j plan = none := fun j job => by
        by_contra some_
        exact kept ⟨j, _, job, Option.eq_some_of_isSome (Option.isSome_iff_ne_none.mpr some_)⟩
      exact (takePlan_reported n d .block plan target whole).2 (blockPlan_noStage h n)

theorem planPair_failed {s : State} {d : DropId} {k : Kind} {j : Job} (h : s.job? d k = some j) (failed : j.state = .failed) :
    s.planPair d k = s := by
  unfold State.planPair
  rw [h]
  simp only [failed, if_true, ite_self]

theorem planPair_flying {s : State} {d : DropId} {k : Kind} {j : Job} (on : s.planned d = true) (h : s.job? d k = some j)
    (stands : j.state ≠ .failed) (flying : s.inFlight d k = true) : s.planPair d k = s.putJob { j with replan := true } := by
  unfold State.planPair
  rw [h, if_pos on]
  simp only [stands, flying, if_true, if_false]

theorem planPair_acted {s : State} {d : DropId} {k : Kind} (on : s.planned d = true)
    (free : ∀ j, s.job? d k = some j → j.state ≠ .failed ∧ s.inFlight d k = false) :
    s.planPair d k = (s.noted d k).acted d k (s.pairPlan d k) := by
  rw [← planKind_acted]
  unfold State.planPair
  rw [if_pos on]
  cases h : s.job? d k with
  | none => rfl
  | some j =>
    obtain ⟨stands, still⟩ := free j h
    simp only [stands, still, Bool.false_eq_true, if_false]

theorem replaceJob_iff (js : List Job) (d : DropId) (k : Kind) {j : Job} (hd : j.drop = d) (hk : j.kind = k) :
    replaceJob js j = js.map (fun i => if i.drop = d ∧ i.kind = k then j else i) := by
  unfold replaceJob
  simp only [serves_iff, hd, hk]

/-- The job of a pair takes a plan on with its current step kept (R105). -/
theorem takePlan_keeps {s n : State} {d : DropId} {k : Kind} (hub : PairPlanned d k s n) (jobs : n.planner.jobs = s.planner.jobs)
    (marks : ∀ e, n.mark e = s.mark e) (calm : k = .fare → NothingReported s n) {j : Job} (job : n.job? d k = some j)
    {plan p : List Step} (target : Nat) (kept : n.keptPlan j plan = some p) :
    (n.takePlan d k plan target).planner.jobs =
        s.planner.jobs.map (fun i => if i.drop = d ∧ i.kind = k then s.judgeJob (s.marked { j with plan := p, target }) else i) ∧
      (n.takePlan d k plan target).mark d = s.mark d ∧ (k = .fare → Quiet s (n.takePlan d k plan target)) := by
  obtain ⟨hd, hk, -⟩ := job?_drop job
  have pair := judgeJob_drop s (s.marked { j with plan := p, target })
  rw [takePlan_kept n d k plan p target j job kept, hub.hub.marked, hub.hub.judgeJob, putJob_jobs, jobs,
    replaceJob_iff s.planner.jobs d k (pair.1.trans hd) (pair.2.trans hk)]
  exact ⟨rfl, marks d, fun fare => .of ((calm fare).trans ⟨rfl, rfl, rfl, rfl⟩)⟩

/-- The job of a pair takes a plan whole (R105). -/
theorem takePlan_takesWhole {s n : State} {d : DropId} {k : Kind} (hub : PairPlanned d k s n) (jobs : n.planner.jobs = s.planner.jobs)
    (calm : k = .fare → NothingReported s n) {j : Job} (job : n.job? d k = some j) {plan : List Step} (target : Nat)
    (whole : n.keptPlan j plan = none) :
    (n.takePlan d k plan target).planner.jobs =
        s.planner.jobs.map (fun i => if i.drop = d ∧ i.kind = k then s.settled (s.marked (j.takeWhole plan target)) else i) ∧
      (k = .block → (n.takePlan d k plan target).mark d = none) ∧
      (k = .fare → s.ReportsWhole d plan (n.takePlan d k plan target)) := by
  obtain ⟨hd, hk, -⟩ := job?_drop job
  obtain ⟨queue, released⟩ := takePlan_whole n d k plan target j job whole
  have pair := settled_pair s (s.marked (j.takeWhole plan target))
  refine ⟨?_, released, ?_⟩
  · rw [queue, hub.hub.marked, hub.hub.settled, jobs, replaceJob_iff s.planner.jobs d k (pair.1.trans hd) (pair.2.trans hk)]
  · rintro rfl
    exact takePlan_reportsWhole hub (calm rfl) plan target fun i own => by
      rw [job] at own
      injection own with own
      exact own ▸ whole

/-- A pair without a job gets one at the end of the queue (R96, R103). -/
theorem takePlan_makes {s n : State} {d : DropId} {k : Kind} (hub : PairPlanned d k s n) (jobs : n.planner.jobs = s.planner.jobs)
    (calm : k = .fare → NothingReported s n) (job : n.job? d k = none) (plan : List Step) (target : Nat) :
    (n.takePlan d k plan target).planner.jobs = s.planner.jobs ++ [s.settled (s.marked (newJob d k plan target))] ∧
      (k = .fare → s.ReportsWhole d plan (n.takePlan d k plan target)) := by
  constructor
  · rw [takePlan_new n d k plan target job, hub.hub.marked, hub.hub.settled, jobs]
  · rintro rfl
    exact takePlan_reportsWhole hub (calm rfl) plan target fun i own => by rw [job] at own; cases own

/-- Settles O49: each table is read case by case, and planning a pair notes the drop's mark and then lets the pair's job go, be made,
keep its step or take the plan whole. -/
theorem plansFollowTheirTables : Obligations.PlansFollowTheirTables := by
  unfold Obligations.PlansFollowTheirTables
  refine ⟨farePlan_first, blockForm_eq, blockPlan_eq, planned_iff, stageNofit_iff, ?_⟩
  intro s d k
  refine ⟨fun off => planPair_unplanned off k, fun j job failed => planPair_failed job failed,
    fun on j job stands flying => planPair_flying on job stands flying, fun on free => ?_⟩
  have acts := planPair_acted on free
  have hub := pair_noted s d k
  have jobs := noted_jobs s d k
  have marks := noted_mark s d k
  have own := noted_job? s d k
  have keeps := noted_keptPlan s d k
  have calm : k = .fare → NothingReported s (s.noted d k) := by rintro rfl; exact noteAhead_calm s d
  refine ⟨?_, ?_, ?_, ?_⟩
  · rintro rfl
    have quiet := acted_block_quiet s d
    have drop : (s.planPair d .block).drop d = (s.noted d .block).drop d := by
      rw [acts]; exact drop_of_roster (acted_roster _ _ _ _) d
    rw [← acts] at quiet
    refine ⟨?_, ?_, ?_⟩
    · rw [drop]
      show ((s.noteNofit d _).drop d).blockNofit = true ↔ _
      rw [noteNofit_drop]
      exact decide_eq_true_iff
    · intro nofit first
      have noted : s.noted d .block = s.noteNofit d true := by unfold State.noted; rw [decide_eq_true nofit]
      obtain ⟨port, log⟩ := noteNofit_first s d first
      rw [noted] at quiet
      exact ⟨quiet.port.trans port, quiet.log.trans log⟩
    · intro mild
      have still : NothingReported s (s.noted d .block) := noteNofit_calm s d _ (mild.imp (fun fits => decide_eq_false fits) id)
      exact ⟨(still.trans quiet).port, (still.trans quiet).log⟩
  · rintro rfl
    have drop : (s.planPair d .fare).drop d = (s.noted d .fare).drop d := by
      rw [acts]; exact drop_of_roster (acted_roster _ _ _ _) d
    rw [drop]
    show ((s.setDrop d _).drop d).fareAhead = true ↔ _
    rw [State.drop_setDrop, if_pos rfl]
    exact decide_eq_true_iff
  · intro nothing
    rw [nothing] at acts
    rw [acts]
    show ((s.noted d k).removeJob d k).planner.jobs = _ ∧ (_ → ((s.noted d k).removeJob d k).mark d = none) ∧ _
    refine ⟨?_, ?_, ?_⟩
    · rw [removeJob_jobs, jobs]
      rfl
    · rintro rfl
      exact leaveMark_none _ _
    · intro fare
      exact Quiet.of ((calm fare).trans (removeJob_calm _ _ _))
  · intro plan target computed
    rw [computed] at acts
    rw [acts]
    show (s.job? d k = none → ((s.noted d k).takePlan d k plan target).planner.jobs = _ ∧ _) ∧ _
    constructor
    · intro job
      exact takePlan_makes hub jobs calm (own.trans job) plan target
    · intro j job
      obtain ⟨hd, -, -⟩ := job?_drop job
      subst hd
      refine ⟨?_, ?_, ?_⟩
      · intro under keep e head
        obtain ⟨plain, more⟩ := keptPlan_delta plan under (s := s) (j := j) keep head
        exact ⟨fun form => takePlan_keeps hub jobs marks calm (own.trans job) target ((keeps j plan).trans (plain form)),
          fun es form => takePlan_keeps hub jobs marks calm (own.trans job) target ((keeps j plan).trans (more es form))⟩
      · intro under keep
        exact takePlan_keeps hub jobs marks calm (own.trans job) target
          ((keeps j plan).trans (keptPlan_rest under (s := s) (j := j) keep))
      · intro other
        have whole : (s.noted j.drop k).keptPlan j plan = none := by
          rw [keeps]
          by_contra some_
          obtain ⟨p, kept⟩ := Option.ne_none_iff_exists'.mp some_
          exact other (keeps_of_keptPlan kept)
        exact takePlan_takesWhole hub jobs calm (own.trans job) target whole

end Sys2Proof.Machine

namespace Sys2Proof.Machine

/-! ### Frames on the line (R121 to R133) -/

/-- Settles O36: each of these events finds the exchange in its stage and rewrites it and the line time alone. -/
theorem lineEventsMoveTheStage : Obligations.LineEventsMoveTheStage := by
  unfold Obligations.LineEventsMoveTheStage
  refine ⟨fun x s flying => ⟨fun sending => ?_, fun paused => ?_⟩, fun s => ⟨fun x flying awaiting => ?_, rfl⟩⟩
  · show execCollision s = _
    unfold execCollision
    rw [inStage_of flying sending]
    rfl
  · show execWaitInterval s = _
    unfold execWaitInterval
    rw [inStage_of flying paused]
    rfl
  · show execAnswerStart s = _
    unfold execAnswerStart
    rw [inStage_of flying awaiting]
    rfl

theorem noFurther_iff (s : State) (x : Exchange) (d : DropId) :
    s.noFurther x d = true ↔ (s.drop d).stopping = true ∨ x.detached = true := by
  unfold State.noFurther
  rw [Bool.or_eq_true]

theorem noFurther_false {s : State} {x : Exchange} {d : DropId} (going : (s.drop d).stopping = false) (kept : x.detached = false) :
    s.noFurther x d = false := by
  unfold State.noFurther
  rw [going, kept]
  rfl

/-- An exchange that ends unacknowledged at time `T`, with no presence event (R133, R140). -/
theorem endUnacknowledged (s : State) (x : Exchange) (d : DropId) (T : Nat) (line : Trunk) :
    let t := ((s.setTimebase T).setTrunk line).endExchange x d .unacknowledged id
    ExchangeEnded d s t ∧ ExchangeEnds x d .unacknowledged ((s.setTimebase T).setTrunk { line with ex := none }) t ∧
      t.timebase = T ∧ t.trunk.bare = line.bare ∧ t.taps.bare = s.taps.bare ∧
      (t.drop d).bare =
        (if (s.drop d).stopping then { s.drop d with stopping := false, presence := .disabled, run := 0 } else s.drop d).bare := by
  obtain ⟨ended, record⟩ := endQuiet_ended ((s.setTimebase T).setTrunk line) x d .unacknowledged
  have moved := ((ExchangeEnded.setTimebase s T).trans (ExchangeEnded.setTrunk (d := d) _ line)).trans ended.exchangeEnded
  exact ⟨moved, endExchange_ends_of rfl (no_event d) rfl, ended.timebase, ended.trunk, ended.taps, record⟩

/-- A frame other than a SEGMENT inside its burst expects an answer (R123). -/
theorem frameSent_awaits {s : State} {x : Exchange} {d : DropId} (drop : x.drop = some d)
    (whole : ∀ i p, x.frame ≠ .segment i false p) :
    s.frameSent x = s.setExchange { x with stage := .awaiting, since := s.timebase } := by
  unfold State.frameSent
  simp only [drop]

theorem frameSent_inside {s : State} {x : Exchange} {d : DropId} {i : Nat} {p : Option Segment} (drop : x.drop = some d)
    (frame : x.frame = .segment i false p) : s.frameSent x = s.nextSegment x d i := by
  unfold State.frameSent
  simp only [drop, frame]

/-- Settles O37: the frame's last character moves the line time; a SEGMENT inside its burst is followed by the next or by the end of
the exchange, every other frame by its answer. -/
theorem sentFrameAwaitsOrContinues : Obligations.SentFrameAwaitsOrContinues := by
  unfold Obligations.SentFrameAwaitsOrContinues
  intro x d s flying sending drop
  have runs : exec .trunkFrameSent s = .next ((s.passTo (x.since + x.sendTime)).touchLine.frameSent x) := by
    show execTrunkFrameSent s = _
    unfold execTrunkFrameSent
    rw [inStage_of flying sending]
  have bytes : x.sendTime = 10 * (1000 / x.set.rate) * (trunkBytes x.drop x.frame).length := rfl
  rw [runs, bytes]
  refine ⟨fun whole => ?_, fun i p frame => ⟨fun going kept => ?_, fun stops => ?_⟩⟩
  · rw [frameSent_awaits drop whole]
    rfl
  · rw [frameSent_inside drop frame, State.nextSegment, noFurther_false (by exact going) kept]
    rfl
  · rw [frameSent_inside drop frame, State.nextSegment, if_pos ((noFurther_iff _ _ _).mpr (by exact stops))]
    exact ⟨_, rfl, endUnacknowledged s x d _ { s.trunk with lineFrom := _ }⟩

theorem quietMet_formed {s : State} {x : Exchange} (formed : ∀ i last, x.frame ≠ .segment i last none) :
    s.quietMet x = s.sendFrame x := by
  unfold State.quietMet
  split
  next i last d k frame _ _ => exact absurd frame (formed i last)
  · rfl

theorem quietMet_forms {s : State} {x : Exchange} {d : DropId} {k : Kind} {i : Nat} {last : Bool}
    (frame : x.frame = .segment i last none) (drop : x.drop = some d) (kind : x.kind = .push k) :
    s.quietMet x = s.formSegment x d k i last := by
  simp only [State.quietMet, frame, drop, kind]

/-! The payload of a SEGMENT by the job's current step (R47, R72, R73). -/

section
variable {s : State} {d : DropId} {k : Kind} {j : Job} {rest : List Step} {i : Nat}

theorem takePayload_delta {e : Nat} {r : Delta} (job : s.job? d k = some j) (steps : j.plan = .delta e :: rest)
    (record : s.cat.deltaOf j e = some r) : s.takePayload d k i = (s, r.segments[i]?) := by
  simp only [State.takePayload, job, steps, record, Option.bind_some]

theorem takePayload_stage {e : Nat} {r : Fare} (job : s.job? d k = some j) (steps : j.plan = .stage e :: rest)
    (record : s.cat.fareOf j e = some r) : s.takePayload d k i = (s, r.segments[i]?) := by
  simp only [State.takePayload, job, steps, record, Option.bind_some]

theorem takePayload_full {m : Mark} (job : s.job? d k = some j) (steps : j.plan = .full :: rest) (mark : s.mark d = some m) :
    s.takePayload d k i =
      (s.setMark d (some { m with cur := m.cur.onward s.table.entries m.edition }),
        some (packedPayload (packedAt s.table.entries m.edition m.cur))) := by
  simp only [State.takePayload, job, steps, mark, nextSegment_eq, produce_eq]

end

/-- Settles O35: a frame that is already formed, or is no SEGMENT, is sent; a SEGMENT takes its payload from the job's record or from
the serializer, unless nothing further of the exchange may be formed. -/
theorem quietTimeMetSendsTheFrame : Obligations.QuietTimeMetSendsTheFrame := by
  unfold Obligations.QuietTimeMetSendsTheFrame
  refine ⟨fun c j e => ⟨fun under => ?_, fun before => ?_⟩, fun x s flying quiet => ?_⟩
  · unfold Catalogue.deltaOf Catalogue.fareOf
    rw [if_pos under, if_pos under]
    exact ⟨rfl, rfl⟩
  · unfold Catalogue.deltaOf Catalogue.fareOf
    rw [before]
    exact ⟨rfl, rfl⟩
  · have runs : exec .quietTimeMet s = .next ((s.passTo (s.trunk.lineFrom + x.set.quiet * x.set.bitTime)).quietMet x) := by
      show execQuietTimeMet s = _
      unfold execQuietTimeMet
      rw [inStage_of flying quiet]
    rw [runs]
    refine ⟨fun formed => ?_, fun i last d k frame drop kind => ⟨fun going kept j rest job => ?_, fun stops => ?_⟩⟩
    · rw [quietMet_formed formed]
      rfl
    · rw [quietMet_forms frame drop kind, State.formSegment, noFurther_false (by exact going) kept]
      refine ⟨fun e r steps record => ?_, fun e r steps record => ?_, fun m steps mark => ?_⟩
      · rw [takePayload_delta (by exact job) steps (by exact record)]
        rfl
      · rw [takePayload_stage (by exact job) steps (by exact record)]
        rfl
      · rw [takePayload_full (by exact job) steps (by exact mark)]
        rfl
    · have line : s.passTo (s.trunk.lineFrom + x.set.quiet * x.set.bitTime) =
          (s.setTimebase (max s.timebase (s.trunk.lineFrom + x.set.quiet * (1000 / x.set.rate)))).setTrunk s.trunk := rfl
      rw [quietMet_forms frame drop kind, State.formSegment, if_pos ((noFurther_iff _ _ _).mpr (by exact stops)), line]
      exact ⟨_, rfl, endUnacknowledged s x d _ s.trunk⟩

end Sys2Proof.Machine

namespace Sys2Proof.Machine

/-! ### The arbiter (R91 to R93, R131, R137 to R139) -/

/-! #### What the arbiter reads -/

theorem roundDue_iff (s : State) :
    s.roundDue = true ↔ s.roster.lastRound = none ∨ ∃ r, s.roster.lastRound = some r ∧
      ((s.roster.pollMode = .continuous ∧ s.pace ≤ s.trunk.pushCount) ∨
        (s.roster.pollMode = .periodic ∧ r + s.settings.period * 1000000 ≤ s.timebase)) := by
  unfold State.roundDue
  cases s.roster.lastRound <;> cases s.roster.pollMode <;> simp

theorem listed_iff (s : State) (d : DropId) :
    s.listed d = true ↔
      ¬((s.drop d).presence = .disabled ∨ (s.drop d).stopping = true) ∧ ((s.drop d).presence ≠ .absent ∨ s.roster.probe = 0) := by
  unfold State.listed
  cases (s.drop d).presence <;> cases (s.drop d).stopping <;> simp

theorem mem_roundList (s : State) (d : DropId) :
    d ∈ s.roundList ↔
      ¬((s.drop d).presence = .disabled ∨ (s.drop d).stopping = true) ∧ ((s.drop d).presence ≠ .absent ∨ s.roster.probe = 0) :=
  Iff.trans ⟨roundList_listed s d, listed_roundList s d⟩ (listed_iff s d)

theorem passedOver_iff (s : State) (d : DropId) :
    s.passedOver d = true ↔ (s.drop d).presence = .disabled ∨ (s.drop d).stopping = true := by
  unfold State.passedOver
  rw [Bool.or_eq_true, beq_iff_eq]

theorem allDrops_ascend : allDrops.Pairwise (fun a b => a.val < b.val) := by decide

theorem mem_turnTo (f d : DropId) (l : List DropId) : d ∈ turnTo f l ↔ d ∈ l := by
  unfold turnTo
  simp only [List.mem_append, List.mem_filter, decide_eq_true_eq]
  have : f.val ≤ d.val ∨ d.val < f.val := Nat.lt_or_ge d.val f.val |>.symm
  tauto

/-- A list turned to a drop goes on from it by the distance after it. -/
theorem turnTo_ascends (f : DropId) {l : List DropId} (h : l.Pairwise (fun a b => a.val < b.val)) :
    (turnTo f l).Pairwise (fun a b => (a.val + 8 - f.val) % 8 < (b.val + 8 - f.val) % 8) := by
  have small := f.isLt
  unfold turnTo
  rw [List.pairwise_append]
  refine ⟨(h.sublist List.filter_sublist).imp_of_mem ?_, (h.sublist List.filter_sublist).imp_of_mem ?_, ?_⟩
  · intro a b ha hb ascends
    simp only [List.mem_filter, decide_eq_true_eq] at ha hb
    have := a.isLt
    have := b.isLt
    omega
  · intro a b ha hb ascends
    simp only [List.mem_filter, decide_eq_true_eq] at ha hb
    omega
  · intro a ha b hb
    simp only [List.mem_filter, decide_eq_true_eq] at ha hb
    have := a.isLt
    omega

/-- The place of a drop in the order of a round that starts now (R93). -/
def State.roundPlace (s : State) (d : DropId) : Nat :=
  match s.settings.parking, s.roster.lastTap with | .mru, some l => (d.val + 8 - l.val) % 8 | _, _ => d.val

theorem roundList_ascends (s : State) : s.roundList.Pairwise (fun a b => s.roundPlace a < s.roundPlace b) := by
  have plain := allDrops_ascend.sublist (List.filter_sublist (p := s.listed))
  unfold State.roundList State.roundPlace
  cases s.settings.parking with
  | fixed => exact plain
  | mru =>
    cases s.roster.lastTap with
    | none => exact plain
    | some l => exact turnTo_ascends l plain

/-- The search of a list that ascends finds the least. -/
theorem find?_least {l : List DropId} {p : DropId → Bool} {f : DropId → Nat} (ascends : l.Pairwise (fun a b => f a < f b))
    (all : ∀ d, d ∈ l) (d : DropId) : l.find? p = some d ↔ p d = true ∧ ∀ e, p e = true → f d ≤ f e := by
  have least {d : DropId} (found : l.find? p = some d) : p d = true ∧ ∀ e, p e = true → e = d ∨ f d < f e := by
    obtain ⟨holds, before, after, rfl, none_⟩ := List.find?_eq_some_iff_append.mp found
    refine ⟨holds, fun e he => ?_⟩
    rcases List.mem_append.mp (all e) with first | later
    · exact absurd he (by simpa using none_ e first)
    · rcases List.mem_cons.mp later with same | later
      · exact .inl same
      · exact .inr ((List.pairwise_cons.mp (List.pairwise_append.mp ascends).2.1).1 e later)
  constructor
  · intro found
    obtain ⟨holds, first⟩ := least found
    exact ⟨holds, fun e he => (first e he).elim (fun same => same ▸ Nat.le_refl _) Nat.le_of_lt⟩
  · rintro ⟨holds, first⟩
    cases found : l.find? p with
    | none => exact absurd holds (by simpa using List.find?_eq_none.mp found d (all d))
    | some e =>
      obtain ⟨also, order⟩ := least found
      rcases order d holds with same | later
      · rw [same]
      · exact absurd (first e also) (by omega)

/-- The order of the urgent polls (R131): all drops, from the one after the last urgently polled. -/
theorem urgentOrder (last : Option DropId) :
    let l := match last with | none => allDrops | some l => turnTo (l + 1) allDrops
    l.Pairwise (fun a b => turnsAfter last a < turnsAfter last b) ∧ ∀ d, d ∈ l := by
  cases last with
  | none => exact ⟨allDrops_ascend, mem_allDrops⟩
  | some l =>
    refine ⟨(turnTo_ascends (l + 1) allDrops_ascend).imp ?_, fun d => (mem_turnTo _ _ _).mpr (mem_allDrops d)⟩
    intro a b ascends
    have next : (l + 1).val = (l.val + 1) % 8 := by rw [Fin.val_add]; rfl
    have := l.isLt
    have := a.isLt
    have := b.isLt
    show (a.val + 7 - l.val) % 8 < (b.val + 7 - l.val) % 8
    omega

theorem nextUrgent_iff (s : State) (d : DropId) :
    s.nextUrgent = some d ↔
      (s.drop d).tapUrgent = true ∧ ¬((s.drop d).presence = .disabled ∨ (s.drop d).stopping = true) ∧
        ∀ e, (s.drop e).tapUrgent = true → ¬((s.drop e).presence = .disabled ∨ (s.drop e).stopping = true) →
          turnsAfter s.trunk.lastUrgent d ≤ turnsAfter s.trunk.lastUrgent e := by
  obtain ⟨ascends, all⟩ := urgentOrder s.trunk.lastUrgent
  have marked (e : DropId) : ((s.drop e).tapUrgent && !s.passedOver e) = true ↔
      (s.drop e).tapUrgent = true ∧ ¬((s.drop e).presence = .disabled ∨ (s.drop e).stopping = true) := by
    rw [Bool.and_eq_true, Bool.not_eq_true', ← Bool.not_eq_true, passedOver_iff]
  unfold State.nextUrgent
  refine (find?_least ascends all d).trans ?_
  simp only [marked, and_imp, and_assoc]

/-! #### The decision step by step -/

/-- A POLL formed for a drop: its exchange, and what an allowance of 0 does (R130, R167). -/
def PollFormed (kind : ExKind) (d : DropId) (s t : State) : Prop :=
  t.trunk.ex =
      some
        { kind, drop := some d, frame := .poll (min 8 (256 - s.taps.queue.length)), stage := .quiet, waits := 0, burstStart := 0
          burstEnd := 0, lastResend := none, set := s.settings.trunk, detached := false, since := s.timebase } ∧
    if min 8 (256 - s.taps.queue.length) = 0 then
      t.taps = { s.taps with zeroAllowance := min 65535 (s.taps.zeroAllowance + 1) } ∧
        t.port = s.port.raise s.settings.enables .tapqFull { edition := 0, code := none, drop := none, minute := s.stamp }
    else t.taps = s.taps ∧ t.port = s.port

theorem formPoll_formed (s : State) (kind : ExKind) (d : DropId) : PollFormed kind d s (s.formPoll kind d) := by
  have settled : s.noteAllowance.settings = s.settings ∧ s.noteAllowance.timebase = s.timebase := by
    unfold State.noteAllowance
    split <;> exact ⟨rfl, rfl⟩
  obtain ⟨full, room⟩ := noteAllowance_room s
  obtain ⟨port, taps, -⟩ := formPoll_port s kind d
  refine ⟨?_, ?_⟩
  · unfold State.formPoll State.beginExchange
    dsimp only
    rw [← settled.1, ← settled.2]
    rfl
  · rw [port, taps]
    split
    next none_ => exact (full (by omega)).symm
    next some_ =>
      rw [room (by omega)]
      exact ⟨rfl, rfl⟩

theorem formPoll_tapUrgent (s : State) (kind : ExKind) (d : DropId) : ((s.formPoll kind d).drop d).tapUrgent = false := by
  show (((s.noteAllowance.setDrop d { s.noteAllowance.drop d with tapUrgent := false }).drop d)).tapUrgent = false
  rw [State.drop_setDrop, if_pos rfl]

section
variable {s : State} (free : s.trunk.ex = none)
include free

theorem arbitrate_broadcast {p : Nat} (waits : s.trunk.request = some p) : s.arbitrate = s.formBroadcast p := by
  unfold State.arbitrate
  rw [free, waits]
  rfl

theorem arbitrate_urgent (quiet : s.trunk.request = none) {d : DropId} (urgent : s.nextUrgent = some d) :
    s.arbitrate = s.formUrgent d := by
  unfold State.arbitrate
  rw [free, quiet]
  simp only [urgent]
  rfl

theorem arbitrate_steps (quiet : s.trunk.request = none) (calm : s.nextUrgent = none) :
    s.arbitrate = if s.roundStep.trunk.ex.isSome then s.roundStep else s.roundStep.pushStep := by
  unfold State.arbitrate
  rw [free, quiet]
  simp only [calm]
  rfl

end

theorem takeTurn_turn {s : State} {l : List DropId} {d : DropId} {rest : List DropId} (round : s.trunk.round = some l)
    (turn : l.dropWhile s.passedOver = d :: rest) :
    s.takeTurn = (s.setTrunk { s.trunk with round := some rest }).formPoll .roundPoll d := by
  unfold State.takeTurn
  rw [round]
  simp only [turn]

theorem takeTurn_spent {s : State} {l : List DropId} (round : s.trunk.round = some l) (spent : l.dropWhile s.passedOver = []) :
    s.takeTurn = s.endRound := by
  unfold State.takeTurn
  rw [round]
  simp only [spent]

theorem takeTurn_none {s : State} (round : s.trunk.round = none) : s.takeTurn = s := by
  unfold State.takeTurn
  rw [round]

/-- A round whose list is `d :: rest` started in `s`, with the turn of its first drop (R92, R139). -/
def RoundStarted (d : DropId) (rest : List DropId) (s t : State) : Prop :=
  PollFormed .roundPoll d s t ∧ t.trunk.round = some rest ∧ t.trunk.pushCount = 0 ∧
    t.trunk.rounds = min 65535 (s.trunk.rounds + 1) ∧ t.roster.probe = (s.roster.probe + 1) % s.settings.divisor ∧
    t.roster.lastRound = some s.timebase

theorem startRound_turn {s : State} {d : DropId} {rest : List DropId} (list : s.roundList = d :: rest) :
    s.startRound.takeTurn = (s.openRound.setTrunk { s.openRound.trunk with round := some rest }).formPoll .roundPoll d := by
  have starts : s.startRound = s.openRound := by
    unfold State.startRound
    rw [list]
    rfl
  have round : s.openRound.trunk.round = some (d :: rest) := congrArg some list
  have turn : s.openRound.passedOver d = false := passed_listed s d (roundList_listed s d (by rw [list]; exact List.mem_cons_self))
  rw [starts]
  exact takeTurn_turn round (List.dropWhile_cons_of_neg (by rw [turn]; exact Bool.false_ne_true))

theorem startRound_started {s : State} {d : DropId} {rest : List DropId} (list : s.roundList = d :: rest) :
    RoundStarted d rest s s.startRound.takeTurn := by
  rw [startRound_turn list]
  have formed := formPoll_formed (s.openRound.setTrunk { s.openRound.trunk with round := some rest }) .roundPoll d
  obtain ⟨-, -, -, probe, last, trunk⟩ :=
    formPoll_port (s.openRound.setTrunk { s.openRound.trunk with round := some rest }) .roundPoll d
  generalize State.formPoll _ _ _ = t at formed probe last trunk
  exact ⟨formed, by rw [trunk]; rfl, by rw [trunk]; rfl, by rw [trunk]; rfl, probe, last⟩

/-- The hub after a round with an empty list, which ends in the event that starts it (R139). -/
def State.emptyRound (s : State) : State :=
  (s.setTrunk
    { s.trunk with
      round := none, pushCount := 0, rounds := min 65535 (s.trunk.rounds + 1)
      emptyPause :=
        if s.settings.pollMode = .continuous then some (s.timebase + s.settings.trunk.replyTimeout) else s.trunk.emptyPause }).setRoster
    { s.roster with
      pollMode := s.settings.pollMode, probe := (s.roster.probe + 1) % s.settings.divisor, lastRound := some s.timebase }

theorem startRound_empty {s : State} (list : s.roundList = []) : s.startRound.takeTurn = s.emptyRound := by
  have starts : s.startRound = s.emptyRound := by
    unfold State.startRound State.startPause State.emptyRound
    rw [list, if_pos (by rfl)]
    show (if s.settings.pollMode = .continuous then _ else _) = _
    split <;> rfl
  rw [starts]
  exact takeTurn_none rfl

/-- A round is not due at once after an empty one (R91). -/
theorem emptyRound_undue {s : State} (fit : SettingsFit s.settings) : s.emptyRound.roundDue = false := by
  rw [← Bool.not_eq_true, roundDue_iff]
  rintro (none_ | ⟨r, last, ⟨-, paced⟩ | ⟨-, passed⟩⟩)
  · cases none_
  · have pace : 1 ≤ s.emptyRound.pace := by
      unfold State.pace
      split
      · exact fit.pacing.1.1
      · exact fit.pacing.2.1
    have count : s.emptyRound.trunk.pushCount = 0 := rfl
    omega
  · cases last
    have period : 1 ≤ s.settings.period := fit.polling.1
    have passed : s.timebase + s.settings.period * 1000000 ≤ s.timebase := passed
    omega

theorem roundStep_idle {s : State} (round : s.trunk.round = none) (undue : s.roundDue = false) : s.roundStep = s := by
  unfold State.roundStep
  rw [takeTurn_none round]
  exact if_neg fun all => by rw [undue] at all; exact nomatch all.2.2

theorem roundStep_due {s : State} (free : s.trunk.ex = none) (round : s.trunk.round = none) (due : s.roundDue = true) :
    s.roundStep = s.startRound.takeTurn := by
  unfold State.roundStep
  rw [takeTurn_none round]
  exact if_pos ⟨by rw [free]; rfl, by rw [round]; rfl, due⟩

/-- The decision after the choice of a push: with no candidate a CONTINUOUS hub without a pause starts a round (R139). -/
def State.afterChoice (s : State) : State :=
  if s.trunk.ex.isNone ∧ s.trunk.round.isNone ∧ s.roster.pollMode = .continuous ∧ s.trunk.emptyPause.isNone then
    s.startRound.takeTurn
  else s

theorem pushStep_eq (s : State) : s.pushStep = s.pushChoice.afterChoice := rfl

theorem afterChoice_busy {s : State} (flying : s.trunk.ex.isSome = true) : s.afterChoice = s :=
  if_neg fun all => by rw [Option.isSome_iff_ne_none] at flying; exact flying (Option.isNone_iff_eq_none.mp all.1)

theorem afterChoice_idle {s : State} (h : s.roster.pollMode = .periodic ∨ s.trunk.emptyPause.isSome = true) : s.afterChoice = s :=
  if_neg fun all => by
    obtain ⟨-, -, mode, pause⟩ := all
    rcases h with h | h
    · rw [mode] at h
      cases h
    · rw [Option.isNone_iff_eq_none.mp pause] at h
      cases h

theorem afterChoice_starts {s : State} (free : s.trunk.ex = none) (round : s.trunk.round = none) (mode : s.roster.pollMode = .continuous)
    (pause : s.trunk.emptyPause = none) : s.afterChoice = s.startRound.takeTurn :=
  if_pos ⟨by rw [free]; rfl, by rw [round]; rfl, mode, by rw [pause]; rfl⟩

theorem pushChoice_none {s : State} (none_ : s.candidates = []) : s.pushChoice = s := by
  unfold State.pushChoice
  rw [none_]
  rfl

/-- With nothing before it, the decision is the choice of a push (R138). -/
theorem arbitrate_push {s : State} (free : s.trunk.ex = none) (quiet : s.trunk.request = none) (calm : s.nextUrgent = none)
    (round : s.trunk.round = none) (undue : s.roundDue = false) : s.arbitrate = s.pushChoice.afterChoice := by
  rw [arbitrate_steps free quiet calm, roundStep_idle round undue, free, ← pushStep_eq]
  rfl

/-- With a round in progress, or one that is due, whose turn forms a POLL, the decision is that turn. -/
theorem arbitrate_round {s : State} (free : s.trunk.ex = none) (quiet : s.trunk.request = none) (calm : s.nextUrgent = none)
    (formed : s.roundStep.trunk.ex.isSome = true) : s.arbitrate = s.roundStep := by
  rw [arbitrate_steps free quiet calm, if_pos formed]

theorem formed_busy {kind : ExKind} {d : DropId} {s t : State} (h : PollFormed kind d s t) : t.trunk.ex.isSome = true := by
  rw [h.1]
  rfl

theorem arbitrate_turn {s : State} (free : s.trunk.ex = none) (quiet : s.trunk.request = none) (calm : s.nextUrgent = none)
    {l : List DropId} {d : DropId} {rest : List DropId} (round : s.trunk.round = some l)
    (turn : l.dropWhile s.passedOver = d :: rest) :
    PollFormed .roundPoll d s s.arbitrate ∧ s.arbitrate.trunk.round = some rest := by
  have taken := takeTurn_turn round turn
  have formed := formPoll_formed (s.setTrunk { s.trunk with round := some rest }) .roundPoll d
  obtain ⟨-, -, -, -, -, trunk⟩ := formPoll_port (s.setTrunk { s.trunk with round := some rest }) .roundPoll d
  rw [← taken] at formed trunk
  have flies := formed_busy formed
  have step : s.roundStep = s.takeTurn := by
    unfold State.roundStep
    exact if_neg fun all => by rw [Option.isNone_iff_eq_none.mp all.1] at flies; cases flies
  rw [arbitrate_round free quiet calm (by rw [step]; exact flies), step]
  exact ⟨formed, by rw [trunk]; rfl⟩

/-- A round in progress whose remaining turns are all passed over ends, and the decision is made again (R138). -/
theorem arbitrate_spent {s : State} (free : s.trunk.ex = none) (quiet : s.trunk.request = none) (calm : s.nextUrgent = none)
    {l : List DropId} (round : s.trunk.round = some l) (spent : l.dropWhile s.passedOver = []) :
    s.arbitrate = s.endRound.arbitrate := by
  have step : s.roundStep = s.endRound.roundStep := by
    unfold State.roundStep
    rw [takeTurn_spent round spent, takeTurn_none (s := s.endRound) rfl]
  have calm' : s.endRound.nextUrgent = none := calm
  rw [arbitrate_steps free quiet calm, arbitrate_steps (s := s.endRound) free quiet calm', step]

theorem arbitrate_due {s : State} (free : s.trunk.ex = none) (quiet : s.trunk.request = none) (calm : s.nextUrgent = none)
    (round : s.trunk.round = none) (due : s.roundDue = true) {d : DropId} {rest : List DropId} (list : s.roundList = d :: rest) :
    RoundStarted d rest s s.arbitrate := by
  have started := startRound_started list
  rw [← roundStep_due free round due] at started
  rw [arbitrate_round free quiet calm (formed_busy started.1)]
  exact started

theorem arbitrate_due_empty {s : State} (free : s.trunk.ex = none) (quiet : s.trunk.request = none) (calm : s.nextUrgent = none)
    (round : s.trunk.round = none) (due : s.roundDue = true) (list : s.roundList = []) (fit : SettingsFit s.settings) :
    s.arbitrate = s.emptyRound.arbitrate := by
  have calm' : s.emptyRound.nextUrgent = none := calm
  rw [arbitrate_steps free quiet calm, roundStep_due free round due, startRound_empty list,
    arbitrate_push (s := s.emptyRound) free quiet calm' rfl (emptyRound_undue fit)]
  exact if_neg (by rw [show s.emptyRound.trunk.ex = none from free]; exact Bool.false_ne_true)

end Sys2Proof.Machine

namespace Sys2Proof.Machine

/-! #### The push formed for a candidate (R109 to R113) -/

theorem displace_job? (s : State) (d : DropId) (k : Kind) : (s.displace d k).job? d k = s.job? d k := by
  unfold State.displace
  split
  · show (s.planner.jobs.map _).find? (Job.serves d k) = s.planner.jobs.find? (Job.serves d k)
    induction s.planner.jobs with
    | nil => rfl
    | cons i is ih =>
      rw [List.map_cons, List.find?_cons, List.find?_cons]
      cases own : Job.serves d k i with
      | true => simp [own]
      | false =>
        have still : Job.serves d k (if i.state = .active ∧ false = false then
            { i with state := if i.underWay then .paused else .ready } else i) = false := by
          split <;> exact own
        rw [still]
        exact ih
  · rfl

/-- The jobs of other pairs after a displacement: an ACTIVE one is PAUSED or READY (R110). -/
theorem displace_others {s : State} {d : DropId} {k : Kind} {i : Job} (queued : i ∈ s.planner.jobs)
    (other : Job.serves d k i = false) :
    (if i.state = .active then { i with state := if i.underWay then .paused else .ready } else i) ∈
      (s.displace d k).planner.jobs := by
  unfold State.displace
  split
  · refine List.mem_map.mpr ⟨i, queued, ?_⟩
    simp only [other, and_true]
  next none_ =>
    have idle : i.state ≠ .active := fun active => none_ (List.any_eq_true.mpr ⟨i, queued, by simp [active, other]⟩)
    rw [if_neg idle]
    exact queued

theorem displace_preempt (s : State) (d : DropId) (k : Kind) :
    (s.displace d k).planner.preempt =
      if s.planner.jobs.any (fun i => i.state == .active && !Job.serves d k i) then min 65535 (s.planner.preempt + 1)
      else s.planner.preempt := by
  unfold State.displace
  split <;> rfl

/-- A push formed in a hub that is `s` but for its read marks (R110, R123, R139). -/
theorem formPush_pushed {s w : State} {j j' : Job} (planner : w.planner = s.planner) (trunk : w.trunk = s.trunk)
    (settings : w.settings = s.settings) (timebase : w.timebase = s.timebase) (own : s.job? j.drop j.kind = some j)
    (hd : j'.drop = j.drop) (hk : j'.kind = j.kind) (frame : TrunkFrame) (first last : Nat) :
    Pushed j j' frame first last s (w.formPush j' frame first last) := by
  have jobs : ∀ d k, w.job? d k = s.job? d k := job?_of_jobs (congrArg Planner.jobs planner)
  have held : (w.displace j'.drop j'.kind).job? j.drop j.kind = some j := by rw [hd, hk, displace_job?, jobs, own]
  have queue : (w.formPush j' frame first last).planner.jobs =
      replaceJob (w.displace j'.drop j'.kind).planner.jobs { j' with state := .active } := rfl
  have line : (w.displace j'.drop j'.kind).trunk = s.trunk := (displace_trunk _ _ _).trans trunk
  refine { ex := ?_, count := ?_, served := ?_, job := ?_, displaced := ?_, preempt := ?_ }
  · show some ({ kind := .push j'.kind, drop := some j'.drop, frame := _, stage := .quiet, waits := 0, burstStart := _
                 burstEnd := _, lastResend := none, set := (w.displace j'.drop j'.kind).settings.trunk, detached := false
                 since := (w.displace j'.drop j'.kind).timebase } : Exchange) = _
    rw [displace_eq]
    show some ({ kind := .push j'.kind, drop := some j'.drop, frame := _, stage := .quiet, waits := 0, burstStart := _
                 burstEnd := _, lastResend := none, set := w.settings.trunk, detached := false, since := w.timebase } : Exchange) = _
    rw [hd, hk, settings, timebase]
  · show min 255 ((w.displace j'.drop j'.kind).trunk.pushCount + 1) = _
    rw [line]
  · exact congrArg some hd
  · exact job?_putJob held hd hk
  · intro i queued other
    rw [queue]
    have kept := displace_others (s := w) (d := j'.drop) (k := j'.kind) (i := i) (by rw [planner]; exact queued)
      (by rw [hd, hk]; exact other)
    refine List.mem_map.mpr ⟨_, kept, if_neg ?_⟩
    have still : Job.serves j'.drop j'.kind
        (if i.state = .active then { i with state := if i.underWay then .paused else .ready } else i) = false := by
      rw [hd, hk]
      split <;> exact other
    rw [still]
    exact Bool.false_ne_true
  · show (w.displace j'.drop j'.kind).planner.preempt = _
    rw [displace_preempt, planner, hd, hk]

theorem formPush_table (s : State) (j : Job) (frame : TrunkFrame) (first last : Nat) :
    (s.formPush j frame first last).table = s.table := by
  unfold State.formPush
  rw [displace_eq]
  rfl

theorem placeMark_eq (s : State) (d : DropId) : s.placeMark d = s.setTable (s.placeMark d).table := by
  unfold State.placeMark
  rw [releaseMark_eq]
  rfl

/-- The hub and job with which a job chosen again goes on: a paused FULL step from its acknowledged point (R74, R110). -/
theorem wake_awake {s : State} {j : Job} (h : j.isFull = false ∨ j.phase = .open_) : s.wake j = (s, j) := by
  unfold State.wake
  refine if_neg ?_
  rintro ⟨-, full, phase⟩
  rcases h with h | h
  · rw [full] at h
    cases h
  · exact phase h

/-- What waking a FULL step past its OPEN leaves: its mark at the acknowledged point and its next index there when it was paused. -/
theorem wake_full {s : State} {j : Job} {m : Mark} (full : j.isFull = true) (past : j.phase ≠ .open_)
    (mark : (s.mark j.drop).map (fun m => if j.state = .paused ∧ j.phase ≠ .open_ then m.toAck else m) = some m) :
    (s.wake j).2 = { j with next := if j.state = .paused then m.ack.index else j.next } ∧ (s.wake j).1.mark j.drop = some m ∧
      (s.wake j).1 = s.setTable (s.wake j).1.table := by
  cases held : s.mark j.drop with
  | none => rw [held] at mark; cases mark
  | some m0 =>
    rw [held, Option.map_some] at mark
    injection mark with mark
    by_cases paused : j.state = .paused
    · rw [if_pos ⟨paused, past⟩] at mark
      have woken : s.wake j = (s.setMark j.drop (some m0.toAck), { j with next := m0.ack.index }) := by
        unfold State.wake
        rw [if_pos ⟨paused, full, past⟩, held]
      rw [woken, if_pos paused, ← mark]
      refine ⟨rfl, ?_, rfl⟩
      exact Per8.get_set_self _ _ _
    · rw [if_neg fun both => paused both.1] at mark
      have woken : s.wake j = (s, j) := by
        unfold State.wake
        exact if_neg fun both => paused both.1
      rw [woken, if_neg paused, ← mark]
      exact ⟨rfl, held, rfl⟩

section
variable {s : State} {j : Job}

theorem pushJob_open (phase : j.phase = .open_) : s.pushJob j = s.openStep j := by
  unfold State.pushJob
  rw [wake_awake (.inr phase)]
  simp only [phase]

theorem pushJob_segments (phase : j.phase = .segments) : s.pushJob j = (s.wake j).1.sendBurst (s.wake j).2 := by
  have same : (s.wake j).2.phase = .segments := by
    unfold State.wake
    split
    · split <;> exact phase
    · exact phase
  unfold State.pushJob
  simp only [same]

theorem pushJob_close (phase : j.phase = .close) {g : BitVec 32} (digest : (s.wake j).1.stepDigest (s.wake j).2 = some g) :
    s.pushJob j = (s.wake j).1.formPush (s.wake j).2 (.close g) 0 0 := by
  have same : (s.wake j).2.phase = .close := by
    unfold State.wake
    split
    · split <;> exact phase
    · exact phase
  unfold State.pushJob
  simp only [same, digest]

theorem pushJob_activate (phase : j.phase = .activate) (part : j.isFull = false) :
    s.pushJob j = s.formPush j (.activate j.target) 0 0 := by
  unfold State.pushJob
  rw [wake_awake (.inl part)]
  simp only [phase]

theorem openStep_full {q : List Step} (steps : j.plan = .full :: q) : s.openStep j = s.openFull j := by
  unfold State.openStep
  rw [steps]

theorem isFull_full {q : List Step} (steps : j.plan = .full :: q) : j.isFull = true := by
  unfold Job.isFull
  rw [steps]
  rfl

theorem isFull_part {x : Step} {q : List Step} (steps : j.plan = x :: q) (part : x ≠ .full) : j.isFull = false := by
  unfold Job.isFull
  rw [steps]
  simpa using part

theorem plan_full (full : j.isFull = true) : ∃ q, j.plan = .full :: q := by
  unfold Job.isFull at full
  exact List.head?_eq_some_iff.mp (beq_iff_eq.mp full)

theorem pushed_busy {t : State} {j' : Job} {frame : TrunkFrame} {first last : Nat} (h : Pushed j j' frame first last s t) :
    t.trunk.ex.isSome = true := by
  rw [h.ex]
  rfl

variable (own : s.job? j.drop j.kind = some j)
include own

theorem pushJob_open_delta {e : Nat} {q : List Step} {r : Delta} (phase : j.phase = .open_) (steps : j.plan = .delta e :: q)
    (record : s.cat.deltaOf j e = some r) :
    Pushed j { j with underWay := true, base := (s.classOf j.drop).blockBase, record := r.ref }
        (.openF .block e .delta r.segments.length (s.classOf j.drop).blockBase r.urgent false) 0 0 s (s.pushJob j) ∧
      (s.pushJob j).table = s.table := by
  have opens : s.pushJob j = s.formPush { j with underWay := true, base := (s.classOf j.drop).blockBase, record := r.ref }
      (.openF .block e .delta r.segments.length (s.classOf j.drop).blockBase r.urgent false) 0 0 := by
    rw [pushJob_open phase]
    simp only [State.openStep, steps, record]
  rw [opens]
  exact ⟨formPush_pushed (by rfl) (by rfl) (by rfl) (by rfl) own (by rfl) (by rfl) _ _ _, formPush_table _ _ _ _ _⟩

theorem pushJob_open_stage {e : Nat} {q : List Step} {r : Fare} (phase : j.phase = .open_) (steps : j.plan = .stage e :: q)
    (record : s.cat.fareOf j e = some r) :
    Pushed j { j with underWay := true, base := (s.classOf j.drop).fareBase, record := r.ref }
        (.openF .fare e .full r.segments.length (s.classOf j.drop).fareBase false false) 0 0 s (s.pushJob j) ∧
      (s.pushJob j).table = s.table := by
  have opens : s.pushJob j = s.formPush { j with underWay := true, base := (s.classOf j.drop).fareBase, record := r.ref }
      (.openF .fare e .full r.segments.length (s.classOf j.drop).fareBase false false) 0 0 := by
    rw [pushJob_open phase]
    simp only [State.openStep, steps, record]
  rw [opens]
  exact ⟨formPush_pushed (by rfl) (by rfl) (by rfl) (by rfl) own (by rfl) (by rfl) _ _ _, formPush_table _ _ _ _ _⟩

theorem pushJob_open_full {q : List Step} (phase : j.phase = .open_) (steps : j.plan = .full :: q) (ready : s.tableClosed = false)
    (fits : max 1 ((s.table.live + 19) / 20) ≤ (s.classOf j.drop).blockSize) :
    Pushed j { j with underWay := true, base := (s.classOf j.drop).blockBase }
        (.openF .block s.cat.h .full (max 1 ((s.table.live + 19) / 20)) (s.classOf j.drop).blockBase false true) 0 0 s (s.pushJob j) ∧
      (s.pushJob j).mark j.drop = some s.newMark := by
  have opens : s.pushJob j = (s.placeMark j.drop).formPush { j with underWay := true, base := (s.classOf j.drop).blockBase }
      (.openF .block s.cat.h .full (max 1 ((s.table.live + 19) / 20)) (s.classOf j.drop).blockBase false true) 0 0 := by
    rw [pushJob_open phase, openStep_full steps]
    unfold State.openFull
    rw [ready, if_neg Bool.false_ne_true]
    exact if_pos (by exact fits)
  rw [opens]
  constructor
  · rw [placeMark_eq]
    exact formPush_pushed (by rfl) (by rfl) (by rfl) (by rfl) own (by rfl) (by rfl) _ _ _
  · unfold State.mark
    rw [formPush_table]
    exact Per8.get_set_self _ _ _

theorem pushJob_burst (phase : j.phase = .segments) (part : j.isFull = false)
    (some_ : j.next < min (j.next + s.settings.trunk.burst) (s.stepSegments j)) :
    Pushed j { j with burstStart := j.next }
        (.segment j.next (j.next + 1 == min (j.next + s.settings.trunk.burst) (s.stepSegments j)) none) j.next
        (min (j.next + s.settings.trunk.burst) (s.stepSegments j)) s (s.pushJob j) ∧
      (s.pushJob j).table = s.table := by
  have sends : s.pushJob j = s.formPush { j with burstStart := j.next }
      (.segment j.next (j.next + 1 == min (j.next + s.settings.trunk.burst) (s.stepSegments j)) none) j.next
      (min (j.next + s.settings.trunk.burst) (s.stepSegments j)) := by
    rw [pushJob_segments phase, wake_awake (.inl part)]
    unfold State.sendBurst State.moveCursor
    rw [part]
    exact if_pos some_
  rw [sends]
  exact ⟨formPush_pushed (by rfl) (by rfl) (by rfl) (by rfl) own (by rfl) (by rfl) _ _ _, formPush_table _ _ _ _ _⟩

theorem pushJob_burst_full {m : Mark} (phase : j.phase = .segments) (full : j.isFull = true)
    (mark : (s.mark j.drop).map (fun m => if j.state = .paused ∧ j.phase ≠ .open_ then m.toAck else m) = some m) {n : Nat}
    (next : (if j.state = .paused then m.ack.index else j.next) = n) (some_ : n < min (n + s.settings.trunk.burst) m.segs) :
    Pushed j { j with next := n, burstStart := n } (.segment n (n + 1 == min (n + s.settings.trunk.burst) m.segs) none) n
        (min (n + s.settings.trunk.burst) m.segs) s (s.pushJob j) ∧
      (s.pushJob j).mark j.drop = some { m with burst := m.cur } := by
  obtain ⟨woken, held, hub⟩ := wake_full full (by rw [phase]; nofun) mark
  obtain ⟨q, steps⟩ := plan_full full
  rw [next] at woken
  rw [pushJob_segments phase, woken]
  generalize (s.wake j).1 = w at held hub
  have total : w.stepSegments { j with next := n } = m.segs := by
    simp only [State.stepSegments, steps, held]
  have settings : w.settings = s.settings := by rw [hub]; rfl
  have sends : w.sendBurst { j with next := n } = (w.onMark j.drop Mark.beginBurst).formPush { j with next := n, burstStart := n }
      (.segment n (n + 1 == min (n + s.settings.trunk.burst) m.segs) none) n (min (n + s.settings.trunk.burst) m.segs) := by
    unfold State.sendBurst State.moveCursor
    rw [total, settings]
    refine (if_pos some_).trans ?_
    rw [if_pos (show Job.isFull { j with next := n } = true from full)]
  rw [sends]
  constructor
  · rw [hub]
    exact formPush_pushed (by rfl) (by rfl) (by rfl) (by rfl) own (by rfl) (by rfl) _ _ _
  · unfold State.mark
    rw [formPush_table]
    refine (onMark_mark w j.drop Mark.beginBurst).trans ?_
    rw [held]
    rfl

theorem pushJob_close_part {g : BitVec 32} (phase : j.phase = .close) (part : j.isFull = false) (digest : s.stepDigest j = some g) :
    Pushed j j (.close g) 0 0 s (s.pushJob j) := by
  rw [pushJob_close phase (by rw [wake_awake (.inl part)]; exact digest), wake_awake (.inl part)]
  exact formPush_pushed (by rfl) (by rfl) (by rfl) (by rfl) own (by rfl) (by rfl) _ _ _

theorem pushJob_close_full {m : Mark} (phase : j.phase = .close) (full : j.isFull = true)
    (mark : (s.mark j.drop).map (fun m => if j.state = .paused ∧ j.phase ≠ .open_ then m.toAck else m) = some m) :
    Pushed j { j with next := if j.state = .paused then m.ack.index else j.next } (.close (~~~ m.cur.reg)) 0 0 s (s.pushJob j) := by
  obtain ⟨woken, held, hub⟩ := wake_full full (by rw [phase]; nofun) mark
  obtain ⟨q, steps⟩ := plan_full full
  have digest : (s.wake j).1.stepDigest (s.wake j).2 = some (~~~ m.cur.reg) := by
    rw [woken]
    simp only [State.stepDigest, steps, held, Option.map_some, Mark.digest]
  rw [pushJob_close phase digest, woken, hub]
  exact formPush_pushed (by rfl) (by rfl) (by rfl) (by rfl) own (by rfl) (by rfl) _ _ _

/-- The push of a job is formed by its phase and step; a decision that takes what the push forms has it so. -/
theorem pushFormed_of {t : State} (takes : (s.pushJob j).trunk.ex.isSome = true → t = s.pushJob j) : PushFormed j s t := by
  have taken {j' : Job} {frame : TrunkFrame} {first last : Nat} {P : State → Prop}
      (h : Pushed j j' frame first last s (s.pushJob j) ∧ P (s.pushJob j)) : Pushed j j' frame first last s t ∧ P t := by
    rw [takes (pushed_busy h.1)]
    exact h
  have taken' {j' : Job} {frame : TrunkFrame} {first last : Nat} (h : Pushed j j' frame first last s (s.pushJob j)) :
      Pushed j j' frame first last s t := (taken (P := fun _ => True) ⟨h, trivial⟩).1
  refine ⟨fun e q r phase steps record => taken (P := fun t => t.table = s.table) (pushJob_open_delta own phase steps record),
    fun e q r phase steps record => taken (P := fun t => t.table = s.table) (pushJob_open_stage own phase steps record),
    fun q phase steps ready => fun fits => taken (P := fun t => t.mark j.drop = some s.newMark)
      (pushJob_open_full own phase steps ready fits),
    fun phase part some_ => taken (P := fun t => t.table = s.table) (pushJob_burst own phase part some_),
    fun m phase full mark some_ => taken (P := fun t => t.mark j.drop = some { m with burst := m.cur })
      (pushJob_burst_full own phase full mark rfl some_), ?_, ?_, ?_, ?_⟩
  · intro e q r phase steps record
    refine taken' (pushJob_close_part own phase (isFull_part steps nofun) ?_)
    simp only [State.stepDigest, steps, record, Option.map_some]
  · intro e q r phase steps record
    refine taken' (pushJob_close_part own phase (isFull_part steps nofun) ?_)
    simp only [State.stepDigest, steps, record, Option.map_some]
  · intro m phase full mark
    exact taken' (pushJob_close_full own phase full mark)
  · intro phase part
    refine taken' ?_
    rw [pushJob_activate phase part]
    exact formPush_pushed (by rfl) (by rfl) (by rfl) (by rfl) own (by rfl) (by rfl) _ _ _

end

end Sys2Proof.Machine

namespace Sys2Proof.Machine

/-! #### The candidates tried in their order (R109, R110) -/

theorem tryJob_busy {s : State} (flying : s.trunk.ex.isSome = true) (d : DropId) (k : Kind) : s.tryJob d k = s :=
  if_pos flying

theorem tryAll_busy {s : State} (flying : s.trunk.ex.isSome = true) (js : List Job) :
    js.foldl (fun s j => s.tryJob j.drop j.kind) s = s := by
  induction js with
  | nil => rfl
  | cons j js ih => rw [List.foldl_cons, tryJob_busy flying, ih]

theorem tryJob_candidate {s : State} {j : Job} (free : s.trunk.ex = none) (own : s.job? j.drop j.kind = some j)
    (may : s.candidate j = true) : s.tryJob j.drop j.kind = s.pushJob j := by
  unfold State.tryJob
  rw [free, own]
  exact if_pos may

/-- The choice goes on from candidate `j` and takes what its push forms. -/
theorem choice_takes {s : State} {j : Job} (free : s.trunk.ex = none) (own : s.job? j.drop j.kind = some j)
    (may : s.candidate j = true) (rest : List Job) (formed : (s.pushJob j).trunk.ex.isSome = true) :
    ((j :: rest).foldl (fun s j => s.tryJob j.drop j.kind) s).afterChoice = s.pushJob j := by
  rw [List.foldl_cons, tryJob_candidate free own may, tryAll_busy formed, afterChoice_busy formed]

/-- A candidate at the OPEN of a FULL step finds the table open (R65, R109). -/
theorem candidate_open {s : State} {j : Job} (may : s.candidate j = true) (phase : j.phase = .open_) (full : j.isFull = true) :
    s.tableClosed = false := by
  unfold State.candidate Job.opensFull at may
  rw [phase, full] at may
  simp only [beq_self_eq_true, Bool.true_and, Bool.and_eq_true, Bool.not_eq_true'] at may
  exact may.2

/-- The hub after the OPEN of a FULL step that has outgrown its window (R110, R111): the mark released, the pair planned again. -/
def State.outgrown (s : State) (j : Job) : State :=
  (((s.placeMark j.drop).releaseMark j.drop).putJob { j with underWay := false }).planPair j.drop .block

theorem pushJob_outgrown {s : State} {j : Job} {q : List Step} (phase : j.phase = .open_) (steps : j.plan = .full :: q)
    (ready : s.tableClosed = false) (wide : (s.classOf j.drop).blockSize < max 1 ((s.table.live + 19) / 20)) :
    s.pushJob j = s.outgrown j := by
  rw [pushJob_open phase, openStep_full steps]
  unfold State.openFull
  rw [ready, if_neg Bool.false_ne_true]
  exact if_neg (Nat.not_le.mpr wide)

theorem planPair_pollMode (s : State) (d : DropId) (k : Kind) : (s.planPair d k).roster.pollMode = s.roster.pollMode := by
  have noted : (s.noted d k).roster.pollMode = s.roster.pollMode := by
    cases k
    · rfl
    · show (s.noteNofit d _).roster.pollMode = _
      unfold State.noteNofit
      split
      · rw [writeLog_eq]
        rfl
      · rfl
  have kind : (s.planKind d k).roster.pollMode = s.roster.pollMode := by rw [planKind_acted, acted_roster, noted]
  unfold State.planPair
  split
  · split
    · exact kind
    · split
      · rfl
      · split
        · rfl
        · exact kind
  · rfl

/-- Planning a pair whose job has no step under way reads no read mark (R105). -/
theorem planPair_unread {d : DropId} {k : Kind} {s t : State} (hub : SameHub s t) (job : t.job? d k = s.job? d k)
    (drop : (t.drop d).planning = (s.drop d).planning) (rests : ∀ j, s.job? d k = some j → j.underWay = false) :
    (t.planPair d k).job? d k = (s.planPair d k).job? d k := by
  have presence : (t.drop d).presence = (s.drop d).presence := by have x := congrArg Drop.presence drop; exact x
  have stopping : (t.drop d).stopping = (s.drop d).stopping := by have x := congrArg Drop.stopping drop; exact x
  have known : (t.drop d).known = (s.drop d).known := by have x := congrArg Drop.known drop; exact x
  have holdings : (t.drop d).holdings = (s.drop d).holdings := by have x := congrArg Drop.holdings drop; exact x
  have planned : t.planned d = s.planned d := by unfold State.planned; rw [presence, stopping, known]
  have plan : t.pairPlan d k = s.pairPlan d k := by unfold State.pairPlan; rw [holdings, hub.blockPlan, hub.cat, hub.classOf]
  have idle (u : State) (j : Job) (p : List Step) (rest : j.underWay = false) : u.keptPlan j p = none := by
    unfold State.keptPlan
    rw [rest]
    rfl
  have taken (p : List Step) (target : Nat) : t.takenJob d k p target = s.takenJob d k p target := by
    unfold State.takenJob
    rw [job]
    cases held : s.job? d k with
    | none => simp only [hub.settled, hub.marked]
    | some j => simp only [idle _ j p (rests j held), hub.settled, hub.marked]
  rw [planPair_job?, planPair_job?, planned, job, hub.inFlight, plan]
  simp only [taken]

section
variable {s : State} {j : Job}

theorem outgrown_trunk : (s.outgrown j).trunk = s.trunk := by
  unfold State.outgrown
  rw [(pair_planPair _ _ _).trunk]
  show ((s.placeMark j.drop).releaseMark j.drop).trunk = _
  rw [releaseMark_trunk, placeMark_trunk]

theorem outgrown_decided (free : s.trunk.ex = none) {q : List Step} (phase : j.phase = .open_) (steps : j.plan = .full :: q)
    (ready : s.tableClosed = false) (wide : (s.classOf j.drop).blockSize < max 1 ((s.table.live + 19) / 20)) :
    Decided s (s.outgrown j) := by
  rw [← pushJob_outgrown phase steps ready wide, pushJob_open phase, openStep_full steps]
  exact openFull_decided s j free

theorem outgrown_mark : (s.outgrown j).mark j.drop = none :=
  planPair_unmarked rfl ((releaseMark_mark _ j.drop j.drop).trans (if_pos rfl))

theorem outgrown_pollMode : (s.outgrown j).roster.pollMode = s.roster.pollMode := by
  unfold State.outgrown
  rw [planPair_pollMode]
  show ((s.placeMark j.drop).releaseMark j.drop).roster.pollMode = _
  rw [releaseMark_roster, placeMark_eq]
  rfl

theorem released_eq : (s.placeMark j.drop).releaseMark j.drop = s.setTable ((s.placeMark j.drop).releaseMark j.drop).table := by
  rw [releaseMark_eq, placeMark_eq]
  rfl

theorem outgrown_others (block : j.kind = .block) {d : DropId} {k : Kind} (other : ¬(d = j.drop ∧ k = .block)) :
    (s.outgrown j).job? d k = s.job? d k := by
  unfold State.outgrown
  rw [(pair_planPair _ _ _).job? d k other, (pair_putJob (k := .block) { j with underWay := false } rfl block).job? d k other, released_eq]
  rfl

theorem outgrown_job? (decided : Decided s ((s.placeMark j.drop).releaseMark j.drop)) (block : j.kind = .block)
    (own : s.job? j.drop j.kind = some j) :
    (s.outgrown j).job? j.drop .block =
      ((s.putJob { j with underWay := false }).planPair j.drop .block).job? j.drop .block := by
  rw [block] at own
  have held {u : State} (h : u.job? j.drop .block = some j) :
      (u.putJob { j with underWay := false }).job? j.drop .block = some { j with underWay := false } := job?_putJob h rfl block
  have kept : ((s.placeMark j.drop).releaseMark j.drop).job? j.drop .block = some j := by
    rw [released_eq]
    exact own
  refine planPair_unread ?_ ?_ ?_ ?_
  · have hub : SameHub s ((s.placeMark j.drop).releaseMark j.drop) :=
      .of_decided decided (by rw [released_eq]; rfl) (by rw [released_eq]; rfl)
    exact ⟨hub.ex, hub.cat, hub.settings, hub.live, hub.mode, hub.door⟩
  · rw [held kept, held own]
  · show (((s.placeMark j.drop).releaseMark j.drop).drop j.drop).planning = _
    rw [released_eq]
    rfl
  · intro i same
    rw [held own] at same
    injection same with same
    rw [← same]

theorem candidate_decided {t : State} (decided : Decided s t) (i : Job) : t.candidate i = s.candidate i := by
  have drop := decided.drops i.drop
  have presence : (t.drop i.drop).presence = (s.drop i.drop).presence := by have x := congrArg Drop.presence drop; exact x
  have stopping : (t.drop i.drop).stopping = (s.drop i.drop).stopping := by have x := congrArg Drop.stopping drop; exact x
  have state : t.table.state = s.table.state := by have x := congrArg CardTable.state decided.table; exact x
  unfold State.candidate State.tableClosed
  rw [presence, stopping, state]

end

/-- Settles O46: the decision is taken step by step; each step forms its exchange, or makes the decision again, or hands on. -/
theorem arbiterDecidesInOrder : Obligations.ArbiterDecidesInOrder := by
  unfold Obligations.ArbiterDecidesInOrder
  refine ⟨fun s => ⟨roundDue_iff s, mem_roundList s, roundList_ascends s, passedOver_iff s, nextUrgent_iff s⟩, fun s free => ?_⟩
  refine ⟨?_, ?_, ?_, ?_⟩
  · intro p waits
    rw [arbitrate_broadcast free waits]
    exact ⟨rfl, rfl⟩
  · intro quiet d urgent
    rw [arbitrate_urgent free quiet urgent]
    have formed := formPoll_formed (s.setTrunk { s.trunk with lastUrgent := some d }) .urgentPoll d
    obtain ⟨-, -, -, -, -, trunk⟩ := formPoll_port (s.setTrunk { s.trunk with lastUrgent := some d }) .urgentPoll d
    have clear := formPoll_tapUrgent (s.setTrunk { s.trunk with lastUrgent := some d }) .urgentPoll d
    unfold State.formUrgent
    generalize State.formPoll _ _ _ = t at formed trunk clear
    exact ⟨formed, by rw [trunk]; rfl, clear⟩
  · intro quiet calm
    refine ⟨fun l d rest round turn => arbitrate_turn free quiet calm round turn,
      fun l round spent => arbitrate_spent free quiet calm round spent, fun round due => ⟨fun d rest list => ?_, fun list fit => ?_⟩⟩
    · exact arbitrate_due free quiet calm round due list
    · exact arbitrate_due_empty free quiet calm round due list fit
  · intro quiet calm round undue
    have pushes := arbitrate_push free quiet calm round undue
    refine ⟨fun none_ => ?_, fun j rest list own => ?_⟩
    · rw [pushChoice_none none_] at pushes
      refine ⟨fun idle => pushes.trans (afterChoice_idle idle), fun mode pause => ?_⟩
      rw [afterChoice_starts free round mode pause] at pushes
      rw [pushes]
      exact ⟨fun d rest list => startRound_started list, fun list => startRound_empty list⟩
    · have may (i : Job) (among : i ∈ s.candidates) : s.candidate i = true := ((mem_candidates s i).mp among).2
      have first := may j (by rw [list]; exact List.mem_cons_self)
      have choice : s.pushChoice = (j :: rest).foldl (fun s j => s.tryJob j.drop j.kind) s := by
        unfold State.pushChoice
        rw [list]
      rw [choice] at pushes
      refine ⟨pushFormed_of own fun formed => pushes.trans (choice_takes free own first rest formed), fun q block phase steps wide => ?_⟩
      have ready := candidate_open first phase (isFull_full steps)
      have released : Decided s ((s.placeMark j.drop).releaseMark j.drop) :=
        (placeMark_decided s j.drop ready).trans (releaseMark_decided _ _)
      have decided := outgrown_decided free phase steps ready wide
      have line : (s.outgrown j).trunk.ex = none := by rw [outgrown_trunk]; exact free
      rw [List.foldl_cons, tryJob_candidate free own first, pushJob_outgrown phase steps ready wide] at pushes
      refine ⟨s.outgrown j, decided, outgrown_trunk, outgrown_mark, outgrown_job? released block own, ?_, ?_⟩
      · rintro rfl idle
        rw [pushes, List.foldl_nil]
        exact afterChoice_idle (by rw [outgrown_pollMode, outgrown_trunk]; exact idle)
      · rintro i others rfl other held
        have apart : ¬(i.drop = j.drop ∧ i.kind = .block) := fun same =>
          other.elim (fun differs => differs same.1) (fun differs => differs (same.2.trans block.symm))
        have kept : (s.outgrown j).job? i.drop i.kind = some i := (outgrown_others block apart).trans held
        have next : (s.outgrown j).candidate i = true :=
          (candidate_decided decided i).trans (may i (by rw [list]; exact List.mem_cons_of_mem _ List.mem_cons_self))
        exact pushFormed_of kept fun formed => pushes.trans (choice_takes line kept next others formed)

end Sys2Proof.Machine

namespace Sys2Proof.Machine

/-! ### The round's timers (R91, R139) -/

/-- The trunk but for the exchange and the push count, and the poll mode, as before. -/
structure LineKept (s t : State) : Prop where
  trunk : t.trunk = { s.trunk with ex := t.trunk.ex, pushCount := t.trunk.pushCount }
  pollMode : t.roster.pollMode = s.roster.pollMode

namespace LineKept
variable {s t u : State}

theorem of_eq (trunk : t.trunk = s.trunk) (mode : t.roster.pollMode = s.roster.pollMode) : LineKept s t :=
  ⟨by rw [trunk], mode⟩

theorem refl (s : State) : LineKept s s := of_eq rfl rfl

theorem trans (h : LineKept s t) (g : LineKept t u) : LineKept s u :=
  ⟨by rw [g.trunk, h.trunk], g.pollMode.trans h.pollMode⟩

theorem rounds (h : LineKept s t) : t.trunk.rounds = s.trunk.rounds := by rw [h.trunk]
theorem pause (h : LineKept s t) : t.trunk.emptyPause = s.trunk.emptyPause := by rw [h.trunk]

end LineKept

section
variable (s : State)

theorem formPush_line (j : Job) (frame : TrunkFrame) (first last : Nat) : LineKept s (s.formPush j frame first last) := by
  unfold State.formPush
  rw [displace_eq]
  exact ⟨rfl, rfl⟩

theorem openFull_line (j : Job) : LineKept s (s.openFull j) := by
  have placed : LineKept s (s.placeMark j.drop) := by
    rw [placeMark_eq]
    exact .of_eq rfl rfl
  unfold State.openFull
  split
  · exact .refl s
  · dsimp only
    split
    · exact placed.trans (formPush_line _ _ _ _ _)
    · exact .of_eq outgrown_trunk outgrown_pollMode

theorem openStep_line (j : Job) : LineKept s (s.openStep j) := by
  unfold State.openStep
  split
  · split
    · exact formPush_line _ _ _ _ _
    · exact .refl s
  · exact openFull_line s j
  · split
    · exact formPush_line _ _ _ _ _
    · exact .refl s
  · exact .refl s
  · exact .refl s

theorem pushJob_line (j : Job) : LineKept s (s.pushJob j) := by
  have woken : LineKept s (s.wake j).1 := by
    unfold State.wake
    split
    · split <;> exact .of_eq rfl rfl
    · exact .refl s
  unfold State.pushJob
  dsimp only
  refine woken.trans ?_
  generalize (s.wake j).1 = w
  generalize (s.wake j).2 = i
  split
  · exact openStep_line w i
  · unfold State.sendBurst
    dsimp only
    split
    · have moved : LineKept w (w.moveCursor i Mark.beginBurst) := by
        unfold State.moveCursor
        split <;> exact .of_eq rfl rfl
      exact moved.trans (formPush_line _ _ _ _ _)
    · exact .refl w
  · split
    · exact formPush_line _ _ _ _ _
    · exact .refl w
  · exact formPush_line _ _ _ _ _

theorem tryJob_line (d : DropId) (k : Kind) : LineKept s (s.tryJob d k) := by
  unfold State.tryJob
  split
  · exact .refl s
  · split
    · split
      · exact pushJob_line s _
      · exact .refl s
    · exact .refl s

theorem tryAll_line (js : List Job) : LineKept s (js.foldl (fun s j => s.tryJob j.drop j.kind) s) := by
  induction js generalizing s with
  | nil => exact .refl s
  | cons j js ih => exact (tryJob_line s j.drop j.kind).trans (ih _)

end

theorem emptyRound_quiet (s : State) :
    s.emptyRound.roster.pollMode = .periodic ∨ s.emptyRound.trunk.emptyPause.isSome = true := by
  show s.settings.pollMode = .periodic ∨ (if s.settings.pollMode = .continuous then some _ else s.trunk.emptyPause).isSome = true
  cases s.settings.pollMode with
  | continuous => exact .inr rfl
  | periodic => exact .inl rfl

/-- A due round counts one round, also where its list is empty (R91, R92, R139). -/
theorem arbitrate_due_rounds {s : State} (free : s.trunk.ex = none) (quiet : s.trunk.request = none) (calm : s.nextUrgent = none)
    (round : s.trunk.round = none) (due : s.roundDue = true) : s.arbitrate.trunk.rounds = min 65535 (s.trunk.rounds + 1) := by
  cases list : s.roundList with
  | cons d rest => exact (arbitrate_due free quiet calm round due list).2.2.2.1
  | nil =>
    have line := tryAll_line s.emptyRound s.emptyRound.candidates
    have idle : s.emptyRound.pushStep = s.emptyRound.pushChoice :=
      afterChoice_idle ((emptyRound_quiet s).imp (fun mode => line.pollMode.trans mode)
        fun pause => (congrArg Option.isSome line.pause).trans pause)
    rw [arbitrate_steps free quiet calm, roundStep_due free round due, startRound_empty list,
      if_neg (by rw [show s.emptyRound.trunk.ex = none from free]; exact Bool.false_ne_true), idle]
    exact line.rounds

/-- With no candidate and no pause a CONTINUOUS hub starts a round (R139). -/
theorem arbitrate_idle_rounds {s : State} (free : s.trunk.ex = none) (quiet : s.trunk.request = none) (calm : s.nextUrgent = none)
    (round : s.trunk.round = none) (mode : s.roster.pollMode = .continuous) (pause : s.trunk.emptyPause = none)
    (none_ : s.candidates = []) : s.arbitrate.trunk.rounds = min 65535 (s.trunk.rounds + 1) := by
  cases due : s.roundDue with
  | true => exact arbitrate_due_rounds free quiet calm round due
  | false =>
    rw [arbitrate_push free quiet calm round due, pushChoice_none none_, afterChoice_starts free round mode pause]
    cases list : s.roundList with
    | cons d rest => exact (startRound_started list).2.2.2.1
    | nil =>
      rw [startRound_empty list]
      rfl

theorem conclude_line (s : State) : s.conclude.trunk = s.arbitrate.trunk := by
  unfold State.conclude
  rw [(uplink_port _).1]
  rfl

/-- Settles O45: both timers move the timebase and lead to a decision, which finds nothing before a round. -/
theorem roundTimersWakeTheArbiter : Obligations.RoundTimersWakeTheArbiter := by
  unfold Obligations.RoundTimersWakeTheArbiter
  refine fun s => ⟨fun e pause => ?_, fun r mode last => ?_⟩
  · have runs : exec .emptyRoundPauseEnd s =
        .next ((s.passTo e).setTrunk { (s.passTo e).trunk with emptyPause := none }).conclude := by
      show execEmptyRoundPauseEnd s = _
      unfold execEmptyRoundPauseEnd
      rw [pause]
    have ended : Decided (s.setTimebase (max s.timebase e))
        ((s.passTo e).setTrunk { (s.passTo e).trunk with emptyPause := none }) := decided_setTrunk _ _ rfl (fun x flying => flying)
    have line := conclude_line ((s.passTo e).setTrunk { (s.passTo e).trunk with emptyPause := none })
    refine ⟨_, runs, ended.trans (conclude_decided _), ?_, ?_⟩
    · intro flying
      rw [line]
      unfold State.arbitrate
      rw [if_pos (by exact flying)]
      rfl
    · rintro ⟨free, quiet, calm, round⟩ mode none_
      rw [line]
      exact arbitrate_idle_rounds (by exact free) (by exact quiet) (by exact calm) (by exact round) (by exact mode) rfl (by exact none_)
  · have runs : exec .pollPeriod s = .next (s.passTo (r + s.settings.period * 1000000)).conclude := by
      show execPollPeriod s = _
      unfold execPollPeriod
      rw [mode, last]
    refine ⟨_, runs, conclude_decided _, ?_⟩
    rintro ⟨free, quiet, calm, round⟩
    rw [conclude_line]
    have due : (s.passTo (r + s.settings.period * 1000000)).roundDue = true :=
      (roundDue_iff _).mpr (.inr ⟨r, last, .inr ⟨mode, Nat.le_max_right _ _⟩⟩)
    exact arbitrate_due_rounds (by exact free) (by exact quiet) (by exact calm) (by exact round) due

end Sys2Proof.Machine

namespace Sys2Proof.Machine

/-! ### Misses (R126, R127, R129) -/

/-- An exchange ended by a miss at time `T` with the trunk's counters and line time as in `line` (R79, R82, R87, R129). -/
theorem endMissed (s : State) (x : Exchange) (d : DropId) (garbled : Bool) (T : Nat) (line : Trunk) :
    let t := (((s.setTimebase T).setTrunk line).countMiss d garbled).endExchange x d (.missed (if garbled then .garbled else .noAnswer))
      (fun s => s.missEvent d)
    ExchangeEnded d s t ∧
      ExchangeEnds x d (.missed (if garbled then .garbled else .noAnswer))
        (((s.setTimebase T).setTrunk { line with ex := none }).setDrop d ((s.drop d).missed garbled)) t ∧
      (t.drop d).bare = (afterMiss garbled (s.drop d)).bare ∧ t.timebase = T ∧
      t.taps.bare = s.taps.bare ∧ t.roster.lastTap = s.roster.lastTap ∧ t.trunk.bare = line.bare ∧
      ((s.drop d).stopping = false → (s.drop d).presence = .joining ∨ ((s.drop d).presence = .fading ∧ 3 ≤ (s.drop d).run) →
        t.port.flags.dropLost =
            some (s.port.flags.dropLost.getD { edition := 0, code := none, drop := some d, minute := s.stamp }) ∧
          (∀ j ∈ t.planner.jobs, j.drop ≠ d) ∧ t.mark d = none ∧ (t.drop d).fareAhead = false ∧
          (t.drop d).blockNofit = false ∧ (t.drop d).tapUrgent = false) := by
  obtain ⟨ended, record, time, taps, lastTap, trunk⟩ := endMiss_spec (s.setTimebase T) x d
    (.missed (if garbled then .garbled else .noAnswer)) garbled line
  exact ⟨(ExchangeEnded.setTimebase s T).trans ended, endExchange_ends_of rfl (miss_event d) rfl, record, time, taps, lastTap, trunk,
    fun going lost => endMiss_lost (s.setTimebase T) x d _ garbled line going lost⟩

/-- Settles O39: each of the four events ends the exchange in flight by a miss with its cause. -/
theorem missEndsTheExchange : Obligations.MissEndsTheExchange := by
  unfold Obligations.MissEndsTheExchange
  intro x d s flying drop
  refine ⟨fun awaiting => ?_, fun receiving => ⟨?_, ?_, fun bytes bad => ?_⟩⟩
  · refine ⟨_, ?_, endMissed s x d false _ { s.trunk with noAnswer := _ }⟩
    show execReplyTimeout s = _
    unfold execReplyTimeout
    rw [inStageWith_of flying awaiting drop]
    rfl
  · refine ⟨_, ?_, endMissed s x d true _ { s.trunk with garble := _, lineFrom := _ }⟩
    show execAnswerIncomplete s = _
    unfold execAnswerIncomplete
    rw [inStageWith_of flying receiving drop]
    rfl
  · refine ⟨_, ?_, endMissed s x d true _ { s.trunk with garble := _, lineFrom := _ }⟩
    show execAnswerLengthTooLarge s = _
    unfold execAnswerLengthTooLarge
    rw [inStageWith_of flying receiving drop]
    rfl
  · refine ⟨_, ?_, endMissed s x d true _ { s.trunk with garble := _, lineFrom := _ }⟩
    show execAnswerComplete bytes s = _
    unfold execAnswerComplete
    rw [inStageWith_of flying receiving drop]
    simp only [bad]
    rfl

end Sys2Proof.Machine

namespace Sys2Proof.Machine

/-! ### Good answers (R83, R84, R112, R113, R128 to R130, R134) -/

theorem takeHolding_counted (s : State) (d : DropId) (f : Holdings → Holdings) :
    (s.countGood d).takeHolding d f =
      s.setDrop d { s.drop d with holdings := f (s.drop d).holdings, known := true }.counted := by
  unfold State.takeHolding
  rw [countGood_drop]
  exact State.setDrop_setDrop _ _ _ _

/-- An exchange with `d` ended by a good answer that has been counted in a hub that is `s` but for its line time and the record
(R79, R129, R130). -/
theorem endAnswered (s : State) (x : Exchange) (d : DropId) (o : PushOutcome) (r : Drop) (line : Trunk) :
    let t := ((s.setTrunk line).setDrop d r.counted).endGood x d o
    ExchangeEnded d s t ∧ ExchangeEnds x d o ((s.setTrunk { line with ex := none }).setDrop d r.counted) t ∧
      (t.drop d).bare = (afterGood r).bare ∧ t.timebase = s.timebase ∧ t.taps.bare = s.taps.bare ∧
      t.roster.lastTap = s.roster.lastTap ∧ t.trunk.bare = line.bare := by
  have record : (((s.setTrunk line).setDrop d r.counted).drop d).bare =
      { r with counters := { r.counters with good := bump r.counters.good 1 } }.bare := by
    rw [State.drop_setDrop, if_pos rfl]
    rfl
  obtain ⟨ended, after, time, taps, lastTap, trunk⟩ := endGood_spec s x d o line r _ (ended_setDrop _ d r.counted) record
  exact ⟨ended, endGood_ends rfl, after, time, taps, lastTap, trunk⟩

theorem answerNak_eq {s : State} {x : Exchange} {d : DropId} {bytes : List Byte} {why : NakReason} (flying : s.trunk.ex = some x)
    (receiving : x.stage = .receiving) (drop : x.drop = some d) (good : judgeAnswer x.drop x.frame bytes = some (.nak why)) :
    exec (.answerComplete bytes) s =
      .next (((s.setTrunk { s.trunk with lineFrom := s.timebase }).setDrop d (s.drop d).counted).endGood x d (.nak why)) :=
  answerComplete_eq flying receiving drop good

/-- An ACK to a push frame other than a SEGMENT (R84, R111, R113). -/
theorem answerAck_eq {s : State} {x : Exchange} {d : DropId} {bytes : List Byte} {k : Kind} {v : Nat} {w : Option Nat}
    (flying : s.trunk.ex = some x) (receiving : x.stage = .receiving) (drop : x.drop = some d) (push : x.kind = .push k)
    (good : judgeAnswer x.drop x.frame bytes = some (.ack v w)) :
    exec (.answerComplete bytes) s = .next ((s.touchLine.countGood d).takeAck x d k v w) := by
  rw [answerComplete_eq flying receiving drop good]
  simp only [State.takeReply, push]

/-- The same for the exchange in flight, when it is what the answer comes to. -/
theorem endsAnswered {s : State} {x : Exchange} {d : DropId} {bytes : List Byte} {o : PushOutcome} {r : Drop}
    (runs : exec (.answerComplete bytes) s =
      .next (((s.setTrunk { s.trunk with lineFrom := s.timebase }).setDrop d r.counted).endGood x d o)) :
    ∃ t, exec (.answerComplete bytes) s = .next t ∧ ExchangeEnded d s t ∧
      ExchangeEnds x d o ((s.setTrunk { s.trunk with ex := none, lineFrom := s.timebase }).setDrop d r.counted) t ∧
      (t.drop d).bare = (afterGood r).bare ∧ t.timebase = s.timebase ∧ t.taps.bare = s.taps.bare ∧
      t.roster.lastTap = s.roster.lastTap ∧ t.trunk.bare = { s.trunk with lineFrom := s.timebase }.bare :=
  ⟨_, runs, endAnswered s x d o r { s.trunk with lineFrom := s.timebase }⟩

/-- Settles O43: the holding that the answer reports is written, and the exchange ends by a good answer. -/
theorem ackWritesTheReportedHolding : Obligations.AckWritesTheReportedHolding := by
  unfold Obligations.AckWritesTheReportedHolding
  intro x d bytes s flying receiving drop
  refine ⟨fun why good => endsAnswered (answerNak_eq flying receiving drop good), fun k v w push good => ?_⟩
  have runs := answerAck_eq flying receiving drop push good
  have touched (f : Holdings → Holdings) : (s.touchLine.countGood d).takeHolding d f =
      (s.setTrunk { s.trunk with lineFrom := s.timebase }).setDrop d
        { s.drop d with holdings := f (s.drop d).holdings, known := true }.counted := takeHolding_counted s.touchLine d f
  refine ⟨fun k' e f n base u r frame => endsAnswered (runs.trans ?_), fun g frame kind => endsAnswered (runs.trans ?_),
    fun g frame kind => endsAnswered (runs.trans ?_), fun e frame => endsAnswered (runs.trans ?_)⟩
  · unfold State.takeAck
    rw [frame]
    rfl
  · unfold State.takeAck
    simp only [frame, kind, touched]
  · unfold State.takeAck
    simp only [frame, kind, touched]
  · unfold State.takeAck
    simp only [frame, touched]

end Sys2Proof.Machine

namespace Sys2Proof.Machine

/-! #### A WAIT (R128) -/

/-- A good answer that keeps the exchange, in a hub that is `s` but for its line and the drop's record (R79, R128, R134). -/
theorem keptAnswered {s u : State} {d : DropId} {y : Exchange} {line : Trunk} (hu : Ended d (s.setTrunk line) u)
    (unjudged : Unjudged s u)
    (record : (u.drop d).bare = (s.drop d).counted.bare) (going : (s.drop d).stopping = false) (flying : u.trunk.ex = some y) :
    let t := (u.goodEvent d).judgeReady.conclude
    (ExchangeEnded d s t ∧ (t.drop d).bare = (afterGood (s.drop d)).bare ∧ t.timebase = s.timebase ∧ t.taps.bare = s.taps.bare ∧
      t.roster.lastTap = s.roster.lastTap ∧ ReadinessJudged s t ∧ RecordsFreed s.cat.retired s.cat.withdrawn t) ∧
      t.trunk.bare = line.bare ∧ t.trunk.ex = some y := by
  obtain ⟨ended, after, time, taps, lastTap, trunk, stays⟩ := keptExchange_spec s u d line (s.drop d) y hu record going flying
  have event := unjudged.trans (unjudged_goodEvent u d)
  exact ⟨⟨ended, after, time, taps, lastTap, judged_conclude _ _ event, judged_freed _ _ event⟩, trunk, stays⟩

/-- A presence event of a good answer that is no joining leaves the job queue (R79). -/
theorem goodEvent_planner {s : State} {d : DropId} (h : (s.drop d).presence ≠ .joining) : (s.goodEvent d).planner = s.planner := by
  unfold State.goodEvent
  split
  · rfl
  · unfold State.presenceGood
    split
    · rfl
    · rfl
    next joining => exact absurd joining h
    · rfl
    · rfl

theorem goodEvent_joins {s : State} {d : DropId} (h : (s.drop d).presence = .joining) (going : (s.drop d).stopping = false) :
    s.goodEvent d = s.joinDrop d := by
  unfold State.goodEvent State.presenceGood
  rw [going, h]
  rfl

/-- The jobs at the end of an event that keeps the exchange. -/
theorem kept_planner {u : State} {y : Exchange} (flying : u.trunk.ex = some y) : u.judgeReady.conclude.planner = u.planner := by
  rw [conclude_busy_planner _ (by rw [judgeReady_ex, flying]; rfl), judgeReady_jobs]

/-- The drop's record in planning after the answer that makes it join (R80, R104). -/
theorem afterGood_joining {r : Drop} (joining : r.presence = .joining) (going : r.stopping = false) :
    Drop.planning { r.counted with presence := .present, run := 0 } = (afterGood r).planning := by
  simp only [afterGood, goodMove, Drop.counted, Drop.planning, Drop.bare, joining, going, Bool.false_eq_true, if_false]

/-- A drop that joins by an answer that keeps the exchange: its flag, and both its pairs planned (R80, R104). -/
theorem keptJoins {s u : State} {d : DropId} {y : Exchange} (flying : u.trunk.ex = some y) (port : u.port = s.port)
    (clock : u.clock = s.clock) (jobs : u.planner.jobs = s.planner.jobs) (cat : u.cat = s.cat)
    (settings : u.settings = s.settings) (table : u.table = s.table) (record : u.drop d = (s.drop d).counted)
    (joining : (s.drop d).presence = .joining) (going : (s.drop d).stopping = false) {line : Trunk} (same : line.ex = some y) :
    let t := (u.goodEvent d).judgeReady.conclude
    t.port.flags.dropJoined =
        some (s.port.flags.dropJoined.getD { edition := 0, code := none, drop := some d, minute := s.stamp }) ∧
      ∀ k, t.job? d k = (((s.setTrunk line).setDrop d (afterGood (s.drop d))).planPair d k).job? d k := by
  have joins : u.goodEvent d = u.joinDrop d := goodEvent_joins (by rw [record]; exact joining) (by rw [record]; exact going)
  have stamp : u.stamp = s.stamp := by unfold State.stamp; rw [clock]
  obtain ⟨flag, plans⟩ := joinDrop_spec u d
  rw [joins]
  have moved := (judgeReady_moved (u.joinDrop d)).trans (conclude_decided _).moved
  refine ⟨?_, fun k => ?_⟩
  · refine (moved.flags .dropJoined nofun nofun nofun).trans (flag.trans ?_)
    rw [port, stamp]
  · have flies : (u.joinDrop d).trunk.ex = some y := by rw [joinDrop_trunk, flying]
    refine (job?_of_jobs (congrArg Planner.jobs (kept_planner flies)) d k).trans ((plans k).trans ?_)
    refine SamePair.planPair ⟨⟨?_, ?_, ?_, ?_, ?_, ?_⟩, ?_, ?_, ?_⟩
    · exact flying.trans same.symm
    · exact cat
    · exact settings
    · exact congrArg CardTable.live table
    · exact congrArg Port.mode port
    · exact congrArg Port.door port
    · exact job?_of_jobs jobs d k
    · rw [State.drop_setDrop, if_pos rfl, State.drop_setDrop, if_pos rfl, record]
      exact afterGood_joining joining going
    · show u.table.marks.get d = s.table.marks.get d
      rw [table]

theorem answerWait_eq {s : State} {x : Exchange} {d : DropId} {bytes : List Byte} (flying : s.trunk.ex = some x)
    (receiving : x.stage = .receiving) (drop : x.drop = some d) (good : judgeAnswer x.drop x.frame bytes = some .wait) :
    exec (.answerComplete bytes) s =
      .next (((s.setTrunk { s.trunk with lineFrom := s.timebase }).setDrop d (s.drop d).counted).takeWait x d) :=
  answerComplete_eq flying receiving drop good

/-- An exchange that ends leaves readiness judged and unread records freed. -/
theorem ends_judged {x : Exchange} {d : DropId} {o : PushOutcome} {s t : State} {line : Trunk} {r : Drop}
    (h : ExchangeEnds x d o ((s.setTrunk line).setDrop d r) t) :
    ReadinessJudged s t ∧ RecordsFreed s.cat.retired s.cat.withdrawn t :=
  ⟨⟨h.judged.armed, h.judged.passed, h.judged.unready, h.judged.still⟩, h.freed⟩

/-- The hub with a good answer of `d` counted at the end of its last character. -/
def State.answered (s : State) (d : DropId) : State :=
  (s.setTrunk { s.trunk with lineFrom := s.timebase }).setDrop d (s.drop d).counted

theorem answered_drop (s : State) (d : DropId) : (s.answered d).drop d = (s.drop d).counted := by
  unfold State.answered
  rw [State.drop_setDrop, if_pos rfl]

theorem answered_ended (s : State) (d : DropId) (line : Trunk) : Ended d (s.setTrunk line) ((s.answered d).setTrunk line) :=
  ended_setDrop (s.setTrunk line) d _

/-- The exchange whose frame pauses after a WAIT (R128). -/
def Exchange.paused (x : Exchange) (now : Nat) : Exchange := { x with waits := x.waits + 1, stage := .pause, since := now }

/-- A WAIT pauses the frame of a drop that is not stopping, within the limit (R128). -/
theorem takeWait_pauses {s : State} {x : Exchange} {d : DropId} (going : (s.drop d).stopping = false)
    (within : x.waits + 1 ≤ x.set.waitLimit) :
    s.takeWait x d =
      ((s.setExchange (x.paused s.timebase)).goodEvent d).judgeReady.conclude := by
  unfold State.takeWait
  rw [going, if_neg Bool.false_ne_true, if_pos within]
  rfl

theorem takeWait_beyond {s : State} {x : Exchange} {d : DropId} (going : (s.drop d).stopping = false)
    (beyond : ¬x.waits + 1 ≤ x.set.waitLimit) :
    s.takeWait x d = (s.setTrunk { s.trunk with waitLimit := bump s.trunk.waitLimit 1 }).endGood x d (.missed .waitLimit) := by
  unfold State.takeWait
  rw [going, if_neg Bool.false_ne_true, if_neg beyond]

theorem takeWait_stopping {s : State} {x : Exchange} {d : DropId} (stops : (s.drop d).stopping = true) :
    s.takeWait x d = s.endGood x d .unacknowledged := if_pos stops

/-- Settles O41: a WAIT pauses the frame within the limit; beyond it, or of a stopping drop, it ends the exchange. -/
theorem waitPausesOrEndsTheExchange : Obligations.WaitPausesOrEndsTheExchange := by
  unfold Obligations.WaitPausesOrEndsTheExchange
  intro x d bytes s flying receiving drop good
  have runs : exec (.answerComplete bytes) s = .next ((s.answered d).takeWait x d) := answerWait_eq flying receiving drop good
  have stopping : ((s.answered d).drop d).stopping = (s.drop d).stopping := by rw [answered_drop]; rfl
  cases going : (s.drop d).stopping with
  | true =>
    rw [takeWait_stopping (stopping.trans going)] at runs
    obtain ⟨ended, ends, after, time, taps, lastTap, trunk⟩ :=
      endAnswered s x d .unacknowledged (s.drop d) { s.trunk with lineFrom := s.timebase }
    obtain ⟨judged, freed⟩ := ends_judged ends
    exact ⟨_, runs, ended, after, time, taps, lastTap, judged, freed, nofun, nofun, fun _ => ⟨ends, trunk⟩⟩
  | false =>
    by_cases within : x.waits + 1 ≤ x.set.waitLimit
    · rw [takeWait_pauses (stopping.trans going) within] at runs
      have planner : (((s.answered d).setExchange (x.paused s.timebase)).goodEvent d).judgeReady.conclude.planner =
          (((s.answered d).setExchange (x.paused s.timebase)).goodEvent d).planner :=
        kept_planner ((congrArg Trunk.ex (goodEvent_trunk _ d)).trans rfl)
      obtain ⟨same, trunk, stays⟩ := keptAnswered (u := (s.answered d).setExchange (x.paused s.timebase))
        (answered_ended s d { s.trunk with lineFrom := s.timebase, ex := some (x.paused s.timebase) }) ⟨rfl, rfl, rfl, rfl, rfl⟩
        (congrArg Drop.bare (answered_drop s d)) going rfl
      have joins (joining : (s.drop d).presence = .joining) (line : Trunk) (held : line.ex = some (x.paused s.timebase)) :=
        keptJoins (s := s) (u := (s.answered d).setExchange (x.paused s.timebase)) rfl rfl rfl rfl rfl rfl rfl
          (answered_drop s d) joining going held
      have still (apart : (s.drop d).presence ≠ .joining) :
          (((s.answered d).setExchange (x.paused s.timebase)).goodEvent d).planner = s.planner :=
        goodEvent_planner (s := (s.answered d).setExchange (x.paused s.timebase)) (d := d)
          (by rw [show ((s.answered d).setExchange (x.paused s.timebase)).drop d = (s.drop d).counted from answered_drop s d]; exact apart)
      replace runs : exec (.answerComplete bytes) s =
          .next (((s.answered d).setExchange (x.paused s.timebase)).goodEvent d).judgeReady.conclude := runs
      generalize (((s.answered d).setExchange (x.paused s.timebase)).goodEvent d).judgeReady.conclude = t
        at runs planner same trunk stays joins
      obtain ⟨ended, after, time, taps, lastTap, judged, freed⟩ := same
      refine ⟨t, runs, ended, after, time, taps, lastTap, judged, freed, fun _ _ => ⟨stays, trunk, fun apart => ?_, fun joining => ?_⟩,
        fun _ beyond => absurd within (by omega), nofun⟩
      · rw [planner, still apart]
      · exact joins joining t.trunk stays
    · rw [takeWait_beyond (stopping.trans going) within] at runs
      obtain ⟨ended, ends, after, time, taps, lastTap, trunk⟩ := endAnswered s x d (.missed .waitLimit) (s.drop d)
        { s.trunk with lineFrom := s.timebase, waitLimit := min 65535 (s.trunk.waitLimit + 1) }
      obtain ⟨judged, freed⟩ := ends_judged ends
      exact ⟨_, runs, ended, after, time, taps, lastTap, judged, freed, fun _ within' => absurd within' within,
        fun _ _ => ⟨ends, trunk⟩, nofun⟩

end Sys2Proof.Machine

namespace Sys2Proof.Machine

/-! #### A burst ACK (R86, R112, R134) -/

/-- A drop's record with the taps-waiting count of a burst ACK taken (R86). -/
def Drop.waiting (r : Drop) (w : Nat) : Drop := { r with tapUrgent := decide (4 ≤ w) || r.tapUrgent }

/-- The hub with a good burst ACK of `d` counted and its taps waiting taken (R86, R87). -/
def State.burstAnswered (s : State) (d : DropId) (w : Nat) : State :=
  (s.setTrunk { s.trunk with lineFrom := s.timebase }).setDrop d ((s.drop d).waiting w).counted

theorem takeWaiting_answered (s : State) (d : DropId) (w : Nat) : (s.answered d).takeWaiting d w = s.burstAnswered d w := by
  unfold State.takeWaiting State.burstAnswered Drop.waiting
  by_cases many : 4 ≤ w
  · rw [if_pos many, answered_drop, decide_eq_true many]
    exact State.setDrop_setDrop _ _ _ _
  · rw [if_neg many, decide_eq_false many]
    rfl

theorem burstAnswered_drop (s : State) (d : DropId) (w : Nat) : (s.burstAnswered d w).drop d = ((s.drop d).waiting w).counted := by
  unfold State.burstAnswered
  rw [State.drop_setDrop, if_pos rfl]

theorem afterGood_waiting (r : Drop) (w : Nat) : (afterGood (r.waiting w)).bare = (afterGood r).bare := by
  unfold afterGood Drop.waiting
  cases r.stopping <;> rfl

theorem answerBurst_eq {s : State} {x : Exchange} {d : DropId} {k : Kind} {bytes : List Byte} {i n w : Nat} {last : Bool}
    {q : Option Segment} (flying : s.trunk.ex = some x) (receiving : x.stage = .receiving) (drop : x.drop = some d)
    (push : x.kind = .push k) (frame : x.frame = .segment i last q)
    (good : judgeAnswer x.drop x.frame bytes = some (.ack n (some w))) :
    exec (.answerComplete bytes) s = .next ((s.burstAnswered d w).takeBurstAck x d k n) := by
  rw [answerAck_eq flying receiving drop push good, ← takeWaiting_answered]
  unfold State.takeAck
  rw [frame]
  rfl

/-- A burst ACK goes back to index `n` inside the exchange (R134). -/
def Exchange.goesBack (x : Exchange) (n : Nat) : Prop :=
  x.burstStart ≤ n ∧ n < x.burstEnd ∧ ∀ l, x.lastResend = some l → l < n

/-- The outcome of a burst ACK that ends its exchange (R112, R129, R134). -/
def Exchange.burstOutcome (x : Exchange) (n : Nat) : PushOutcome :=
  if n = x.burstEnd then .ack n
  else if x.burstEnd < n then .badSequence
  else if n < x.burstStart then .goBack n
  else if x.lastResend.any (fun l => n ≤ l) then .badSequence
  else .unacknowledged

theorem takeBurstAck_within {s : State} {x : Exchange} {d : DropId} {k : Kind} {n : Nat} (within : x.goesBack n) :
    s.takeBurstAck x d k n = s.goBack x d k n := by
  obtain ⟨first, last, past⟩ := within
  unfold State.takeBurstAck
  rw [if_neg (by omega), if_neg (by omega), if_neg (by omega)]
  cases resent : x.lastResend with
  | none => rfl
  | some l => exact if_neg (Nat.not_le.mpr (past l resent))

theorem takeBurstAck_ends {s : State} {x : Exchange} {d : DropId} {k : Kind} {n : Nat}
    (ends : ¬(x.goesBack n ∧ s.noFurther x d = false)) : s.takeBurstAck x d k n = s.endGood x d (x.burstOutcome n) := by
  by_cases within : x.goesBack n
  · have stops : s.noFurther x d = true := by
      cases further : s.noFurther x d with
      | true => rfl
      | false => exact absurd ⟨within, further⟩ ends
    have outcome : x.burstOutcome n = .unacknowledged := by
      obtain ⟨first, last, past⟩ := within
      unfold Exchange.burstOutcome
      rw [if_neg (by omega), if_neg (by omega), if_neg (by omega)]
      refine if_neg ?_
      cases resent : x.lastResend with
      | none => exact Bool.false_ne_true
      | some l => simpa using past l resent
    rw [takeBurstAck_within within, outcome]
    exact if_pos stops
  · unfold State.takeBurstAck Exchange.burstOutcome
    split
    · rfl
    · split
      · rfl
      · split
        · rfl
        · cases resent : x.lastResend with
          | none => exact absurd ⟨by omega, by omega, fun l some_ => by rw [resent] at some_; cases some_⟩ within
          | some l =>
            by_cases old : n ≤ l
            · simp [old]
            · exact absurd ⟨by omega, by omega, fun i some_ => by rw [resent] at some_; cases some_; omega⟩ within

/-- The exchange that sends again from `n` (R134). -/
def Exchange.resent (x : Exchange) (n now : Nat) : Exchange :=
  { x with waits := 0, lastResend := some n, frame := .segment n (n + 1 == x.burstEnd) none, stage := .quiet, since := now }

/-- The hub in which a go-back has counted and the snapshot cursor has returned (R74, R134). -/
def State.rewound (s : State) (x : Exchange) (d : DropId) (k : Kind) (n : Nat) : State :=
  (s.setTrunk { s.trunk with goBack := bump s.trunk.goBack 1 }).rewindCursor d k (n - x.burstStart)

theorem rewindCursor_eq (s : State) (d : DropId) (k : Kind) (n : Nat) :
    s.rewindCursor d k n = s.setTable (s.rewindCursor d k n).table := by
  unfold State.rewindCursor State.moveCursor
  split
  · split <;> rfl
  · rfl

theorem goBack_eq {s : State} {x : Exchange} {d : DropId} {k : Kind} {n : Nat} (further : s.noFurther x d = false) :
    s.goBack x d k n =
      (((s.rewound x d k n).setExchange (x.resent n (s.rewound x d k n).timebase)).goodEvent d).judgeReady.conclude := by
  unfold State.goBack
  rw [further, if_neg Bool.false_ne_true]
  rfl

theorem rewound_eq (s : State) (x : Exchange) (d : DropId) (k : Kind) (n : Nat) :
    s.rewound x d k n =
      (s.setTrunk { s.trunk with goBack := bump s.trunk.goBack 1 }).setTable (s.rewound x d k n).table :=
  rewindCursor_eq _ d k _

/-- The cursor of a FULL step after a go-back (R74); another step's drop keeps its mark. -/
theorem rewound_mark {s : State} {x : Exchange} {d : DropId} {n : Nat} {j : Job} {m : Mark} (own : s.job? d .block = some j)
    (mark : s.mark d = some m) :
    (s.rewound x d .block n).mark d =
      if j.isFull then some { m with cur := Nat.iterate (Point.onward s.table.entries m.edition) (n - x.burstStart) m.burst }
      else some m := by
  obtain ⟨rfl, -, -⟩ := job?_drop own
  have held : (s.setTrunk { s.trunk with goBack := bump s.trunk.goBack 1 }).job? j.drop .block = some j := own
  unfold State.rewound State.rewindCursor
  simp only [held]
  unfold State.moveCursor
  split
  · refine (onMark_mark _ _ _).trans ?_
    rw [show (s.setTrunk { s.trunk with goBack := bump s.trunk.goBack 1 }).mark j.drop = some m from mark]
    exact congrArg some (produceMany_eq _ _ _)
  · exact mark

theorem conclude_busy_table {s : State} (flying : s.trunk.ex.isSome = true) : s.conclude.table = s.table := by
  unfold State.conclude State.arbitrate
  rw [if_pos flying, (uplink_port _).1]
  rfl

/-- A presence event under the BLOCK push of the drop leaves its read mark: a re-plan of that pair waits (R104). -/
theorem goodEvent_marks {s : State} {d : DropId} {x : Exchange} {j : Job} (flying : s.trunk.ex = some x) (push : x.kind = .push .block)
    (drop : x.drop = some d) (own : s.job? d .block = some j) : (s.goodEvent d).mark d = s.mark d := by
  have pair {v : State} (flies : v.trunk.ex = some x) (held : v.job? d .block = some j) : (v.planPair d .block).mark d = v.mark d := by
    have inFlight : v.inFlight d .block = true := by
      unfold State.inFlight
      simp only [flies, push, drop, beq_self_eq_true, Bool.and_self]
    unfold State.planPair
    rw [held, inFlight]
    split
    · dsimp only
      split <;> rfl
    · rfl
  have both {v : State} (flies : v.trunk.ex = some x) (held : v.job? d .block = some j) : (v.planBoth d).mark d = v.mark d :=
    ((pair_planPair (v.planPair d .block) d .fare).marks d (fun same => nomatch same.2)).trans (pair flies held)
  unfold State.goodEvent State.presenceGood
  split
  · rfl
  · split
    · rfl
    · rfl
    · unfold State.joinDrop
      exact both (by exact flying) (by exact own)
    · rfl
    · rfl

/-- The hub of a go-back with the exchange sent again, spelled out: line, record and table are what it changes. -/
theorem rewound_resends (s : State) (x : Exchange) (d : DropId) (k : Kind) (n w : Nat) :
    ((s.burstAnswered d w).rewound x d k n).setExchange (x.resent n s.timebase) =
      ((s.setTrunk
          { s.trunk with
            lineFrom := s.timebase, goBack := min 65535 (s.trunk.goBack + 1), ex := some (x.resent n s.timebase) }).setDrop d
        ((s.drop d).waiting w).counted).setTable ((s.burstAnswered d w).rewound x d k n).table := by
  rw [rewound_eq]
  rfl

/-- A good burst ACK that keeps the exchange (R79, R86, R134). -/
theorem keptBurst {s u : State} {d : DropId} {y : Exchange} {w : Nat} {line : Trunk} {table : CardTable}
    (hub : u = ((s.setTrunk line).setDrop d ((s.drop d).waiting w).counted).setTable table) (bare : table.bare = s.table.bare)
    (going : (s.drop d).stopping = false) (flying : line.ex = some y) :
    let t := (u.goodEvent d).judgeReady.conclude
    (ExchangeEnded d s t ∧ (t.drop d).bare = (afterGood (s.drop d)).bare ∧ t.timebase = s.timebase ∧ t.taps.bare = s.taps.bare ∧
        t.roster.lastTap = s.roster.lastTap ∧ ReadinessJudged s t ∧ RecordsFreed s.cat.retired s.cat.withdrawn t) ∧
      t.trunk.bare = line.bare ∧ t.trunk.ex = some y ∧ (4 ≤ w → (t.drop d).tapUrgent = true) ∧
      ∀ j, y.kind = .push .block → y.drop = some d → s.job? d .block = some j → t.mark d = table.marks.get d := by
  have record : u.drop d = ((s.drop d).waiting w).counted := by
    rw [hub]
    exact State.drop_setDrop_self _ d _
  have flies : u.trunk.ex = some y := by rw [hub]; exact flying
  have moved : Ended d (s.setTrunk line) u := by
    rw [hub]
    exact (ended_setDrop (s.setTrunk line) d _).trans ⟨rfl, rfl, rfl, rfl, rfl, rfl, rfl, bare, rfl, rfl, rfl, fun _ _ => rfl⟩
  have unjudged : Unjudged s u := by
    rw [hub]
    exact ⟨rfl, rfl, rfl, rfl, rfl⟩
  have queue : ∀ j, s.job? d .block = some j → u.job? d .block = some j := by
    rw [hub]
    exact fun _ held => held
  have marked : u.mark d = table.marks.get d := by rw [hub]; rfl
  obtain ⟨same, trunk, stays⟩ := keptAnswered moved unjudged ((congrArg Drop.bare record).trans rfl) going flies
  have busy : (u.goodEvent d).judgeReady.trunk.ex.isSome = true := by rw [judgeReady_ex, goodEvent_trunk, flies]; rfl
  refine ⟨same, trunk, stays, fun many => ?_, fun j push drop held => ?_⟩
  · rw [drop_of_roster ((conclude_busy_roster _ busy).trans (judgeReady_roster _)), goodEvent_urg u d d, record]
    show (decide (4 ≤ w) || (s.drop d).tapUrgent) = true
    rw [decide_eq_true many]
    rfl
  · have tables := (conclude_busy_table busy).trans (judgeReady_table (u.goodEvent d))
    show (u.goodEvent d).judgeReady.conclude.table.marks.get d = _
    rw [tables]
    exact (goodEvent_marks flies push drop (queue j held)).trans marked

/-- Settles O44: an index within the burst and past the last resend sends again from it; every other one ends the exchange with its
outcome. -/
theorem burstAckGoesBackOrEnds : Obligations.BurstAckGoesBackOrEnds := by
  unfold Obligations.BurstAckGoesBackOrEnds
  intro x d k bytes i n w last q s flying receiving drop push frame good
  have runs := answerBurst_eq flying receiving drop push frame good
  have own := burstAnswered_drop s d w
  have further : (s.burstAnswered d w).noFurther x d = false ↔ (s.drop d).stopping = false ∧ x.detached = false := by
    unfold State.noFurther
    rw [own, Bool.or_eq_false_iff]
    rfl
  by_cases back : x.goesBack n ∧ (s.drop d).stopping = false ∧ x.detached = false
  · obtain ⟨within, going, kept⟩ := back
    rw [takeBurstAck_within within, goBack_eq (further.mpr ⟨going, kept⟩)] at runs
    have time : ((s.burstAnswered d w).rewound x d k n).timebase = s.timebase := by rw [rewound_eq]; rfl
    rw [time] at runs
    have hub := rewound_resends s x d k n w
    have tables := (rewindCursor_decided ((s.burstAnswered d w).setTrunk
      { (s.burstAnswered d w).trunk with goBack := bump (s.burstAnswered d w).trunk.goBack 1 }) d k (n - x.burstStart)).table
    have marks {j : Job} {m : Mark} (held : s.job? d .block = some j) (mark : s.mark d = some m) :=
      rewound_mark (s := s.burstAnswered d w) (x := x) (n := n) held mark
    obtain ⟨⟨ended, after, time, taps, lastTap, judged, freed⟩, trunk, stays, urgent, mark⟩ := keptBurst hub tables going rfl
    refine ⟨_, runs, ended, after, time, taps, lastTap, judged, freed, ?_⟩
    rw [if_pos ⟨within, going, kept⟩]
    refine ⟨trunk, urgent, fun j m block held marked => ?_, stays⟩
    subst block
    exact (mark j push drop held).trans (marks held marked)
  · rw [takeBurstAck_ends (fun both => back ⟨both.1, further.mp both.2⟩)] at runs
    obtain ⟨ended, ends, after, time, taps, lastTap, trunk⟩ :=
      endAnswered s x d (x.burstOutcome n) ((s.drop d).waiting w) { s.trunk with lineFrom := s.timebase }
    obtain ⟨judged, freed⟩ := ends_judged ends
    refine ⟨_, runs, ended, after.trans (afterGood_waiting _ _), time, taps, lastTap, judged, freed, ?_⟩
    unfold Exchange.goesBack at back
    rw [if_neg back]
    exact ⟨ends, trunk⟩

end Sys2Proof.Machine

namespace Sys2Proof.Machine

/-! #### A STATUS (R83, R160 to R166) -/

theorem lateListed_pair (s : State) (d : DropId) : PairPlanned d .block s (s.lateListed d) := by
  have promotes {u : State} {j : Job} (own : u.job? d .block = some j) : PairPlanned d .block u (u.promoteJob j) := by
    obtain ⟨drop, kind, -⟩ := job?_drop own
    have level := judgeJob_drop u { j with promoted := true, urgent := true, level := u.settings.levelUrgent }
    rw [promoteJob_eq u kind]
    exact pair_putJob _ (level.1.trans drop) (level.2.trans kind)
  unfold State.lateListed
  cases own : s.job? d .block with
  | some j =>
    dsimp only
    split
    · exact .refl s
    · exact promotes own
  | none =>
    have plans := pair_planPair s d .block
    dsimp only
    cases made : (s.planPair d .block).job? d .block with
    | some j => exact plans.trans (promotes made)
    | none => exact plans

theorem screenTap_late {s : State} {d : DropId} {r : Tap} (late : (s.screened d r).verdict = .lateListed) :
    s.screenTap d r =
      (s.setTaps ({ s.taps with queue := s.taps.queue ++ [s.screened d r] }.count (s.screened d r).verdict)).lateListed d :=
  if_pos late

theorem screenTap_other {s : State} {d : DropId} {r : Tap} (other : (s.screened d r).verdict ≠ .lateListed) :
    s.screenTap d r = s.setTaps ({ s.taps with queue := s.taps.queue ++ [s.screened d r] }.count (s.screened d r).verdict) :=
  if_neg other

/-- Screening a tap is planning of the drop's BLOCK pair, the tap queue apart (R160, R164). -/
theorem screenTap_pair (s : State) (d : DropId) (r : Tap) :
    PairPlanned d .block
      (s.setTaps ({ s.taps with queue := s.taps.queue ++ [s.screened d r] }.count (s.screened d r).verdict)) (s.screenTap d r) := by
  by_cases late : (s.screened d r).verdict = .lateListed
  · rw [screenTap_late late]
    exact lateListed_pair _ d
  · rw [screenTap_other late]
    exact .refl _

theorem screenTap_screened (s : State) (d : DropId) (r x : Tap) : (s.screenTap d r).screened d x = s.screened d x := by
  have decided := (screenTap_pair s d r).decided
  exact screened_bare decided.table decided.moved.cat decided.settings decided.clock d x

theorem unjudged_planBoth (s : State) (d : DropId) : Unjudged s (s.planBoth d) := .of_served (served_planBoth s d)

theorem unjudged_screenTaps (s : State) (d : DropId) (ts : List Tap) : Unjudged s (s.screenTaps d ts) := by
  induction ts generalizing s with
  | nil => exact .refl s
  | cons r ts ih =>
    have pair := screenTap_pair s d r
    have one : Unjudged s (s.screenTap d r) :=
      ⟨pair.cat, pair.decided.change, pair.decided.settings, pair.decided.timebase, Port.core_of_bare pair.decided.port⟩
    exact one.trans (ih _)

/-- Screening the taps of a drop moves no job but that of its BLOCK pair (R164). -/
theorem screenTaps_job? (s : State) (d : DropId) (ts : List Tap) {e : DropId} {k : Kind} (other : ¬(e = d ∧ k = .block)) :
    (s.screenTaps d ts).job? e k = s.job? e k := by
  induction ts generalizing s with
  | nil => rfl
  | cons r ts ih => exact (ih (s.screenTap d r)).trans ((screenTap_pair s d r).job? e k other)

/-- With no tap LATE_LISTED no job moves. -/
theorem screenTaps_planner {s : State} {d : DropId} {ts : List Tap} (none_ : ∀ r ∈ ts, (s.screened d r).verdict ≠ .lateListed) :
    (s.screenTaps d ts).planner = s.planner := by
  induction ts generalizing s with
  | nil => rfl
  | cons r ts ih =>
    have first : (s.screenTap d r).planner = s.planner := by
      rw [screenTap_other (none_ r List.mem_cons_self)]
      rfl
    refine (ih fun x later => ?_).trans first
    rw [screenTap_screened]
    exact none_ x (List.mem_cons_of_mem _ later)

/-- The presence event of a good answer in two steps: the drop's record, then, where the drop joins, both its pairs planned (R79,
R80). -/
theorem goodEvent_plans {s : State} {d : DropId} (going : (s.drop d).stopping = false) :
    ∃ p, s.goodEvent d = (if (s.drop d).presence = .joining then p.planBoth d else p) ∧ p.planner = s.planner ∧ p.table = s.table ∧
      p.trunk = s.trunk ∧ p.cat = s.cat ∧ p.settings = s.settings ∧ p.port.core = s.port.core ∧
      (p.drop d).bare = (goodRecord (s.drop d)).bare := by
  have record := presenceGood_drop s d going
  have event : s.goodEvent d = s.presenceGood d := by
    unfold State.goodEvent
    rw [going, if_neg Bool.false_ne_true]
  rw [event]
  by_cases joining : (s.drop d).presence = .joining
  · have joins : s.presenceGood d = s.joinDrop d := by
      unfold State.presenceGood
      rw [joining]
    rw [joins] at record ⊢
    simp only [if_pos joining]
    refine ⟨_, rfl, rfl, rfl, rfl, rfl, rfl, Port.raise_core _ _ _ _, ?_⟩
    exact ((planBoth_decided _ d).drops d).symm.trans record
  · simp only [if_neg joining]
    refine ⟨_, rfl, ?_, ?_, ?_, ?_, ?_, ?_, record⟩
    all_goals
      unfold State.presenceGood
      split
      next h => rfl
      next h => rfl
      next h => exact absurd h joining
      next h => rfl
      next h => rfl

/-- What the answer to a POLL makes of the drop's jobs before its taps are screened (R80, R83, R104). -/
def State.statusEvent (s : State) (d : DropId) (changed : Bool) : State :=
  if changed then (s.goodEvent d).planBoth d else s.goodEvent d

theorem statusEvent_others {s : State} {d : DropId} {changed : Bool} (going : (s.drop d).stopping = false) {e : DropId} (k : Kind)
    (other : e ≠ d) : (s.statusEvent d changed).job? e k = s.job? e k := by
  have both (v : State) : (v.planBoth d).job? e k = v.job? e k :=
    ((pair_planPair _ d .fare).job? e k fun same => other same.1).trans ((pair_planPair v d .block).job? e k fun same => other same.1)
  obtain ⟨p, event, planner, -⟩ := goodEvent_plans going
  have good : (s.goodEvent d).job? e k = s.job? e k := by
    rw [event]
    split
    · exact (both p).trans (job?_of_jobs (congrArg Planner.jobs planner) e k)
    · exact job?_of_jobs (congrArg Planner.jobs planner) e k
  unfold State.statusEvent
  split
  · exact (both _).trans good
  · exact good

/-- Both pairs are planned once, in effect, where the drop joins or its holdings are new, and are as before otherwise. -/
theorem statusEvent_own {s v : State} {d : DropId} {changed : Bool} (going : (s.drop d).stopping = false)
    (free : s.trunk.ex = none) (hub : SameHub v s) (jobs : ∀ k, s.job? d k = v.job? d k) (mark : s.mark d = v.mark d)
    (record : (goodRecord (s.drop d)).planning = (v.drop d).planning) (k : Kind) :
    (changed = true ∨ (s.drop d).presence = .joining → (s.statusEvent d changed).job? d k = (v.planPair d k).job? d k) ∧
      (¬(changed = true ∨ (s.drop d).presence = .joining) → (s.statusEvent d changed).job? d k = s.job? d k) := by
  obtain ⟨p, event, planner, table, trunk, cat, settings, port, drop⟩ := goodEvent_plans going
  have idle : p.trunk.ex = none := by rw [trunk, free]
  have mode : p.port.mode = s.port.mode := by have x := congrArg Port.mode port; exact x
  have door : p.port.door = s.port.door := by have x := congrArg Port.door port; exact x
  have queue (k : Kind) : p.job? d k = s.job? d k := job?_of_jobs (congrArg Planner.jobs planner) d k
  have same (k : Kind) : SamePair d k v p :=
    ⟨hub.trans ⟨by rw [trunk], cat, settings, by rw [table], mode, door⟩, (queue k).trans (jobs k),
      (planning_of_bare drop).trans record, Eq.trans (by unfold State.mark; rw [table]) mark⟩
  unfold State.statusEvent
  rw [event]
  by_cases joining : (s.drop d).presence = .joining
  · rw [if_pos joining]
    refine ⟨fun _ => ?_, fun neither => absurd (.inr joining) neither⟩
    cases changed with
    | true => exact (planBoth_twice p d k idle).trans (same k).planPair
    | false => exact (planBoth_job? p d k).trans (same k).planPair
  · rw [if_neg joining]
    cases changed with
    | true => exact ⟨fun _ => (planBoth_job? p d k).trans (same k).planPair, fun neither => absurd (.inl rfl) neither⟩
    | false => exact ⟨fun either => absurd either (by simp [joining]), fun _ => queue k⟩

end Sys2Proof.Machine

namespace Sys2Proof.Machine

theorem statusEvent_ended (s : State) (d : DropId) (changed : Bool) : Ended d s (s.statusEvent d changed) := by
  unfold State.statusEvent
  split
  · exact (goodEvent_ended s d).trans ((planBoth_decided _ d).ended d)
  · exact goodEvent_ended s d

theorem statusEvent_drop (s : State) (d : DropId) (changed : Bool) :
    ((s.statusEvent d changed).drop d).bare = ((s.goodEvent d).drop d).bare := by
  unfold State.statusEvent
  split
  · exact (planBoth_decided _ d).drops d
  · rfl

theorem statusEvent_trunk (s : State) (d : DropId) (changed : Bool) : (s.statusEvent d changed).trunk = s.trunk := by
  unfold State.statusEvent
  split
  · exact ((pair_planPair _ d .fare).trunk.trans (pair_planPair _ d .block).trunk).trans (goodEvent_trunk s d)
  · exact goodEvent_trunk s d

theorem unjudged_statusEvent (s : State) (d : DropId) (changed : Bool) : Unjudged s (s.statusEvent d changed) := by
  unfold State.statusEvent
  split
  · exact (unjudged_goodEvent s d).trans (unjudged_planBoth _ d)
  · exact unjudged_goodEvent s d

/-- Settling reads and leaves of a drop's record only its bare form. -/
theorem settleStopping_bare {s t : State} {d : DropId} (h : (t.drop d).bare = (s.drop d).bare) :
    ((t.settleStopping d).drop d).bare = ((s.settleStopping d).drop d).bare := by
  rw [settleStopping_drop, settleStopping_drop, stopping_of_bare h]
  split
  · exact congrArg (fun r : Drop => { r with stopping := false, presence := .disabled, run := 0 }) h
  · exact h

/-- The tap queue with the records of a STATUS joined and their verdicts counted (R160, R165, R166). -/
def Taps.joined (q : Taps) (screened : Tap → Screened) (ts : List Tap) : Taps :=
  ts.foldl (fun q r => ({ q with queue := q.queue ++ [screened r] } : Taps).count (screened r).verdict) q

theorem joined_bare {q r : Taps} (h : q.bare = r.bare) (f : Tap → Screened) (ts : List Tap) :
    (q.joined f ts).bare = (r.joined f ts).bare := by
  induction ts generalizing q r with
  | nil => exact h
  | cons y ts ih =>
    refine ih ?_
    rw [count_bare, count_bare]
    exact congrArg (fun q : Taps => ({ q with queue := q.queue ++ [f y] } : Taps).count (f y).verdict) h

/-- The end of the exchange of a STATUS in a hub that has taken its holdings (R83, R129, R130). -/
def State.endStatus (s : State) (x : Exchange) (d : DropId) (changed : Bool) (taps : List Tap) : State :=
  s.endExchange x d .unacknowledged (fun s => (s.statusEvent d changed).screenTaps d taps)

/-- The hub in which the presence event of a STATUS is made. -/
def State.beforeStatus (s : State) (x : Exchange) (d : DropId) : State := (s.clearExchange x).handed x d .unacknowledged

/-- The hub in which the taps of a STATUS have been screened. -/
def State.statusTaken (s : State) (x : Exchange) (d : DropId) (changed : Bool) (taps : List Tap) : State :=
  ((s.beforeStatus x d).statusEvent d changed).screenTaps d taps

theorem endStatus_eq (s : State) (x : Exchange) (d : DropId) (changed : Bool) (taps : List Tap) :
    s.endStatus x d changed taps = ((s.statusTaken x d changed taps).settleStopping d).judgeReady.conclude := endExchange_eq ..

section
variable (s : State) (x : Exchange) (d : DropId) (changed : Bool) (taps : List Tap)

theorem statusTaken_trunk : (s.statusTaken x d changed taps).trunk.ex = none := by
  unfold State.statusTaken State.beforeStatus
  rw [(screenTaps_apart _ d taps).2.1, statusEvent_trunk, handed_ex, clearExchange_ex]

theorem unjudged_statusTaken : Unjudged s (s.statusTaken x d changed taps) :=
  (((unjudged_clearExchange s x).trans (unjudged_handed _ x d _)).trans (unjudged_statusEvent _ d changed)).trans
    (unjudged_screenTaps _ d taps)

/-- What the end of the exchange of a STATUS may change. -/
theorem endStatus_ended :
    ∃ q : Taps, q.bare = (s.taps.joined (s.screened d) taps).bare ∧ Ended d (s.setTaps q) (s.endStatus x d changed taps) ∧
      ((s.endStatus x d changed taps).drop d).bare = (goodRecord (s.drop d)).bare := by
  obtain ⟨before, record⟩ := beforeEvent s x d .unacknowledged
  have event := before.trans (statusEvent_ended (s.beforeStatus x d) d changed)
  obtain ⟨q, screened, queue⟩ := screenTaps_spec d taps ((s.beforeStatus x d).statusEvent d changed)
  have tail := (settleStopping_ended (s.statusTaken x d changed taps) d).trans
    (((judgeReady_moved _).trans (conclude_decided _).moved).ended d)
  rw [← endStatus_eq] at tail
  refine ⟨q, ?_, ?_, ?_⟩
  · have same (r : Tap) : ((s.beforeStatus x d).statusEvent d changed).screened d r = s.screened d r :=
      screened_bare event.table event.cat event.settings event.clock d r
    rw [queue]
    refine Eq.trans ?_ (joined_bare event.taps (s.screened d) taps)
    unfold Taps.joined
    simp only [same]
  · have taken : Ended d (s.setTaps q) (((s.beforeStatus x d).statusEvent d changed).setTaps q) :=
      ⟨event.pending, event.timebase, event.clock, event.settings, event.intakes, event.port, event.cat, event.table, rfl, event.trunk,
        event.lastTap, event.drops⟩
    exact (taken.trans (screened.ended d)).trans tail
  · have bare : ((s.statusTaken x d changed taps).drop d).bare = (((s.beforeStatus x d).goodEvent d).drop d).bare :=
      (screened.drops d).trans (statusEvent_drop _ d changed)
    rw [endStatus_eq, (conclude_decided _).drops d, (judgeReady_moved _).drops d, settleStopping_bare bare, goodSettled_drop]
    exact goodRecord_bare record

theorem endStatus_over :
    ExchangeOver (s.endStatus x d changed taps) ∧ ReadinessJudged s (s.endStatus x d changed taps) ∧
      RecordsFreed s.cat.retired s.cat.withdrawn (s.endStatus x d changed taps) := by
  have unjudged := (unjudged_statusTaken s x d changed taps).trans (unjudged_settleStopping _ d)
  rw [endStatus_eq]
  refine ⟨conclude_over _ ?_, judged_conclude _ _ unjudged, judged_freed _ _ unjudged⟩
  rw [judgeReady_ex, settleStopping_trunk, statusTaken_trunk]

theorem statusTaken_stopping : ((s.statusTaken x d changed taps).drop d).stopping = (s.drop d).stopping := by
  obtain ⟨-, record⟩ := beforeEvent s x d .unacknowledged
  obtain ⟨q, screened, -⟩ := screenTaps_spec d taps ((s.beforeStatus x d).statusEvent d changed)
  have event := (good_event d).stopping (s.beforeStatus x d)
  exact ((stopping_of_bare (screened.drops d)).trans (stopping_of_bare (statusEvent_drop _ d changed))).trans
    (event.trans (stopping_of_bare record))

theorem endStatus_stopped (stops : (s.drop d).stopping = true) : ∀ j ∈ (s.endStatus x d changed taps).planner.jobs, j.drop ≠ d := by
  rw [endStatus_eq]
  apply conclude_from
  rw [judgeReady_jobs]
  unfold State.settleStopping
  rw [if_pos ((statusTaken_stopping s x d changed taps).trans stops)]
  exact forgetDrop_clears _ d

theorem endStatus_going (going : (s.drop d).stopping = false) :
    s.endStatus x d changed taps = (s.statusTaken x d changed taps).judgeReady.conclude := by
  rw [endStatus_eq, State.settleStopping, if_neg]
  rw [statusTaken_stopping, going]
  exact Bool.false_ne_true

end

/-- The hub before the presence event of an answer to a POLL is the hub with the turn ended. -/
theorem beforeStatus_poll {x : Exchange} (poll : x.kind = .roundPoll ∨ x.kind = .urgentPoll) (s : State) (d : DropId) :
    s.beforeStatus x d = s.clearExchange x := by
  unfold State.beforeStatus State.handed
  rcases poll with kind | kind <;> rw [kind]

/-- A STATUS in answer to a POLL: which jobs of which drop it moves before the arbiter decides (R80, R83, R104, R106). -/
theorem endStatus_plans {s v : State} {x : Exchange} {d : DropId} {changed : Bool} {taps : List Tap}
    (poll : x.kind = .roundPoll ∨ x.kind = .urgentPoll) (going : (s.drop d).stopping = false)
    (hub : SameHub v (s.setTrunk { s.trunk with ex := none })) (jobs : ∀ k, s.job? d k = v.job? d k) (mark : s.mark d = v.mark d)
    (record : (goodRecord (s.drop d)).planning = (v.drop d).planning) :
    ∃ u : State, u.trunk.ex = none ∧ s.endStatus x d changed taps = u.conclude ∧
      (∀ e k, e ≠ d → u.job? e k = s.job? e k) ∧
      ∀ k, k = .fare ∨ ¬(∃ r ∈ taps, (s.screened d r).verdict = .lateListed) →
        (changed = true ∨ (s.drop d).presence = .joining → u.job? d k = (v.planPair d k).job? d k) ∧
          (¬(changed = true ∨ (s.drop d).presence = .joining) → u.job? d k = s.job? d k) := by
  have cleared := beforeStatus_poll poll s d
  have before := (beforeEvent s x d .unacknowledged).1
  have taken : s.statusTaken x d changed taps = ((s.clearExchange x).statusEvent d changed).screenTaps d taps := by
    unfold State.statusTaken
    rw [cleared]
  have free : (s.clearExchange x).trunk.ex = none := clearExchange_ex s x
  have drop : (s.clearExchange x).drop d = s.drop d := clearExchange_drop s x d
  have same : (s.clearExchange x).planner = s.planner ∧ (s.clearExchange x).table = s.table ∧
      SameHub (s.setTrunk { s.trunk with ex := none }) (s.clearExchange x) := by
    unfold State.clearExchange
    dsimp only
    split <;> exact ⟨rfl, rfl, ⟨rfl, rfl, rfl, rfl, rfl, rfl⟩⟩
  obtain ⟨planner, table, hub'⟩ := same
  have queue (e : DropId) (k : Kind) : (s.clearExchange x).job? e k = s.job? e k := job?_of_jobs (congrArg Planner.jobs planner) e k
  have own := fun k => statusEvent_own (s := s.clearExchange x) (v := v) (changed := changed) (by rw [drop]; exact going) free
    (hub.trans hub') (fun k => (queue d k).trans (jobs k)) (Eq.trans (by unfold State.mark; rw [table]) mark)
    (by rw [drop]; exact record) k
  refine ⟨(s.statusTaken x d changed taps).judgeReady, ?_, endStatus_going s x d changed taps going, fun e k other => ?_,
    fun k alone => ?_⟩
  · rw [judgeReady_ex, statusTaken_trunk]
  · refine (job?_of_jobs (congrArg Planner.jobs (judgeReady_jobs _)) e k).trans ?_
    rw [taken, screenTaps_job? _ _ _ fun same => other same.1,
      statusEvent_others (s := s.clearExchange x) (by rw [drop]; exact going) k other, queue]
  · have screened : (s.statusTaken x d changed taps).job? d k = ((s.clearExchange x).statusEvent d changed).job? d k := by
      rw [taken]
      rcases alone with fare | none_
      · exact screenTaps_job? _ _ _ fun same => by rw [fare] at same; cases same.2
      · refine job?_of_jobs (congrArg Planner.jobs (screenTaps_planner fun r among late => none_ ⟨r, among, ?_⟩)) d k
        have event := before.trans (statusEvent_ended (s.beforeStatus x d) d changed)
        rw [cleared] at event
        rw [screened_bare event.table event.cat event.settings event.clock d r] at late
        exact late
    obtain ⟨fresh, still⟩ := own k
    rw [drop] at fresh still
    have settled := (job?_of_jobs (congrArg Planner.jobs (judgeReady_jobs (s.statusTaken x d changed taps))) d k).trans screened
    exact ⟨fun either => settled.trans (fresh either), fun neither => settled.trans ((still neither).trans (queue d k))⟩

end Sys2Proof.Machine

namespace Sys2Proof.Machine

theorem ReadinessJudged.congr {s v t : State} (h : ReadinessJudged s t) (change : s.change = v.change) (cat : s.cat = v.cat) :
    ReadinessJudged v t := by
  obtain ⟨armed, passed, unready, still⟩ := h
  rw [change, cat] at armed passed unready still
  exact ⟨armed, passed, unready, still⟩

theorem takeStatus_parts (s : State) (d : DropId) (h : Holdings) (held n : Nat) :
    (s.takeStatus d h held n).planner = s.planner ∧ (s.takeStatus d h held n).table = s.table ∧
      (s.takeStatus d h held n).cat = s.cat ∧ (s.takeStatus d h held n).settings = s.settings ∧
      (s.takeStatus d h held n).port = s.port ∧ (s.takeStatus d h held n).change = s.change := by
  unfold State.takeStatus
  dsimp only
  split <;> exact ⟨rfl, rfl, rfl, rfl, rfl, rfl⟩

/-- A drop's record with what a STATUS reports written (R83, R87). -/
def Drop.reported (r : Drop) (h : Holdings) (held : Nat) (taps : List Tap) : Drop :=
  { r with
    holdings := h, known := true, tapsHeld := held
    counters := if taps = [] then r.counters else { r.counters with tapsIn := min 65535 (r.counters.tapsIn + taps.length) } }

/-- The hub in which a good STATUS has been counted and its holdings taken (R83, R87). -/
def State.statusAnswered (s : State) (d : DropId) (h : Holdings) (held : Nat) (taps : List Tap) : State :=
  (s.answered d).takeStatus d h held taps.length

section
variable (s : State) (d : DropId) (h : Holdings) (held : Nat) (taps : List Tap)

theorem statusAnswered_drop : (s.statusAnswered d h held taps).drop d = ((s.drop d).reported h held taps).counted := by
  obtain ⟨-, -, -, -, -, record⟩ := takeStatus_spec (s.answered d) d h held taps.length
  unfold State.statusAnswered
  rw [record, answered_drop]
  unfold Drop.reported
  cases taps <;> rfl

theorem goodRecord_counted (r : Drop) : goodRecord r.counted = afterGood r := (afterGood_eq r).symm

/-- The drop's holdings are new to the hub (R83). -/
theorem holdingsDiffer_iff :
    (s.answered d).holdingsDiffer d h = true ↔ (s.drop d).known = false ∨ (s.drop d).holdings ≠ h := by
  unfold State.holdingsDiffer
  rw [answered_drop]
  simp only [Drop.counted, Bool.or_eq_true, bne_iff_ne, Bool.not_eq_true']
  exact or_comm

end

theorem answerStatus_eq {s : State} {x : Exchange} {d : DropId} {bytes : List Byte} {h : Holdings} {held : Nat} {taps : List Tap}
    (flying : s.trunk.ex = some x) (receiving : x.stage = .receiving) (drop : x.drop = some d)
    (good : judgeAnswer x.drop x.frame bytes = some (.status h held taps)) :
    exec (.answerComplete bytes) s =
      .next ((s.statusAnswered d h held taps).endStatus x d ((s.answered d).holdingsDiffer d h) taps) :=
  answerComplete_eq flying receiving drop good

/-- Settles O42: the STATUS is written into the drop's record; the end of the exchange makes the presence event, plans what is new and
screens the taps. -/
theorem statusGivesHoldingsAndTaps : Obligations.StatusGivesHoldingsAndTaps := by
  unfold Obligations.StatusGivesHoldingsAndTaps
  intro x d bytes h held taps s flying receiving drop good
  have runs := answerStatus_eq flying receiving drop good
  have record := statusAnswered_drop s d h held taps
  obtain ⟨written, time, trunk, queue, lastTap, -⟩ := takeStatus_spec (s.answered d) d h held taps.length
  obtain ⟨planner, table, cat, settings, port, change⟩ := takeStatus_parts (s.answered d) d h held taps.length
  have counted : ExchangeEnded d s (s.answered d) := (ExchangeEnded.setTrunk s _).trans (ended_setDrop _ d _).exchangeEnded
  have taken := counted.trans written
  have same (r : Tap) : (s.statusAnswered d h held taps).screened d r = s.screened d r :=
    screened_bare taken.table taken.cat taken.settings taken.clock d r
  obtain ⟨q, joined, ended, after⟩ := endStatus_ended (s.statusAnswered d h held taps) x d ((s.answered d).holdingsDiffer d h) taps
  obtain ⟨exchange, judged, freed⟩ := endStatus_over (s.statusAnswered d h held taps) x d ((s.answered d).holdingsDiffer d h) taps
  have stopped := endStatus_stopped (s.statusAnswered d h held taps) x d ((s.answered d).holdingsDiffer d h) taps
  have plans := fun (v : State) poll going hub jobs mark planning => endStatus_plans (s := s.statusAnswered d h held taps) (v := v)
    (x := x) (d := d) (changed := (s.answered d).holdingsDiffer d h) (taps := taps) poll going hub jobs mark planning
  have bare : q.bare = (s.taps.joined (s.screened d) taps).bare := by
    have tapQueue : (s.statusAnswered d h held taps).taps = s.taps := queue
    rw [joined, tapQueue]
    unfold Taps.joined
    simp only [same]
  simp only [same] at plans
  replace planner : (s.statusAnswered d h held taps).planner = s.planner := planner
  replace table : (s.statusAnswered d h held taps).table = s.table := table
  replace cat : (s.statusAnswered d h held taps).cat = s.cat := cat
  replace settings : (s.statusAnswered d h held taps).settings = s.settings := settings
  replace port : (s.statusAnswered d h held taps).port = s.port := port
  replace change : (s.statusAnswered d h held taps).change = s.change := change
  have left : ExchangeEnded d s ((s.statusAnswered d h held taps).endStatus x d ((s.answered d).holdingsDiffer d h) taps) := by
    have moved := ended.exchangeEnded
    exact taken.trans ⟨moved.pending, moved.clock, moved.settings, moved.intakes, moved.port, moved.cat, moved.table, moved.drops⟩
  have stamp := ended.timebase.trans time
  have line := ended.trunk.trans (congrArg Trunk.bare trunk)
  have parked := ended.lastTap.trans lastTap
  have tapped := ended.taps.trans bare
  rw [record, goodRecord_counted] at after
  rw [cat] at freed
  generalize (s.statusAnswered d h held taps).endStatus x d ((s.answered d).holdingsDiffer d h) taps = t at *
  refine ⟨t, runs, left, stamp, line, ?_, ?_, ?_, tapped, exchange, judged.congr change cat, freed, ?_, ?_⟩
  · rw [parked]
    cases taps <;> rfl
  · rw [State.drop_setDrop, if_pos rfl]
    exact after
  · exact (queue_of_bare tapped).trans (foldl_queue s d taps s.taps)
  · intro stops
    exact stopped (by rw [record]; exact stops)
  · intro poll going
    obtain ⟨u, idle, concludes, others, own⟩ := plans
      ((s.setTrunk { s.trunk with ex := none }).setDrop d (afterGood ((s.drop d).reported h held taps))) poll
      (by rw [record]; exact going)
      ⟨rfl, cat, settings, congrArg CardTable.live table, congrArg Port.mode port, congrArg Port.door port⟩
      (fun k => job?_of_jobs (congrArg Planner.jobs planner) d k) (by unfold State.mark; rw [table]; rfl)
      (by rw [record, goodRecord_counted, State.drop_setDrop, if_pos rfl])
    have queue (e : DropId) (k : Kind) : (s.statusAnswered d h held taps).job? e k = s.job? e k :=
      job?_of_jobs (congrArg Planner.jobs planner) e k
    refine ⟨u, idle, concludes, fun e k other => (others e k other).trans (queue e k), fun k alone => ?_⟩
    obtain ⟨fresh, still⟩ := own k alone
    have either : ((s.answered d).holdingsDiffer d h = true ∨ ((s.statusAnswered d h held taps).drop d).presence = .joining) ↔
        (s.drop d).known = false ∨ (s.drop d).holdings ≠ h ∨ (s.drop d).presence = .joining := by
      rw [holdingsDiffer_iff, record, or_assoc]
      rfl
    rw [either] at fresh still
    exact ⟨fresh, fun neither => (still neither).trans (queue d k)⟩

end Sys2Proof.Machine

namespace Sys2Proof.Machine

/-! ### The broadcast that has gone out (R46, R137, R152) -/

theorem replanKind_trunk (s : State) (k : Kind) : (s.replanKind k).trunk = s.trunk := by
  have all (l : List DropId) (v : State) : (l.foldl (fun s d => s.planPair d k) v).trunk = v.trunk := by
    induction l generalizing v with
    | nil => rfl
    | cons d l ih => exact (ih _).trans (pair_planPair v d k).trunk
  exact all allDrops (s.dropFailed k)

/-- The hub after the exchange of a broadcast has ended is the hub with its line and the poll round moved. -/
theorem clearExchange_line (s : State) (x : Exchange) :
    ∃ line roster, s.clearExchange x = (s.setTrunk line).setRoster roster ∧ line.ex = none ∧ line.bare = s.trunk.bare ∧
      line.broadcasts = s.trunk.broadcasts ∧ roster.drops = s.roster.drops := by
  unfold State.clearExchange
  dsimp only
  split
  · exact ⟨_, _, rfl, rfl, rfl, rfl, rfl⟩
  · exact ⟨{ s.trunk with ex := none }, s.roster, rfl, rfl, rfl, rfl, rfl⟩

/-- The flag that a broadcast raises (R152). -/
def Changeover.sentFlag (c : Changeover) : Flag := if c.forced then .changeoverForced else .changeoverDone

/-- The hub with p promoted and its flag raised, before the due test (R46, R152). -/
def State.promoted (s : State) (p : Nat) : State :=
  (s.setCat (s.cat.promote s.planner.jobs p)).raiseEdition s.change.sentFlag p

theorem sentFlag_other (c : Changeover) : c.sentFlag ≠ .changeoverHeld ∧ c.sentFlag ≠ .jobFailed ∧ c.sentFlag ≠ .tapqFull := by
  unfold Changeover.sentFlag
  split <;> exact ⟨nofun, nofun, nofun⟩

section
variable {c : Catalogue} {jobs : List Job} {p : Nat}

/-- The old A where the hold is released: withdrawn while a job reads it (R45). -/
theorem withdraw_released (r : Option Fare) (l : List Fare) :
    withdraw jobs none r l = l ++ r.toList.filter (fun a => readersOf jobs .fare a.ref != 0) := by
  rw [withdraw_eq]
  simp

theorem promote_pending {r : Fare} (pending : c.pendingFare = some r) (edition : r.edition = p)
    (hold : ∀ i, c.hold = some i → i = r.ref) :
    c.promote jobs p =
      { c with
        active := some r, pendingFare := none, hold := none
        withdrawn := c.withdrawn ++ c.active.toList.filter (fun a => readersOf jobs .fare a.ref != 0) } := by
  have named : c.pendingFare.any (c.promotes p) = true := by
    rw [pending, Option.any_some]
    unfold Catalogue.promotes
    rw [edition, beq_self_eq_true, Bool.true_and]
    cases held : c.hold with
    | none => rfl
    | some i => exact beq_iff_eq.mpr (hold i held)
  unfold Catalogue.promote
  rw [if_pos named, withdraw_released, pending]

theorem promote_withdrawn {q r : Fare} {i : Nat} (pending : c.pendingFare = some q) (hold : c.hold = some i) (other : q.ref ≠ i)
    (found : c.withdrawn.find? (fun r => r.edition == p && r.ref == i) = some r) :
    c.promote jobs p =
      { c with
        active := some r, hold := none
        withdrawn :=
          c.withdrawn.filter (fun x => x.ref != i) ++ c.active.toList.filter (fun a => readersOf jobs .fare a.ref != 0) } := by
  have names (x : Fare) : c.promotes p x = (x.edition == p && x.ref == i) := by
    unfold Catalogue.promotes
    rw [hold, Option.all_some]
    exact congrArg _ BEq.comm
  have unnamed : ¬c.pendingFare.any (c.promotes p) = true := by
    rw [pending, Option.any_some, names]
    simp [other]
  have found' : c.withdrawn.find? (c.promotes p) = some r := by
    rw [← found]
    exact congrArg (fun f => c.withdrawn.find? f) (funext names)
  have ref : r.ref = i := by
    have both := List.find?_some found
    simp only [Bool.and_eq_true, beq_iff_eq] at both
    exact both.2
  unfold Catalogue.promote
  rw [if_neg unnamed, found']
  simp only [withdraw_released, ref]

end

/-- What is left of the port by the flag of a broadcast. -/
theorem promoted_port (s : State) (p : Nat) :
    (s.promoted p).port.core = s.port.core ∧ (s.promoted p).port.flags.changeoverHeld = s.port.flags.changeoverHeld ∧
      (s.promoted p).port.flags.get s.change.sentFlag =
        some ((s.port.flags.get s.change.sentFlag).getD { edition := p, code := none, drop := none, minute := s.stamp }) :=
  ⟨Port.raise_core _ _ _ _, Port.raise_flags _ _ _ _ .changeoverHeld (sentFlag_other _).1.symm, raise_sets _ _ _ _⟩

/-- The FARE pairs planned in a hub with no exchange in flight, read off a hub that agrees with it in what planning reads (R104,
R117). -/
theorem replanned_fare {b w : State} (hub : SameHub b w) (table : w.table = b.table)
    (jobs : w.planner.jobs = unfailed .fare b.planner.jobs) (drops : ∀ d, w.drop d = b.drop d) (d : DropId) :
    (b.replanKind .fare).job? d .fare = (w.planPair d .fare).job? d .fare ∧
      (b.replanKind .fare).job? d .block = b.job? d .block := by
  have same : SamePair d .fare (b.dropFailed .fare) w := by
    refine ⟨⟨hub.ex, hub.cat, hub.settings, hub.live, hub.mode, hub.door⟩, job?_of_jobs jobs d .fare, ?_, ?_⟩
    · exact congrArg Drop.planning (drops d)
    · show w.table.marks.get d = b.table.marks.get d
      rw [table]
  exact ⟨replanned_job? d same, (replanKind_job? b .fare d).2 .block (by decide)⟩

/-- The due test, the planning of the FARE pairs and the decision after a promotion (R104, R117, R145, R152). -/
structure AfterPromotion (v y t : State) : Prop where
  moved : Moved y t
  carried : Carried y.dueTest t
  freed : RecordsFreed y.cat.retired y.cat.withdrawn t
  planned : ∃ u : State, u.trunk.ex = none ∧ t = u.conclude ∧
    ∀ w : State, w.trunk.ex = none → w.cat = { y.cat with hold := t.cat.hold } → w.settings = v.settings →
      w.table = v.table → w.port.mode = v.port.mode → w.port.door = v.port.door →
      w.planner.jobs = unfailed .fare v.planner.jobs → (∀ d, w.drop d = v.drop d) →
      ∀ d, u.job? d .fare = (w.planPair d .fare).job? d .fare ∧ u.job? d .block = v.job? d .block

theorem endPromotion (v : State) (p : Nat) (free : v.trunk.ex = none) :
    AfterPromotion v (v.promoted p) ((v.promoted p).dueTest.replanKind .fare).conclude := by
  have frame := change_dueTest (v.promoted p)
  have lists := dueTest_lists (v.promoted p)
  have tested := dueTest_moved (v.promoted p)
  have core := promoted_port v p
  have marks : (v.promoted p).table = v.table ∧ (v.promoted p).planner = v.planner ∧ (v.promoted p).trunk = v.trunk ∧
      (v.promoted p).settings = v.settings ∧ ∀ d, (v.promoted p).drop d = v.drop d := ⟨rfl, rfl, rfl, rfl, fun _ => rfl⟩
  obtain ⟨table, planner, trunk, settings, drops⟩ := marks
  generalize v.promoted p = y at *
  have idle : y.dueTest.trunk.ex = none := by
    rw [frame.trunk, trunk]
    exact free
  have served := served_replanKind y.dueTest .fare
  have concluded := conclude_decided (y.dueTest.replanKind .fare)
  have freed := conclude_freed (y.dueTest.replanKind .fare)
  rw [served.cat, lists.1, lists.2] at freed
  have hold : (y.dueTest.replanKind .fare).conclude.cat.hold = y.dueTest.cat.hold :=
    (decided_hold concluded).trans (decided_hold served.decided)
  have planned := fun (w : State) hub tables jobs drops d => replanned_fare (b := y.dueTest) (w := w) hub tables jobs drops d
  refine ⟨(tested.trans served.decided.moved).trans concluded.moved, (Carried.of_decided served.decided).trans (.of_decided concluded),
    freed, _, (congrArg Trunk.ex (replanKind_trunk y.dueTest .fare)).trans idle, rfl, ?_⟩
  intro w still cat same tables mode door jobs records d
  have queue : y.dueTest.planner.jobs = v.planner.jobs := congrArg Planner.jobs (frame.planner.trans planner)
  have vehicle := frame.port.trans core.1
  have vehicleMode : y.dueTest.port.mode = v.port.mode := by have x := congrArg Port.mode vehicle; exact x
  have vehicleDoor : y.dueTest.port.door = v.port.door := by have x := congrArg Port.door vehicle; exact x
  have hub : SameHub y.dueTest w := by
    refine ⟨still.trans idle.symm, ?_, same.trans (frame.settings.trans settings).symm, ?_, mode.trans vehicleMode.symm,
      door.trans vehicleDoor.symm⟩
    · rw [cat, hold]
      exact frame.cat.symm
    · rw [tables, frame.table, table]
  obtain ⟨fare, block⟩ := planned w hub (by rw [tables, frame.table, table]) (by rw [jobs, queue])
    (fun d => by rw [records, drop_of_roster frame.roster, drops]) d
  exact ⟨fare, block.trans (job?_of_jobs queue d .block)⟩

theorem broadcastSent_eq {s : State} {x : Exchange} {p : Nat} (flying : s.trunk.ex = some x) (sending : x.stage = .sending)
    (drop : x.drop = none) (frame : x.frame = .activate p) :
    exec .trunkFrameSent s = .next ((s.passTo (x.since + x.sendTime)).touchLine.endBroadcast x p) := by
  show execTrunkFrameSent s = _
  unfold execTrunkFrameSent
  rw [inStage_of flying sending]
  simp only [State.frameSent, drop, frame]

/-- The hub in which a broadcast's exchange is over and counted (R129, R152). -/
def State.broadcastOver (s : State) (x : Exchange) : State :=
  ((s.passTo (x.since + x.sendTime)).touchLine.clearExchange x).setTrunk
    { ((s.passTo (x.since + x.sendTime)).touchLine.clearExchange x).trunk with
      broadcasts := bump ((s.passTo (x.since + x.sendTime)).touchLine.clearExchange x).trunk.broadcasts 1 }

theorem broadcastOver_line (s : State) (x : Exchange) :
    ∃ line roster, s.broadcastOver x = ((s.setTimebase (max s.timebase (x.since + x.sendTime))).setTrunk line).setRoster roster ∧
      line.ex = none ∧
      line.bare =
        { s.trunk with
          lineFrom := max s.timebase (x.since + x.sendTime), broadcasts := min 65535 (s.trunk.broadcasts + 1) }.bare ∧
      roster.drops = s.roster.drops := by
  obtain ⟨line, roster, cleared, free, bare, count, drops⟩ := clearExchange_line (s.passTo (x.since + x.sendTime)).touchLine x
  unfold State.broadcastOver
  rw [cleared]
  refine ⟨{ line with broadcasts := bump line.broadcasts 1 }, roster, rfl, free, ?_, drops⟩
  have counted := congrArg (fun k : Trunk => { k with broadcasts := bump line.broadcasts 1 }) bare
  rw [count] at counted ⊢
  exact counted

/-- What the end of a broadcast's exchange leaves of the hub. -/
structure BroadcastOver (s v : State) (now : Nat) : Prop where
  pending : v.pending = s.pending
  timebase : v.timebase = now
  clock : v.clock = s.clock
  settings : v.settings = s.settings
  intakes : v.intakes = s.intakes
  port : v.port = s.port
  cat : v.cat = s.cat
  table : v.table = s.table
  planner : v.planner = s.planner
  taps : v.taps = s.taps
  change : v.change = s.change
  free : v.trunk.ex = none
  trunk : v.trunk.bare = { s.trunk with lineFrom := now, broadcasts := min 65535 (s.trunk.broadcasts + 1) }.bare
  drops : ∀ d, v.drop d = s.drop d

theorem broadcastOver_spec (s : State) (x : Exchange) :
    BroadcastOver s (s.broadcastOver x) (max s.timebase (x.since + x.sendTime)) := by
  obtain ⟨line, roster, hub, free, bare, drops⟩ := broadcastOver_line s x
  rw [hub]
  exact ⟨rfl, rfl, rfl, rfl, rfl, rfl, rfl, rfl, rfl, rfl, rfl, free, bare, fun d => congrArg (fun r : Per8 Drop => r.get d) drops⟩

/-- What a promotion leaves of the hub: all but the Catalogue and one flag. -/
theorem promoted_parts (v : State) (p : Nat) :
    (v.promoted p).pending = v.pending ∧ (v.promoted p).timebase = v.timebase ∧ (v.promoted p).clock = v.clock ∧
      (v.promoted p).settings = v.settings ∧ (v.promoted p).intakes = v.intakes ∧
      (v.promoted p).cat = v.cat.promote v.planner.jobs p ∧ (v.promoted p).table = v.table ∧ (v.promoted p).taps = v.taps ∧
      (v.promoted p).trunk = v.trunk ∧ ∀ d, (v.promoted p).drop d = v.drop d :=
  ⟨rfl, rfl, rfl, rfl, rfl, rfl, rfl, rfl, rfl, fun _ => rfl⟩

/-- Settles O38: p is promoted from its place, the due test meets the P that remains, and the FARE pairs are planned. -/
theorem broadcastSentPromotes : Obligations.BroadcastSentPromotes := by
  unfold Obligations.BroadcastSentPromotes
  intro x p s flying sending drop frame T old
  have runs : exec .trunkFrameSent s = .next (((s.broadcastOver x).promoted p).dueTest.replanKind .fare).conclude :=
    broadcastSent_eq flying sending drop frame
  have hub : BroadcastOver s (s.broadcastOver x) T := broadcastOver_spec s x
  generalize s.broadcastOver x = v at runs hub
  have ends := endPromotion v p hub.free
  obtain ⟨core, held, flag⟩ := promoted_port v p
  obtain ⟨pending, time, clock, settings, intakes, cat, table, taps, trunk, drops⟩ := promoted_parts v p
  have due := fun r pending => dueTest_due (v.promoted p) r pending
  have idle := fun pending => dueTest_none (v.promoted p) pending
  have stamp : v.stamp = s.stamp := by unfold State.stamp; rw [hub.clock]
  rw [hub.port] at core held flag
  rw [hub.change, stamp] at flag
  rw [hub.cat, hub.planner] at cat
  generalize v.promoted p = y at *
  generalize State.conclude _ = t at runs ends
  obtain ⟨moved, carried, freed, u, still, concludes, planned⟩ := ends
  have sets := promote_frame s.cat s.planner.jobs p
  rw [← cat] at sets
  have head : t.cat.h = y.cat.h := by have x := congrArg Catalogue.h moved.cat; exact x
  have base : t.cat.b = y.cat.b := by have x := congrArg Catalogue.b moved.cat; exact x
  have chain : t.cat.chain = y.cat.chain := by have x := congrArg Catalogue.chain moved.cat; exact x
  have reads (c : Catalogue) (same : c = { y.cat with hold := t.cat.hold }) : ∃ u : State, u.trunk.ex = none ∧ t = u.conclude ∧
      ∀ d, u.job? d .fare =
          ((((s.setTrunk { s.trunk with ex := none }).setCat c).setJobs (unfailed .fare s.planner.jobs)).planPair d .fare).job? d .fare ∧
        u.job? d .block = s.job? d .block := by
    refine ⟨u, still, concludes, fun d => ?_⟩
    obtain ⟨fare, block⟩ := planned (((s.setTrunk { s.trunk with ex := none }).setCat c).setJobs (unfailed .fare s.planner.jobs)) rfl same
      hub.settings.symm hub.table.symm (congrArg Port.mode hub.port).symm (congrArg Port.door hub.port).symm
      (by rw [hub.planner]; rfl) (fun d => (hub.drops d).symm) d
    exact ⟨fare, block.trans (job?_of_jobs (congrArg Planner.jobs hub.planner) d .block)⟩
  refine ⟨t, runs, moved.timebase.trans (time.trans hub.timebase), moved.pending.trans (pending.trans hub.pending),
    moved.clock.trans (clock.trans hub.clock), moved.settings.trans (settings.trans hub.settings),
    moved.intakes.trans (intakes.trans hub.intakes), moved.port.trans core,
    moved.table.trans (congrArg CardTable.bare (table.trans hub.table)), moved.taps.trans (congrArg Taps.bare (taps.trans hub.taps)),
    fun d => (moved.drops d).trans (congrArg Drop.bare ((drops d).trans (hub.drops d))),
    moved.trunk.trans ((congrArg Trunk.bare trunk).trans hub.trunk), head.trans sets.1, base.trans sets.2.1, chain.trans sets.2.2,
    ⟨fun r place edition hold => ?_, fun q r i place hold other found => ?_⟩, ?_⟩
  · rw [promote_pending place edition hold] at cat
    have none_ : y.dueTest = y.setChange { state := .idle, hold := .absent, door := none, requested := none, forced := false } :=
      idle (by rw [cat])
    have unheld : t.cat.hold = none := by
      rw [carried.hold, none_]
      exact congrArg Catalogue.hold cat
    refine ⟨(moved_active moved).trans (by rw [cat]), (moved_pending moved).trans (by rw [cat]), unheld, ?_, reads _ ?_, ?_, ?_⟩
    · rw [cat] at freed
      exact freed
    · rw [cat, unheld]
    · rw [carried.change, none_]
      rfl
    · rw [carried.held, none_]
      exact held
  · rw [promote_withdrawn place hold other found] at cat
    have stays : y.cat.pendingFare = some q := by rw [cat]; exact place
    have test := due q stays
    rw [clock, hub.clock, held] at test
    refine ⟨(moved_active moved).trans (by rw [cat]), (moved_pending moved).trans stays, ?_, reads _ ?_, ?_⟩
    · rw [cat] at freed
      exact freed
    · rw [cat]
    · split
      next come => exact DueEntered.carried ((if_pos come).mp test) carried
      next early =>
        obtain ⟨change, port⟩ := (if_neg early).mp test
        exact ⟨carried.change.trans change, carried.held.trans ((congrArg (fun p : Port => p.flags.changeoverHeld) port).trans held)⟩
  · obtain ⟨apart, jobs, queue⟩ := sentFlag_other s.change
    exact (moved.flags _ apart jobs queue).trans flag

end Sys2Proof.Machine

namespace Sys2Proof.Machine

/-! ### The trunk's frames and answers as bytes (R121, R127, R189, R192) -/

/-- One byte's bits go into the trunk check one by one, the most significant first. -/
theorem trunkCheck_bits (bytes : List Byte) :
    trunkCheck bytes =
      (bytes.flatMap (fun b => [7, 6, 5, 4, 3, 2, 1, 0].map b.getLsbD)).foldl
        (fun (r : BitVec 16) bit => if r.getLsbD 15 = bit then r <<< 1 else (r <<< 1) ^^^ 0x1021) 0xFFFF := by
  have bit (r : BitVec 16) (b : Bool) :
      crc16Bit r b = if r.getLsbD 15 = b then r <<< 1 else (r <<< 1) ^^^ 0x1021 := by
    by_cases h : r.getLsbD 15 = b
    · rw [crc16Bit, if_neg (fun ne => bne_iff_ne.mp ne h), if_pos h]
    · rw [crc16Bit, if_pos (bne_iff_ne.mpr h), if_neg h]
  have byte : crc16Byte = fun r b => [7, 6, 5, 4, 3, 2, 1, 0].foldl (fun r i => crc16Bit r (b.getLsbD i)) r := rfl
  simp only [trunkCheck, byte, bit, List.foldl_flatMap, List.foldl_map]

/-- The check travels with its high byte first. -/
theorem checkBytes_eq (c : BitVec 16) : checkBytes c = (leBytes 2 c.toNat).reverse := by
  have high : (c >>> 8).setWidth 8 = BitVec.ofNat 8 (c.toNat / 256) := by
    apply BitVec.eq_of_toNat_eq
    simp [Nat.shiftRight_eq_div_pow]
  have low : c.setWidth 8 = BitVec.ofNat 8 c.toNat := rfl
  rw [checkBytes, high, low]
  rfl

theorem trunkBytes_eq (drop : Option DropId) (f : TrunkFrame) :
    let covered :=
      leBytes 1 (dropNumber drop) ++ (framePayload f).1 :: leBytes 1 (framePayload f).2.length ++ (framePayload f).2
    trunkBytes drop f = 0xA5 :: covered ++ (leBytes 2 (trunkCheck covered).toNat).reverse := by
  intro covered
  rw [← checkBytes_eq]
  cases drop <;> rfl

theorem framePayload_open (k : Kind) (e : Nat) (f : Form) (n base : Nat) (urgent restart : Bool) :
    framePayload (.openF k e f n base urgent restart) =
      (0x11,
        [if k = .fare then 1 else 2, if f = .full then 1 else 2] ++ leBytes 2 e ++ leBytes 2 n ++ leBytes 2 base ++
          leBytes 1 (bitOf urgent + 2 * bitOf restart)) := by
  have kind : kindCode k = if k = .fare then 1 else 2 := by cases k <;> rfl
  have form : formCode f = if f = .full then 1 else 2 := by cases f <;> rfl
  have marks : (if urgent then 1 else 0) + (if restart then 2 else 0) = bitOf urgent + 2 * bitOf restart := by
    cases urgent <;> cases restart <;> rfl
  rw [framePayload, kind, form, marks]
  rfl

theorem framePayload_segment (i : Nat) (last : Bool) (q : Segment) :
    framePayload (.segment i last (some q)) = (0x12, leBytes 2 i ++ leBytes 1 (bitOf last) ++ q) := by
  rw [framePayload, mark8_eq]
  rfl

theorem judgeAnswer_bad {d : DropId} {f : TrunkFrame} {addr kind len : Byte} {payload check : List Byte}
    (two : check.length = 2)
    (bad : payload.length ≠ len.toNat ∨ check ≠ checkBytes (trunkCheck (addr :: kind :: len :: payload)) ∨
      addr.toNat ≠ d.val + 1) :
    judgeAnswer (some d) f (addr :: kind :: len :: payload ++ check) = none := by
  apply if_neg
  rintro ⟨long, checked, addressed⟩
  change (payload ++ check).length = _ at long
  change (payload ++ check).drop _ = checkBytes (trunkCheck (_ :: _ :: _ :: (payload ++ check).take _)) at checked
  have fits : payload.length = len.toNat := by
    rw [List.length_append, two] at long
    omega
  rw [List.drop_append_of_le_length (by omega), List.take_append_of_le_length (by omega), ← fits, List.drop_length,
    List.take_length] at checked
  obtain bad | bad | bad := bad
  · exact bad fits
  · exact bad checked
  · exact bad (Option.some.inj addressed).symm

/-- An answer whose length, check and address agree says what its kind and payload say (R127). -/
theorem judgeAnswer_agreeing {d : DropId} (f : TrunkFrame) {addr kind len : Byte} {payload check : List Byte}
    (fits : payload.length = len.toNat) (checked : check = checkBytes (trunkCheck (addr :: kind :: len :: payload)))
    (addressed : addr.toNat = d.val + 1) :
    judgeAnswer (some d) f (addr :: kind :: len :: payload ++ check) = replyOf f kind payload := by
  have two : check.length = 2 := congrArg List.length checked
  have taken : (payload ++ check).take len.toNat = payload := by
    rw [← fits, List.take_left]
  have left : (payload ++ check).drop len.toNat = check := by
    rw [← fits, List.drop_left]
  have all : (payload ++ check).length = len.toNat + 2 ∧
      (payload ++ check).drop len.toNat =
        checkBytes (trunkCheck (addr :: kind :: len :: (payload ++ check).take len.toNat)) ∧
      (some d).map addrOf = some addr.toNat := by
    rw [taken, left, List.length_append, fits, two]
    exact ⟨rfl, checked, congrArg some addressed.symm⟩
  exact (if_pos all).trans (congrArg (replyOf f kind) taken)

/-- The reason of a NAK's number (R192). -/
def nakReasonOf (n : Nat) : NakReason :=
  match n with
  | 1 => .noRoom
  | 2 => .badSequence
  | 3 => .digest
  | 4 => .notStaged
  | _ => .refused

theorem nakReason_eq (c : Byte) : nakReason c = nakReasonOf c.toNat := by
  have number {n : Nat} (small : n < 256) : c = BitVec.ofNat 8 n ↔ c.toNat = n := by
    rw [← BitVec.toNat_inj, BitVec.toNat_ofNat, Nat.mod_eq_of_lt small]
  have one : c = 1 ↔ c.toNat = 1 := number (by decide)
  have two : c = 2 ↔ c.toNat = 2 := number (by decide)
  have three : c = 3 ↔ c.toNat = 3 := number (by decide)
  have four : c = 4 ↔ c.toNat = 4 := number (by decide)
  rw [nakReason]
  simp only [one, two, three, four]
  match c.toNat with
  | 0 | 1 | 2 | 3 | 4 => rfl
  | n + 5 => simp [nakReasonOf]

theorem replyOf_wait (f : TrunkFrame) {payload : List Byte} (empty : payload.length = 0) :
    replyOf f 0x22 payload = some .wait := if_pos empty

theorem replyOf_nak (f : TrunkFrame) {payload : List Byte} (one : payload.length = 1) :
    replyOf f 0x23 payload = some (.nak (nakReasonOf (numberAt payload 0 1))) := by
  obtain ⟨c, rfl⟩ := List.length_eq_one_iff.mp one
  have number : numberAt [c] 0 1 = c.toNat := by simp [numberAt, leNat]
  rw [number, ← nakReason_eq]
  rfl

/-- How long the ACK of a frame is, none for a POLL, which is answered by a STATUS (R122). -/
def TrunkFrame.ackLength : TrunkFrame → Option Nat
  | .poll _ => none
  | .segment _ _ _ => some 4
  | .openF _ _ _ _ _ _ _ | .close _ | .activate _ => some 2

theorem replyOf_burstAck (i : Nat) (last : Bool) (q : Option Segment) {payload : List Byte} (four : payload.length = 4) :
    replyOf (.segment i last q) 0x21 payload = some (.ack (numberAt payload 0 2) (some (numberAt payload 2 2))) := by
  rw [replyOf, if_neg (by decide), if_neg (by decide)]
  exact if_pos ⟨rfl, four⟩

theorem replyOf_ack {f : TrunkFrame} (short : f.ackLength = some 2) {payload : List Byte} (two : payload.length = 2) :
    replyOf f 0x21 payload = some (.ack (numberAt payload 0 2) none) := by
  rw [replyOf.eq_def, if_neg (by decide), if_neg (by decide)]
  cases f with
  | poll a => cases short
  | segment i last q => cases short
  | openF k e form n base urgent restart => exact if_pos ⟨rfl, two⟩
  | close x => exact if_pos ⟨rfl, two⟩
  | activate e => exact if_pos ⟨rfl, two⟩

/-- A field of a tap record is the number at its offset in the STATUS. -/
theorem field_slot (payload : List Byte) (i w off : Nat) (inside : off + w ≤ 24) :
    field w off (((payload.drop 9).drop (24 * i)).take 24) = numberAt payload (9 + 24 * i + off) w := by
  rw [field, numberAt, List.drop_take, List.take_take, List.drop_drop, List.drop_drop, Nat.min_eq_left (by omega),
    ← Nat.add_assoc]

/-- The tap record at a place of a STATUS (R192). -/
def tapAt (payload : List Byte) (i : Nat) : Tap :=
  let at_ (off width : Nat) : Nat := numberAt payload (9 + 24 * i + off) width
  { seq := .ofNat 16 (at_ 0 2), card := .ofNat 64 (at_ 2 8), product := .ofNat 16 (at_ 10 2)
    fare := .ofNat 16 (at_ 12 2), fareUsed := .ofNat 16 (at_ 14 2), blockUsed := .ofNat 16 (at_ 16 2)
    decision := .ofNat 8 (at_ 18 1), byte19 := .ofNat 8 (at_ 19 1), minute := .ofNat 32 (at_ 20 4) }

theorem readTap_slot (payload : List Byte) (i : Nat) :
    readTap (((payload.drop 9).drop (24 * i)).take 24) = tapAt payload i := by
  have slot {w off : Nat} (inside : off + w ≤ 24) := field_slot payload i w off inside
  simp only [readTap, tapAt, slot (w := 2) (off := 0) (by decide), slot (w := 8) (off := 2) (by decide),
    slot (w := 2) (off := 10) (by decide), slot (w := 2) (off := 12) (by decide), slot (w := 2) (off := 14) (by decide),
    slot (w := 2) (off := 16) (by decide), slot (w := 1) (off := 18) (by decide), slot (w := 1) (off := 19) (by decide),
    slot (w := 4) (off := 20) (by decide)]

/-- A STATUS's records are those at their places. -/
theorem slots_taps (payload : List Byte) (n : Nat) :
    (cutSlots 24 n (payload.drop 9)).map readTap = (List.range n).map (tapAt payload) := by
  apply List.ext_getElem?
  intro i
  by_cases h : i < n
  · rw [List.getElem?_map, List.getElem?_map, cutSlots_getElem? _ _ _ _ h, List.getElem?_range h]
    exact congrArg some (readTap_slot payload i)
  · rw [List.getElem?_eq_none (by simpa [cutSlots_length] using h), List.getElem?_eq_none (by simpa using h)]

theorem replyOf_poll {allowance : Nat} {payload : List Byte} (long : 9 ≤ payload.length)
    (fits : payload.length = 9 + 24 * numberAt payload 8 1) (allowed : numberAt payload 8 1 ≤ allowance) :
    replyOf (.poll allowance) 0x20 payload =
      some (.status { active := numberAt payload 0 2, staged := numberAt payload 2 2, block := numberAt payload 4 2 }
        (numberAt payload 6 2) ((List.range (numberAt payload 8 1)).map (tapAt payload))) := by
  rw [← slots_taps, replyOf, if_neg (by decide), if_neg (by decide)]
  exact if_pos ⟨rfl, long, fits, allowed⟩

/-- The answers that a frame admits beside WAIT and NAK (R122, R127). -/
def TrunkFrame.admits (f : TrunkFrame) (kind : Byte) (payload : List Byte) : Prop :=
  match f with
  | .poll allowance =>
    kind = 0x20 ∧ 9 ≤ payload.length ∧ payload.length = 9 + 24 * (payload.getD 8 0).toNat ∧
      (payload.getD 8 0).toNat ≤ allowance
  | .segment _ _ _ => kind = 0x21 ∧ payload.length = 4
  | .openF _ _ _ _ _ _ _ | .close _ | .activate _ => kind = 0x21 ∧ payload.length = 2

theorem isSome_if {α : Type} {p : Prop} [Decidable p] (a : α) : (if p then some a else none).isSome = true ↔ p := by
  by_cases h : p <;> simp [h]

theorem polled_iff (payload : List Byte) (allowance : Nat) :
    9 ≤ payload.length ∧ payload.length = 9 + 24 * field 1 8 payload ∧ field 1 8 payload ≤ allowance ↔
      9 ≤ payload.length ∧ payload.length = 9 + 24 * (payload.getD 8 0).toNat ∧ (payload.getD 8 0).toNat ≤ allowance :=
  and_congr_right fun long => by rw [field_one_eight payload long]

/-- An answer is good exactly when it is a WAIT, a NAK, or one that its frame admits, each in its length. -/
theorem replyOf_isSome (f : TrunkFrame) (kind : Byte) (payload : List Byte) :
    (replyOf f kind payload).isSome = true ↔
      (kind = 0x22 ∧ payload.length = 0) ∨ (kind = 0x23 ∧ payload.length = 1) ∨ f.admits kind payload := by
  have other {c : Byte} (ne : c ≠ 0x20 ∧ c ≠ 0x21) : ¬f.admits c payload := by
    cases f with
    | poll a => exact fun h => ne.1 h.1
    | segment i last q => exact fun h => ne.2 h.1
    | openF k e form n base urgent restart => exact fun h => ne.2 h.1
    | close x => exact fun h => ne.2 h.1
    | activate e => exact fun h => ne.2 h.1
  by_cases wait : kind = 0x22
  · subst wait
    have : replyOf f 0x22 payload = if payload.length = 0 then some .wait else none := rfl
    rw [this, isSome_if]
    simp only [true_and, other (c := 0x22) (by decide), or_false, show ¬(0x22 : Byte) = 0x23 by decide, false_and]
  by_cases nak : kind = 0x23
  · subst nak
    have : replyOf f 0x23 payload = if payload.length = 1 then some (.nak (nakReason (payload.headD 0))) else none := rfl
    rw [this, isSome_if]
    simp only [true_and, other (c := 0x23) (by decide), or_false, wait, false_and, false_or]
  simp only [wait, nak, false_and, false_or]
  rw [replyOf.eq_def, if_neg wait, if_neg nak]
  cases f with
  | poll allowance =>
    refine (isSome_if _).trans ?_
    exact and_congr_right fun _ => polled_iff payload allowance
  | segment i last q => exact isSome_if _
  | openF k e form n base urgent restart => exact isSome_if _
  | close x => exact isSome_if _
  | activate e => exact isSome_if _

/-- Settles O40: the frames byte by byte from `framePayload`, the judgement by `judgeAnswer_bad` and `judgeAnswer_agreeing`,
what a good answer says by `replyOf`. -/
theorem answerIsGarbledByTheListedTests : Obligations.AnswerIsGarbledByTheListedTests := by
  refine ⟨trunkCheck_bits, fun drop => ⟨fun a => trunkBytes_eq drop (.poll a), ?_, ?_, fun x => trunkBytes_eq drop (.close x),
    fun e => trunkBytes_eq drop (.activate e)⟩, fun d f addr kind len payload check => ⟨fun bad two => judgeAnswer_bad two bad, ?_⟩⟩
  · intro k e f n base urgent restart
    have := trunkBytes_eq drop (.openF k e f n base urgent restart)
    rwa [framePayload_open] at this
  · intro i last q
    have := trunkBytes_eq drop (.segment i last (some q))
    rwa [framePayload_segment] at this
  · intro fits checked addressed
    rw [judgeAnswer_agreeing f fits checked addressed]
    refine ⟨?_, ?_, ?_, ?_, ?_, ?_⟩
    · exact replyOf_isSome f kind payload
    · rintro rfl empty
      exact replyOf_wait f empty
    · rintro rfl one
      exact replyOf_nak f one
    · rintro i last q rfl rfl four
      exact replyOf_burstAck i last q four
    · rintro answered rfl two
      refine replyOf_ack ?_ two
      obtain ⟨k, e, form, n, base, urgent, restart, rfl⟩ | ⟨x, rfl⟩ | ⟨e, rfl⟩ := answered <;> rfl
    · rintro allowance rfl rfl long counted allowed
      exact replyOf_poll long counted allowed

end Sys2Proof.Machine

namespace Sys2Proof

/-! ### Messages read back (R175, R189) -/

theorem reads_back {m : Head} {kind : Byte} {body : List Byte} {n : Nat} {i : Instr} (padding : List Byte)
    (takes : bodyLength kind = some n) (long : body.length = n) (small : n < 65536) (reads : readBody m kind body = i) :
    decodeMessage m.src (writeMessage kind m.tag body ++ padding) = .ok i := by
  rw [decodeMessage_write m.src kind m.tag body padding n takes long small]
  exact congrArg Except.ok reads

theorem readSegmentMsg_write (m : Head) (kind : Byte) (edition index : BitVec 16) (payload : List Byte)
    (whole : payload.length = 240) :
    readSegmentMsg m (le 1 kind ++ (le 1 (0 : Byte) ++ (le 2 edition ++ (le 2 index ++ payload)))) =
      .loadSegment m kind edition index payload := by
  simp [readSegmentMsg, List.take_of_length_le whole.le]

theorem readKindEdition_write (kind : Byte) (edition : BitVec 16) :
    readKindEdition (le 1 kind ++ (le 1 (0 : Byte) ++ le 2 edition)) = (kind, edition) := by
  have last := read16_le edition []
  rw [List.append_nil] at last
  simp [readKindEdition, last]

theorem readClear_write (c : ClearBody) :
    readClear (le 2 c.flags ++ (le 1 c.log ++ (le 1 c.selector ++ (le 1 c.drop ++ (le 1 c.kind ++ le 1 c.counters))))) = c := by
  have last := read8_le c.counters []
  rw [List.append_nil] at last
  simp [readClear, last]

theorem readQuery_other (m : Head) (topic : Byte) (other : topic = 0 ∨ 6 < topic.toNat) :
    readQuery m [topic, 0] = .queryBadTopic m topic := by
  have ne {b : Byte} (one : 1 ≤ b.toNat) (six : b.toNat ≤ 6) : topic ≠ b := by
    rintro rfl
    obtain rfl | large := other
    · exact absurd one (by decide)
    · omega
  have topicRead : readQuery m [topic, 0] =
      if topic = 1 then .querySummary m
      else if topic = 2 then .queryDrop m 0
      else if topic = 3 then .queryChain m
      else if topic = 4 then .queryJobs m
      else if topic = 5 then .queryErrorlog m
      else if topic = 6 then .queryCounters m
      else .queryBadTopic m topic := by simp [readQuery]
  rw [topicRead, if_neg (ne (b := 1) (by decide) (by decide)), if_neg (ne (b := 2) (by decide) (by decide)),
    if_neg (ne (b := 3) (by decide) (by decide)), if_neg (ne (b := 4) (by decide) (by decide)),
    if_neg (ne (b := 5) (by decide) (by decide)), if_neg (ne (b := 6) (by decide) (by decide))]

theorem decode_encode (i : Instr) (m : Head) (payload padding : List Byte) (formed : WellFormed i = true)
    (head : i.head? = some m) (written : encodeMessage i = some payload) :
    decodeMessage m.src (payload ++ padding) = .ok i := by
  cases i with
  | loadOpen m b =>
    cases head; cases written
    exact reads_back padding rfl (writeOpen_length b) (by decide) (congrArg _ (readOpen_write b))
  | loadSegment m kind edition index body =>
    cases head; cases written
    have whole : body.length = 240 := eq_of_beq formed
    exact reads_back padding (n := 246) rfl (by simp [whole]) (by decide) (readSegmentMsg_write m kind edition index body whole)
  | loadClose m kind edition =>
    cases head; cases written
    refine reads_back padding (n := 4) rfl (by simp) (by decide) ?_
    show Instr.loadClose m (readKindEdition _).1 (readKindEdition _).2 = _
    rw [readKindEdition_write]
  | loadAbort m kind edition =>
    cases head; cases written
    refine reads_back padding (n := 4) rfl (by simp) (by decide) ?_
    show Instr.loadAbort m (readKindEdition _).1 (readKindEdition _).2 = _
    rw [readKindEdition_write]
  | configure m r =>
    cases head; cases written
    exact reads_back padding rfl (writeConfig_length r) (by decide) (congrArg _ (readConfig_write r))
  | querySummary m => cases head; cases written; exact reads_back padding rfl rfl (by decide) rfl
  | queryDrop m n =>
    cases head; cases written
    refine reads_back padding (n := 2) rfl rfl (by decide) ?_
    show readQuery m [2, n] = _
    simp [readQuery]
  | queryChain m => cases head; cases written; exact reads_back padding rfl rfl (by decide) rfl
  | queryJobs m => cases head; cases written; exact reads_back padding rfl rfl (by decide) rfl
  | queryErrorlog m => cases head; cases written; exact reads_back padding rfl rfl (by decide) rfl
  | queryCounters m => cases head; cases written; exact reads_back padding rfl rfl (by decide) rfl
  | queryBadTopic m topic =>
    cases head; cases written
    have other : topic = 0 ∨ 6 < topic.toNat := by simpa [WellFormed] using formed
    exact reads_back padding (n := 2) rfl rfl (by decide) (readQuery_other m topic other)
  | clear m c =>
    cases head; cases written
    exact reads_back padding (n := 7) rfl (by simp) (by decide) (congrArg _ (readClear_write c))
  | restart m => cases head; cases written; exact reads_back padding rfl rfl (by decide) rfl
  | time m minute =>
    cases head; cases written
    have read := read32_le minute []
    rw [List.append_nil] at read
    refine reads_back padding (n := 4) rfl (by simp) (by decide) ?_
    show Instr.time m (read32 _).1 = _
    rw [read]
  | vehicle m mode door =>
    cases head; cases written
    refine reads_back padding (n := 2) rfl rfl (by decide) ?_
    show Instr.vehicle m (read8 _).1 (read8 (read8 _).2).1 = _
    rw [read8_cons, read8_cons]
  | _ => cases written

/-! ### Messages discarded (R175) -/

theorem leNat_lt (l : List Byte) : leNat l < 256 ^ l.length := by
  induction l with
  | nil => simp [leNat]
  | cons b l ih =>
    have := b.isLt
    rw [leNat, List.length_cons, Nat.pow_succ]
    omega

theorem mem_bodies_iff (kind : Byte) (n : Nat) :
    (kind, n) ∈ ([(0x01, 20), (0x02, 246), (0x03, 4), (0x04, 4), (0x05, 136), (0x06, 2), (0x07, 7), (0x08, 0), (0x09, 4),
      (0x0A, 2)] : List (Byte × Nat)) ↔ bodyLength kind = some n := by
  simp only [List.mem_cons, Prod.mk.injEq, List.not_mem_nil, or_false]
  unfold bodyLength
  split_ifs <;> simp_all [eq_comm]

theorem head_readQuery (m : Head) (body : List Byte) : (readQuery m body).head? = some m := by
  unfold readQuery
  dsimp only
  split_ifs <;> rfl

theorem head_readBody (m : Head) (kind : Byte) (body : List Byte) : (readBody m kind body).head? = some m := by
  unfold readBody
  split_ifs
  case pos => rfl
  case pos => rfl
  case pos => rfl
  case pos => rfl
  case pos => rfl
  case pos => exact head_readQuery m body
  case pos => rfl
  case pos => rfl
  case pos => rfl
  case neg => rfl

end Sys2Proof

namespace Sys2Proof.Machine

/-- What a payload with a whole header is, by the body length that its kind takes (R175). -/
def decodedAs (src : MacAddr) (payload : List Byte) : Option Nat → Except DiscardReason Instr
  | none => .error .unknownKind
  | some n =>
    if numberAt payload 3 2 ≠ n then .error .wrongLength
    else if payload.length < 5 + n then .error .shortPayload
    else .ok (readBody { src, tag := .ofNat 16 (numberAt payload 1 2) } (payload.getD 0 0) ((payload.drop 5).take n))

theorem decodeMessage_long (src : MacAddr) {payload : List Byte} (long : 5 ≤ payload.length) :
    decodeMessage src payload = decodedAs src payload (bodyLength (payload.getD 0 0)) := by
  have first : read8 payload = (payload.getD 0 0, payload.drop 1) := by
    cases payload with
    | nil => simp at long
    | cons b l => exact read8_cons b l
  have tag : read16 (payload.drop 1) = (BitVec.ofNat 16 (numberAt payload 1 2), payload.drop 3) := by
    simp [read16, readLe, numberAt]
  have len : read16 (payload.drop 3) = (BitVec.ofNat 16 (numberAt payload 3 2), payload.drop 5) := by
    simp [read16, readLe, numberAt]
  have small : numberAt payload 3 2 < 65536 := by
    have := leNat_lt ((payload.drop 3).take 2)
    rwa [List.length_take, List.length_drop, Nat.min_eq_left (by omega)] at this
  rw [decodeMessage, if_neg (by omega)]
  simp only [first, tag, len, BitVec.toNat_ofNat, Nat.mod_eq_of_lt small, List.length_drop]
  cases bodyLength (payload.getD 0 0) with
  | none => rfl
  | some n =>
    have short : payload.length - 5 < n ↔ payload.length < 5 + n := by omega
    simp only [short, decodedAs]

theorem decodeMessage_unknown (src : MacAddr) {payload : List Byte} (long : 5 ≤ payload.length)
    (unknown : bodyLength (payload.getD 0 0) = none) : decodeMessage src payload = .error .unknownKind := by
  rw [decodeMessage_long src long, unknown, decodedAs]

theorem decodeMessage_wrongLength (src : MacAddr) {payload : List Byte} {n : Nat} (long : 5 ≤ payload.length)
    (takes : bodyLength (payload.getD 0 0) = some n) (wrong : numberAt payload 3 2 ≠ n) :
    decodeMessage src payload = .error .wrongLength := by
  rw [decodeMessage_long src long, takes, decodedAs, if_pos wrong]

theorem decodeMessage_short (src : MacAddr) {payload : List Byte} {n : Nat} (long : 5 ≤ payload.length)
    (takes : bodyLength (payload.getD 0 0) = some n) (stated : numberAt payload 3 2 = n) (short : payload.length < 5 + n) :
    decodeMessage src payload = .error .shortPayload := by
  rw [decodeMessage_long src long, takes, decodedAs, if_neg (not_not.mpr stated), if_pos short]

theorem decodeMessage_whole (src : MacAddr) {payload : List Byte} {n : Nat}
    (takes : bodyLength (payload.getD 0 0) = some n) (stated : numberAt payload 3 2 = n) (whole : 5 + n ≤ payload.length) :
    decodeMessage src payload =
      .ok (readBody { src, tag := .ofNat 16 (numberAt payload 1 2) } (payload.getD 0 0) ((payload.drop 5).take n)) := by
  rw [decodeMessage_long src (by omega), takes, decodedAs, if_neg (not_not.mpr stated), if_neg (by omega)]

/-! ### What an arriving frame is (R174, R176) -/

theorem classifyFrame_message (s : State) {src : MacAddr} {payload : List Byte} {i : Instr}
    (read : decodeMessage src payload = .ok i) (other : ∀ m kind edition index body, i ≠ .loadSegment m kind edition index body) :
    classifyFrame s true src s.settings.protocolType payload = if s.answerRoom then i else .answerDrop src := by
  have typed : ¬(s.settings.protocolType ≠ s.settings.protocolType) := fun h => h rfl
  rw [classifyFrame, if_neg (by decide), if_neg typed, read]
  cases i with
  | loadSegment m kind edition index body => exact absurd rfl (other m kind edition index body)
  | _ => rfl

theorem classifyFrame_segment (s : State) {src : MacAddr} {payload : List Byte} {m : Head} {kind : Byte}
    {edition index : BitVec 16} {body : List Byte} (read : decodeMessage src payload = .ok (.loadSegment m kind edition index body)) :
    classifyFrame s true src s.settings.protocolType payload = .loadSegment m kind edition index body := by
  have typed : ¬(s.settings.protocolType ≠ s.settings.protocolType) := fun h => h rfl
  rw [classifyFrame, if_neg (by decide), if_neg typed, read]

theorem classifyFrame_discarded (s : State) {src : MacAddr} {payload : List Byte} {why : DiscardReason}
    (read : decodeMessage src payload = .error why) :
    classifyFrame s true src s.settings.protocolType payload = .msgDiscard src why := by
  have typed : ¬(s.settings.protocolType ≠ s.settings.protocolType) := fun h => h rfl
  rw [classifyFrame, if_neg (by decide), if_neg typed, read]

/-! ### The hub's own frames on the link (R174, R189, R190) -/

/-- What a frame in transmission carries, behind its type. -/
def State.sentPayload (s : State) : TxBody → List Byte
  | .answer a => a.payload
  | .notice n => n.payload
  | .taps k => tapsPayload (s.taps.queue.take k)

theorem txBytes_eq {s : State} {x : Tx} (inFlight : s.port.tx = some x) {kind : Byte} {tag : Tag} {body : List Byte}
    (carries : s.sentPayload x.body = gatewayPayload kind tag body) :
    s.txBytes =
      some
        ((leBytes 6 x.dest.toNat).reverse ++ (leBytes 6 Config.stationAddress.toNat).reverse ++
          (leBytes 2 x.etherType.toNat).reverse ++ kind :: leBytes 2 tag.toNat ++ leBytes 2 body.length ++ body ++
          List.replicate (41 - body.length) 0) := by
  have bytes : s.txBytes =
      some (macBytes x.dest ++ macBytes Config.stationAddress ++ checkBytes x.etherType ++ s.sentPayload x.body) := by
    rw [State.txBytes, inFlight]
    cases h : x.body <;> simp [State.sentPayload, h]
  have pad : 46 - (5 + body.length) = 41 - body.length := by omega
  have front : le 1 kind = [kind] := by simp [le, leBytes]
  rw [bytes, carries, gatewayPayload, writeMessage, pad, front, checkBytes_eq]
  simp only [macBytes, le, List.append_assoc, List.cons_append, List.nil_append]

theorem sent_notice (s : State) (n : Notice) {flag code : Byte} (flagged : flag = BitVec.ofNat 8 n.flag.code)
    (absent : n.ctx.code = none → code = 0) (held : ∀ c, n.ctx.code = some c → code = c.byte) :
    s.sentPayload (.notice n) =
      gatewayPayload 0x83 0
        ([flag, 0] ++ leBytes 2 n.ctx.edition ++ [code] ++ leBytes 1 (dropNumber n.ctx.drop) ++ [0, 0] ++
          leBytes 4 n.ctx.minute) := by
  obtain ⟨f, edition, coded, drop, minute⟩ := n
  cases coded with
  | none =>
    rw [absent rfl, flagged, leBytes_one]
    simp only [State.sentPayload, Notice.payload, List.append_assoc, List.cons_append, List.nil_append]
    cases drop <;> rfl
  | some c =>
    rw [held c rfl, flagged, leBytes_one]
    simp only [State.sentPayload, Notice.payload, List.append_assoc, List.cons_append, List.nil_append]
    cases drop <;> rfl

/-- Settles O54: `decode_encode`, the four discards, `classifyFrame` by the message read, and `txBytes_eq` by what is sent. -/
theorem messagesReadBackAsWritten : Obligations.MessagesReadBackAsWritten := by
  refine ⟨decode_encode, fun src payload => ⟨fun short => if_pos short, fun long => ⟨fun unknown => ?_, fun n kind => ?_⟩⟩, ?_, ?_⟩
  · refine decodeMessage_unknown src long (Option.eq_none_iff_forall_ne_some.mpr fun n takes => unknown n ?_)
    exact (mem_bodies_iff _ n).mpr takes
  · have takes := (mem_bodies_iff _ n).mp kind
    exact ⟨decodeMessage_wrongLength src long takes, decodeMessage_short src long takes,
      fun stated whole => ⟨_, decodeMessage_whole src takes stated whole, head_readBody _ _ _⟩⟩
  · intro s src type payload
    refine ⟨rfl, fun other => ?_, ?_⟩
    · rw [classifyFrame, if_neg (by decide), if_pos other]
    rintro rfl
    refine ⟨fun why => classifyFrame_discarded s, fun i read => ⟨?_, fun other full => ?_⟩⟩
    · by_cases segment : ∃ m kind edition index body, i = .loadSegment m kind edition index body
      · obtain ⟨m, kind, edition, index, body, rfl⟩ := segment
        exact fun _ => classifyFrame_segment s read
      · rintro (isSegment | room)
        · exact absurd isSegment segment
        · push Not at segment
          rw [classifyFrame_message s read segment, if_pos room]
    · rw [classifyFrame_message s read other, full]
      rfl
  · intro s x inFlight sent record result flag
    have codes (c : Code) : result c = c.byte := by cases c <;> rfl
    have flags (f : Flag) : flag f = BitVec.ofNat 8 f.code := by cases f <;> rfl
    refine ⟨?_, ?_, ?_, ?_⟩
    · intro tag code kind edition v1 v2 body
      refine txBytes_eq inFlight ?_
      rw [body, codes]
      rfl
    · intro tag topic content body
      refine txBytes_eq inFlight ?_
      rw [body]
      rfl
    · intro n body
      refine txBytes_eq inFlight ?_
      rw [body]
      refine sent_notice s n (flags n.flag) (fun absent => ?_) (fun c held => ?_)
      · rw [absent]
      · rw [held]
        exact codes c
    · intro k body
      refine txBytes_eq inFlight ?_
      have records : record = screenedBytes := by
        funext r
        have verdict : r.verdict.byte =
            (match r.verdict with | .unscreened => 0 | .lateListed => 1 | .listedIgnored => 2 | .staleTariff => 3 | .clear => 4) := by
          cases r.verdict <;> rfl
        simp only [record, screenedBytes, tapBytes, le, verdict, dropNumber, leBytes_one, List.append_assoc, List.cons_append,
          List.nil_append]
        rfl
      rw [body, records]
      rfl

end Sys2Proof.Machine

namespace Sys2Proof.Machine

/-! ### What planning and a decision write in the error log (R100, R102, R116) -/

/-- The error log is as before, or it was empty and holds an entry of reason NOFIT. -/
def NofitLogged (s t : State) : Prop :=
  t.planner.log = s.planner.log ∨ (s.planner.log = none ∧ ∃ e, t.planner.log = some e ∧ e.reason = .nofit)

namespace NofitLogged
variable {s t u : State}

theorem same (h : t.planner.log = s.planner.log) : NofitLogged s t := .inl h

theorem refl (s : State) : NofitLogged s s := same rfl

theorem trans (h : NofitLogged s t) (g : NofitLogged t u) : NofitLogged s u := by
  obtain kept | ⟨empty, e, held, nofit⟩ := h
  · obtain kept' | ⟨empty', e, held', nofit⟩ := g
    · exact .inl (kept'.trans kept)
    · exact .inr ⟨kept.symm.trans empty', e, held', nofit⟩
  · obtain kept' | ⟨empty', -⟩ := g
    · exact .inr ⟨empty, e, kept'.trans held, nofit⟩
    · rw [held] at empty'
      cases empty'

theorem written {e : LogEntry} (nofit : e.reason = .nofit) (h : t.planner.log = some (s.planner.log.getD e)) : NofitLogged s t := by
  cases log : s.planner.log with
  | none => exact .inr ⟨log, e, by rw [h, log]; rfl, nofit⟩
  | some x => exact .inl (by rw [h, log]; rfl)

end NofitLogged

/-- What planning reports: no flag but JOB_FAILED, and in the error log no reason but NOFIT; a frame in transmission goes on. -/
structure PlanReported (s t : State) : Prop where
  log : NofitLogged s t
  flags : ∀ f, f ≠ .jobFailed → t.port.flags.get f = s.port.flags.get f
  tx : t.port.tx = s.port.tx

namespace PlanReported
variable {s t u : State}

theorem trans (h : PlanReported s t) (g : PlanReported t u) : PlanReported s u :=
  ⟨h.log.trans g.log, fun f other => (g.flags f other).trans (h.flags f other), g.tx.trans h.tx⟩

theorem of_calm (h : NothingReported s t) : PlanReported s t := ⟨.same h.log, fun _ _ => by rw [h.port], by rw [h.port]⟩

theorem raised {e : LogEntry} (nofit : e.reason = .nofit) (log : t.planner.log = some (s.planner.log.getD e)) {c : Ctx}
    (port : t.port = s.port.raise s.settings.enables .jobFailed c) : PlanReported s t := by
  refine ⟨.written nofit log, fun f other => ?_, by rw [port, raise_tx]⟩
  rw [port]
  unfold Port.raise
  split
  · rfl
  · exact (get_put s.port.flags .jobFailed f _).trans (if_neg other)

end PlanReported

section
variable (s : State)

theorem settleJob_planReported (j : Job) : PlanReported s (s.settleJob j) := by
  have settled := settleJob_reported s j
  split at settled
  · exact .raised rfl settled.log settled.port
  · exact .of_calm settled

theorem takePlan_planReported (d : DropId) (k : Kind) (plan : List Step) (target : Nat) :
    PlanReported s (s.takePlan d k plan target) := by
  unfold State.takePlan
  split
  · exact (PlanReported.of_calm ⟨rfl, rfl, rfl, rfl⟩ : PlanReported s (s.addJob _)).trans (settleJob_planReported _ _)
  · split
    · exact .of_calm ⟨rfl, rfl, rfl, rfl⟩
    next j _ _ =>
      have put (i : Job) : NothingReported s (s.putJob i) := ⟨rfl, rfl, rfl, rfl⟩
      exact (PlanReported.of_calm ((put _).trans (leaveMark_calm _ d k))).trans (settleJob_planReported _ _)

theorem noted_planReported (d : DropId) (k : Kind) : PlanReported s (s.noted d k) := by
  cases k with
  | fare => exact .of_calm (noteAhead_calm s d)
  | block =>
    show PlanReported s (s.noteNofit d _)
    by_cases first : s.blockPlan d (s.drop d).holdings.block = .nofit ∧ (s.drop d).blockNofit = false
    · obtain ⟨port, log⟩ := noteNofit_first s d first.2
      rw [decide_eq_true first.1]
      exact .raised rfl log port
    · refine .of_calm (noteNofit_calm s d _ ?_)
      by_cases nofit : s.blockPlan d (s.drop d).holdings.block = .nofit
      · exact .inr (Bool.eq_true_of_not_eq_false fun clear => first ⟨nofit, clear⟩)
      · exact .inl (decide_eq_false nofit)

theorem planKind_planReported (d : DropId) (k : Kind) : PlanReported s (s.planKind d k) := by
  rw [planKind_acted]
  refine (noted_planReported s d k).trans ?_
  cases s.pairPlan d k with
  | none => exact .of_calm (removeJob_calm _ d k)
  | some p => exact takePlan_planReported _ d k p.1 p.2

theorem planPair_planReported (d : DropId) (k : Kind) : PlanReported s (s.planPair d k) := by
  have calm (j : Job) : PlanReported s (s.putJob j) := .of_calm ⟨rfl, rfl, rfl, rfl⟩
  have still : PlanReported s s := .of_calm ⟨rfl, rfl, rfl, rfl⟩
  unfold State.planPair
  split
  · split
    · exact planKind_planReported s d k
    · split
      · exact still
      · split
        · exact calm _
        · exact planKind_planReported s d k
  · exact still

end

/-! #### The log over a decision -/

section
variable (s : State)

theorem formPoll_log (k : ExKind) (d : DropId) : (s.formPoll k d).planner.log = s.planner.log := by
  unfold State.formPoll
  rw [(noteAllowance_eq s).1]
  rfl

theorem formPush_log (j : Job) (frame : TrunkFrame) (first last : Nat) :
    (s.formPush j frame first last).planner.log = s.planner.log := by
  show (s.displace j.drop j.kind).planner.log = s.planner.log
  unfold State.displace
  dsimp only
  split <;> rfl

theorem openFull_log (j : Job) : NofitLogged s (s.openFull j) := by
  have placed : (s.placeMark j.drop).planner.log = s.planner.log := by
    rw [placeMark_eq]
    rfl
  unfold State.openFull
  split
  · exact .refl s
  · dsimp only
    split
    · exact .same ((formPush_log _ _ _ _ _).trans placed)
    · refine .trans (.same ?_) (planPair_planReported _ _ _).log
      show ((s.placeMark j.drop).releaseMark j.drop).planner.log = _
      rw [releaseMark_eq]
      exact placed

theorem openStep_log (j : Job) : NofitLogged s (s.openStep j) := by
  unfold State.openStep
  split
  · split
    · exact .same (formPush_log _ _ _ _ _)
    · exact .refl s
  · exact openFull_log s j
  · split
    · exact .same (formPush_log _ _ _ _ _)
    · exact .refl s
  · exact .refl s
  · exact .refl s

theorem pushJob_log (j : Job) : NofitLogged s (s.pushJob j) := by
  have woken : (s.wake j).1.planner.log = s.planner.log := by
    unfold State.wake
    split
    · split <;> rfl
    · rfl
  unfold State.pushJob
  dsimp only
  refine NofitLogged.trans (.same woken) ?_
  generalize (s.wake j).1 = w
  generalize (s.wake j).2 = i
  split
  · exact openStep_log w i
  · unfold State.sendBurst
    dsimp only
    split
    · have moved : (w.moveCursor i Mark.beginBurst).planner.log = w.planner.log := by
        unfold State.moveCursor
        split <;> rfl
      exact .same ((formPush_log _ _ _ _ _).trans moved)
    · exact .refl w
  · split
    · exact .same (formPush_log _ _ _ _ _)
    · exact .refl w
  · exact .same (formPush_log _ _ _ _ _)

theorem tryJob_log (d : DropId) (k : Kind) : NofitLogged s (s.tryJob d k) := by
  unfold State.tryJob
  split
  · exact .refl s
  · split
    · split
      · exact pushJob_log s _
      · exact .refl s
    · exact .refl s

theorem tryAll_log (js : List Job) : NofitLogged s (js.foldl (fun s j => s.tryJob j.drop j.kind) s) := by
  induction js generalizing s with
  | nil => exact .refl s
  | cons j js ih => exact (tryJob_log s j.drop j.kind).trans (ih _)

theorem takeTurn_log : s.takeTurn.planner.log = s.planner.log := by
  unfold State.takeTurn
  split
  · rfl
  · split
    · rfl
    · exact formPoll_log _ _ _

theorem startRound_log : s.startRound.planner.log = s.planner.log := by
  unfold State.startRound State.startPause
  repeat' split
  all_goals rfl

theorem startTurn_log : NofitLogged s s.startRound.takeTurn := .same ((takeTurn_log _).trans (startRound_log s))

theorem arbitrate_log : NofitLogged s s.arbitrate := by
  have step : NofitLogged s s.roundStep := by
    unfold State.roundStep
    dsimp only
    split
    · exact (NofitLogged.same (takeTurn_log s)).trans (startTurn_log _)
    · exact .same (takeTurn_log s)
  have push (u : State) : NofitLogged u u.pushStep := by
    unfold State.pushStep
    dsimp only
    split
    · exact (tryAll_log u u.candidates).trans (startTurn_log _)
    · exact tryAll_log u u.candidates
  unfold State.arbitrate
  split
  · exact .refl s
  · split
    · exact .same rfl
    · split
      · exact .same (formPoll_log _ _ _)
      · dsimp only
        split
        · exact step
        · exact step.trans (push _)

theorem conclude_log : NofitLogged s s.conclude := by
  refine (arbitrate_log s).trans (.same ?_)
  unfold State.conclude
  rw [(uplink_port _).1]
  rfl

end

end Sys2Proof.Machine

namespace Sys2Proof.Machine

/-! ### CLEAR (R117, R182) -/

theorem get_clear (p : FlagSet) (set : BitVec 16) (f : Flag) :
    (p.clear set).get f = if set.getLsbD f.code then none else p.get f := by
  have all (l : List Flag) (q : FlagSet) :
      (l.foldl (fun q g => if set.getLsbD g.code then q.put g none else q) q).get f =
        if f ∈ l ∧ set.getLsbD f.code = true then none else q.get f := by
    induction l generalizing q with
    | nil => simp
    | cons g l ih =>
      rw [List.foldl_cons, ih]
      by_cases same : f = g
      · subst same
        cases set.getLsbD f.code <;> simp [get_put]
      · cases set.getLsbD g.code <;> simp [get_put, same]
  have listed : f ∈ allFlags := by cases f <;> decide
  rw [FlagSet.clear, all]
  simp only [listed, true_and]

/-! #### The FAILED jobs named -/

theorem pair_clearFailed (s : State) (d : DropId) (k : Kind) : PairPlanned d k s (s.clearFailed d k) := by
  unfold State.clearFailed
  split
  · split
    · exact (pair_removeJob s d k).trans (pair_planPair _ d k)
    · exact .refl s
  · exact .refl s

theorem clearFailed_failed {s : State} {d : DropId} {k : Kind} {j : Job} (own : s.job? d k = some j) (failed : j.state = .failed) :
    s.clearFailed d k = (s.removeJob d k).planPair d k := by
  rw [State.clearFailed, own]
  exact if_pos failed

theorem clearFailed_other {s : State} {d : DropId} {k : Kind} (other : ∀ j, s.job? d k = some j → j.state ≠ .failed) :
    s.clearFailed d k = s := by
  unfold State.clearFailed
  split
  next j own => exact if_neg (other j own)
  · rfl

/-- A pair whose job is removed is planned by what the hub and its drop are, whatever stands in the rest of the queue. -/
theorem planAfresh_same {s u : State} (d : DropId) (k : Kind) (hub : SameHub s u)
    (drop : (u.drop d).planning = (s.drop d).planning) :
    ((u.removeJob d k).planPair d k).job? d k = ((s.removeJob d k).planPair d k).job? d k := by
  have gone (v : State) : (v.removeJob d k).job? d k = none := by
    unfold State.job?
    rw [removeJob_jobs]
    exact find_otherJobs _ _ _
  have left (v : State) := pair_removeJob v d k
  have dropped (v : State) : ((v.removeJob d k).drop d).planning = (v.drop d).planning :=
    planning_of_bare ((left v).decided.drops d)
  refine planPair_unread (((left s).hub.symm.trans hub).trans (left u).hub) ((gone u).trans (gone s).symm) ?_ fun j own => ?_
  · rw [dropped, dropped, drop]
  · rw [gone s] at own
    cases own

theorem clearFailed_same {s u : State} {d : DropId} {k : Kind} (hub : SameHub s u)
    (drop : (u.drop d).planning = (s.drop d).planning) (job : u.job? d k = s.job? d k) :
    (u.clearFailed d k).job? d k = (s.clearFailed d k).job? d k := by
  by_cases named : ∃ j, s.job? d k = some j ∧ j.state = .failed
  · obtain ⟨j, own, failed⟩ := named
    rw [clearFailed_failed own failed, clearFailed_failed (job.trans own) failed]
    exact planAfresh_same d k hub drop
  · have other : ∀ j, s.job? d k = some j → j.state ≠ .failed := fun j own failed => named ⟨j, own, failed⟩
    rw [clearFailed_other other, clearFailed_other fun j own => other j (job.symm.trans own)]
    exact job

/-- The FAILED jobs of a list cleared in turn: each pair's job is as clearing it alone leaves it. -/
theorem clearsFailed_job? (l : List Job) (once : (l.map (fun j => (j.drop, j.kind))).Nodup) (s : State) (d : DropId) (k : Kind) :
    (l.foldl (fun s j => s.clearFailed j.drop j.kind) s).job? d k =
      if (d, k) ∈ l.map (fun j => (j.drop, j.kind)) then (s.clearFailed d k).job? d k else s.job? d k := by
  induction l generalizing s with
  | nil => simp
  | cons j l ih =>
    obtain ⟨fresh, once⟩ := List.nodup_cons.mp once
    rw [List.foldl_cons, ih once]
    by_cases own : (d, k) = (j.drop, j.kind)
    · rw [if_neg (own ▸ fresh), if_pos (by rw [own]; exact List.mem_cons_self)]
      obtain ⟨rfl, rfl⟩ := Prod.mk.inj own
      rfl
    · have apart : ¬(d = j.drop ∧ k = j.kind) := fun both => own (Prod.ext both.1 both.2)
      have cleared := pair_clearFailed s j.drop j.kind
      have listed : (d, k) ∈ (j :: l).map (fun j => (j.drop, j.kind)) ↔ (d, k) ∈ l.map (fun j => (j.drop, j.kind)) := by
        rw [List.map_cons, List.mem_cons]
        exact or_iff_right own
      simp only [listed]
      split
      · exact clearFailed_same cleared.hub (planning_of_bare (cleared.decided.drops d)) (cleared.job? d k apart)
      · exact cleared.job? d k apart

theorem clearAllFailed_job? (s : State) (once : (s.planner.jobs.map (fun j => (j.drop, j.kind))).Nodup) (d : DropId) (k : Kind) :
    s.clearAllFailed.job? d k = (s.clearFailed d k).job? d k := by
  refine (clearsFailed_job? s.planner.jobs once s d k).trans ?_
  split
  · rfl
  next absent =>
    rw [clearFailed_other fun j own => ?_]
    obtain ⟨rfl, rfl, among⟩ := job?_drop own
    exact absurd (List.mem_map.mpr ⟨j, among, rfl⟩) absent

/-- What planning some pairs may change, FAILED jobs of theirs cleared or not. -/
structure PlanMoves (s t : State) : Prop where
  decided : Decided s t
  reported : PlanReported s t
  trunk : t.trunk = s.trunk
  cat : t.cat = s.cat
  roster : t.roster = { s.roster with drops := t.roster.drops }

namespace PlanMoves
variable {s t u : State}

theorem refl (s : State) : PlanMoves s s := ⟨.refl s, .of_calm ⟨rfl, rfl, rfl, rfl⟩, rfl, rfl, rfl⟩

theorem trans (h : PlanMoves s t) (g : PlanMoves t u) : PlanMoves s u :=
  ⟨h.decided.trans g.decided, h.reported.trans g.reported, g.trunk.trans h.trunk, g.cat.trans h.cat, by
    rw [g.roster, h.roster]⟩

theorem foldl {α : Type} {f : State → α → State} (h : ∀ s a, PlanMoves s (f s a)) (l : List α) (s : State) :
    PlanMoves s (l.foldl f s) := by
  induction l generalizing s with
  | nil => exact .refl s
  | cons a l ih => exact (h s a).trans (ih _)

end PlanMoves

theorem planPair_rest (s : State) (d : DropId) (k : Kind) :
    (s.planPair d k).roster = { s.roster with drops := (s.planPair d k).roster.drops } := by
  have noted : (s.noted d k).roster = { s.roster with drops := (s.noted d k).roster.drops } := by
    cases k
    · rfl
    · unfold State.noted State.noteNofit
      dsimp only
      split
      · rw [writeLog_eq]
        rfl
      · rfl
  have kind : (s.planKind d k).roster = { s.roster with drops := (s.planKind d k).roster.drops } := by
    rw [planKind_acted, acted_roster]
    exact noted
  unfold State.planPair
  split
  · split
    · exact kind
    · split
      · rfl
      · split
        · rfl
        · exact kind
  · rfl

theorem planPair_moves (s : State) (d : DropId) (k : Kind) : PlanMoves s (s.planPair d k) :=
  have pair := pair_planPair s d k
  ⟨pair.decided, planPair_planReported s d k, pair.trunk, pair.cat, planPair_rest s d k⟩

theorem clearFailed_cleared (s : State) (d : DropId) (k : Kind) : PlanMoves s (s.clearFailed d k) := by
  have removed : PlanMoves s (s.removeJob d k) :=
    have pair := pair_removeJob s d k
    ⟨pair.decided, .of_calm (removeJob_calm s d k), pair.trunk, pair.cat, by rw [removeJob_roster]⟩
  unfold State.clearFailed
  split
  · split
    · exact removed.trans (planPair_moves _ d k)
    · exact .refl s
  · exact .refl s

theorem clearAllFailed_cleared (s : State) : PlanMoves s s.clearAllFailed :=
  .foldl (fun u (j : Job) => clearFailed_cleared u j.drop j.kind) s.planner.jobs s

/-- The jobs that a CLEAR's selector names (R182). -/
def ClearNames (c : ClearBody) (d : DropId) (k : Kind) : Prop :=
  c.selector.toNat = 2 ∨ (c.selector.toNat = 1 ∧ c.drop.toNat = d.val + 1 ∧ kindOf c.kind = some k)

/-- What a legal failed-job selector does to the queue: the FAILED jobs it names go and their pairs are planned. -/
structure Selects (c : ClearBody) (jobs : State → State) : Prop where
  cleared : ∀ s, PlanMoves s (jobs s)
  none_ : c.selector.toNat = 0 → jobs = id
  named : ∀ s : State, (s.planner.jobs.map (fun j => (j.drop, j.kind))).Nodup → ∀ d k, ClearNames c d k →
    (jobs s).job? d k = (s.clearFailed d k).job? d k
  unnamed : ∀ (s : State) d k, ¬ClearNames c d k → (jobs s).job? d k = s.job? d k

theorem failedJobs_selects (c : ClearBody)
    (legal : c.selector.toNat = 0 ∨ c.selector.toNat = 2 ∨
      (c.selector.toNat = 1 ∧ 1 ≤ c.drop.toNat ∧ c.drop.toNat ≤ 8 ∧ (c.kind.toNat = 1 ∨ c.kind.toNat = 2))) :
    ∃ jobs, ClearBody.failedJobs c = some jobs ∧ Selects c jobs := by
  have code (n : Byte) : c.selector = n ↔ c.selector.toNat = n.toNat := BitVec.toNat_inj.symm
  have number {n : Nat} (small : n < 256) : c.selector = BitVec.ofNat 8 n ↔ c.selector.toNat = n := by
    rw [code, BitVec.toNat_ofNat, Nat.mod_eq_of_lt small]
  have zero : c.selector = 0 ↔ c.selector.toNat = 0 := number (by decide)
  have two : c.selector = 2 ↔ c.selector.toNat = 2 := number (by decide)
  have one : c.selector = 1 ↔ c.selector.toNat = 1 := number (by decide)
  obtain sel | sel | ⟨sel, low, high, kind⟩ := legal
  · refine ⟨id, by rw [ClearBody.failedJobs, if_pos (zero.mpr sel)], fun s => .refl s, fun _ => rfl, ?_, fun _ _ _ _ => rfl⟩
    rintro s - d k (h | ⟨h, -⟩) <;> omega
  · refine ⟨State.clearAllFailed, ?_, clearAllFailed_cleared, fun h => by omega, fun s once d k _ => clearAllFailed_job? s once d k,
      fun s d k h => absurd (.inl sel) h⟩
    rw [ClearBody.failedJobs, if_neg (fun h => by have := zero.mp h; omega), if_pos (two.mpr sel)]
  · obtain ⟨d, hd⟩ : ∃ d, dropAt c.drop.toNat = some d := ⟨_, dif_pos ⟨low, high⟩⟩
    obtain ⟨k, hk⟩ : ∃ k, kindOf c.kind = some k := by
      rcases kind with h | h
      · exact ⟨.fare, if_pos (BitVec.eq_of_toNat_eq h)⟩
      · have ne : c.kind ≠ 1 := fun e => by rw [e] at h; exact absurd h (by decide)
        exact ⟨.block, (if_neg ne).trans (if_pos (BitVec.eq_of_toNat_eq h))⟩
    have names (e : DropId) (k' : Kind) : ClearNames c e k' ↔ e = d ∧ k' = k := by
      constructor
      · rintro (h | ⟨-, drop, kind'⟩)
        · omega
        · rw [hk] at kind'
          rw [dropAt_addr e c.drop drop] at hd
          exact ⟨Option.some.inj hd, (Option.some.inj kind').symm⟩
      · rintro ⟨rfl, rfl⟩
        refine .inr ⟨sel, ?_, hk⟩
        rw [dropAt, dif_pos ⟨low, high⟩] at hd
        have := congrArg Fin.val (Option.some.inj hd)
        dsimp only at this
        omega
    refine ⟨fun s => s.clearFailed d k, ?_, fun s => clearFailed_cleared s d k, fun h => by omega, ?_, ?_⟩
    · rw [ClearBody.failedJobs, if_neg (fun h => by have := zero.mp h; omega), if_neg (fun h => by have := two.mp h; omega),
        if_pos (one.mpr sel), hd, hk]
    · intro s _ e k' named
      obtain ⟨rfl, rfl⟩ := (names e k').mp named
      rfl
    · intro s e k' unnamed
      exact (pair_clearFailed s d k).job? e k' fun h => unnamed ((names e k').mpr h)

/-! #### The counters -/

theorem drop_clearCounters (s : State) (d : DropId) :
    s.clearCounters.drop d = { s.drop d with counters := ⟨0, 0, 0, 0, 0, 0⟩ } := Per8.get_map _ _ d

/-- The parts of the hub with every counter 0. -/
theorem clearCounters_parts (s : State) :
    s.clearCounters.port = { s.port with fcsBad := 0, otherType := 0, msgDiscard := 0, answerDrop := 0, linkLoss := 0 } ∧
      s.clearCounters.intakes = { s.intakes with segDuplicate := 0, segStray := 0 } ∧
      s.clearCounters.table = { s.table with removeAbsent := 0, markLag := 0 } ∧
      s.clearCounters.trunk =
        { s.trunk with
          collision := 0, noAnswer := 0, garble := 0, waitLimit := 0, goBack := 0, rounds := 0, broadcasts := 0 } ∧
      s.clearCounters.taps =
        { s.taps with
          unscreened := 0, lateListed := 0, listedIgnored := 0, staleTariff := 0, clear := 0, zeroAllowance := 0
          tapsOut := 0 } := ⟨rfl, rfl, rfl, rfl, rfl⟩

theorem clearCounters_rest (s : State) :
    s.clearCounters.pending = s.pending ∧ s.clearCounters.timebase = s.timebase ∧ s.clearCounters.clock = s.clock ∧
      s.clearCounters.settings = s.settings ∧ s.clearCounters.change = s.change ∧ s.clearCounters.cat = s.cat ∧
      s.clearCounters.roster.lastTap = s.roster.lastTap := by simp [State.clearCounters]

theorem Decided.clearCounters {s t : State} (h : Decided s t) : Decided s.clearCounters t.clearCounters := by
  obtain ⟨port, intakes, table, trunk, taps⟩ := clearCounters_parts s
  obtain ⟨port', intakes', table', trunk', taps'⟩ := clearCounters_parts t
  obtain ⟨pending, timebase, clock, settings, change, cat, lastTap⟩ := clearCounters_rest s
  obtain ⟨pending', timebase', clock', settings', change', cat', lastTap'⟩ := clearCounters_rest t
  refine
    { pending := by rw [pending, pending', h.pending], timebase := by rw [timebase, timebase', h.timebase]
      clock := by rw [clock, clock', h.clock], settings := by rw [settings, settings', h.settings]
      change := by rw [change, change', h.change], cat := by rw [cat, cat', h.cat]
      lastTap := by rw [lastTap, lastTap', h.lastTap], intakes := by rw [intakes, intakes', h.intakes]
      port := ?_, table := ?_, taps := ?_, trunk := ?_, drops := fun d => ?_, flying := ?_, sweeping := ?_, quiet := ?_ }
  · rw [port, port']
    have x := congrArg (fun p : Port => { p with fcsBad := 0, otherType := 0, msgDiscard := 0, answerDrop := 0, linkLoss := 0 }) h.port
    exact x
  · rw [table, table']
    have x := congrArg (fun c : CardTable => { c with removeAbsent := 0, markLag := 0 }) h.table
    exact x
  · rw [taps, taps']
    have x := congrArg (fun q : Taps => { q with
      unscreened := 0, lateListed := 0, listedIgnored := 0, staleTariff := 0, clear := 0, zeroAllowance := 0, tapsOut := 0 }) h.taps
    exact x
  · rw [trunk, trunk']
    have x := congrArg (fun y : Trunk => { y with
      collision := 0, noAnswer := 0, garble := 0, waitLimit := 0, goBack := 0, rounds := 0, broadcasts := 0 }) h.trunk
    exact x
  · rw [drop_clearCounters, drop_clearCounters]
    have x := congrArg (fun r : Drop => { r with counters := ⟨0, 0, 0, 0, 0, 0⟩ }) (h.drops d)
    exact x
  · rw [trunk, trunk']
    exact h.flying
  · rw [table, table']
    exact h.sweeping
  · rw [State.tableClosed, table, table']
    intro closed marks
    rw [h.quiet closed marks]

theorem Decided.answer {s t : State} (h : Decided s t) (a : Answer) : Decided (s.answer a) (t.answer a) where
  pending := h.pending
  timebase := h.timebase
  clock := h.clock
  settings := h.settings
  intakes := h.intakes
  change := h.change
  port := by
    have x := congrArg (fun p : Port => { p with answers := p.answers ++ [a] }) h.port
    exact x
  cat := h.cat
  table := h.table
  taps := h.taps
  trunk := h.trunk
  lastTap := h.lastTap
  drops := h.drops
  flying := h.flying
  sweeping := h.sweeping
  quiet := h.quiet

theorem counters_clearCounters (s : State) : ∀ n ∈ s.clearCounters.counters, n = 0 := by
  have drops : s.clearCounters.roster.drops.toList.flatMap (fun r => r.counters.list) = List.replicate 48 0 := rfl
  have all : s.clearCounters.counters =
      List.replicate 9 0 ++ s.clearCounters.roster.drops.toList.flatMap (fun r => r.counters.list) ++ List.replicate 17 0 := by
    rw [State.counters, List.append_assoc _ _ (Trunk.counters _), List.append_assoc]
    rfl
  intro n among
  rw [all, drops] at among
  simp only [List.mem_append, List.mem_replicate] at among
  omega

/-! #### The whole command -/

/-- The counters cleared where a CLEAR says so. -/
def State.counterCleared (s : State) (c : ClearBody) : State := if c.counters = 0 then s else s.clearCounters

/-- The hub whose FAILED jobs a CLEAR meets: the frame accepted, the named flags clear, the log emptied where it says so. -/
def State.clearing (s : State) (m : Head) (c : ClearBody) : State :=
  (s.setPort { s.port with gateway := some m.src, flags := s.port.flags.clear c.flags }).setPlanner
    { s.planner with log := if c.log = 0 then s.planner.log else none }

/-- The end of a CLEAR after its jobs: the counters, then the answer OK. -/
def State.clearAnswered (s : State) (m : Head) (c : ClearBody) : State :=
  (s.counterCleared c).answer (.result m.tag .ok 0 0 0 0)

theorem clear_eq (s : State) (m : Head) (c : ClearBody) (room : s.answerRoom = true) {jobs : State → State}
    (selected : ClearBody.failedJobs c = some jobs) :
    exec (.clear m c) s =
      .next ((jobs (s.clearing m c)).clearAnswered m c).conclude.uplink := by
  have logged :
      (if c.log = 0 then (s.acceptFrom m.src).setPort { (s.acceptFrom m.src).port with flags := s.port.flags.clear c.flags }
        else
          ((s.acceptFrom m.src).setPort { (s.acceptFrom m.src).port with flags := s.port.flags.clear c.flags }).setPlanner
            { s.planner with log := none }) = s.clearing m c := by
    unfold State.clearing
    split <;> rfl
  have met : (s.acceptFrom m.src).clearAll c jobs = (jobs (s.clearing m c)).counterCleared c := by
    rw [← logged]
    rfl
  refine (congrArg Host.Outcome.next (takeMessage_some s m _ room)).trans ?_
  rw [selected, State.clearAnswered, ← met]
  rfl

theorem counterCleared_job? (s : State) (c : ClearBody) (d : DropId) (k : Kind) : (s.counterCleared c).job? d k = s.job? d k := by
  unfold State.counterCleared
  split <;> rfl

theorem counterCleared_flags (s : State) (c : ClearBody) :
    (s.counterCleared c).port.flags = s.port.flags ∧ (s.counterCleared c).port.notices = s.port.notices ∧
      (s.counterCleared c).planner.log = s.planner.log ∧ (s.counterCleared c).planner.jobs = s.planner.jobs ∧
      (s.counterCleared c).trunk.ex = s.trunk.ex := by
  unfold State.counterCleared
  split <;> exact ⟨rfl, rfl, rfl, rfl, rfl⟩

theorem Decided.counterCleared {s t : State} (h : Decided s t) (c : ClearBody) : Decided (s.counterCleared c) (t.counterCleared c) := by
  unfold State.counterCleared
  split
  · exact h
  · exact h.clearCounters

end Sys2Proof.Machine

namespace Sys2Proof.Machine

/-! ### A CLEAR that is taken: O13 -/

/-- With an exchange in flight the end of an event leaves flags, notices, jobs, log, Roster, trunk and counters as they are. -/
structure EndsStill (x t : State) : Prop where
  flags : t.port.flags = x.port.flags
  notices : t.port.notices = x.port.notices
  planner : t.planner = x.planner
  counters : t.counters = x.counters
  roster : t.roster = x.roster
  trunk : t.trunk = x.trunk

theorem EndsStill.uplink {x t : State} (h : EndsStill x t) : EndsStill x t.uplink := by
  obtain ⟨whole, port, -⟩ := uplink_port t
  rw [whole, port]
  exact ⟨h.flags, h.notices, h.planner, h.counters, h.roster, h.trunk⟩

theorem conclude_still {x : State} (flying : x.trunk.ex.isSome = true) : EndsStill x x.conclude := by
  have still : EndsStill x x.freeRecords := ⟨rfl, rfl, rfl, rfl, rfl, rfl⟩
  have busy : x.conclude = x.freeRecords.uplink := by
    unfold State.conclude State.arbitrate
    rw [if_pos flying]
  rw [busy]
  exact still.uplink

/-- The hub as a CLEAR leaves it, but for the jobs and what a decision adds. -/
def State.cleared (s : State) (m : Head) (c : ClearBody) : State :=
  let s1 := s.setPort
    { s.port with
      gateway := some m.src, answers := s.port.answers ++ [.result m.tag .ok 0 0 0 0], flags := s.port.flags.clear c.flags }
  if c.counters = 0 then s1 else s1.clearCounters

theorem cleared_eq (s : State) (m : Head) (c : ClearBody) :
    s.cleared m c =
      ((s.setPort { s.port with gateway := some m.src, flags := s.port.flags.clear c.flags }).counterCleared c).answer
        (.result m.tag .ok 0 0 0 0) := by
  unfold State.cleared State.counterCleared
  dsimp only
  split <;> rfl

theorem cleared_flags (s : State) (m : Head) (c : ClearBody) : (s.cleared m c).port.flags = s.port.flags.clear c.flags := by
  rw [cleared_eq]
  exact (counterCleared_flags _ c).1

theorem clearing_decided (s : State) (m : Head) (c : ClearBody) {u : State} (jobs : PlanMoves (s.clearing m c) u) :
    Decided (s.cleared m c) (u.clearAnswered m c).conclude.uplink := by
  have logged : Decided (s.setPort { s.port with gateway := some m.src, flags := s.port.flags.clear c.flags }) (s.clearing m c) :=
    decided_setPlanner _ _
  rw [cleared_eq]
  exact ((((logged.trans jobs.decided).counterCleared c).answer _).trans (conclude_decided _)).trans (uplink_decided _)

theorem clearing_job? (s : State) (m : Head) (c : ClearBody) (d : DropId) (k : Kind) :
    (s.clearing m c).job? d k = s.job? d k := rfl

theorem clearing_hub (s : State) (m : Head) (c : ClearBody) : SameHub s (s.clearing m c) := ⟨rfl, rfl, rfl, rfl, rfl, rfl⟩

/-- Settles O13: the selected jobs by `failedJobs_selects`, the log by `NofitLogged`, and with an exchange in flight the rest by
`conclude_still`. -/
theorem clearTakesItsSelectors : Obligations.ClearTakesItsSelectors := by
  intro m c s room legal
  obtain ⟨jobs, selected, selects⟩ := failedJobs_selects c legal
  have taken := clear_eq s m c room selected
  have cleared := selects.cleared (s.clearing m c)
  have decided := clearing_decided s m c cleared
  have logged : NofitLogged (s.clearing m c)
      ((jobs (s.clearing m c)).clearAnswered m c).conclude.uplink := by
    have counted : ((jobs (s.clearing m c)).clearAnswered m c).planner.log = (jobs (s.clearing m c)).planner.log :=
      (counterCleared_flags _ c).2.2.1
    refine (cleared.reported.log.trans (.same counted)).trans ((conclude_log _).trans (.same ?_))
    rw [uplink_planner]
  have flies (flying : s.trunk.ex.isSome = true) : EndsStill ((jobs (s.clearing m c)).counterCleared c)
      ((jobs (s.clearing m c)).clearAnswered m c).conclude.uplink := by
    have busy : ((jobs (s.clearing m c)).clearAnswered m c).trunk.ex.isSome = true := by
      show ((jobs (s.clearing m c)).counterCleared c).trunk.ex.isSome = true
      rw [(counterCleared_flags _ c).2.2.2.2, cleared.trunk]
      exact flying
    have still := (conclude_still busy).uplink
    exact ⟨still.flags, still.notices, still.planner, still.counters, still.roster, still.trunk⟩
  generalize ((jobs (s.clearing m c)).clearAnswered m c).conclude.uplink = t at *
  obtain ⟨flags, notices, log, queue, -⟩ := counterCleared_flags (jobs (s.clearing m c)) c
  have cleanFlags (f : Flag) : (s.clearing m c).port.flags.get f = if c.flags.getLsbD f.code then none else s.port.flags.get f :=
    get_clear s.port.flags c.flags f
  refine ⟨t, taken, decided, fun f other other' => ?_, logged, fun flying => ?_⟩
  · rw [Port.flags_of_bare decided.port f other other', cleared_flags, get_clear]
  have still := flies flying
  refine ⟨?_, fun marked n among => ?_, fun none_ => ?_, fun once d k => ?_⟩
  · rw [still.flags, flags, cleared.reported.flags _ (by decide), cleanFlags]
  · rw [still.counters, State.counterCleared, if_neg marked] at among
    exact counters_clearCounters _ n among
  · have same := selects.none_ none_
    rw [same] at flags notices log queue
    refine ⟨fun f => ?_, ?_, ?_, ?_⟩
    · rw [still.flags, same, flags]
      exact cleanFlags f
    · rw [still.notices, same, notices]
      rfl
    · rw [still.planner, same, queue]
      rfl
    · rw [still.planner, same, log]
      rfl
  · have job : t.job? d k = (jobs (s.clearing m c)).job? d k :=
      (job?_of_jobs (congrArg Planner.jobs still.planner) d k).trans (counterCleared_job? _ c d k)
    have own := clearing_job? s m c d k
    refine ⟨fun j held failed named => ?_, fun spared => ?_⟩
    · rw [job, selects.named (s.clearing m c) once d k named, clearFailed_failed (own.trans held) failed]
      exact planAfresh_same d k (clearing_hub s m c) rfl
    · by_cases named : ClearNames c d k
      · have other := spared.resolve_right (not_not.mpr named)
        rw [job, selects.named (s.clearing m c) once d k named, clearFailed_other fun j held => other j (own.symm.trans held), own]
      · rw [job, selects.unnamed _ d k named, own]

end Sys2Proof.Machine

namespace Sys2Proof.Machine

/-! ### The settings that a record gives (R178, R179) -/

theorem clamp_within {lo hi : Nat} (le : lo ≤ hi) (n : Nat) : clamp lo hi n = within lo hi n := by
  unfold clamp within
  split
  · omega
  · split <;> omega

theorem min_within (hi n : Nat) : min hi n = within 0 hi n := by
  rw [← clamp_within (Nat.zero_le hi), clamp, Nat.zero_max]

theorem max_within {hi n : Nat} (le : 1 ≤ hi) (small : n ≤ hi) : max 1 n = within 1 hi n := by
  rw [← clamp_within le, clamp, Nat.min_eq_right small]

theorem refusal_none {r : RawConfig} (classes : ∀ i, RawClass.ok (r.classes.get i) = true)
    (map : ∀ d, (r.dropMap.get d).enable.toNat ≤ 1 ∧ (r.dropMap.get d).cls.toNat ≤ 3) : RawConfig.refusal r = none := by
  have windows : r.classes.toList.all RawClass.ok = true := (Per4.all_toList _ _).mpr classes
  have entries : r.dropMap.toList.all RawMapEntry.ok = true := (Per8.all_toList _ _).mpr fun d => by
    simp only [RawMapEntry.ok, Bool.and_eq_true, decide_eq_true_eq]
    exact map d
  rw [RawConfig.refusal, windows, entries]
  rfl

theorem applied_enabled (r : RawConfig) (current : BitVec 16) (d : DropId) :
    ((RawConfig.applied r current).dropMap.get d).enabled = true ↔ (r.dropMap.get d).enable = 1 := by
  rw [RawConfig.applied]
  simp only [Per8.get_map, beq_iff_eq]

/-- The record as applied has every value in its range or read by its code (R179). -/
theorem applied_taken (r : RawConfig) (current : BitVec 16)
    (map : ∀ d, (r.dropMap.get d).enable.toNat ≤ 1 ∧ (r.dropMap.get d).cls.toNat ≤ 3) :
    SettingsTaken r current (RawConfig.applied r current) where
  protocolType := rfl
  enables := by
    have mark (b : Byte) : (b != 0) = decide (b ≠ 0) := by rw [Bool.eq_iff_iff, bne_iff_ne, decide_eq_true_iff]
    simp only [RawConfig.applied, mark]
  clock := ⟨min_within _ _, min_within _ _⟩
  classes i := by
    have own : (RawConfig.applied r current).classes.get i = RawClass.applied (r.classes.get i) := by fin_cases i <;> rfl
    rw [own]
    rfl
  dropMap d := by
    refine ⟨applied_enabled r current d, ?_⟩
    have own : ((RawConfig.applied r current).dropMap.get d).cls = classNumber (r.dropMap.get d).cls := by
      rw [RawConfig.applied]
      simp only [Per8.get_map]
    rw [own]
    exact Nat.mod_eq_of_lt (by have := (map d).2; omega)
  polling := ⟨rfl, clamp_within (by decide) _, clamp_within (by decide) _, rfl⟩
  bias := min_within _ _
  levels := ⟨min_within _ _, min_within _ _, min_within _ _⟩
  floors := ⟨clamp_within (by decide) _, clamp_within (by decide) _, clamp_within (by decide) _⟩
  retryLimit := max_within (by decide) (Nat.le_of_lt_succ r.retryLimit.isLt)
  rate := rfl
  times := ⟨clamp_within (by decide) _, clamp_within (by decide) _,
    max_within (by decide) (Nat.le_of_lt_succ r.waitInterval.isLt)⟩
  counts := ⟨clamp_within (by decide) _, clamp_within (by decide) _, clamp_within (by decide) _, clamp_within (by decide) _⟩
  limits := ⟨min_within _ _, min_within _ _⟩

/-! ### Every pair planned (R104) -/

theorem planEvery_moves (s : State) : PlanMoves s s.planEvery :=
  .foldl (fun u d => (planPair_moves u d .block).trans (planPair_moves _ d .fare)) allDrops s

/-- Planning another drop's pairs leaves what planning a pair of this drop reads. -/
theorem planBoth_apart {d e : DropId} (apart : d ≠ e) (s : State) (k : Kind) : SamePair d k s (s.planBoth e) := by
  have block := pair_planPair s e .block
  have fare := pair_planPair (s.planPair e .block) e .fare
  have other {p : Prop} (h : d = e ∧ p) : False := apart h.1
  exact ⟨block.hub.trans fare.hub, (fare.job? d k other).trans (block.job? d k other),
    planning_of_bare ((fare.decided.drops d).trans (block.decided.drops d)), (fare.marks d other).trans (block.marks d other)⟩

/-- With every pair planned, each pair has the job that planning it alone leaves. -/
theorem planEvery_job? (s : State) (d : DropId) (k : Kind) : s.planEvery.job? d k = (s.planPair d k).job? d k := by
  have all (l : List DropId) (once : l.Nodup) (u : State) :
      (l.foldl State.planBoth u).job? d k = if d ∈ l then (u.planPair d k).job? d k else u.job? d k := by
    induction l generalizing u with
    | nil => simp
    | cons e l ih =>
      obtain ⟨fresh, once⟩ := List.nodup_cons.mp once
      rw [List.foldl_cons, ih once]
      by_cases own : d = e
      · subst own
        rw [if_neg fresh, if_pos List.mem_cons_self, planBoth_job?]
      · have same := planBoth_apart own u k
        simp only [List.mem_cons, own, false_or]
        rw [same.planPair, same.job]
  exact (all allDrops (by decide) s).trans (if_pos (mem_allDrops d))

/-! ### The enable values (R88) -/

/-- The jobs and the read mark of a drop stand. -/
structure JobsStand (d : DropId) (s t : State) : Prop where
  jobs : ∀ k, t.job? d k = s.job? d k
  mark : t.mark d = s.mark d

namespace JobsStand
variable {d : DropId} {s t u : State}

theorem refl (d : DropId) (s : State) : JobsStand d s s := ⟨fun _ => rfl, rfl⟩

theorem trans (h : JobsStand d s t) (g : JobsStand d t u) : JobsStand d s u :=
  ⟨fun k => (g.jobs k).trans (h.jobs k), g.mark.trans h.mark⟩

end JobsStand

theorem disableDrop_stands {d e : DropId} (apart : d ≠ e) (s : State) : JobsStand d s (s.disableDrop e) := by
  have fare := pair_removeJob s e .fare
  have block := pair_removeJob (s.removeJob e .fare) e .block
  have other {p : Prop} (h : d = e ∧ p) : False := apart h.1
  refine ⟨fun k => ?_, ?_⟩
  · refine .trans ?_ ((block.job? d k other).trans (fare.job? d k other))
    exact job?_of_jobs (congrArg Planner.jobs (releaseMark_jobs ((s.removeJob e .fare).removeJob e .block) e)) d k
  · refine .trans ?_ ((block.marks d other).trans (fare.marks d other))
    exact (releaseMark_mark ((s.removeJob e .fare).removeJob e .block) e d).trans (if_neg apart)

theorem applyEnable_apart {d e : DropId} (apart : d ≠ e) (s : State) : JobsStand d s (s.applyEnable e) := by
  have recorded (r : Drop) : JobsStand d s (s.setDrop e r) := ⟨fun _ => rfl, rfl⟩
  unfold State.applyEnable
  split
  · split
    · exact recorded _
    · split
      · exact recorded _
      · exact .refl d s
  · split
    · exact .refl d s
    · split
      · exact recorded _
      · exact disableDrop_stands apart s

/-- The enable value of a drop asks for no change. -/
structure EnableStands (on : Bool) (r : Drop) : Prop where
  agrees : on = true ↔ r.presence ≠ .disabled ∧ r.stopping = false
  rests : on = true ∨ r.stopping = false

theorem enabledRecord_stands {on : Bool} {r : Drop} (h : EnableStands on r) (flying : Bool) : enabledRecord on flying r = r := by
  obtain ⟨agrees, rests⟩ := h
  unfold enabledRecord
  cases on with
  | true =>
    obtain ⟨present, going⟩ := agrees.mp rfl
    rw [if_pos rfl, going, if_neg Bool.false_ne_true, if_neg present]
  | false =>
    have going := rests.resolve_left Bool.false_ne_true
    have disabled : r.presence = .disabled := by
      by_contra present
      exact absurd (agrees.mpr ⟨present, going⟩) Bool.false_ne_true
    rw [if_neg Bool.false_ne_true, if_pos (.inl disabled)]

theorem applyEnable_stands {s : State} {d : DropId} (h : EnableStands (s.settings.dropMap.get d).enabled (s.drop d)) :
    s.applyEnable d = s := by
  obtain ⟨agrees, rests⟩ := h
  unfold State.applyEnable
  cases on : (s.settings.dropMap.get d).enabled with
  | true =>
    obtain ⟨present, going⟩ := agrees.mp on
    rw [if_pos rfl, going, if_neg Bool.false_ne_true, if_neg present]
  | false =>
    rw [on] at agrees rests
    have going := rests.resolve_left Bool.false_ne_true
    have disabled : (s.drop d).presence = .disabled := by
      by_contra present
      exact absurd (agrees.mpr ⟨present, going⟩) Bool.false_ne_true
    rw [if_neg Bool.false_ne_true, if_pos (.inl disabled)]

theorem applyEnables_stand (l : List DropId) (s : State) (d : DropId)
    (h : EnableStands (s.settings.dropMap.get d).enabled (s.drop d)) : JobsStand d s (l.foldl State.applyEnable s) := by
  induction l generalizing s with
  | nil => exact .refl d s
  | cons e l ih =>
    rw [List.foldl_cons]
    by_cases own : d = e
    · subst own
      rw [applyEnable_stands h]
      exact ih s h
    · have frame := (applyEnable_spec s e).1
      refine (applyEnable_apart own s).trans (ih _ ?_)
      rw [frame.settings, frame.other d own]
      exact h

end Sys2Proof.Machine

namespace Sys2Proof.Machine

/-! ### A configuration record in force (R180) -/

/-- The hub with the new settings, its intakes' deadlines anew and the enable values in force. -/
def State.mapEnabled (s : State) (new : Settings) : State :=
  allDrops.foldl State.applyEnable (s.setSettings new).renewDeadlines

/-- The hub with the poll settings in force too, and its jobs levelled and judged anew. -/
def State.relevelled (s : State) (new : Settings) : State := ((s.mapEnabled new).applyPolling s.settings).relevelJobs

/-- The hub with every pair planned too, where the new settings call for it. -/
def State.reconfigured (s : State) (new : Settings) : State :=
  if s.settings.replans new then (s.relevelled new).planEvery else s.relevelled new

theorem configure_eq (s : State) (new : Settings) : s.configure new = (s.reconfigured new).withdrawNotices := rfl

theorem mapEnabled_frame (s : State) (new : Settings) :
    EnablesFrame allDrops (s.setSettings new).renewDeadlines (s.mapEnabled new) :=
  applyEnables_spec allDrops (by decide) _

theorem relevelled_moves (s : State) (new : Settings) : PlanMoves (s.relevelled new) (s.reconfigured new) := by
  unfold State.reconfigured
  split
  · exact planEvery_moves _
  · exact .refl _

/-- What a new record leaves of the hub besides drops, jobs and marks. -/
structure Reconfigured (s : State) (new : Settings) (w : State) : Prop where
  settings : w.settings = new
  change : w.change = s.change
  cat : w.cat = s.cat
  trunk : w.trunk = s.trunk
  port : w.port.bare = s.port.bare
  tx : w.port.tx = s.port.tx
  flags : ∀ f, f ≠ .jobFailed → w.port.flags.get f = s.port.flags.get f
  calm : s.settings.replans new = false → w.port = s.port
  roster : w.roster =
    { s.roster with
      drops := w.roster.drops
      probe := if new.divisor = s.settings.divisor then s.roster.probe else 0
      pollMode := if s.trunk.round.isSome then s.roster.pollMode else new.pollMode }

theorem relevelled_parts (s : State) (new : Settings) :
    (s.relevelled new).settings = (s.mapEnabled new).settings ∧ (s.relevelled new).change = (s.mapEnabled new).change ∧
      (s.relevelled new).cat = (s.mapEnabled new).cat ∧ (s.relevelled new).trunk = (s.mapEnabled new).trunk ∧
      (s.relevelled new).port = (s.mapEnabled new).port := by
  simp [State.relevelled, State.applyPolling, State.relevelJobs, State.setJobs]

theorem reconfigured_spec (s : State) (new : Settings) : Reconfigured s new (s.reconfigured new) := by
  have frame := mapEnabled_frame s new
  obtain ⟨settings', change', cat', trunk', port'⟩ := relevelled_parts s new
  have settings : (s.relevelled new).settings = new := settings'.trans frame.settings
  have change : (s.relevelled new).change = s.change := change'.trans frame.change
  have cat : (s.relevelled new).cat = s.cat := cat'.trans frame.cat
  have trunk : (s.relevelled new).trunk = s.trunk := trunk'.trans frame.trunk
  have port : (s.relevelled new).port = s.port := port'.trans frame.port
  have roster : (s.relevelled new).roster =
      { s.roster with
        drops := (s.relevelled new).roster.drops
        probe := if new.divisor = s.settings.divisor then s.roster.probe else 0
        pollMode := if s.trunk.round.isSome then s.roster.pollMode else new.pollMode } := by
    have polled : (s.relevelled new).roster =
        { (s.mapEnabled new).roster with
          probe := if (s.mapEnabled new).settings.divisor = s.settings.divisor then (s.mapEnabled new).roster.probe else 0
          pollMode :=
            if (s.mapEnabled new).trunk.round.isSome then (s.mapEnabled new).roster.pollMode
            else (s.mapEnabled new).settings.pollMode } := rfl
    rw [polled, frame.rost, frame.settings, frame.trunk]
    rfl
  have moves := relevelled_moves s new
  refine ⟨moves.decided.settings.trans settings, moves.decided.change.trans change, moves.cat.trans cat,
    moves.trunk.trans trunk, moves.decided.port.trans (by rw [port]), moves.reported.tx.trans (by rw [port]),
    fun f other => (moves.reported.flags f other).trans (by rw [port]), fun none_ => ?_, ?_⟩
  · rw [State.reconfigured, none_, if_neg Bool.false_ne_true]
    exact port
  · rw [moves.roster, roster]

/-! #### The jobs of a drop whose enable value stands -/

/-- The hub with the new settings and its jobs levelled and judged anew, and nothing else. -/
def State.levelsTaken (s : State) (new : Settings) : State :=
  (s.setSettings new).setJobs
    (s.planner.jobs.map (fun j => (s.setSettings new).judgeJob ((s.setSettings new).markLevel j)))

theorem job?_mapped (s u : State) (f : Job → Job) (own : ∀ j, (f j).drop = j.drop ∧ (f j).kind = j.kind) (d : DropId) (k : Kind) :
    (u.setJobs (s.planner.jobs.map f)).job? d k = (s.job? d k).map f := by
  have serves : Job.serves d k ∘ f = Job.serves d k := by
    funext j
    rw [Function.comp_apply, Bool.eq_iff_iff, serves_iff, serves_iff, (own j).1, (own j).2]
  show (s.planner.jobs.map f).find? _ = (s.planner.jobs.find? _).map f
  rw [List.find?_map, serves]

theorem levelled_pair (s : State) (j : Job) : (s.judgeJob (s.markLevel j)).drop = j.drop ∧ (s.judgeJob (s.markLevel j)).kind = j.kind :=
  judgeJob_drop s (s.markLevel j)

theorem SameHub.setJobs {s t : State} (h : SameHub s t) (js ks : List Job) : SameHub (s.setJobs js) (t.setJobs ks) :=
  ⟨h.ex, h.cat, h.settings, h.live, h.mode, h.door⟩

theorem relevelled_same (s : State) (new : Settings) {d : DropId} (k : Kind)
    (stands : EnableStands (new.dropMap.get d).enabled (s.drop d)) :
    SamePair d k (s.levelsTaken new) (s.relevelled new) := by
  have frame := mapEnabled_frame s new
  have enabled := applyEnables_stand allDrops (s.setSettings new).renewDeadlines d stands
  have kept : JobsStand d s (s.mapEnabled new) := ⟨enabled.jobs, enabled.mark⟩
  have record : (s.mapEnabled new).drop d = s.drop d := by
    rw [frame.drops, if_pos (mem_allDrops d)]
    exact enabledRecord_stands stands _
  have live : (s.mapEnabled new).table.live = s.table.live := by
    have x := congrArg CardTable.live frame.table
    exact x
  have hub : SameHub (s.setSettings new) ((s.mapEnabled new).applyPolling s.settings) :=
    ⟨congrArg Trunk.ex frame.trunk, frame.cat, frame.settings, live, congrArg Port.mode frame.port, congrArg Port.door frame.port⟩
  have levelled (j : Job) : ((s.mapEnabled new).applyPolling s.settings).markLevel j = (s.setSettings new).markLevel j := by
    unfold State.markLevel
    rw [hub.settings]
  refine ⟨hub.setJobs _ _, ?_, congrArg Drop.planning record, kept.mark⟩
  refine (job?_mapped ((s.mapEnabled new).applyPolling s.settings) _ _ (levelled_pair _) d k).trans ?_
  refine .trans ?_ (job?_mapped s (s.setSettings new) _ (levelled_pair (s.setSettings new)) d k).symm
  rw [show ((s.mapEnabled new).applyPolling s.settings).job? d k = s.job? d k from kept.jobs k]
  simp only [levelled, hub.judgeJob]

theorem reconfigured_job? (s : State) (new : Settings) {d : DropId} (k : Kind)
    (stands : EnableStands (new.dropMap.get d).enabled (s.drop d)) :
    (s.settings.replans new = true → (s.reconfigured new).job? d k = ((s.levelsTaken new).planPair d k).job? d k) ∧
      (s.settings.replans new = false → (s.reconfigured new).job? d k = (s.levelsTaken new).job? d k) := by
  have same := relevelled_same s new k stands
  unfold State.reconfigured
  constructor
  · intro replans
    rw [replans, if_pos rfl, planEvery_job?, same.planPair]
  · intro none_
    rw [none_, if_neg Bool.false_ne_true, same.job]

/-- Which changes of the settings call for a re-plan (R104). -/
theorem replans_iff (old new : Settings) :
    old.replans new = true ↔
      old.classes ≠ new.classes ∨ old.dropMap ≠ new.dropMap ∨ old.levelUrgent ≠ new.levelUrgent ∨
        old.levelRoutine ≠ new.levelRoutine ∨ old.levelFare ≠ new.levelFare ∨ old.floorDepot ≠ new.floorDepot ∨
        old.floorClosed ≠ new.floorClosed ∨ old.floorOpen ≠ new.floorOpen ∨ old.bias ≠ new.bias := by
  simp only [Settings.replans, Bool.or_eq_true, bne_iff_ne, or_assoc]

/-! #### The notices of a class that is off (R186) -/

/-- Whether a NOTICE that waits is kept: its class is on, or it is the one in transmission. -/
def keptNotice (e : Enables) (tx : Option Tx) (n : Notice) : Bool :=
  e.has n.flag ||
    (match tx with
    | some t => (match t.body with | .notice m => m.flag == n.flag | .answer _ | .taps _ => false)
    | none => false)

/-- A NOTICE of a flag that planning and a POLL do not raise. -/
def otherNotice (n : Notice) : Bool := n.flag != .jobFailed && n.flag != .tapqFull

theorem withdrawn_notices (w : State) :
    w.withdrawNotices.port = { w.port with notices := w.port.notices.filter (keptNotice w.settings.enables w.port.tx) } := rfl

theorem notices_of_bare {p q : Port} (h : p.bare = q.bare) : p.notices.filter otherNotice = q.notices.filter otherNotice := by
  have x := congrArg Port.notices h
  exact x

theorem configure_notices (s : State) (new : Settings) :
    (s.configure new).port.notices.filter otherNotice =
        (s.port.notices.filter (keptNotice new.enables s.port.tx)).filter otherNotice ∧
      (s.settings.replans new = false → (s.configure new).port.notices = s.port.notices.filter (keptNotice new.enables s.port.tx)) := by
  have spec := reconfigured_spec s new
  rw [configure_eq, withdrawn_notices]
  dsimp only
  rw [spec.settings, spec.tx]
  refine ⟨?_, fun none_ => by rw [spec.calm none_]⟩
  rw [List.filter_comm, notices_of_bare spec.port, List.filter_comm]

end Sys2Proof.Machine

namespace Sys2Proof.Machine

/-! ### The end of a CONFIGURE (R88, R140, R147) -/

theorem settleConfigure_goesOn {y before : State} (goes : y.stopsAtOnce before = none) :
    y.settleConfigure before = y.judgeReady.conclude := by
  unfold State.settleConfigure
  rw [goes]

theorem settleConfigure_stops {y before : State} {x : Exchange} {d : DropId} (stops : y.stopsAtOnce before = some (x, d)) :
    y.settleConfigure before = y.endExchange x d .unacknowledged id := by
  unfold State.settleConfigure
  rw [stops]

theorem settleStopping_port (s : State) (d : DropId) : (s.settleStopping d).port = s.port := by
  unfold State.settleStopping
  split
  · exact (enable_disableDrop s d).1.port
  · rfl

theorem endQuiet_port (s : State) (x : Exchange) (d : DropId) (o : PushOutcome) :
    (s.endExchange x d o id).port.bare = s.port.bare := by
  have cleared : (s.clearExchange x).port = s.port := by
    unfold State.clearExchange
    dsimp only
    split <;> rfl
  rw [endExchange_eq, (conclude_decided _).port, judgeReady_port, settleStopping_port]
  exact (handed_decided (s.clearExchange x) x d o).port.trans (congrArg Port.bare cleared)

theorem settleConfigure_port (y before : State) : (y.settleConfigure before).port.bare = y.port.bare := by
  unfold State.settleConfigure
  split
  · exact endQuiet_port y _ _ _
  · rw [(conclude_decided _).port, judgeReady_port]

theorem settleConfigure_judged (y before : State) : ReadinessJudged y (y.settleConfigure before) := by
  unfold State.settleConfigure
  split
  next x d _ =>
    have ends : ExchangeEnds x d .unacknowledged (y.setTrunk { y.trunk with ex := none }) (y.endExchange x d .unacknowledged id) :=
      endExchange_ends_of rfl (no_event d) rfl
    exact ends.judged.congr rfl rfl
  · exact judged_conclude y y (.refl y)

/-- A stopping drop whose exchange ends is DISABLED, and its record keeps none of its marks. -/
theorem endQuiet_stopped (s : State) (x : Exchange) (d : DropId) (o : PushOutcome) (stopping : (s.drop d).stopping = true) :
    (s.endExchange x d o id).drop d =
      { s.drop d with
        stopping := false, presence := .disabled, run := 0, fareAhead := false, blockNofit := false, tapUrgent := false } := by
  have handed := (beforeEvent s x d o).2
  rw [endExchange_eq]
  generalize (s.clearExchange x).handed x d o = h at handed
  have stops : (h.drop d).stopping = true := (stopping_bare handed).trans stopping
  have settled : (id h).settleStopping d = h.disableDrop d := if_pos stops
  have record := (enable_disableDrop h d).2
  have ready : ((h.disableDrop d).judgeReady).drop d = (h.disableDrop d).drop d := drop_of_roster (judgeReady_roster _) d
  rw [settled, still_conclude _ d (.inl (by rw [ready, record])) (by rw [ready, record]), ready, record]
  have x := congrArg (fun r : Drop => { r with stopping := false, presence := .disabled, run := 0 }) handed
  exact x

theorem FoundReady.uplink {r : Fare} {forced : Bool} {t : State} (h : FoundReady r forced t) : FoundReady r forced t.uplink := by
  obtain ⟨whole, port, -⟩ := uplink_port t
  rw [whole, port]
  exact ⟨h.forced, h.hold, h.decided, h.waits⟩

theorem ReadinessJudged.uplink {s t : State} (h : ReadinessJudged s t) : ReadinessJudged s t.uplink := by
  have change : t.uplink.change = t.change := by rw [(uplink_port t).1]; rfl
  have armed (e : Nat) : t.uplink.busArmed e ↔ t.busArmed e := by
    unfold State.busArmed
    simp only [drop_of_roster (uplink_roster t)]
  exact
    ⟨fun due none_ r pending all => (h.armed due none_ r pending ((armed _).mp all)).uplink,
      fun due none_ r pending not_ hold => (h.passed due none_ r pending (fun all => not_ ((armed _).mpr all)) hold).uplink,
      fun due none_ r pending not_ hold =>
        change.trans (h.unready due none_ r pending (fun all => not_ ((armed _).mpr all)) hold),
      fun rests => change.trans (h.still rests)⟩

/-! #### Which exchange ends at once -/

theorem enabledRecord_stops {on flying : Bool} {r : Drop} (going : r.stopping = false) :
    (enabledRecord on flying r).stopping = true ↔ on = false ∧ r.presence ≠ .disabled ∧ flying = true := by
  unfold enabledRecord
  cases on with
  | true => by_cases disabled : r.presence = .disabled <;> simp [going, disabled]
  | false => by_cases disabled : r.presence = .disabled <;> cases flying <;> simp [going, disabled]

theorem exchangeWith_iff (s : State) (d : DropId) : s.exchangeWith d = true ↔ ∃ x, s.trunk.ex = some x ∧ x.drop = some d := by
  unfold State.exchangeWith
  cases s.trunk.ex <;> simp

section
variable {s y : State} {new : Settings} {a : Answer} (applied : Configured s y new a)
include applied

/-- The exchange of a drop that the record newly disables ends at once while it pauses, or waits to be sent again after a WAIT. -/
theorem stopsAtOnce_iff (x : Exchange) (d : DropId) :
    y.stopsAtOnce s = some (x, d) ↔
      s.trunk.ex = some x ∧ x.drop = some d ∧ (s.drop d).stopping = false ∧ (s.drop d).presence ≠ .disabled ∧
        (new.dropMap.get d).enabled = false ∧ (x.stage = .pause ∨ (x.stage = .quiet ∧ 0 < x.waits)) := by
  have record := stopping_bare (applied.drops d)
  constructor
  · intro h
    obtain ⟨flies, drop, going, stops, pauses⟩ := stopsAtOnce_some y s x d h
    have flying : s.trunk.ex = some x := by
      cases ex : s.trunk.ex with
      | none => rw [applied.exn ex] at flies; cases flies
      | some z => rw [applied.ex z ex] at flies; exact flies
    rw [stops, eq_comm, enabledRecord_stops going] at record
    exact ⟨flying, drop, going, record.2.1, record.1, pauses⟩
  · rintro ⟨flying, drop, going, present, off, pauses⟩
    have stops : (y.drop d).stopping = true :=
      record.trans ((enabledRecord_stops going).mpr ⟨off, present, (exchangeWith_iff s d).mpr ⟨x, flying, drop⟩⟩)
    unfold State.stopsAtOnce
    rw [applied.ex x flying]
    simp only [drop]
    exact if_pos ⟨going, stops, pauses⟩

theorem settles_drop (d : DropId) (spared : ∀ x, y.stopsAtOnce s ≠ some (x, d)) :
    ((y.settleConfigure s).drop d).bare =
      (enabledRecord (new.dropMap.get d).enabled (s.exchangeWith d) (s.drop d)).bare :=
  (settleConfigure_other y s d spared).1.trans (applied.drops d)

/-- A drop that the record newly disables, with no exchange in flight, is DISABLED at once. -/
theorem settles_disabled {d : DropId} (off : (new.dropMap.get d).enabled = false) (going : (s.drop d).stopping = false)
    (present : (s.drop d).presence ≠ .disabled) (free : ∀ x, s.trunk.ex = some x → x.drop ≠ some d) :
    (y.settleConfigure s).drop d =
      { s.drop d with presence := .disabled, run := 0, fareAhead := false, blockNofit := false, tapUrgent := false } := by
  have spared (x : Exchange) : y.stopsAtOnce s ≠ some (x, d) := fun h =>
    have stops := (stopsAtOnce_iff applied x d).mp h
    free x stops.1 stops.2.1
  have alone : s.exchangeWith d = false := by
    rw [← Bool.not_eq_true, exchangeWith_iff]
    rintro ⟨x, flying, drop⟩
    exact free x flying drop
  have record : enabledRecord (new.dropMap.get d).enabled (s.exchangeWith d) (s.drop d) =
      { s.drop d with
        tapUrgent := false, fareAhead := false, blockNofit := false, stopping := false, presence := .disabled, run := 0 } := by
    have neither : ¬((s.drop d).presence = .disabled ∨ (s.drop d).stopping = true) := by
      rw [going]
      exact fun h => h.elim present Bool.false_ne_true
    unfold enabledRecord
    rw [off, alone, if_neg Bool.false_ne_true, if_neg neither, if_neg Bool.false_ne_true]
  have off' := applied.exact_ d record
  rw [(settleConfigure_other y s d spared).2 (.inl (by rw [off'])) (by rw [off']), off', ← going]

end

end Sys2Proof.Machine

namespace Sys2Proof.Machine

/-! ### A CONFIGURE that passes: O14 -/

theorem renewDeadline_eq (s : State) (l : Load) :
    s.renewDeadline l =
      if l.stage = .receiving then
        { l with
          deadline :=
            if s.clock.valid = true ∧ s.settings.idleTimeout ≠ 0 then some (s.clock.minute + s.settings.idleTimeout) else none }
      else l := by
  unfold State.renewDeadline
  cases stage : l.stage with
  | receiving =>
    rw [if_pos rfl]
    simp [State.idleDeadline]
  | checking g => rfl
  | applying => rfl
  | rebuilding => rfl

/-- What stands of a hub `a` after a CONFIGURE has given it as `t`. -/
structure ConfigureEnds (a : State) (new : Settings) (ok : Answer) (t : State) : Prop where
  settings : t.settings = new
  judged : ReadinessJudged a t
  pending : t.pending = a.pending
  timebase : t.timebase = a.timebase
  clock : t.clock = a.clock
  port : t.port.core = { a.port with answers := a.port.answers ++ [ok] }.core
  cat : { t.cat.bare with hold := none } = { a.cat.bare with hold := none }
  table : t.table.bare = a.table.bare
  taps : t.taps.bare = a.taps.bare
  trunk : t.trunk.bare = a.trunk.bare
  lastTap : t.roster.lastTap = a.roster.lastTap
  intakes : t.intakes =
    { a.intakes with
      fare := a.intakes.fare.map (a.setSettings new).renewDeadline
      block := a.intakes.block.map (a.setSettings new).renewDeadline }
  flags : ∀ f, f ≠ .jobFailed → f ≠ .tapqFull → t.port.flags.get f = a.port.flags.get f
  notices : t.port.notices.filter otherNotice =
    (a.port.notices.filter (keptNotice new.enables a.port.tx)).filter otherNotice

section
variable (a : State) (new : Settings) (ok : Answer)

/-- The hub of a CONFIGURE before its event ends. -/
def State.configured : State := (a.configure new).answer ok

theorem configured_spec : Configured a (a.configured new ok) new ok := configure_spec a new ok

theorem configured_parts :
    (a.configured new ok).change = a.change ∧ (a.configured new ok).cat = a.cat ∧ (a.configured new ok).trunk = a.trunk ∧
      (a.configured new ok).roster = (a.reconfigured new).roster ∧
      (a.configured new ok).planner = (a.reconfigured new).planner ∧
      (a.configured new ok).port.notices = (a.configure new).port.notices ∧
      ∀ f, f ≠ .jobFailed → (a.configured new ok).port.flags.get f = a.port.flags.get f :=
  have spec := reconfigured_spec a new
  ⟨spec.change, spec.cat, spec.trunk, rfl, rfl, rfl, spec.flags⟩

theorem settleConfigure_ends : ConfigureEnds a new ok ((a.configured new ok).settleConfigure a).uplink := by
  have spec := configured_spec a new ok
  obtain ⟨change, cat, -, -, -, notices, flags⟩ := configured_parts a new ok
  have judged := (settleConfigure_judged (a.configured new ok) a).congr change cat
  have port := settleConfigure_port (a.configured new ok) a
  obtain ⟨d, ended⟩ := settleConfigure_ended (a.configured new ok) a
  have up := uplink_decided ((a.configured new ok).settleConfigure a)
  have judged' := judged.uplink
  generalize (a.configured new ok).settleConfigure a = t at *
  have bare := up.port.trans port
  exact
    { settings := up.settings.trans (ended.settings.trans spec.settings)
      judged := judged'
      pending := up.pending.trans (ended.pending.trans spec.pending)
      timebase := up.timebase.trans (ended.timebase.trans spec.timebase)
      clock := up.clock.trans (ended.clock.trans spec.clock)
      port := (Port.core_of_bare bare).trans spec.port
      cat := by rw [up.cat, ended.cat, spec.cat]
      table := up.table.trans (ended.table.trans spec.table)
      taps := up.taps.trans (ended.taps.trans spec.taps)
      trunk := up.trunk.trans (ended.trunk.trans spec.trunk)
      lastTap := up.lastTap.trans (ended.lastTap.trans spec.lastTap)
      intakes := up.intakes.trans (ended.intakes.trans spec.intakes)
      flags := fun f other other' => (Port.flags_of_bare bare f other other').trans (flags f other)
      notices := (notices_of_bare bare).trans (by rw [notices, (configure_notices a new).1]) }

/-- Each drop after a CONFIGURE, by its enable value (R88). -/
structure DropConfigured (on : Bool) (d : DropId) (t : State) : Prop where
  stays : on = true → (a.drop d).stopping = false → (a.drop d).presence ≠ .disabled → (t.drop d).bare = (a.drop d).bare
  goesOn : on = true → (a.drop d).stopping = true → (t.drop d).bare = { a.drop d with stopping := false }.bare
  enabled : on = true → (a.drop d).stopping = false → (a.drop d).presence = .disabled →
    (t.drop d).bare = { a.drop d with presence := .absent, run := 0, known := false, holdings := ⟨0, 0, 0⟩ }.bare
  disabled : on = false → (a.drop d).stopping = false → (a.drop d).presence ≠ .disabled →
    (∀ x, a.trunk.ex = some x → x.drop ≠ some d) →
    t.drop d =
      { a.drop d with presence := .disabled, run := 0, fareAhead := false, blockNofit := false, tapUrgent := false }
  ends : on = false → (a.drop d).presence ≠ .disabled → ∀ x, a.trunk.ex = some x → x.drop = some d →
    (a.drop d).stopping = false ∧ (x.stage = .pause ∨ (x.stage = .quiet ∧ 0 < x.waits)) →
    ExchangeOver t ∧ (∀ j ∈ t.planner.jobs, j.drop ≠ d) ∧
      t.drop d =
        { a.drop d with
          stopping := false, presence := .disabled, run := 0, fareAhead := false, blockNofit := false, tapUrgent := false }
  stops : on = false → (a.drop d).presence ≠ .disabled → ∀ x, a.trunk.ex = some x → x.drop = some d →
    ¬((a.drop d).stopping = false ∧ (x.stage = .pause ∨ (x.stage = .quiet ∧ 0 < x.waits))) →
    (t.drop d).bare = { a.drop d with stopping := true }.bare
  off : on = false → (a.drop d).stopping = false → (a.drop d).presence = .disabled → (t.drop d).bare = (a.drop d).bare

theorem settleConfigure_drop (d : DropId) :
    DropConfigured a (new.dropMap.get d).enabled d ((a.configured new ok).settleConfigure a) := by
  have spec := configured_spec a new ok
  have stopsIff (x : Exchange) := stopsAtOnce_iff spec x d
  have settled (spared : ¬∃ x, (a.configured new ok).stopsAtOnce a = some (x, d)) :=
    settles_drop spec d fun x h => spared ⟨x, h⟩
  have keeps (stands : (new.dropMap.get d).enabled = true ∨ (a.drop d).presence = .disabled) :
      ¬∃ x, (a.configured new ok).stopsAtOnce a = some (x, d) := by
    rintro ⟨x, h⟩
    obtain ⟨-, -, -, present, off, -⟩ := (stopsIff x).mp h
    obtain on | disabled := stands
    · rw [off] at on
      cases on
    · exact present disabled
  refine ⟨fun on going present => ?_, fun on stopping => ?_, fun on going disabled => ?_,
    fun off going present free => settles_disabled spec off going present free,
    fun off present x flying drop pauses => ?_, fun off present x flying drop not_ => ?_, fun off going disabled => ?_⟩
  · rw [settled (keeps (.inl on)), on, enabledRecord, if_pos rfl, going, if_neg Bool.false_ne_true, if_neg present]
  · rw [settled (keeps (.inl on)), on, enabledRecord, if_pos rfl, if_pos stopping]
  · rw [settled (keeps (.inl on)), on, enabledRecord, if_pos rfl, if_neg (by rw [going]; exact Bool.false_ne_true), if_pos disabled]
  · have stops := (stopsIff x).mpr ⟨flying, drop, pauses.1, present, off, pauses.2⟩
    obtain ⟨-, -, -, stopping, -⟩ := stopsAtOnce_some _ _ _ _ stops
    have ends : ExchangeEnds x d .unacknowledged
        ((a.configured new ok).setTrunk { (a.configured new ok).trunk with ex := none })
        ((a.configured new ok).endExchange x d .unacknowledged id) := endExchange_ends_of rfl (no_event d) rfl
    have record := endQuiet_stopped (a.configured new ok) x d .unacknowledged stopping
    have bare : ((a.configured new ok).drop d).bare = { a.drop d with stopping := true }.bare := by
      have still : ¬((a.drop d).presence = .disabled ∨ (a.drop d).stopping = true) := by
        rw [pauses.1]
        exact fun h => h.elim present Bool.false_ne_true
      rw [spec.drops, off, enabledRecord, if_neg Bool.false_ne_true, if_neg still,
        if_pos ((exchangeWith_iff a d).mpr ⟨x, flying, drop⟩)]
    rw [settleConfigure_stops stops]
    refine ⟨ends.ended, ends.stopped stopping, record.trans ?_⟩
    have same := congrArg (fun r : Drop => { r with stopping := false, presence := .disabled, run := 0 }) bare
    exact same
  · have spared : ¬∃ z, (a.configured new ok).stopsAtOnce a = some (z, d) := by
      rintro ⟨z, h⟩
      obtain ⟨flies, -, going, -, -, pauses⟩ := (stopsIff z).mp h
      rw [flying] at flies
      cases flies
      exact not_ ⟨going, pauses⟩
    rw [settled spared, off, enabledRecord, if_neg Bool.false_ne_true]
    cases stopping : (a.drop d).stopping with
    | true => rw [if_pos (.inr rfl), ← stopping]
    | false => rw [if_neg (by simp [present]), if_pos ((exchangeWith_iff a d).mpr ⟨x, flying, drop⟩)]
  · rw [settled (keeps (.inr disabled)), off, enabledRecord, if_neg Bool.false_ne_true, if_pos (.inl disabled)]

theorem DropConfigured.uplink {a : State} {on : Bool} {d : DropId} {t : State} (h : DropConfigured a on d t) :
    DropConfigured a on d t.uplink := by
  have record := drop_of_roster (uplink_roster t) d
  have up := uplink_decided t
  have over_ (free : ExchangeOver t) : ExchangeOver t.uplink :=
    over_congr free (by rw [uplink_trunk]) up.timebase up.settings
  obtain ⟨stays, goesOn, enabled, disabled, ends, stops, off⟩ := h
  refine ⟨?_, ?_, ?_, ?_, fun off present x flying drop pauses => ?_, ?_, ?_⟩
  · rwa [record]
  · rwa [record]
  · rwa [record]
  · rwa [record]
  · obtain ⟨ended, gone, left⟩ := ends off present x flying drop pauses
    exact ⟨over_ ended, by rw [uplink_planner]; exact gone, by rw [record]; exact left⟩
  · rwa [record]
  · rwa [record]

/-- What a CONFIGURE leaves while the exchange in flight goes on. -/
theorem settleConfigure_still {x : Exchange} (flying : a.trunk.ex = some x)
    (goes : ∀ d, x.drop = some d → (new.dropMap.get d).enabled = true ∨ (a.drop d).stopping = true ∨
      ¬(x.stage = .pause ∨ (x.stage = .quiet ∧ 0 < x.waits))) :
    EndsStill (a.configured new ok).judgeReady ((a.configured new ok).settleConfigure a).uplink := by
  have spec := configured_spec a new ok
  have goesOn : (a.configured new ok).stopsAtOnce a = none := by
    refine Option.eq_none_iff_forall_ne_some.mpr fun p h => ?_
    obtain ⟨z, d⟩ := p
    obtain ⟨flies, drop, going, -, off, pauses⟩ := (stopsAtOnce_iff spec z d).mp h
    rw [flying] at flies
    cases flies
    obtain on | stopping | calm := goes d drop
    · rw [off] at on
      cases on
    · rw [going] at stopping
      cases stopping
    · exact calm pauses
  rw [settleConfigure_goesOn goesOn]
  refine (conclude_still ?_).uplink
  rw [judgeReady_ex, spec.ex x flying]
  rfl

end

theorem configure_taken (s : State) (m : Head) (r : RawConfig) (room : s.answerRoom = true)
    (passes : RawConfig.refusal r = none) :
    exec (.configure m r) s =
      .next
        (((s.acceptFrom m.src).configured (RawConfig.applied r s.settings.protocolType)
          (.result m.tag .ok 0 0 0 0)).settleConfigure (s.acceptFrom m.src)).uplink := by
  refine (congrArg Host.Outcome.next (takeMessage_some s m _ room)).trans ?_
  rw [passes]
  rfl

/-- The source of a frame is nothing that levels, judgement or planning read. -/
theorem levelsTaken_accepted (s : State) (src : MacAddr) (new : Settings) (d : DropId) (k : Kind) :
    SamePair d k (s.levelsTaken new) ((s.acceptFrom src).levelsTaken new) := by
  have hub : SameHub (s.setSettings new) ((s.acceptFrom src).setSettings new) := ⟨rfl, rfl, rfl, rfl, rfl, rfl⟩
  have levelled (j : Job) : ((s.acceptFrom src).setSettings new).markLevel j = (s.setSettings new).markLevel j := rfl
  refine ⟨⟨hub.ex, hub.cat, hub.settings, hub.live, hub.mode, hub.door⟩, ?_, rfl, rfl⟩
  refine job?_of_jobs (List.map_congr_left fun j _ => ?_) d k
  rw [hub.judgeJob, levelled]

/-- The rest of O14 while the exchange in flight goes on: the poll settings, the round, the notices and every drop's jobs. -/
structure ConfigureFlies (s : State) (new : Settings) (x : Exchange) (t : State) : Prop where
  ex : t.trunk.ex = some x
  notices : s.settings.replans new = false → t.port.notices = s.port.notices.filter (keptNotice new.enables s.port.tx)
  probe : t.roster.probe = if new.divisor = s.settings.divisor then s.roster.probe else 0
  pollMode : t.roster.pollMode = if s.trunk.round.isSome then s.roster.pollMode else new.pollMode
  lastRound : t.roster.lastRound = s.roster.lastRound
  round : t.trunk.round = s.trunk.round
  planned : s.settings.replans new = true → ∀ d k, EnableStands (new.dropMap.get d).enabled (s.drop d) →
    t.job? d k = ((s.levelsTaken new).planPair d k).job? d k
  levelled : s.settings.replans new = false → ∀ d k, EnableStands (new.dropMap.get d).enabled (s.drop d) →
    t.job? d k = (s.levelsTaken new).job? d k

theorem settleConfigure_flies (a : State) (new : Settings) (ok : Answer) {x : Exchange} (flying : a.trunk.ex = some x) {t : State}
    (still : EndsStill (a.configured new ok).judgeReady t) : ConfigureFlies a new x t := by
  obtain ⟨-, -, trunk, roster, planner, notices, -⟩ := configured_parts a new ok
  have polled := (reconfigured_spec a new).roster
  have rosters : t.roster = (a.reconfigured new).roster := still.roster.trans ((judgeReady_roster _).trans roster)
  have lines : t.trunk = { a.trunk with request := (a.configured new ok).judgeReady.trunk.request } := by
    rw [still.trunk, (change_judgeReady (a.configured new ok)).trunk, trunk]
  have queue (d : DropId) (k : Kind) : t.job? d k = (a.reconfigured new).job? d k :=
    job?_of_jobs (congrArg Planner.jobs (still.planner.trans ((judgeReady_jobs _).trans planner))) d k
  refine ⟨by rw [lines]; exact flying, fun none_ => ?_, by rw [rosters, polled], by rw [rosters, polled], by rw [rosters, polled],
    by rw [lines], fun replans d k stands => ?_, fun none_ d k stands => ?_⟩
  · rw [still.notices, judgeReady_port, notices, (configure_notices a new).2 none_]
  · rw [queue, (reconfigured_job? a new k stands).1 replans]
  · rw [queue, (reconfigured_job? a new k stands).2 none_]

/-- Settles O14: what stands by `settleConfigure_ends`, each drop by `settleConfigure_drop`, and while the exchange in flight goes on
the rest by `settleConfigure_still`. -/
theorem configureAppliesTheRecord : Obligations.ConfigureAppliesTheRecord := by
  intro m r s room classes map
  have taken := configure_taken s m r room (refusal_none classes map)
  have settings := applied_taken r s.settings.protocolType map
  have enable (d : DropId) : ((RawConfig.applied r s.settings.protocolType).dropMap.get d).enabled = true ↔
      (r.dropMap.get d).enable = 1 := applied_enabled r s.settings.protocolType d
  generalize RawConfig.applied r s.settings.protocolType = new at *
  have ends := settleConfigure_ends (s.acceptFrom m.src) new (.result m.tag .ok 0 0 0 0)
  have drops (d : DropId) := (settleConfigure_drop (s.acceptFrom m.src) new (.result m.tag .ok 0 0 0 0) d).uplink
  have flies (x : Exchange) (flying : s.trunk.ex = some x)
      (goes : ∀ d, x.drop = some d → (new.dropMap.get d).enabled = true ∨ (s.drop d).stopping = true ∨
        ¬(x.stage = .pause ∨ (x.stage = .quiet ∧ 0 < x.waits))) :=
    settleConfigure_flies (s.acceptFrom m.src) new (.result m.tag .ok 0 0 0 0) flying
      (settleConfigure_still (s.acceptFrom m.src) new (.result m.tag .ok 0 0 0 0) flying goes)
  generalize (((s.acceptFrom m.src).configured new (.result m.tag .ok 0 0 0 0)).settleConfigure (s.acceptFrom m.src)).uplink = t
    at taken ends drops flies
  have on (d : DropId) (one : (r.dropMap.get d).enable = 1) : (new.dropMap.get d).enabled = true := (enable d).mpr one
  have off (d : DropId) (zero : (r.dropMap.get d).enable = 0) : (new.dropMap.get d).enabled = false := by
    rw [← Bool.not_eq_true, enable, zero]
    decide
  obtain rfl := ends.settings
  refine ⟨t, taken, settings, ⟨ends.judged.armed, ends.judged.passed, ends.judged.unready, ends.judged.still⟩, ends.pending,
    ends.timebase, ends.clock, ends.port, ends.cat, ends.table, ends.taps, ends.trunk, ends.lastTap, ?_, fun d => ?_, ends.flags,
    ends.notices, fun x flying goes => ?_⟩
  · rw [ends.intakes, funext (renewDeadline_eq ((s.acceptFrom m.src).setSettings t.settings))]
    rfl
  · have drop := drops d
    refine ⟨fun one => drop.stays (on d one), fun one => drop.goesOn (on d one), fun one => drop.enabled (on d one),
      fun zero => drop.disabled (off d zero), fun zero present x flying own => ?_, fun zero => drop.off (off d zero)⟩
    split
    next pauses => exact drop.ends (off d zero) present x flying own pauses
    next not_ => exact drop.stops (off d zero) present x flying own not_
  · have rest := flies x flying fun d own => (goes d own).imp_left (on d)
    have call := replans_iff s.settings t.settings
    refine ⟨rest.ex, fun none_ => ?_, rest.probe, rest.pollMode, rest.lastRound, rest.round, fun d agrees rests k => ?_⟩
    · exact rest.notices (by rw [← Bool.not_eq_true, show (s.acceptFrom m.src).settings = s.settings from rfl, call]; exact none_)
    · have stands : EnableStands (t.settings.dropMap.get d).enabled (s.drop d) := ⟨(enable d).trans agrees, rests.imp_left (on d)⟩
      have same := levelsTaken_accepted s m.src t.settings d k
      refine ⟨fun replans => ?_, fun none_ => ?_⟩
      · exact (rest.planned (call.mpr replans) d k stands).trans same.planPair
      · refine (rest.levelled ?_ d k stands).trans same.job
        rw [← Bool.not_eq_true, show (s.acceptFrom m.src).settings = s.settings from rfl, call]
        exact none_

end Sys2Proof.Machine
